-- ==== Sys2Proof/Word.lean ====
section
/-! DEFINITION. The word types of the Merusk 960 (spec/00_scope.md R5, R6; spec/07_registers_and_language.md R116). -/

namespace Sys2Proof

/-- One byte of memory. -/
abbrev Byte := BitVec 8

/-- A 64-bit scalar register's content, and a Juden instruction word (R116, R135). -/
abbrev Word := BitVec 64

/-- A 128-bit capability or a 16-byte access (R120). -/
abbrev Quad := BitVec 128

/-- A vector register, a line of memory, a forwarding-port entry: 1024 bits (R6, R116). -/
abbrev Vec := BitVec 1024

/-- The index of one of the 256 tiles (R11). -/
abbrev TileId := BitVec 8

/-- The index of one of the 64 contexts of the well-house (R332). -/
abbrev CtxId := BitVec 6

end Sys2Proof
end

