-- ==== Sys2Proof/Config.lean ====
section
/-! DEFINITION. What an implementation fixes and the spec does not state, and the free values: constants with no body,
of which nothing can be proved but that they are what they are (notes/assumptions name each). -/

namespace Sys2Proof.Config

/-- Does an Ed448 signature of the manufacturing key verify over the given bytes (spec/25_edges.md R397)? The spec names
the public standard and prints neither the algorithm nor the key (DESIGN CHOICE, log entry 8). -/
opaque recordSignatureGood : List Byte → List Byte → Bool

/-- Does an Ed448 signature of the firmware key verify over the given header bytes (R398)? -/
opaque imageSignatureGood : List Byte → List Byte → Bool

/-- The PUF key reconstructed from the record's helper data (R396, R397): 32 bytes. -/
opaque pufKey : List Byte → Vector Byte 32

/-- The public half of the attestation key, 57 bytes, from its private half (R400). -/
opaque attestationPublic : List Byte → Vector Byte 57

/-- The Ed448 signature of the attestation key over a report, 114 bytes (R400). -/
opaque attestationSign : List Byte → List Byte → Vector Byte 114

/-- The word offset, in the definition of a catalogue routine, of the `yield` at which the native path may be
interrupted, by routine number (R260, R263). The definitions are not printed; that of `tile.ldscale` is 58 (R387) and is
not taken from here (DESIGN CHOICE, log entry 19). -/
opaque yieldWord : Nat → BitVec 16

/-- The word offset, in the definition of a catalogue routine, of the `sys 0x10` that raises a check, by routine number
and the check's place in the order of the routine's checks (R265); and of its `stq` of the scratch header. The
definitions are not printed (DESIGN CHOICE, log entry 19). -/
opaque checkWord : Nat → Nat → BitVec 16
opaque headerWord : Nat → BitVec 16

/-- The 16 header bytes of a data packet, and the 32 bytes of a signal packet, from what the packet says (R407 gives
their lengths and not their content): chip, job tag, sequence number, tile and kind, as numbers. -/
opaque dataHeader : List Nat → Vector Byte 16
opaque signalPacket : List Nat → Vector Byte 32

/-- What the first 16 bytes of a packet say, and what the 32 bytes of a signal packet say, as numbers: source chip, job
tag, sequence number, tile, kind, and then a line's number, or a slot or an offset with an amount (R407). -/
opaque headerSays : Vector Byte 16 → Vector Nat 6
opaque signalSays : Vector Byte 32 → Vector Nat 7

/-- REMAIN of the deadline status word where the time left does not fit its 62 bits, by that time: the spec states no
value there (R222). -/
opaque farRemain : Word → BitVec 62

/-- A value that the spec leaves open for the duration of one step, by the step counter of the state (`State.fresh`;
DESIGN CHOICE, log entry 5). -/
opaque freeWord : Nat → Word

end Sys2Proof.Config
end

