-- ==== Sys2Proof/Syntax.lean ====
section
/-! DEFINITION. The syntax of the machine's steps: one constructor of `Instr` per row of spec/opcode_table.json. A
Juden constructor carries its predicate and its typed operands (spec/08_encodings.md R135 to R148); an event constructor
carries what the event brings from outside the machine, or which agent acts. -/

namespace Sys2Proof

/-- A scalar register s0 .. s63 (R140). -/
abbrev SReg := BitVec 6
/-- A vector register v0 .. v31 (R140). -/
abbrev VReg := BitVec 5
/-- A predicate register p0 .. p15 (R140). -/
abbrev PReg := BitVec 4
/-- A control register number (R124). -/
abbrev Ctl := BitVec 6
/-- A number-format code (R46). -/
abbrev Fmt := BitVec 4

/-- The predicate field of an instruction: it executes when p[reg] xor neg is true (R118). -/
structure Pred where
  reg : PReg
  neg : Bool
deriving DecidableEq, Repr

/-- A capability operand: c0 .. c31 or cpv (R140). -/
inductive CapReg where
  | c (n : BitVec 5)
  | cpv
deriving DecidableEq, Repr

/-- An operand B of class 0b01 marked "vB or sB" (R137). -/
inductive VOrS where
  | v (r : VReg)
  | s (r : SReg)
deriving DecidableEq, Repr

/-- Element widths (R141). -/
inductive Width where
  | w8 | w16 | w32 | w64
deriving DecidableEq, Repr

/-- Rounding-mode field values (R54). -/
inductive Rm where
  | dyn | rne | rtz | rdn | rup | rna
deriving DecidableEq, Repr

/-- Scopes (R141, R200). -/
inductive Scope where
  | lane | stream | tile | grove | chip | domain | system
deriving DecidableEq, Repr

/-- Hints: they govern timing only (R132). -/
inductive Hint where
  | hn | hr | hl | hs
deriving DecidableEq, Repr

/-- Integer comparison conditions (R144). -/
inductive Cond where
  | eq | ne | lt | ge | le | gt | ltu | geu | leu | gtu
deriving DecidableEq, Repr

/-- FP32 comparison conditions (R144). -/
inductive FCond where
  | eq | ne | lt | ge | le | gt | un | ord
deriving DecidableEq, Repr

/-- Sign operations of `fsgn` and `vfsgn` (R144). -/
inductive SgnOp where
  | copy | neg | xor
deriving DecidableEq, Repr

/-- Fields of a capability that `cget` reads (R144). -/
inductive CapField where
  | base | stride | rows | rowbytes | fmt | perm | swz | tag
deriving DecidableEq, Repr

/-- Integer reductions (R144). -/
inductive RedOp where
  | add | min | max | minu | maxu | and | or | xor
deriving DecidableEq, Repr

/-- FP32 reductions (R144). -/
inductive FRedOp where
  | add | min | max | amax
deriving DecidableEq, Repr

/-- Integer scans (R144). -/
inductive ScanOp where
  | add | min | max
deriving DecidableEq, Repr

/-- FP32 scans (R144). -/
inductive FScanOp where
  | add | max
deriving DecidableEq, Repr

/-- Atomic operations of `amo` (R144). -/
inductive AmoOp where
  | swap | add | and | or | xor | min | max | minu | maxu
deriving DecidableEq, Repr

/-- Atomic operations of `vamo` (R144). -/
inductive VAmoOp where
  | or | add
deriving DecidableEq, Repr

/-- Forwarding ports fwn, fwe, fws, fww (R140). -/
inductive Port where
  | north | east | south | west
deriving DecidableEq, Repr

/-- Timelines tlp0 .. tlp3, tlm, tlw (R140). -/
inductive Timeline where
  | tlp (n : BitVec 2)
  | tlm
  | tlw
deriving DecidableEq, Repr

/-- A memory operand [cA + sB + e] (R139). -/
structure MemS where
  cap  : CapReg
  idx  : SReg
  off  : BitVec 13
  hint : Hint
deriving DecidableEq, Repr

/-- A memory operand [cA + vB + e], one offset per lane (R139). -/
structure MemV where
  cap  : CapReg
  idx  : VReg
  off  : BitVec 13
  hint : Hint
deriving DecidableEq, Repr

/-- The commands that `nx.mpush` pushes (R292). -/
inductive PushOp where
  | wload | wloadc | decode | swap | act | zero | drain
deriving DecidableEq, Repr

/-- The element functions of `nx.vfn` and of the `ew` routines (R275, R291). -/
inductive ElemFn where
  | exp | sigmoid | silu | gelu | rsqrt
deriving DecidableEq, Repr

/-- The agent that makes an access to a device register (R24, R93, R339, R395, R405). -/
inductive Agent where
  | user (t : TileId)
  | firmware (t : TileId)
  | host
  | pcie
deriving DecidableEq, Repr

/-- Which hardware context of a tile a stream step belongs to (R17). -/
inductive Side where
  | user | firmware
deriving DecidableEq, Repr

/-- A packet that a peer chip sends over the domain (R94, R109, R215, R406, R407): it names its source chip, its job
tag, the end-to-end sequence number of its pair of chips (R408), its target tile and what it asks. -/
inductive PeerBody where
  /-- A data line with its 128 bytes (R94). -/
  | line (line : BitVec 16) (data : Vec)
  /-- A decrement of the inbound transfer count of the barrier object at 16-byte slot `slot` (R109). -/
  | decrement (slot : BitVec 19)
  /-- A signal post: one add of `amount` at cistern offset `off`, of four or eight bytes (R215). -/
  | signal (off : BitVec 23) (amount : Word)
deriving DecidableEq, Repr

structure PeerPacket where
  chip : BitVec 8
  job  : BitVec 16
  seq  : BitVec 64
  tile : TileId
  body : PeerBody
deriving DecidableEq, Repr

/-- The receiver's answer to a peer packet (R94, R110, R406). -/
inductive PeerAnswer where
  | accepted
  | grantRefused
  | tileUnavailable
  | underflow
  | poisoned
deriving DecidableEq, Repr

/-- The privilege levels of a host core (R395). -/
inductive HostPriv where
  | machine | supervisor | user
deriving DecidableEq, Repr

/-- The control and status registers of a host core that a trap or its translation uses (R395; PRESUMED, log entry 27). -/
inductive HostCsr where
  | satp | mstatus | medeleg | mtvec | mepc | mcause | mtval | stvec | sepc | scause | stval
deriving DecidableEq, Repr

/-- What an instruction of a host core does to the core's own state (DESIGN CHOICE, log entry 27): a register, an
exception of its own, such as `ecall` or an illegal instruction, with its code and its value, or a return from a trap. -/
inductive HostEffect where
  | x (rd : BitVec 5) (v : Word)
  | f (rd : BitVec 5) (v : Word)
  | fcsr (v : BitVec 32)
  | pc (v : Word)
  | csr (c : HostCsr) (v : Word)
  | raise (code : BitVec 6) (value : Word)
  | mret
  | sret
deriving DecidableEq, Repr

/-- What a host core does in one step (R395): an access with its destination register, a fence, SFENCE.VMA for one
virtual address or all and for one address space or all, or a change of its registers. -/
inductive HostOp where
  | load (width : Width) (signed : Bool) (rd : BitVec 5)
  | store (width : Width) (v : Word)
  | amo (op : AmoOp) (width : Width) (rd : BitVec 5) (v : Word)
  | cas (width : Width) (rd : BitVec 5) (old new : Word)
  | loadReserved (width : Width) (rd : BitVec 5)
  | storeConditional (width : Width) (rd : BitVec 5) (v : Word)
  | fence
  | sfenceVma (va : Option Word) (asid : Option (BitVec 16))
  | own (e : HostEffect)
deriving DecidableEq, Repr

/-- A host core with the address of its access (R395); an operation on the core's own registers reads no address. -/
structure HostPort where
  core : BitVec 4
  addr : Word
deriving DecidableEq, Repr

/-- A handler's request to resume the stream of a tile (R379): `drop` asks the runtime to drop the native section of the
function at which the stream stands (R308). -/
structure ResumeRequest where
  tile : TileId
  drop : Bool
deriving DecidableEq, Repr

/-- A request of a PCIe agent (R404, R405). -/
inductive PcieOp where
  | read (n : Nat)
  | write (bytes : List Byte)
deriving DecidableEq, Repr

/-- The translation caches of a tile (R33). -/
inductive CacheSite where
  | first | second | stream (k : BitVec 3) | walk
deriving DecidableEq, Repr

/-- The tile SRAMs in which an error is detected (R98, R381). -/
inductive SramSite where
  /-- A line of the cistern. -/
  | cisternLine (line : BitVec 16)
  /-- Another SRAM of the tile: register files, accumulator memory, queues, decoder tables. -/
  | tileState
  /-- A line of high-bandwidth memory, by physical address divided by 128. -/
  | hbmLine (line : Nat)
  /-- An entry of a translation cache or of the walk cache, by its place in it. -/
  | translation (c : CacheSite) (entry : Nat)
deriving DecidableEq, Repr

/-- A master clock as its announcements describe it: its grandmaster in the order in which the default profile compares,
the steps from the grandmaster, and the identity of the port that announces it (R403; PRESUMED, log entry 55). -/
structure PtpMaster where
  priority1 : BitVec 8
  clockClass : BitVec 8
  accuracy  : BitVec 8
  variance  : BitVec 16
  priority2 : BitVec 8
  identity  : BitVec 64
  steps     : BitVec 16
  sender    : BitVec 80
deriving DecidableEq, Repr

/-- What the timing unit takes from a Precision Time Protocol message (R353, R403): its master, device time less the
master's in nanoseconds, and the rate correction in units of 10 ppb. -/
structure PtpMessage where
  master : PtpMaster
  offset : Int
  rate   : Int
deriving DecidableEq, Repr

/-- What arrives at a timing input (R403): an edge of the pulse-per-second input, with device time's offset from it, or
the rate that the 10 MHz reference shows. -/
inductive TimingInput where
  | pulse (offset : Int)
  | reference (rate : Int)
deriving DecidableEq, Repr

/-- A frame that arrives at an Ethernet port (R402): its destination, its bytes without the frame check sequence, and
the timing message that it carries, if it does. -/
structure Frame where
  dest    : BitVec 48
  bytes   : List Byte
  fcsGood : Bool
  ptp     : Option PtpMessage
deriving DecidableEq, Repr

/-- A firmware image as the network delivers it (R398): the fields of its header, the signature and the body; `table` is
the substitution table that the body carries, the hashes of the 32 catalogue routines in the order of R256 (DEDUCED, log
entry 56). -/
structure Image where
  ident     : BitVec 32
  imgver    : BitVec 16
  svn       : BitVec 32
  length    : BitVec 64
  bodyHash  : Vector Byte 32
  signature : List Byte
  body      : List Byte
  table     : List (BitVec 128)
  /-- The entry that the image gives the tiles' firmware contexts (R349). -/
  fwEntry   : BitVec 64
  /-- The address in high-bandwidth memory that the boot unit loads the body at. -/
  place     : BitVec 40
deriving DecidableEq, Repr

/-- The places that the loader gives the streams of a context on a tile: the virtual base of the private area (R329) and
the physical address of the save area (R377). -/
structure TileArea where
  tile : TileId
  base : BitVec 48
  save : Word
deriving DecidableEq, Repr

/-- What the loader fixes for a context beside the code object: the translation root (R26, R332), P (R329), the values
of `SPBASE` and `PMBASE` (R298), the number of entries that the position map has room for, the job's translation cache
(R302) by address and size, the page frames that the loader may map, the areas by tile, the members of route tags
(R214), and the functions of the object as byte offsets of their first words: no section of R304 lists them (DESIGN
CHOICE, log entries 28 and 42). -/
structure LoadSetup where
  root   : Word
  size   : Nat
  spbase : Word
  pmbase : Word
  pmsize : Nat
  cache  : Word
  cacheSize : Nat
  frames : List (BitVec 44)
  areas  : List TileArea
  tags   : List (BitVec 3 × List TileId)
  procs  : List Word
deriving DecidableEq, Repr

/-- The machine's steps: the Juden instructions (R145 to R148), the native-only operations (R291), the firmware calls
(R309), the routines of the catalogue (R268 to R283), the matrix and decoder commands (R231 to R241), and the events of
the other agents, one constructor per row of spec/opcode_table.json. -/
inductive Instr where
  -- class 0b00: scalar integer (R145)
  | add (g : Pred) (w : Width) (d a b : SReg)
  | sub (g : Pred) (w : Width) (d a b : SReg)
  | mul (g : Pred) (w : Width) (d a b : SReg)
  | mulh (g : Pred) (w : Width) (d a b : SReg)
  | mulhu (g : Pred) (w : Width) (d a b : SReg)
  | div (g : Pred) (w : Width) (d a b : SReg)
  | divu (g : Pred) (w : Width) (d a b : SReg)
  | rem (g : Pred) (w : Width) (d a b : SReg)
  | remu (g : Pred) (w : Width) (d a b : SReg)
  | and (g : Pred) (w : Width) (d a b : SReg)
  | or (g : Pred) (w : Width) (d a b : SReg)
  | xor (g : Pred) (w : Width) (d a b : SReg)
  | sll (g : Pred) (w : Width) (d a b : SReg)
  | srl (g : Pred) (w : Width) (d a b : SReg)
  | sra (g : Pred) (w : Width) (d a b : SReg)
  | min (g : Pred) (w : Width) (d a b : SReg)
  | max (g : Pred) (w : Width) (d a b : SReg)
  | minu (g : Pred) (w : Width) (d a b : SReg)
  | maxu (g : Pred) (w : Width) (d a b : SReg)
  | clz (g : Pred) (w : Width) (d a : SReg)
  | ctz (g : Pred) (w : Width) (d a : SReg)
  | popc (g : Pred) (w : Width) (d a : SReg)
  | brev (g : Pred) (w : Width) (d a : SReg)
  | bswap (g : Pred) (w : Width) (d a : SReg)
  | bfx (g : Pred) (w : Width) (d a b c : SReg)
  | bfxu (g : Pred) (w : Width) (d a b c : SReg)
  | bfi (g : Pred) (w : Width) (d a b c : SReg)
  | cmp (g : Pred) (w : Width) (cc : Cond) (d : PReg) (a b : SReg)
  | sel (g : Pred) (d a b : SReg) (c : PReg)
  | addi (g : Pred) (d a : SReg) (imm : BitVec 37)
  | andi (g : Pred) (d a : SReg) (imm : BitVec 37)
  | ori (g : Pred) (d a : SReg) (imm : BitVec 37)
  | xori (g : Pred) (d a : SReg) (imm : BitVec 37)
  | slli (g : Pred) (d a : SReg) (imm : BitVec 6)
  | srli (g : Pred) (d a : SReg) (imm : BitVec 6)
  | srai (g : Pred) (d a : SReg) (imm : BitVec 6)
  | muli (g : Pred) (d a : SReg) (imm : BitVec 37)
  | li (g : Pred) (d : SReg) (imm : BitVec 37)
  | lhi (g : Pred) (d a : SReg) (imm : BitVec 27)
  -- class 0b00: scalar floating point
  | fadd (g : Pred) (rm : Rm) (d a b : SReg)
  | fsub (g : Pred) (rm : Rm) (d a b : SReg)
  | fmul (g : Pred) (rm : Rm) (d a b : SReg)
  | fdiv (g : Pred) (rm : Rm) (d a b : SReg)
  | fsqrt (g : Pred) (rm : Rm) (d a : SReg)
  | fma (g : Pred) (rm : Rm) (d a b c : SReg)
  | fmin (g : Pred) (d a b : SReg)
  | fmax (g : Pred) (d a b : SReg)
  | fcmp (g : Pred) (cc : FCond) (d : PReg) (a b : SReg)
  | fcvt (g : Pred) (rm : Rm) (sat : Bool) (fa fb : Fmt) (d a : SReg)
  | fcvti (g : Pred) (w : Width) (rm : Rm) (sat : Bool) (d a : SReg)
  | icvtf (g : Pred) (w : Width) (rm : Rm) (d a : SReg)
  | fclass (g : Pred) (d a : SReg)
  | fsgn (g : Pred) (op : SgnOp) (d a b : SReg)
  -- class 0b00: predicates and capabilities
  | pand (g : Pred) (d a b : PReg)
  | por (g : Pred) (d a b : PReg)
  | pxor (g : Pred) (d a b : PReg)
  | pandn (g : Pred) (d a b : PReg)
  | ptest (g : Pred) (d : PReg) (a : SReg)
  | pget (g : Pred) (d : SReg) (a : PReg)
  | cmov (g : Pred) (d a : CapReg)
  | cnrow (g : Pred) (d a : CapReg) (b c : SReg)
  | cnbyte (g : Pred) (d a : CapReg) (b c : SReg)
  | cnstride (g : Pred) (d a : CapReg) (b : SReg)
  | cnperm (g : Pred) (d a : CapReg) (perm : BitVec 3)
  | cfmt (g : Pred) (d a : CapReg) (fa : Fmt)
  | cget (g : Pred) (f : CapField) (d : SReg) (a : CapReg)
  | ctab (g : Pred) (d : CapReg) (imm : BitVec 37)
  -- class 0b01: vector integer (R146)
  | vadd (g : Pred) (w : Width) (sat : Bool) (d a : VReg) (b : VOrS)
  | vsub (g : Pred) (w : Width) (sat : Bool) (d a : VReg) (b : VOrS)
  | vmul (g : Pred) (w : Width) (d a : VReg) (b : VOrS)
  | vmulh (g : Pred) (w : Width) (d a : VReg) (b : VOrS)
  | vmin (g : Pred) (w : Width) (d a : VReg) (b : VOrS)
  | vmax (g : Pred) (w : Width) (d a : VReg) (b : VOrS)
  | vminu (g : Pred) (w : Width) (d a : VReg) (b : VOrS)
  | vmaxu (g : Pred) (w : Width) (d a : VReg) (b : VOrS)
  | vand (g : Pred) (w : Width) (d a : VReg) (b : VOrS)
  | vor (g : Pred) (w : Width) (d a : VReg) (b : VOrS)
  | vxor (g : Pred) (w : Width) (d a : VReg) (b : VOrS)
  | vsll (g : Pred) (w : Width) (d a : VReg) (b : VOrS)
  | vsrl (g : Pred) (w : Width) (d a : VReg) (b : VOrS)
  | vsra (g : Pred) (w : Width) (d a : VReg) (b : VOrS)
  | vabs (g : Pred) (w : Width) (d a : VReg)
  | vcmp (g : Pred) (w : Width) (cc : Cond) (d a : VReg) (b : VOrS)
  | vsel (g : Pred) (w : Width) (d a : VReg) (b : VOrS) (c : VReg)
  -- class 0b01: vector floating point
  | vfadd (g : Pred) (rm : Rm) (d a : VReg) (b : VOrS)
  | vfsub (g : Pred) (rm : Rm) (d a : VReg) (b : VOrS)
  | vfmul (g : Pred) (rm : Rm) (d a : VReg) (b : VOrS)
  | vfdiv (g : Pred) (rm : Rm) (d a : VReg) (b : VOrS)
  | vfma (g : Pred) (rm : Rm) (d a : VReg) (b : VOrS) (c : VReg)
  | vfsqrt (g : Pred) (rm : Rm) (d a : VReg)
  | vfmin (g : Pred) (d a : VReg) (b : VOrS)
  | vfmax (g : Pred) (d a : VReg) (b : VOrS)
  | vfcmp (g : Pred) (cc : FCond) (d a : VReg) (b : VOrS)
  | vfsgn (g : Pred) (op : SgnOp) (d a : VReg) (b : VOrS)
  | vcvt (g : Pred) (rm : Rm) (sat : Bool) (fa fb : Fmt) (d a : VReg)
  | vfdot (g : Pred) (fa : Fmt) (d a b : VReg) (c : SReg)
  -- class 0b01: permutes, reductions, scans
  | vperm (g : Pred) (w : Width) (d a b : VReg)
  | vzip (g : Pred) (w : Width) (d a b : VReg)
  | vunzip (g : Pred) (w : Width) (d a b : VReg)
  | vslide (g : Pred) (w : Width) (d a : VReg) (b : SReg)
  | vbcast (g : Pred) (w : Width) (d a : VReg) (b : SReg)
  | vext (g : Pred) (w : Width) (d : SReg) (a : VReg) (b : SReg)
  | vins (g : Pred) (w : Width) (d : VReg) (a b : SReg)
  | viota (g : Pred) (w : Width) (d : VReg)
  | vmov (g : Pred) (w : Width) (d : VReg) (b : VOrS)
  | vred (g : Pred) (w : Width) (op : RedOp) (d : SReg) (a : VReg)
  | vfred (g : Pred) (rm : Rm) (op : FRedOp) (d : SReg) (a : VReg)
  | vscan (g : Pred) (w : Width) (op : ScanOp) (d a : VReg)
  | vfscan (g : Pred) (rm : Rm) (op : FScanOp) (d a : VReg)
  | vfaffine (g : Pred) (rm : Rm) (d a b : VReg)
  -- class 0b01: vector memory
  | vld (g : Pred) (d : VReg) (m : MemS)
  | vst (g : Pred) (m : MemS) (d : VReg)
  | vgather (g : Pred) (w : Width) (d : VReg) (m : MemV)
  | vscatter (g : Pred) (w : Width) (m : MemV) (d : VReg)
  | vamo (g : Pred) (w : Width) (op : VAmoOp) (scope : Scope) (m : MemV) (d : VReg)
  -- class 0b10: memory, synchronisation, engines (R147)
  | ld (g : Pred) (w : Width) (d : SReg) (m : MemS)
  | ldu (g : Pred) (w : Width) (d : SReg) (m : MemS)
  | st (g : Pred) (w : Width) (m : MemS) (d : SReg)
  | ldq (g : Pred) (d : BitVec 5) (m : MemS)
  | stq (g : Pred) (m : MemS) (d : BitVec 5)
  | ldacq (g : Pred) (w : Width) (scope : Scope) (d : SReg) (m : MemS)
  | strel (g : Pred) (w : Width) (scope : Scope) (m : MemS) (d : SReg)
  | amo (g : Pred) (w : Width) (op : AmoOp) (scope : Scope) (d : SReg) (m : MemS) (c : SReg)
  | amoCas (g : Pred) (w : Width) (scope : Scope) (d : SReg) (m : MemS) (c : SReg)
  | fence (g : Pred) (scope : Scope) (hint : Hint)
  | feClear (g : Pred) (m : MemS)
  | feSet (g : Pred) (m : MemS)
  | feWait (g : Pred) (m : MemS)
  | tlWait (g : Pred) (hint : Hint) (a : Timeline) (b : SReg)
  | tlRead (g : Pred) (d : SReg) (a : Timeline)
  | barInit (g : Pred) (m : MemS) (d : SReg)
  | barArrive (g : Pred) (m : MemS)
  | barWait (g : Pred) (m : MemS)
  | hbar (g : Pred) (tag : BitVec 3) (hint : Hint)
  | sigPost (g : Pred) (m : MemS) (d c : SReg)
  | sigWait (g : Pred) (m : MemS) (d : SReg)
  | fwdPut (g : Pred) (a : Port) (b : VReg)
  | fwdGet (g : Pred) (d : VReg) (a : Port)
  | pumpLd (g : Pred) (d : PReg) (a b : CapReg) (c : SReg)
  | pumpSt (g : Pred) (d : PReg) (a b : CapReg) (c : SReg)
  -- class 0b11: control, system, routines (R148)
  | br (g : Pred) (imm : BitVec 37)
  | call (g : Pred) (imm : BitVec 37)
  | loop (g : Pred) (a : SReg) (imm : BitVec 37)
  | jr (g : Pred) (a : SReg)
  | callr (g : Pred) (a : SReg)
  | ret (g : Pred)
  | rcall (g : Pred) (imm : BitVec 37)
  | yield (g : Pred)
  | rdv (g : Pred)
  | sys (g : Pred) (imm : BitVec 16)
  | trap (g : Pred) (imm : BitVec 16)
  | eret (g : Pred)
  | rdc (g : Pred) (d : SReg) (a : Ctl)
  | wrc (g : Pred) (d : Ctl) (a : SReg)
  | dlRead (g : Pred) (d : SReg)
  | vflagSet (g : Pred) (a : CapReg) (b : SReg)
  | nop (g : Pred)
  | bkpt (g : Pred)
  -- native-only operations (R291)
  | nxStub (g : Pred) (imm : BitVec 37)
  | nxRbeg (g : Pred) (imm : BitVec 37)
  | nxRend (g : Pred)
  | nxRyld (g : Pred) (imm : BitVec 37)
  | nxMpush (g : Pred) (op : PushOp) (a b : CapReg) (c : SReg)
  | nxDtab (g : Pred) (a : CapReg)
  | nxSpill (g : Pred) (a : VReg) (imm : BitVec 37)
  | nxFill (g : Pred) (d : VReg) (imm : BitVec 37)
  | nxVfn (g : Pred) (op : ElemFn) (d a : VReg)
  -- firmware calls (R309)
  | firmwareCallVersion (t : TileId)
  | sysRaiseCause (t : TileId)
  | sysTranslateFunction (t : TileId)
  | regionCommit (t : TileId)
  -- walker and shoot-downs
  | walk (t : TileId)
  | xinval (v : Word)
  | shootdownReceive (t : TileId)
  | shootdownAcknowledge (t : TileId)
  -- ends of waits
  | stallEnd (t : TileId) (side : Side)
  | feWaitEnd (t : TileId) (side : Side)
  | tlWaitEnd (t : TileId) (side : Side)
  | barWaitEnd (t : TileId) (side : Side)
  | sigWaitEnd (t : TileId) (side : Side)
  | forwardingWaitEnd (t : TileId) (side : Side)
  | hbarRelease (tag : BitVec 3)
  -- pumps, peers, signals
  | pumpUnit (t : TileId) (store : Bool) (k : BitVec 2)
  | pumpResume (t : TileId) (k : BitVec 2)
  | peerLineArrival (p : PeerPacket)
  | remoteBarrierDecrement (p : PeerPacket)
  | peerErrorResponse (seq : BitVec 64) (chip : BitVec 8) (answer : PeerAnswer)
  | sigPostPerform (t : TileId)
  -- matrix routines (R268)
  | mmWload
  | mmWdecode
  | mmSwap
  | mmAct
  | mmDrain
  | mmZero
  -- matrix and decoder commands
  | wload (t : TileId)
  | wloadc (t : TileId)
  | table (t : TileId)
  | decode (t : TileId)
  | swap (t : TileId)
  | act (t : TileId)
  | zero (t : TileId)
  | drain (t : TileId)
  | matrixResume (t : TileId)
  | decodeResume (t : TileId)
  -- the catalogue (R270 to R283)
  | tileCopy
  | tileTranspose
  | tileCvt
  | tileGather
  | tileScatter
  | tileLdscale
  | scanAdd
  | scanAffine
  | redSum
  | redMax
  | redAmax
  | scaleFold
  | ewExp
  | ewSigmoid
  | ewSilu
  | ewGelu
  | ewRsqrt
  | normRms
  | normLayer
  | softmaxRow
  | ssmChunk
  | hashMul
  | decodeSeg
  | accAddrow
  | quantRow
  | topkRow
  -- the well-house
  | submit (cx : CtxId) (v : Word)
  | nodeAdmission (cx : CtxId)
  | nodeDispatch (serial : Nat)
  | overlaySwap (t : TileId)
  | nodeCompletion (serial : Nat)
  | evset (cx : CtxId) (w : BitVec 2) (v : Word)
  | evclr (cx : CtxId) (w : BitVec 2) (v : Word)
  | hold (cx : CtxId) (v : Word)
  | preemption (cx : CtxId) (t : TileId)
  | gangSlotEdge
  | groupTableWrite (e : BitVec 8) (dbl : BitVec 6) (v : Word)
  | grantTableWrite (agent : Agent) (e : BitVec 6) (v : Quad)
  | tileReset (t : TileId)
  | tileResetRelease (t : TileId)
  | tileResetExit (t : TileId)
  -- deadlines
  | callTime (serial : Nat)
  | diversion (t : TileId)
  | hardStop (serial : Nat)
  -- traps and errors
  | engineFaultPassOn (t : TileId) (src : BitVec 4)
  | streamResume (r : ResumeRequest)
  | streamAbandon (t : TileId)
  | cfrtail (v : Word)
  | correctableError (t : TileId) (site : SramSite)
  | freezeEnd (t : TileId)
  | uncorrectableError (t : TileId) (site : SramSite)
  -- device time
  | ptpMessage (port : BitVec 2) (m : PtpMessage)
  | pulsePerSecondOutput
  | pulsePerSecondInput (x : TimingInput)
  -- boot and attestation
  | deviceReset (record : List Byte)
  | bootImageFetch (image : Option Image)
  | bootRetry
  | attreq (v : Word)
  | attestationReport
  -- Ethernet
  | ettxtail (p : BitVec 2) (v : Word)
  | etrxtail (p : BitVec 2) (v : Word)
  | etctl (p : BitVec 2) (v : Word)
  | ethernetTransmit (p : BitVec 2)
  | ethernetReceive (p : BitVec 2) (f : Frame)
  -- links
  | linkTraining (p : BitVec 5) (switchPort : BitVec 8)
  | flitReceive (p : BitVec 5) (flit : List Byte)
  | negativeAcknowledgement (p : BitVec 5) (seq : BitVec 16)
  -- PCIe
  | pcieBar0Access (off : BitVec 33) (op : PcieOp)
  | pcieBar2Access (off : BitVec 36) (op : PcieOp)
  -- loading, power, device registers
  | codeObjectLoad (cx : CtxId) (base : BitVec 64) (obj : List Byte) (setup : LoadSetup)
  | thermalThrottle (step : Nat)
  | overheat
  | powerGate (t : TileId)
  | deviceRegisterWrite (agent : Agent) (a : BitVec 41) (width : Nat) (v : Quad)
  | illegalInstruction
  | hostCoreAccess (p : HostPort) (op : HostOp)
  | holdover
  | ethernetLinkChange (p : BitVec 2) (up : Bool)
  | networkTimeout
deriving DecidableEq, Repr

end Sys2Proof
end

