-- ==== Sys2Proof/WellFormed.lean ====
section
/-! DEFINITION. Which instructions are well formed: the predicate and operand values that an encoding can hold
(spec/08_encodings.md R140 to R144, spec/15_native_form.md R287, R291). -/

namespace Sys2Proof

/-- (p0) with the negate bit is unassigned (R143). -/
def Pred.ok (g : Pred) : Bool := !(g.reg == 0 && g.neg)

/-- The widths of scalar integer forms and of the atomics: w32, w64 (R145, R147). -/
def Width.scalar : Width → Bool
  | .w8 => false
  | .w16 => false
  | .w32 => true
  | .w64 => true

/-- The widths of vector lanes: w8, w16, w32 (R146). -/
def Width.lanes : Width → Bool
  | .w8 => true
  | .w16 => true
  | .w32 => true
  | .w64 => false

/-- Control registers 0x09 .. 0x0F are unassigned in every generation (R125, R140). -/
def ctlAssigned (n : Ctl) : Bool := !(9 ≤ n.toNat && n.toNat ≤ 15)

/-- Vector fields of a native slot name native vector registers 0 .. 15 (R287). -/
def nativeVector (v : VReg) : Bool := decide (v.toNat < 16)

/-- The instruction's operands are values that its form admits. An event is well formed whatever it carries: what its
rule refuses, its meaning refuses. -/
def Instr.wf : Instr → Bool
  | .add g w _ _ _ => g.ok && w.scalar
  | .sub g w _ _ _ => g.ok && w.scalar
  | .mul g w _ _ _ => g.ok && w.scalar
  | .mulh g w _ _ _ => g.ok && w.scalar
  | .mulhu g w _ _ _ => g.ok && w.scalar
  | .div g w _ _ _ => g.ok && w.scalar
  | .divu g w _ _ _ => g.ok && w.scalar
  | .rem g w _ _ _ => g.ok && w.scalar
  | .remu g w _ _ _ => g.ok && w.scalar
  | .and g w _ _ _ => g.ok && w.scalar
  | .or g w _ _ _ => g.ok && w.scalar
  | .xor g w _ _ _ => g.ok && w.scalar
  | .sll g w _ _ _ => g.ok && w.scalar
  | .srl g w _ _ _ => g.ok && w.scalar
  | .sra g w _ _ _ => g.ok && w.scalar
  | .min g w _ _ _ => g.ok && w.scalar
  | .max g w _ _ _ => g.ok && w.scalar
  | .minu g w _ _ _ => g.ok && w.scalar
  | .maxu g w _ _ _ => g.ok && w.scalar
  | .clz g w _ _ => g.ok && w.scalar
  | .ctz g w _ _ => g.ok && w.scalar
  | .popc g w _ _ => g.ok && w.scalar
  | .brev g w _ _ => g.ok && w.scalar
  | .bswap g w _ _ => g.ok && w.scalar
  | .bfx g w _ _ _ _ => g.ok && w.scalar
  | .bfxu g w _ _ _ _ => g.ok && w.scalar
  | .bfi g w _ _ _ _ => g.ok && w.scalar
  | .cmp g w _ _ _ _ => g.ok && w.scalar
  | .sel g _ _ _ _ => g.ok
  | .addi g _ _ _ => g.ok
  | .andi g _ _ _ => g.ok
  | .ori g _ _ _ => g.ok
  | .xori g _ _ _ => g.ok
  | .slli g _ _ _ => g.ok
  | .srli g _ _ _ => g.ok
  | .srai g _ _ _ => g.ok
  | .muli g _ _ _ => g.ok
  | .li g _ _ => g.ok
  | .lhi g _ _ _ => g.ok
  | .fadd g _ _ _ _ => g.ok
  | .fsub g _ _ _ _ => g.ok
  | .fmul g _ _ _ _ => g.ok
  | .fdiv g _ _ _ _ => g.ok
  | .fsqrt g _ _ _ => g.ok
  | .fma g _ _ _ _ _ => g.ok
  | .fmin g _ _ _ => g.ok
  | .fmax g _ _ _ => g.ok
  | .fcmp g _ _ _ _ => g.ok
  | .fcvt g _ _ _ _ _ _ => g.ok
  | .fcvti g w _ _ _ _ => g.ok && w.scalar
  | .icvtf g w _ _ _ => g.ok && w.scalar
  | .fclass g _ _ => g.ok
  | .fsgn g _ _ _ _ => g.ok
  | .pand g _ _ _ => g.ok
  | .por g _ _ _ => g.ok
  | .pxor g _ _ _ => g.ok
  | .pandn g _ _ _ => g.ok
  | .ptest g _ _ => g.ok
  | .pget g _ _ => g.ok
  | .cmov g _ _ => g.ok
  | .cnrow g _ _ _ _ => g.ok
  | .cnbyte g _ _ _ _ => g.ok
  | .cnstride g _ _ _ => g.ok
  | .cnperm g _ _ _ => g.ok
  | .cfmt g _ _ _ => g.ok
  | .cget g _ _ _ => g.ok
  | .ctab g _ _ => g.ok
  | .vadd g w _ _ _ _ => g.ok && w.lanes
  | .vsub g w _ _ _ _ => g.ok && w.lanes
  | .vmul g w _ _ _ => g.ok && w.lanes
  | .vmulh g w _ _ _ => g.ok && w.lanes
  | .vmin g w _ _ _ => g.ok && w.lanes
  | .vmax g w _ _ _ => g.ok && w.lanes
  | .vminu g w _ _ _ => g.ok && w.lanes
  | .vmaxu g w _ _ _ => g.ok && w.lanes
  | .vand g w _ _ _ => g.ok && w.lanes
  | .vor g w _ _ _ => g.ok && w.lanes
  | .vxor g w _ _ _ => g.ok && w.lanes
  | .vsll g w _ _ _ => g.ok && w.lanes
  | .vsrl g w _ _ _ => g.ok && w.lanes
  | .vsra g w _ _ _ => g.ok && w.lanes
  | .vabs g w _ _ => g.ok && w.lanes
  | .vcmp g w _ _ _ _ => g.ok && w.lanes
  | .vsel g w _ _ _ _ => g.ok && w.lanes
  | .vfadd g _ _ _ _ => g.ok
  | .vfsub g _ _ _ _ => g.ok
  | .vfmul g _ _ _ _ => g.ok
  | .vfdiv g _ _ _ _ => g.ok
  | .vfma g _ _ _ _ _ => g.ok
  | .vfsqrt g _ _ _ => g.ok
  | .vfmin g _ _ _ => g.ok
  | .vfmax g _ _ _ => g.ok
  | .vfcmp g _ _ _ _ => g.ok
  | .vcvt g _ _ _ _ _ _ => g.ok
  | .vfdot g _ _ _ _ _ => g.ok
  | .vfsgn g _ _ _ _ => g.ok
  | .vperm g w _ _ _ => g.ok && w.lanes
  | .vzip g w _ _ _ => g.ok && w.lanes
  | .vunzip g w _ _ _ => g.ok && w.lanes
  | .vslide g w _ _ _ => g.ok && w.lanes
  | .vbcast g w _ _ _ => g.ok && w.lanes
  | .vext g w _ _ _ => g.ok && w.lanes
  | .vins g w _ _ _ => g.ok && w.lanes
  | .viota g w _ => g.ok && w.lanes
  | .vmov g w _ _ => g.ok && w.lanes
  | .vred g w _ _ _ => g.ok && w.lanes
  | .vfred g _ _ _ _ => g.ok
  | .vscan g w _ _ _ => g.ok && w.lanes
  | .vfscan g _ _ _ _ => g.ok
  | .vfaffine g _ _ _ _ => g.ok
  | .vld g _ _ => g.ok
  | .vst g _ _ => g.ok
  | .vgather g w _ _ => g.ok && w.lanes
  | .vscatter g w _ _ => g.ok && w.lanes
  | .vamo g w _ _ _ _ => g.ok && w.lanes
  | .ld g _ _ _ => g.ok
  | .ldu g _ _ _ => g.ok
  | .st g _ _ _ => g.ok
  | .ldq g _ _ => g.ok
  | .stq g _ _ => g.ok
  | .ldacq g _ _ _ _ => g.ok
  | .strel g _ _ _ _ => g.ok
  | .amo g w _ _ _ _ _ => g.ok && w.scalar
  | .amoCas g w _ _ _ _ => g.ok && w.scalar
  | .fence g _ _ => g.ok
  | .feClear g _ => g.ok
  | .feSet g _ => g.ok
  | .feWait g _ => g.ok
  | .tlWait g _ _ _ => g.ok
  | .tlRead g _ _ => g.ok
  | .barInit g _ _ => g.ok
  | .barArrive g _ => g.ok
  | .barWait g _ => g.ok
  | .hbar g _ _ => g.ok
  | .sigPost g _ _ _ => g.ok
  | .sigWait g _ _ => g.ok
  | .fwdPut g _ _ => g.ok
  | .fwdGet g _ _ => g.ok
  | .pumpLd g _ _ _ _ => g.ok
  | .pumpSt g _ _ _ _ => g.ok
  | .br g _ => g.ok
  | .call g _ => g.ok
  | .loop g _ _ => g.ok
  | .jr g _ => g.ok
  | .callr g _ => g.ok
  | .ret g => g.ok
  | .rcall g _ => g.ok
  | .yield g => g.ok
  | .rdv g => g.ok
  | .sys g _ => g.ok
  | .trap g _ => g.ok
  | .eret g => g.ok
  | .rdc g _ a => g.ok && ctlAssigned a
  | .wrc g d _ => g.ok && ctlAssigned d
  | .dlRead g _ => g.ok
  | .vflagSet g _ _ => g.ok
  | .nop g => g.ok
  | .bkpt g => g.ok
  | .nxStub g imm => g.ok && decide (imm.toNat < 2 ^ 24)
  | .nxRbeg g _ => g.ok
  | .nxRend g => g.ok
  | .nxRyld g _ => g.ok
  | .nxMpush g _ _ _ _ => g.ok
  | .nxDtab g _ => g.ok
  | .nxSpill g a imm => g.ok && nativeVector a && decide (imm.toNat < 2 ^ 5)
  | .nxFill g d imm => g.ok && nativeVector d && decide (imm.toNat < 2 ^ 5)
  | .nxVfn g _ d a => g.ok && nativeVector d && nativeVector a
  | .firmwareCallVersion _ => true
  | .sysRaiseCause _ => true
  | .sysTranslateFunction _ => true
  | .regionCommit _ => true
  | .walk _ => true
  | .xinval _ => true
  | .shootdownReceive _ => true
  | .shootdownAcknowledge _ => true
  | .stallEnd _ _ => true
  | .feWaitEnd _ _ => true
  | .tlWaitEnd _ _ => true
  | .barWaitEnd _ _ => true
  | .sigWaitEnd _ _ => true
  | .forwardingWaitEnd _ _ => true
  | .hbarRelease _ => true
  | .pumpUnit _ _ _ => true
  | .pumpResume _ _ => true
  | .peerLineArrival _ => true
  | .remoteBarrierDecrement _ => true
  | .peerErrorResponse _ _ _ => true
  | .sigPostPerform _ => true
  | .mmWload => true
  | .mmWdecode => true
  | .mmSwap => true
  | .mmAct => true
  | .mmDrain => true
  | .mmZero => true
  | .wload _ => true
  | .wloadc _ => true
  | .table _ => true
  | .decode _ => true
  | .swap _ => true
  | .act _ => true
  | .zero _ => true
  | .drain _ => true
  | .matrixResume _ => true
  | .decodeResume _ => true
  | .tileCopy => true
  | .tileTranspose => true
  | .tileCvt => true
  | .tileGather => true
  | .tileScatter => true
  | .tileLdscale => true
  | .scanAdd => true
  | .scanAffine => true
  | .redSum => true
  | .redMax => true
  | .redAmax => true
  | .scaleFold => true
  | .ewExp => true
  | .ewSigmoid => true
  | .ewSilu => true
  | .ewGelu => true
  | .ewRsqrt => true
  | .normRms => true
  | .normLayer => true
  | .softmaxRow => true
  | .ssmChunk => true
  | .hashMul => true
  | .decodeSeg => true
  | .accAddrow => true
  | .quantRow => true
  | .topkRow => true
  | .submit _ _ => true
  | .nodeAdmission _ => true
  | .nodeDispatch _ => true
  | .overlaySwap _ => true
  | .nodeCompletion _ => true
  | .evset _ _ _ => true
  | .evclr _ _ _ => true
  | .hold _ _ => true
  | .preemption _ _ => true
  | .gangSlotEdge => true
  | .groupTableWrite _ _ _ => true
  | .grantTableWrite _ _ _ => true
  | .tileReset _ => true
  | .tileResetRelease _ => true
  | .tileResetExit _ => true
  | .callTime _ => true
  | .diversion _ => true
  | .hardStop _ => true
  | .engineFaultPassOn _ _ => true
  | .streamResume _ => true
  | .streamAbandon _ => true
  | .cfrtail _ => true
  | .correctableError _ _ => true
  | .freezeEnd _ => true
  | .uncorrectableError _ _ => true
  | .ptpMessage _ _ => true
  | .pulsePerSecondOutput => true
  | .pulsePerSecondInput _ => true
  | .deviceReset _ => true
  | .bootImageFetch _ => true
  | .bootRetry => true
  | .attreq _ => true
  | .attestationReport => true
  | .ettxtail _ _ => true
  | .etrxtail _ _ => true
  | .etctl _ _ => true
  | .ethernetTransmit _ => true
  | .ethernetReceive _ _ => true
  | .linkTraining _ _ => true
  | .flitReceive _ _ => true
  | .negativeAcknowledgement _ _ => true
  | .pcieBar0Access _ _ => true
  | .pcieBar2Access _ _ => true
  | .codeObjectLoad _ _ _ _ => true
  | .thermalThrottle _ => true
  | .overheat => true
  | .powerGate _ => true
  | .deviceRegisterWrite _ _ _ _ => true
  | .illegalInstruction => true
  | .hostCoreAccess _ _ => true
  | .holdover => true
  | .ethernetLinkChange _ _ => true
  | .networkTimeout => true

/-- A well-formed instruction. -/
abbrev WellFormed (i : Instr) : Prop := i.wf = true

end Sys2Proof
end

