-- ==== Sys2Proof/Decode.lean ====
section
/-! DEFINITION. Decoding a 64-bit word and encoding an instruction, both from one table of forms (spec/08_encodings.md
R135 to R151; the native-only operations from spec/15_native_form.md R291, R292). Decoding is total: a word either
names one instruction or is refused by the name of the condition of R150 that it meets. -/

namespace Sys2Proof

/-- W (R141). -/
def Width.bits : Width → BitVec 2
  | .w8 => 0
  | .w16 => 1
  | .w32 => 2
  | .w64 => 3

/-- The value that a field of Width names; a field that the checks refuse never gets here. -/
def Width.ofBits (x : BitVec 2) : Width :=
  match x.toNat with
  | 0 => .w8
  | 1 => .w16
  | 2 => .w32
  | _ => .w64

/-- RM (R54). -/
def Rm.bits : Rm → BitVec 3
  | .dyn => 0
  | .rne => 1
  | .rtz => 2
  | .rdn => 3
  | .rup => 4
  | .rna => 5

/-- The value that a field of Rm names; a field that the checks refuse never gets here. -/
def Rm.ofBits (x : BitVec 3) : Rm :=
  match x.toNat with
  | 0 => .dyn
  | 1 => .rne
  | 2 => .rtz
  | 3 => .rdn
  | 4 => .rup
  | _ => .rna

/-- SCOPE (R141). -/
def Scope.bits : Scope → BitVec 3
  | .lane => 0
  | .stream => 1
  | .tile => 2
  | .grove => 3
  | .chip => 4
  | .domain => 5
  | .system => 6

/-- The value that a field of Scope names; a field that the checks refuse never gets here. -/
def Scope.ofBits (x : BitVec 3) : Scope :=
  match x.toNat with
  | 0 => .lane
  | 1 => .stream
  | 2 => .tile
  | 3 => .grove
  | 4 => .chip
  | 5 => .domain
  | _ => .system

/-- HINT (R141). -/
def Hint.bits : Hint → BitVec 2
  | .hn => 0
  | .hr => 1
  | .hl => 2
  | .hs => 3

/-- The value that a field of Hint names; a field that the checks refuse never gets here. -/
def Hint.ofBits (x : BitVec 2) : Hint :=
  match x.toNat with
  | 0 => .hn
  | 1 => .hr
  | 2 => .hl
  | _ => .hs

/-- OP of `cmp` and `vcmp` (R144). -/
def Cond.bits : Cond → BitVec 5
  | .eq => 0
  | .ne => 1
  | .lt => 2
  | .ge => 3
  | .le => 4
  | .gt => 5
  | .ltu => 6
  | .geu => 7
  | .leu => 8
  | .gtu => 9

/-- The value that a field of Cond names; a field that the checks refuse never gets here. -/
def Cond.ofBits (x : BitVec 5) : Cond :=
  match x.toNat with
  | 0 => .eq
  | 1 => .ne
  | 2 => .lt
  | 3 => .ge
  | 4 => .le
  | 5 => .gt
  | 6 => .ltu
  | 7 => .geu
  | 8 => .leu
  | _ => .gtu

/-- OP of `fcmp` and `vfcmp` (R144). -/
def FCond.bits : FCond → BitVec 5
  | .eq => 0
  | .ne => 1
  | .lt => 2
  | .ge => 3
  | .le => 4
  | .gt => 5
  | .un => 10
  | .ord => 11

/-- The value that a field of FCond names; a field that the checks refuse never gets here. -/
def FCond.ofBits (x : BitVec 5) : FCond :=
  match x.toNat with
  | 0 => .eq
  | 1 => .ne
  | 2 => .lt
  | 3 => .ge
  | 4 => .le
  | 5 => .gt
  | 10 => .un
  | _ => .ord

/-- OP of SgnOp (R144). -/
def SgnOp.bits : SgnOp → BitVec 5
  | .copy => 0
  | .neg => 1
  | .xor => 2

/-- The value that a field of SgnOp names; a field that the checks refuse never gets here. -/
def SgnOp.ofBits (x : BitVec 5) : SgnOp :=
  match x.toNat with
  | 0 => .copy
  | 1 => .neg
  | _ => .xor

/-- OP of CapField (R144). -/
def CapField.bits : CapField → BitVec 5
  | .base => 0
  | .stride => 1
  | .rows => 2
  | .rowbytes => 3
  | .fmt => 4
  | .perm => 5
  | .swz => 6
  | .tag => 7

/-- The value that a field of CapField names; a field that the checks refuse never gets here. -/
def CapField.ofBits (x : BitVec 5) : CapField :=
  match x.toNat with
  | 0 => .base
  | 1 => .stride
  | 2 => .rows
  | 3 => .rowbytes
  | 4 => .fmt
  | 5 => .perm
  | 6 => .swz
  | _ => .tag

/-- OP of RedOp (R144). -/
def RedOp.bits : RedOp → BitVec 5
  | .add => 0
  | .min => 1
  | .max => 2
  | .minu => 3
  | .maxu => 4
  | .and => 5
  | .or => 6
  | .xor => 7

/-- The value that a field of RedOp names; a field that the checks refuse never gets here. -/
def RedOp.ofBits (x : BitVec 5) : RedOp :=
  match x.toNat with
  | 0 => .add
  | 1 => .min
  | 2 => .max
  | 3 => .minu
  | 4 => .maxu
  | 5 => .and
  | 6 => .or
  | _ => .xor

/-- OP of FRedOp (R144). -/
def FRedOp.bits : FRedOp → BitVec 5
  | .add => 0
  | .min => 1
  | .max => 2
  | .amax => 3

/-- The value that a field of FRedOp names; a field that the checks refuse never gets here. -/
def FRedOp.ofBits (x : BitVec 5) : FRedOp :=
  match x.toNat with
  | 0 => .add
  | 1 => .min
  | 2 => .max
  | _ => .amax

/-- OP of ScanOp (R144). -/
def ScanOp.bits : ScanOp → BitVec 5
  | .add => 0
  | .min => 1
  | .max => 2

/-- The value that a field of ScanOp names; a field that the checks refuse never gets here. -/
def ScanOp.ofBits (x : BitVec 5) : ScanOp :=
  match x.toNat with
  | 0 => .add
  | 1 => .min
  | _ => .max

/-- OP of FScanOp (R144). -/
def FScanOp.bits : FScanOp → BitVec 5
  | .add => 0
  | .max => 1

/-- The value that a field of FScanOp names; a field that the checks refuse never gets here. -/
def FScanOp.ofBits (x : BitVec 5) : FScanOp :=
  match x.toNat with
  | 0 => .add
  | _ => .max

/-- MOP of AmoOp (R144). -/
def AmoOp.bits : AmoOp → BitVec 4
  | .swap => 0
  | .add => 1
  | .and => 2
  | .or => 3
  | .xor => 4
  | .min => 5
  | .max => 6
  | .minu => 7
  | .maxu => 8

/-- The value that a field of AmoOp names; a field that the checks refuse never gets here. -/
def AmoOp.ofBits (x : BitVec 4) : AmoOp :=
  match x.toNat with
  | 0 => .swap
  | 1 => .add
  | 2 => .and
  | 3 => .or
  | 4 => .xor
  | 5 => .min
  | 6 => .max
  | 7 => .minu
  | _ => .maxu

/-- MOP of VAmoOp (R144). -/
def VAmoOp.bits : VAmoOp → BitVec 4
  | .or => 0
  | .add => 1

/-- The value that a field of VAmoOp names; a field that the checks refuse never gets here. -/
def VAmoOp.ofBits (x : BitVec 4) : VAmoOp :=
  match x.toNat with
  | 0 => .or
  | _ => .add

/-- OP of `nx.mpush` (R292). -/
def PushOp.bits : PushOp → BitVec 5
  | .wload => 0
  | .wloadc => 1
  | .decode => 2
  | .swap => 3
  | .act => 4
  | .zero => 5
  | .drain => 6

/-- The value that a field of PushOp names; a field that the checks refuse never gets here. -/
def PushOp.ofBits (x : BitVec 5) : PushOp :=
  match x.toNat with
  | 0 => .wload
  | 1 => .wloadc
  | 2 => .decode
  | 3 => .swap
  | 4 => .act
  | 5 => .zero
  | _ => .drain

/-- OP of `nx.vfn` (R291). -/
def ElemFn.bits : ElemFn → BitVec 5
  | .exp => 0
  | .sigmoid => 1
  | .silu => 2
  | .gelu => 3
  | .rsqrt => 4

/-- The value that a field of ElemFn names; a field that the checks refuse never gets here. -/
def ElemFn.ofBits (x : BitVec 5) : ElemFn :=
  match x.toNat with
  | 0 => .exp
  | 1 => .sigmoid
  | 2 => .silu
  | 3 => .gelu
  | _ => .rsqrt

/-- A port field (R140). -/
def Port.bits : Port → BitVec 6
  | .north => 0
  | .east => 1
  | .south => 2
  | .west => 3

/-- The value that a field of Port names; a field that the checks refuse never gets here. -/
def Port.ofBits (x : BitVec 6) : Port :=
  match x.toNat with
  | 0 => .north
  | 1 => .east
  | 2 => .south
  | _ => .west

/-- A timeline field (R140). -/
def Timeline.bits : Timeline → BitVec 6
  | .tlp n => n.setWidth 6
  | .tlm => 4
  | .tlw => 5

/-- The timeline that a field names; 6 .. 63 are refused before. -/
def Timeline.ofBits (x : BitVec 6) : Timeline :=
  match x.toNat with
  | 4 => .tlm
  | 5 => .tlw
  | _ => .tlp (x.setWidth 2)

/-- A capability field: 0 .. 31, and 32 for cpv (R140). -/
def CapReg.bits : CapReg → BitVec 6
  | .c n => n.setWidth 6
  | .cpv => 32

/-- The capability that a field names; 33 .. 63 are refused before. -/
def CapReg.ofBits (x : BitVec 6) : CapReg :=
  match x.toNat with
  | 32 => .cpv
  | _ => .c (x.setWidth 5)

/-- An operand B of class 0b01 marked "vB or sB": BC and B (R137). -/
def VOrS.bc : VOrS → BitVec 1
  | .v _ => 0
  | .s _ => 1

/-- Its field B. -/
def VOrS.bits : VOrS → BitVec 6
  | .v r => r.setWidth 6
  | .s r => r

/-- The operand that BC and B name (R137). -/
def VOrS.ofBits (bc : BitVec 1) (b : BitVec 6) : VOrS :=
  if bc = 0 then .v (b.setWidth 5) else .s b

/-- The kinds of register operand (R140); `absent` is a field that the form lacks, `vs` is B read by BC (R137). -/
inductive Kind where
  | absent | s | v | vs | p | c | cq | port | tl | ctl
deriving DecidableEq, Repr

/-- What BC must hold (R137, R142). -/
inductive BcRule where
  | zero | one | either
deriving DecidableEq, Repr

/-- The values that OP or MOP takes (R144): the form lacks the field, the values below a bound, or those of `fcmp`. -/
inductive OpRule where
  | absent | below (n : Nat) | fcmp
deriving DecidableEq, Repr

/-- The range of IMM: all 37 bits, or the values below 2 to a power (R145, R148). -/
inductive ImmRule where
  | all | bits (n : Nat)
deriving DecidableEq, Repr

/-- A register-format form: the kinds of its register fields and the modifier fields it has (R136, R145 to R148). -/
structure RegForm where
  d : Kind := .absent
  a : Kind := .absent
  b : Kind := .absent
  c : Kind := .absent
  bc : BcRule := .zero
  widths : List Width := []
  rm : Bool := false
  sat : Bool := false
  scope : Bool := false
  hint : Bool := false
  fa : Bool := false
  fb : Bool := false
  op : OpRule := .absent
deriving DecidableEq, Repr

/-- An immediate-format form (R138). -/
structure ImmForm where
  d : Kind := .absent
  a : Kind := .absent
  imm : ImmRule := .all
deriving DecidableEq, Repr

/-- A memory-format form (R139): A is the capability, B the index register. -/
structure MemForm where
  d : Kind := .absent
  b : Kind := .s
  c : Kind := .absent
  bc : BcRule := .zero
  widths : List Width := []
  mop : OpRule := .absent
  scope : Bool := false
deriving DecidableEq, Repr

/-- The format that a form reads bits 36:0 by (R135). -/
inductive Form where
  | reg (f : RegForm)
  | imm (f : ImmForm)
  | mem (f : MemForm)
deriving DecidableEq, Repr

/-- The condition of R150 that makes a word an unassigned encoding, in the order in which the decoder judges. -/
inductive Unassigned where
  /-- Order 1: the pair of CLASS and OPC. -/
  | opcode
  /-- Order 2: PRED = 0 with NEG = 1. -/
  | predicate
  /-- Order 3: a field that the form lacks is nonzero. -/
  | lackingField
  /-- Order 4: a register field outside its kind. -/
  | registerField
  /-- Order 5: a modifier field that the form does not list. -/
  | modifierField
  /-- Order 6: OP, MOP or IMM. -/
  | subOperation
deriving DecidableEq, Repr

/-- The forms of the opcode map, by name (R145 to R148, R291). -/
inductive Op where
  | add | sub | mul | mulh | mulhu | div | divu | rem | remu | and
  | or | xor | sll | srl | sra | min | max | minu | maxu | clz
  | ctz | popc | brev | bswap | bfx | bfxu | bfi | cmp | sel | addi
  | andi | ori | xori | slli | srli | srai | muli | li | lhi | fadd
  | fsub | fmul | fdiv | fsqrt | fma | fmin | fmax | fcmp | fcvt | fcvti
  | icvtf | fclass | fsgn | pand | por | pxor | pandn | ptest | pget | cmov
  | cnrow | cnbyte | cnstride | cnperm | cfmt | cget | ctab | vadd | vsub | vmul
  | vmulh | vmin | vmax | vminu | vmaxu | vand | vor | vxor | vsll | vsrl
  | vsra | vabs | vcmp | vsel | vfadd | vfsub | vfmul | vfdiv | vfma | vfsqrt
  | vfmin | vfmax | vfcmp | vcvt | vfdot | vfsgn | vperm | vzip | vunzip | vslide
  | vbcast | vext | vins | viota | vmov | vred | vfred | vscan | vfscan | vfaffine
  | vld | vst | vgather | vscatter | vamo | ld | ldu | st | ldq | stq
  | ldacq | strel | amo | amoCas | fence | feClear | feSet | feWait | tlWait | tlRead
  | barInit | barArrive | barWait | hbar | sigPost | sigWait | fwdPut | fwdGet | pumpLd | pumpSt
  | br | call | loop | jr | callr | ret | rcall | yield | rdv | sys
  | trap | eret | rdc | wrc | dlRead | vflagSet | nop | bkpt | nxStub | nxRbeg
  | nxRend | nxRyld | nxMpush | nxDtab | nxSpill | nxFill | nxVfn
deriving DecidableEq, Repr

/-- CLASS and OPC of a form, as one number: 256 × CLASS + OPC (R145 to R148, R291). -/
def Op.key : Op → Nat
  | .add => 0x000
  | .sub => 0x001
  | .mul => 0x002
  | .mulh => 0x003
  | .mulhu => 0x004
  | .div => 0x005
  | .divu => 0x006
  | .rem => 0x007
  | .remu => 0x008
  | .and => 0x009
  | .or => 0x00A
  | .xor => 0x00B
  | .sll => 0x00C
  | .srl => 0x00D
  | .sra => 0x00E
  | .min => 0x00F
  | .max => 0x010
  | .minu => 0x011
  | .maxu => 0x012
  | .clz => 0x013
  | .ctz => 0x014
  | .popc => 0x015
  | .brev => 0x016
  | .bswap => 0x017
  | .bfx => 0x018
  | .bfxu => 0x019
  | .bfi => 0x01A
  | .cmp => 0x01B
  | .sel => 0x01C
  | .addi => 0x040
  | .andi => 0x041
  | .ori => 0x042
  | .xori => 0x043
  | .slli => 0x044
  | .srli => 0x045
  | .srai => 0x046
  | .muli => 0x047
  | .li => 0x048
  | .lhi => 0x049
  | .fadd => 0x060
  | .fsub => 0x061
  | .fmul => 0x062
  | .fdiv => 0x063
  | .fsqrt => 0x064
  | .fma => 0x065
  | .fmin => 0x066
  | .fmax => 0x067
  | .fcmp => 0x068
  | .fcvt => 0x069
  | .fcvti => 0x06A
  | .icvtf => 0x06B
  | .fclass => 0x06C
  | .fsgn => 0x06D
  | .pand => 0x080
  | .por => 0x081
  | .pxor => 0x082
  | .pandn => 0x083
  | .ptest => 0x084
  | .pget => 0x085
  | .cmov => 0x0A0
  | .cnrow => 0x0A1
  | .cnbyte => 0x0A2
  | .cnstride => 0x0A3
  | .cnperm => 0x0A4
  | .cfmt => 0x0A5
  | .cget => 0x0A6
  | .ctab => 0x0A7
  | .vadd => 0x100
  | .vsub => 0x101
  | .vmul => 0x102
  | .vmulh => 0x103
  | .vmin => 0x104
  | .vmax => 0x105
  | .vminu => 0x106
  | .vmaxu => 0x107
  | .vand => 0x108
  | .vor => 0x109
  | .vxor => 0x10A
  | .vsll => 0x10B
  | .vsrl => 0x10C
  | .vsra => 0x10D
  | .vabs => 0x10E
  | .vcmp => 0x10F
  | .vsel => 0x110
  | .vfadd => 0x120
  | .vfsub => 0x121
  | .vfmul => 0x122
  | .vfdiv => 0x124
  | .vfma => 0x123
  | .vfsqrt => 0x125
  | .vfmin => 0x126
  | .vfmax => 0x127
  | .vfcmp => 0x128
  | .vcvt => 0x129
  | .vfdot => 0x12A
  | .vfsgn => 0x12B
  | .vperm => 0x140
  | .vzip => 0x142
  | .vunzip => 0x143
  | .vslide => 0x141
  | .vbcast => 0x144
  | .vext => 0x145
  | .vins => 0x146
  | .viota => 0x147
  | .vmov => 0x148
  | .vred => 0x150
  | .vfred => 0x151
  | .vscan => 0x152
  | .vfscan => 0x153
  | .vfaffine => 0x154
  | .vld => 0x160
  | .vst => 0x161
  | .vgather => 0x162
  | .vscatter => 0x163
  | .vamo => 0x164
  | .ld => 0x200
  | .ldu => 0x201
  | .st => 0x202
  | .ldq => 0x203
  | .stq => 0x204
  | .ldacq => 0x205
  | .strel => 0x206
  | .amo => 0x207
  | .amoCas => 0x208
  | .fence => 0x220
  | .feClear => 0x221
  | .feSet => 0x222
  | .feWait => 0x223
  | .tlWait => 0x224
  | .tlRead => 0x225
  | .barInit => 0x226
  | .barArrive => 0x227
  | .barWait => 0x228
  | .hbar => 0x229
  | .sigPost => 0x22A
  | .sigWait => 0x22B
  | .fwdPut => 0x22C
  | .fwdGet => 0x22D
  | .pumpLd => 0x240
  | .pumpSt => 0x241
  | .br => 0x300
  | .call => 0x301
  | .loop => 0x302
  | .jr => 0x308
  | .callr => 0x309
  | .ret => 0x30A
  | .rcall => 0x320
  | .yield => 0x321
  | .rdv => 0x322
  | .sys => 0x323
  | .trap => 0x324
  | .eret => 0x325
  | .rdc => 0x326
  | .wrc => 0x327
  | .dlRead => 0x328
  | .vflagSet => 0x329
  | .nop => 0x32A
  | .bkpt => 0x32B
  | .nxStub => 0x3F0
  | .nxRbeg => 0x3F1
  | .nxRend => 0x3F2
  | .nxRyld => 0x3F3
  | .nxMpush => 0x3F4
  | .nxDtab => 0x3F5
  | .nxSpill => 0x3F6
  | .nxFill => 0x3F7
  | .nxVfn => 0x3F8

/-- The form that CLASS and OPC select; the native-only forms are among them. -/
def Op.ofKey (k : Nat) : Option Op :=
  match k with
  | 0x000 => some .add
  | 0x001 => some .sub
  | 0x002 => some .mul
  | 0x003 => some .mulh
  | 0x004 => some .mulhu
  | 0x005 => some .div
  | 0x006 => some .divu
  | 0x007 => some .rem
  | 0x008 => some .remu
  | 0x009 => some .and
  | 0x00A => some .or
  | 0x00B => some .xor
  | 0x00C => some .sll
  | 0x00D => some .srl
  | 0x00E => some .sra
  | 0x00F => some .min
  | 0x010 => some .max
  | 0x011 => some .minu
  | 0x012 => some .maxu
  | 0x013 => some .clz
  | 0x014 => some .ctz
  | 0x015 => some .popc
  | 0x016 => some .brev
  | 0x017 => some .bswap
  | 0x018 => some .bfx
  | 0x019 => some .bfxu
  | 0x01A => some .bfi
  | 0x01B => some .cmp
  | 0x01C => some .sel
  | 0x040 => some .addi
  | 0x041 => some .andi
  | 0x042 => some .ori
  | 0x043 => some .xori
  | 0x044 => some .slli
  | 0x045 => some .srli
  | 0x046 => some .srai
  | 0x047 => some .muli
  | 0x048 => some .li
  | 0x049 => some .lhi
  | 0x060 => some .fadd
  | 0x061 => some .fsub
  | 0x062 => some .fmul
  | 0x063 => some .fdiv
  | 0x064 => some .fsqrt
  | 0x065 => some .fma
  | 0x066 => some .fmin
  | 0x067 => some .fmax
  | 0x068 => some .fcmp
  | 0x069 => some .fcvt
  | 0x06A => some .fcvti
  | 0x06B => some .icvtf
  | 0x06C => some .fclass
  | 0x06D => some .fsgn
  | 0x080 => some .pand
  | 0x081 => some .por
  | 0x082 => some .pxor
  | 0x083 => some .pandn
  | 0x084 => some .ptest
  | 0x085 => some .pget
  | 0x0A0 => some .cmov
  | 0x0A1 => some .cnrow
  | 0x0A2 => some .cnbyte
  | 0x0A3 => some .cnstride
  | 0x0A4 => some .cnperm
  | 0x0A5 => some .cfmt
  | 0x0A6 => some .cget
  | 0x0A7 => some .ctab
  | 0x100 => some .vadd
  | 0x101 => some .vsub
  | 0x102 => some .vmul
  | 0x103 => some .vmulh
  | 0x104 => some .vmin
  | 0x105 => some .vmax
  | 0x106 => some .vminu
  | 0x107 => some .vmaxu
  | 0x108 => some .vand
  | 0x109 => some .vor
  | 0x10A => some .vxor
  | 0x10B => some .vsll
  | 0x10C => some .vsrl
  | 0x10D => some .vsra
  | 0x10E => some .vabs
  | 0x10F => some .vcmp
  | 0x110 => some .vsel
  | 0x120 => some .vfadd
  | 0x121 => some .vfsub
  | 0x122 => some .vfmul
  | 0x124 => some .vfdiv
  | 0x123 => some .vfma
  | 0x125 => some .vfsqrt
  | 0x126 => some .vfmin
  | 0x127 => some .vfmax
  | 0x128 => some .vfcmp
  | 0x129 => some .vcvt
  | 0x12A => some .vfdot
  | 0x12B => some .vfsgn
  | 0x140 => some .vperm
  | 0x142 => some .vzip
  | 0x143 => some .vunzip
  | 0x141 => some .vslide
  | 0x144 => some .vbcast
  | 0x145 => some .vext
  | 0x146 => some .vins
  | 0x147 => some .viota
  | 0x148 => some .vmov
  | 0x150 => some .vred
  | 0x151 => some .vfred
  | 0x152 => some .vscan
  | 0x153 => some .vfscan
  | 0x154 => some .vfaffine
  | 0x160 => some .vld
  | 0x161 => some .vst
  | 0x162 => some .vgather
  | 0x163 => some .vscatter
  | 0x164 => some .vamo
  | 0x200 => some .ld
  | 0x201 => some .ldu
  | 0x202 => some .st
  | 0x203 => some .ldq
  | 0x204 => some .stq
  | 0x205 => some .ldacq
  | 0x206 => some .strel
  | 0x207 => some .amo
  | 0x208 => some .amoCas
  | 0x220 => some .fence
  | 0x221 => some .feClear
  | 0x222 => some .feSet
  | 0x223 => some .feWait
  | 0x224 => some .tlWait
  | 0x225 => some .tlRead
  | 0x226 => some .barInit
  | 0x227 => some .barArrive
  | 0x228 => some .barWait
  | 0x229 => some .hbar
  | 0x22A => some .sigPost
  | 0x22B => some .sigWait
  | 0x22C => some .fwdPut
  | 0x22D => some .fwdGet
  | 0x240 => some .pumpLd
  | 0x241 => some .pumpSt
  | 0x300 => some .br
  | 0x301 => some .call
  | 0x302 => some .loop
  | 0x308 => some .jr
  | 0x309 => some .callr
  | 0x30A => some .ret
  | 0x320 => some .rcall
  | 0x321 => some .yield
  | 0x322 => some .rdv
  | 0x323 => some .sys
  | 0x324 => some .trap
  | 0x325 => some .eret
  | 0x326 => some .rdc
  | 0x327 => some .wrc
  | 0x328 => some .dlRead
  | 0x329 => some .vflagSet
  | 0x32A => some .nop
  | 0x32B => some .bkpt
  | 0x3F0 => some .nxStub
  | 0x3F1 => some .nxRbeg
  | 0x3F2 => some .nxRend
  | 0x3F3 => some .nxRyld
  | 0x3F4 => some .nxMpush
  | 0x3F5 => some .nxDtab
  | 0x3F6 => some .nxSpill
  | 0x3F7 => some .nxFill
  | 0x3F8 => some .nxVfn
  | _ => none

/-- OPC 0xF0 .. 0xFF of class 0b11: no meaning in Juden code (R148). -/
def Op.native (o : Op) : Bool := decide (0x3F0 ≤ o.key)

/-- The operands and fields of each form (R145 to R148, R291). -/
def Op.form : Op → Form
  | .add => .reg { d := .s, a := .s, b := .s, widths := [.w32, .w64] }
  | .sub => .reg { d := .s, a := .s, b := .s, widths := [.w32, .w64] }
  | .mul => .reg { d := .s, a := .s, b := .s, widths := [.w32, .w64] }
  | .mulh => .reg { d := .s, a := .s, b := .s, widths := [.w32, .w64] }
  | .mulhu => .reg { d := .s, a := .s, b := .s, widths := [.w32, .w64] }
  | .div => .reg { d := .s, a := .s, b := .s, widths := [.w32, .w64] }
  | .divu => .reg { d := .s, a := .s, b := .s, widths := [.w32, .w64] }
  | .rem => .reg { d := .s, a := .s, b := .s, widths := [.w32, .w64] }
  | .remu => .reg { d := .s, a := .s, b := .s, widths := [.w32, .w64] }
  | .and => .reg { d := .s, a := .s, b := .s, widths := [.w32, .w64] }
  | .or => .reg { d := .s, a := .s, b := .s, widths := [.w32, .w64] }
  | .xor => .reg { d := .s, a := .s, b := .s, widths := [.w32, .w64] }
  | .sll => .reg { d := .s, a := .s, b := .s, widths := [.w32, .w64] }
  | .srl => .reg { d := .s, a := .s, b := .s, widths := [.w32, .w64] }
  | .sra => .reg { d := .s, a := .s, b := .s, widths := [.w32, .w64] }
  | .min => .reg { d := .s, a := .s, b := .s, widths := [.w32, .w64] }
  | .max => .reg { d := .s, a := .s, b := .s, widths := [.w32, .w64] }
  | .minu => .reg { d := .s, a := .s, b := .s, widths := [.w32, .w64] }
  | .maxu => .reg { d := .s, a := .s, b := .s, widths := [.w32, .w64] }
  | .clz => .reg { d := .s, a := .s, widths := [.w32, .w64] }
  | .ctz => .reg { d := .s, a := .s, widths := [.w32, .w64] }
  | .popc => .reg { d := .s, a := .s, widths := [.w32, .w64] }
  | .brev => .reg { d := .s, a := .s, widths := [.w32, .w64] }
  | .bswap => .reg { d := .s, a := .s, widths := [.w32, .w64] }
  | .bfx => .reg { d := .s, a := .s, b := .s, c := .s, widths := [.w32, .w64] }
  | .bfxu => .reg { d := .s, a := .s, b := .s, c := .s, widths := [.w32, .w64] }
  | .bfi => .reg { d := .s, a := .s, b := .s, c := .s, widths := [.w32, .w64] }
  | .cmp => .reg { d := .p, a := .s, b := .s, widths := [.w32, .w64], op := .below 10 }
  | .sel => .reg { d := .s, a := .s, b := .s, c := .p }
  | .addi => .imm { d := .s, a := .s }
  | .andi => .imm { d := .s, a := .s }
  | .ori => .imm { d := .s, a := .s }
  | .xori => .imm { d := .s, a := .s }
  | .slli => .imm { d := .s, a := .s, imm := .bits 6 }
  | .srli => .imm { d := .s, a := .s, imm := .bits 6 }
  | .srai => .imm { d := .s, a := .s, imm := .bits 6 }
  | .muli => .imm { d := .s, a := .s }
  | .li => .imm { d := .s }
  | .lhi => .imm { d := .s, a := .s, imm := .bits 27 }
  | .fadd => .reg { d := .s, a := .s, b := .s, rm := true }
  | .fsub => .reg { d := .s, a := .s, b := .s, rm := true }
  | .fmul => .reg { d := .s, a := .s, b := .s, rm := true }
  | .fdiv => .reg { d := .s, a := .s, b := .s, rm := true }
  | .fsqrt => .reg { d := .s, a := .s, rm := true }
  | .fma => .reg { d := .s, a := .s, b := .s, c := .s, rm := true }
  | .fmin => .reg { d := .s, a := .s, b := .s }
  | .fmax => .reg { d := .s, a := .s, b := .s }
  | .fcmp => .reg { d := .p, a := .s, b := .s, op := .fcmp }
  | .fcvt => .reg { d := .s, a := .s, rm := true, sat := true, fa := true, fb := true }
  | .fcvti => .reg { d := .s, a := .s, widths := [.w32, .w64], rm := true, sat := true }
  | .icvtf => .reg { d := .s, a := .s, widths := [.w32, .w64], rm := true }
  | .fclass => .reg { d := .s, a := .s }
  | .fsgn => .reg { d := .s, a := .s, b := .s, op := .below 3 }
  | .pand => .reg { d := .p, a := .p, b := .p }
  | .por => .reg { d := .p, a := .p, b := .p }
  | .pxor => .reg { d := .p, a := .p, b := .p }
  | .pandn => .reg { d := .p, a := .p, b := .p }
  | .ptest => .reg { d := .p, a := .s }
  | .pget => .reg { d := .s, a := .p }
  | .cmov => .reg { d := .c, a := .c }
  | .cnrow => .reg { d := .c, a := .c, b := .s, c := .s }
  | .cnbyte => .reg { d := .c, a := .c, b := .s, c := .s }
  | .cnstride => .reg { d := .c, a := .c, b := .s }
  | .cnperm => .reg { d := .c, a := .c, op := .below 8 }
  | .cfmt => .reg { d := .c, a := .c, fa := true }
  | .cget => .reg { d := .s, a := .c, op := .below 8 }
  | .ctab => .imm { d := .c }
  | .vadd => .reg { d := .v, a := .v, b := .vs, bc := .either, widths := [.w8, .w16, .w32], sat := true }
  | .vsub => .reg { d := .v, a := .v, b := .vs, bc := .either, widths := [.w8, .w16, .w32], sat := true }
  | .vmul => .reg { d := .v, a := .v, b := .vs, bc := .either, widths := [.w8, .w16, .w32] }
  | .vmulh => .reg { d := .v, a := .v, b := .vs, bc := .either, widths := [.w8, .w16, .w32] }
  | .vmin => .reg { d := .v, a := .v, b := .vs, bc := .either, widths := [.w8, .w16, .w32] }
  | .vmax => .reg { d := .v, a := .v, b := .vs, bc := .either, widths := [.w8, .w16, .w32] }
  | .vminu => .reg { d := .v, a := .v, b := .vs, bc := .either, widths := [.w8, .w16, .w32] }
  | .vmaxu => .reg { d := .v, a := .v, b := .vs, bc := .either, widths := [.w8, .w16, .w32] }
  | .vand => .reg { d := .v, a := .v, b := .vs, bc := .either, widths := [.w8, .w16, .w32] }
  | .vor => .reg { d := .v, a := .v, b := .vs, bc := .either, widths := [.w8, .w16, .w32] }
  | .vxor => .reg { d := .v, a := .v, b := .vs, bc := .either, widths := [.w8, .w16, .w32] }
  | .vsll => .reg { d := .v, a := .v, b := .vs, bc := .either, widths := [.w8, .w16, .w32] }
  | .vsrl => .reg { d := .v, a := .v, b := .vs, bc := .either, widths := [.w8, .w16, .w32] }
  | .vsra => .reg { d := .v, a := .v, b := .vs, bc := .either, widths := [.w8, .w16, .w32] }
  | .vabs => .reg { d := .v, a := .v, widths := [.w8, .w16, .w32] }
  | .vcmp => .reg { d := .v, a := .v, b := .vs, bc := .either, widths := [.w8, .w16, .w32], op := .below 10 }
  | .vsel => .reg { d := .v, a := .v, b := .vs, c := .v, bc := .either, widths := [.w8, .w16, .w32] }
  | .vfadd => .reg { d := .v, a := .v, b := .vs, bc := .either, widths := [.w32], rm := true }
  | .vfsub => .reg { d := .v, a := .v, b := .vs, bc := .either, widths := [.w32], rm := true }
  | .vfmul => .reg { d := .v, a := .v, b := .vs, bc := .either, widths := [.w32], rm := true }
  | .vfdiv => .reg { d := .v, a := .v, b := .vs, bc := .either, widths := [.w32], rm := true }
  | .vfma => .reg { d := .v, a := .v, b := .vs, c := .v, bc := .either, widths := [.w32], rm := true }
  | .vfsqrt => .reg { d := .v, a := .v, widths := [.w32], rm := true }
  | .vfmin => .reg { d := .v, a := .v, b := .vs, bc := .either, widths := [.w32] }
  | .vfmax => .reg { d := .v, a := .v, b := .vs, bc := .either, widths := [.w32] }
  | .vfcmp => .reg { d := .v, a := .v, b := .vs, bc := .either, widths := [.w32], op := .fcmp }
  | .vcvt => .reg { d := .v, a := .v, rm := true, sat := true, fa := true, fb := true }
  | .vfdot => .reg { d := .v, a := .v, b := .v, c := .s, fa := true }
  | .vfsgn => .reg { d := .v, a := .v, b := .vs, bc := .either, widths := [.w32], op := .below 3 }
  | .vperm => .reg { d := .v, a := .v, b := .v, widths := [.w8, .w16, .w32] }
  | .vzip => .reg { d := .v, a := .v, b := .v, widths := [.w8, .w16, .w32] }
  | .vunzip => .reg { d := .v, a := .v, b := .v, widths := [.w8, .w16, .w32] }
  | .vslide => .reg { d := .v, a := .v, b := .s, bc := .one, widths := [.w8, .w16, .w32] }
  | .vbcast => .reg { d := .v, a := .v, b := .s, bc := .one, widths := [.w8, .w16, .w32] }
  | .vext => .reg { d := .s, a := .v, b := .s, bc := .one, widths := [.w8, .w16, .w32] }
  | .vins => .reg { d := .v, a := .s, b := .s, bc := .one, widths := [.w8, .w16, .w32] }
  | .viota => .reg { d := .v, widths := [.w8, .w16, .w32] }
  | .vmov => .reg { d := .v, b := .vs, bc := .either, widths := [.w8, .w16, .w32] }
  | .vred => .reg { d := .s, a := .v, widths := [.w8, .w16, .w32], op := .below 8 }
  | .vfred => .reg { d := .s, a := .v, widths := [.w32], rm := true, op := .below 4 }
  | .vscan => .reg { d := .v, a := .v, widths := [.w8, .w16, .w32], op := .below 3 }
  | .vfscan => .reg { d := .v, a := .v, widths := [.w32], rm := true, op := .below 2 }
  | .vfaffine => .reg { d := .v, a := .v, b := .v, widths := [.w32], rm := true }
  | .vld => .mem { d := .v, bc := .one }
  | .vst => .mem { d := .v, bc := .one }
  | .vgather => .mem { d := .v, b := .v, widths := [.w8, .w16, .w32] }
  | .vscatter => .mem { d := .v, b := .v, widths := [.w8, .w16, .w32] }
  | .vamo => .mem { d := .v, b := .v, widths := [.w8, .w16, .w32], mop := .below 2, scope := true }
  | .ld => .mem { d := .s, widths := [.w8, .w16, .w32, .w64] }
  | .ldu => .mem { d := .s, widths := [.w8, .w16, .w32, .w64] }
  | .st => .mem { d := .s, widths := [.w8, .w16, .w32, .w64] }
  | .ldq => .mem { d := .cq }
  | .stq => .mem { d := .cq }
  | .ldacq => .mem { d := .s, widths := [.w8, .w16, .w32, .w64], scope := true }
  | .strel => .mem { d := .s, widths := [.w8, .w16, .w32, .w64], scope := true }
  | .amo => .mem { d := .s, c := .s, widths := [.w32, .w64], mop := .below 9, scope := true }
  | .amoCas => .mem { d := .s, c := .s, widths := [.w32, .w64], scope := true }
  | .fence => .reg { scope := true, hint := true }
  | .feClear => .mem {}
  | .feSet => .mem {}
  | .feWait => .mem {}
  | .tlWait => .reg { a := .tl, b := .s, hint := true }
  | .tlRead => .reg { d := .s, a := .tl }
  | .barInit => .mem { d := .s }
  | .barArrive => .mem {}
  | .barWait => .mem {}
  | .hbar => .reg { hint := true, op := .below 8 }
  | .sigPost => .mem { d := .s, c := .s }
  | .sigWait => .mem { d := .s }
  | .fwdPut => .reg { a := .port, b := .v }
  | .fwdGet => .reg { d := .v, a := .port }
  | .pumpLd => .reg { d := .p, a := .c, b := .c, c := .s }
  | .pumpSt => .reg { d := .p, a := .c, b := .c, c := .s }
  | .br => .imm {}
  | .call => .imm {}
  | .loop => .imm { a := .s }
  | .jr => .reg { a := .s }
  | .callr => .reg { a := .s }
  | .ret => .reg {}
  | .rcall => .imm {}
  | .yield => .reg {}
  | .rdv => .reg {}
  | .sys => .imm { imm := .bits 16 }
  | .trap => .imm { imm := .bits 16 }
  | .eret => .reg {}
  | .rdc => .reg { d := .s, a := .ctl }
  | .wrc => .reg { d := .ctl, a := .s }
  | .dlRead => .reg { d := .s }
  | .vflagSet => .reg { a := .c, b := .s }
  | .nop => .reg {}
  | .bkpt => .reg {}
  | .nxStub => .imm { imm := .bits 24 }
  | .nxRbeg => .imm {}
  | .nxRend => .reg {}
  | .nxRyld => .imm {}
  | .nxMpush => .reg { a := .c, b := .c, c := .s, op := .below 7 }
  | .nxDtab => .reg { a := .c }
  | .nxSpill => .imm { a := .v, imm := .bits 5 }
  | .nxFill => .imm { d := .v, imm := .bits 5 }
  | .nxVfn => .reg { d := .v, a := .v, op := .below 5 }

/-- The fields that every format has, and bits 36:0 (R135). -/
structure Fields where
  cls  : BitVec 2
  opc  : BitVec 8
  pred : BitVec 4
  neg  : BitVec 1
  d    : BitVec 6
  a    : BitVec 6
  rest : BitVec 37
deriving DecidableEq, Repr

/-- The fields of a word (R135). -/
def Fields.of (w : Word) : Fields where
  cls  := w.extractLsb' 62 2
  opc  := w.extractLsb' 54 8
  pred := w.extractLsb' 50 4
  neg  := w.extractLsb' 49 1
  d    := w.extractLsb' 43 6
  a    := w.extractLsb' 37 6
  rest := w.extractLsb' 0 37

/-- The word of its fields (R135). -/
def Fields.word (f : Fields) : Word :=
  f.cls ++ f.opc ++ f.pred ++ f.neg ++ f.d ++ f.a ++ f.rest

/-- Bits 36:0 in the register format (R136). -/
structure RegBits where
  b     : BitVec 6 := 0
  c     : BitVec 6 := 0
  bc    : BitVec 1 := 0
  w     : BitVec 2 := 0
  rm    : BitVec 3 := 0
  sat   : BitVec 1 := 0
  scope : BitVec 3 := 0
  hint  : BitVec 2 := 0
  fa    : BitVec 4 := 0
  fb    : BitVec 4 := 0
  op    : BitVec 5 := 0
deriving DecidableEq, Repr

/-- Reading bits 36:0 in the register format (R136). -/
def RegBits.of (r : BitVec 37) : RegBits where
  b     := r.extractLsb' 31 6
  c     := r.extractLsb' 25 6
  bc    := r.extractLsb' 24 1
  w     := r.extractLsb' 22 2
  rm    := r.extractLsb' 19 3
  sat   := r.extractLsb' 18 1
  scope := r.extractLsb' 15 3
  hint  := r.extractLsb' 13 2
  fa    := r.extractLsb' 9 4
  fb    := r.extractLsb' 5 4
  op    := r.extractLsb' 0 5

/-- Bits 36:0 of the register format (R136). -/
def RegBits.bits (r : RegBits) : BitVec 37 :=
  r.b ++ r.c ++ r.bc ++ r.w ++ r.rm ++ r.sat ++ r.scope ++ r.hint ++ r.fa ++ r.fb ++ r.op

/-- Bits 36:0 in the memory format (R139). -/
structure MemBits where
  b     : BitVec 6 := 0
  c     : BitVec 6 := 0
  bc    : BitVec 1 := 0
  w     : BitVec 2 := 0
  mop   : BitVec 4 := 0
  scope : BitVec 3 := 0
  hint  : BitVec 2 := 0
  off   : BitVec 13 := 0
deriving DecidableEq, Repr

/-- Reading bits 36:0 in the memory format (R139). -/
def MemBits.of (r : BitVec 37) : MemBits where
  b     := r.extractLsb' 31 6
  c     := r.extractLsb' 25 6
  bc    := r.extractLsb' 24 1
  w     := r.extractLsb' 22 2
  mop   := r.extractLsb' 18 4
  scope := r.extractLsb' 15 3
  hint  := r.extractLsb' 13 2
  off   := r.extractLsb' 0 13

/-- Bits 36:0 of the memory format (R139). -/
def MemBits.bits (r : MemBits) : BitVec 37 :=
  r.b ++ r.c ++ r.bc ++ r.w ++ r.mop ++ r.scope ++ r.hint ++ r.off

/-- Does a field hold a value of its kind (R140)? -/
def Kind.admits (k : Kind) (bc : BitVec 1) (x : BitVec 6) : Bool :=
  match k with
  | .absent => true
  | .s => true
  | .v => decide (x.toNat < 32)
  | .vs => bc == 1 || decide (x.toNat < 32)
  | .p => decide (x.toNat < 16)
  | .c => decide (x.toNat ≤ 32)
  | .cq => decide (x.toNat < 32)
  | .port => decide (x.toNat < 4)
  | .tl => decide (x.toNat ≤ 5)
  | .ctl => ctlAssigned x

/-- A field that the form lacks is zero (R142). -/
def lacks {n : Nat} (has : Bool) (x : BitVec n) : Bool := has || x == 0

/-- Does OP or MOP hold a value listed for the form (R144)? -/
def OpRule.admits (r : OpRule) (x : Nat) : Bool :=
  match r with
  | .absent => true
  | .below n => decide (x < n)
  | .fcmp => decide (x < 6) || x == 10 || x == 11

/-- Does BC agree with R137? -/
def BcRule.admits (r : BcRule) (bc : BitVec 1) : Bool :=
  match r with
  | .zero => bc == 0
  | .one => bc == 1
  | .either => true

/-- RM 0b110 and 0b111 are unassigned (R54). -/
def rmAdmits (x : BitVec 3) : Bool := decide (x.toNat ≤ 5)

/-- SCOPE 0b111 is unassigned (R141). -/
def scopeAdmits (x : BitVec 3) : Bool := decide (x.toNat ≤ 6)

/-- A width field holds a width that the form lists; a form without widths has W zero (R141, R142). -/
def widthAdmits (ws : List Width) (x : BitVec 2) : Bool := ws.isEmpty || ws.contains (Width.ofBits x)

/-- Orders 3 to 6 of R150 for the register format; BC is a field that a form can lack in every class but 0b01 (R142),
where R137 alone rules it. -/
def RegForm.check (m : RegForm) (cls : BitVec 2) (d a : BitVec 6) (r : RegBits) : Except Unassigned Unit :=
  if !(lacks (m.d != .absent) d && lacks (m.a != .absent) a && lacks (m.b != .absent) r.b
      && lacks (m.c != .absent) r.c && lacks (cls == 1 || m.bc != .zero) r.bc && lacks (!m.widths.isEmpty) r.w
      && lacks m.rm r.rm && lacks m.sat r.sat && lacks m.scope r.scope && lacks m.hint r.hint
      && lacks m.fa r.fa && lacks m.fb r.fb && lacks (m.op != .absent) r.op) then
    .error .lackingField
  else if !(m.d.admits 0 d && m.a.admits 0 a && m.b.admits r.bc r.b && m.c.admits 0 r.c) then
    .error .registerField
  else if !(widthAdmits m.widths r.w && rmAdmits r.rm && scopeAdmits r.scope && m.bc.admits r.bc) then
    .error .modifierField
  else if !(m.op.admits r.op.toNat) then
    .error .subOperation
  else
    .ok ()

/-- Orders 3 to 6 of R150 for the immediate format. -/
def ImmForm.check (m : ImmForm) (d a : BitVec 6) (imm : BitVec 37) : Except Unassigned Unit :=
  if !(lacks (m.d != .absent) d && lacks (m.a != .absent) a) then
    .error .lackingField
  else if !(m.d.admits 0 d && m.a.admits 0 a) then
    .error .registerField
  else
    match m.imm with
    | .all => .ok ()
    | .bits n => if imm.toNat < 2 ^ n then .ok () else .error .subOperation

/-- Orders 3 to 6 of R150 for the memory format. -/
def MemForm.check (m : MemForm) (cls : BitVec 2) (d a : BitVec 6) (r : MemBits) : Except Unassigned Unit :=
  if !(lacks (m.d != .absent) d && lacks (m.c != .absent) r.c && lacks (cls == 1 || m.bc != .zero) r.bc
      && lacks (!m.widths.isEmpty) r.w && lacks (m.mop != .absent) r.mop && lacks m.scope r.scope) then
    .error .lackingField
  else if !(m.d.admits 0 d && Kind.c.admits 0 a && m.b.admits 0 r.b && m.c.admits 0 r.c) then
    .error .registerField
  else if !(widthAdmits m.widths r.w && scopeAdmits r.scope && m.bc.admits r.bc) then
    .error .modifierField
  else if !(m.mop.admits r.mop.toNat) then
    .error .subOperation
  else
    .ok ()

/-- Orders 3 to 6 of R150, by the form's format. -/
def Form.check (m : Form) (f : Fields) : Except Unassigned Unit :=
  match m with
  | .reg r => r.check f.cls f.d f.a (.of f.rest)
  | .imm r => r.check f.d f.a f.rest
  | .mem r => r.check f.cls f.d f.a (.of f.rest)

/-- The memory operand with a scalar index (R139). -/
def MemBits.scalar (r : MemBits) (a : BitVec 6) : MemS where
  cap := .ofBits a
  idx := r.b
  off := r.off
  hint := .ofBits r.hint

/-- The memory operand with a vector index (R139). -/
def MemBits.vector (r : MemBits) (a : BitVec 6) : MemV where
  cap := .ofBits a
  idx := r.b.setWidth 5
  off := r.off
  hint := .ofBits r.hint

/-- The instruction that a form and its fields make (R145 to R148, R291). -/
def Op.build (o : Op) (g : Pred) (f : Fields) : Instr :=
  match o with
  | .add => let r := RegBits.of f.rest; .add g (.ofBits r.w) f.d f.a r.b
  | .sub => let r := RegBits.of f.rest; .sub g (.ofBits r.w) f.d f.a r.b
  | .mul => let r := RegBits.of f.rest; .mul g (.ofBits r.w) f.d f.a r.b
  | .mulh => let r := RegBits.of f.rest; .mulh g (.ofBits r.w) f.d f.a r.b
  | .mulhu => let r := RegBits.of f.rest; .mulhu g (.ofBits r.w) f.d f.a r.b
  | .div => let r := RegBits.of f.rest; .div g (.ofBits r.w) f.d f.a r.b
  | .divu => let r := RegBits.of f.rest; .divu g (.ofBits r.w) f.d f.a r.b
  | .rem => let r := RegBits.of f.rest; .rem g (.ofBits r.w) f.d f.a r.b
  | .remu => let r := RegBits.of f.rest; .remu g (.ofBits r.w) f.d f.a r.b
  | .and => let r := RegBits.of f.rest; .and g (.ofBits r.w) f.d f.a r.b
  | .or => let r := RegBits.of f.rest; .or g (.ofBits r.w) f.d f.a r.b
  | .xor => let r := RegBits.of f.rest; .xor g (.ofBits r.w) f.d f.a r.b
  | .sll => let r := RegBits.of f.rest; .sll g (.ofBits r.w) f.d f.a r.b
  | .srl => let r := RegBits.of f.rest; .srl g (.ofBits r.w) f.d f.a r.b
  | .sra => let r := RegBits.of f.rest; .sra g (.ofBits r.w) f.d f.a r.b
  | .min => let r := RegBits.of f.rest; .min g (.ofBits r.w) f.d f.a r.b
  | .max => let r := RegBits.of f.rest; .max g (.ofBits r.w) f.d f.a r.b
  | .minu => let r := RegBits.of f.rest; .minu g (.ofBits r.w) f.d f.a r.b
  | .maxu => let r := RegBits.of f.rest; .maxu g (.ofBits r.w) f.d f.a r.b
  | .clz => let r := RegBits.of f.rest; .clz g (.ofBits r.w) f.d f.a
  | .ctz => let r := RegBits.of f.rest; .ctz g (.ofBits r.w) f.d f.a
  | .popc => let r := RegBits.of f.rest; .popc g (.ofBits r.w) f.d f.a
  | .brev => let r := RegBits.of f.rest; .brev g (.ofBits r.w) f.d f.a
  | .bswap => let r := RegBits.of f.rest; .bswap g (.ofBits r.w) f.d f.a
  | .bfx => let r := RegBits.of f.rest; .bfx g (.ofBits r.w) f.d f.a r.b r.c
  | .bfxu => let r := RegBits.of f.rest; .bfxu g (.ofBits r.w) f.d f.a r.b r.c
  | .bfi => let r := RegBits.of f.rest; .bfi g (.ofBits r.w) f.d f.a r.b r.c
  | .cmp => let r := RegBits.of f.rest; .cmp g (.ofBits r.w) (.ofBits r.op) (f.d.setWidth 4) f.a r.b
  | .sel => let r := RegBits.of f.rest; .sel g f.d f.a r.b (r.c.setWidth 4)
  | .addi => .addi g f.d f.a f.rest
  | .andi => .andi g f.d f.a f.rest
  | .ori => .ori g f.d f.a f.rest
  | .xori => .xori g f.d f.a f.rest
  | .slli => .slli g f.d f.a (f.rest.setWidth 6)
  | .srli => .srli g f.d f.a (f.rest.setWidth 6)
  | .srai => .srai g f.d f.a (f.rest.setWidth 6)
  | .muli => .muli g f.d f.a f.rest
  | .li => .li g f.d f.rest
  | .lhi => .lhi g f.d f.a (f.rest.setWidth 27)
  | .fadd => let r := RegBits.of f.rest; .fadd g (.ofBits r.rm) f.d f.a r.b
  | .fsub => let r := RegBits.of f.rest; .fsub g (.ofBits r.rm) f.d f.a r.b
  | .fmul => let r := RegBits.of f.rest; .fmul g (.ofBits r.rm) f.d f.a r.b
  | .fdiv => let r := RegBits.of f.rest; .fdiv g (.ofBits r.rm) f.d f.a r.b
  | .fsqrt => let r := RegBits.of f.rest; .fsqrt g (.ofBits r.rm) f.d f.a
  | .fma => let r := RegBits.of f.rest; .fma g (.ofBits r.rm) f.d f.a r.b r.c
  | .fmin => let r := RegBits.of f.rest; .fmin g f.d f.a r.b
  | .fmax => let r := RegBits.of f.rest; .fmax g f.d f.a r.b
  | .fcmp => let r := RegBits.of f.rest; .fcmp g (.ofBits r.op) (f.d.setWidth 4) f.a r.b
  | .fcvt => let r := RegBits.of f.rest; .fcvt g (.ofBits r.rm) (r.sat == 1) r.fa r.fb f.d f.a
  | .fcvti => let r := RegBits.of f.rest; .fcvti g (.ofBits r.w) (.ofBits r.rm) (r.sat == 1) f.d f.a
  | .icvtf => let r := RegBits.of f.rest; .icvtf g (.ofBits r.w) (.ofBits r.rm) f.d f.a
  | .fclass => .fclass g f.d f.a
  | .fsgn => let r := RegBits.of f.rest; .fsgn g (.ofBits r.op) f.d f.a r.b
  | .pand => let r := RegBits.of f.rest; .pand g (f.d.setWidth 4) (f.a.setWidth 4) (r.b.setWidth 4)
  | .por => let r := RegBits.of f.rest; .por g (f.d.setWidth 4) (f.a.setWidth 4) (r.b.setWidth 4)
  | .pxor => let r := RegBits.of f.rest; .pxor g (f.d.setWidth 4) (f.a.setWidth 4) (r.b.setWidth 4)
  | .pandn => let r := RegBits.of f.rest; .pandn g (f.d.setWidth 4) (f.a.setWidth 4) (r.b.setWidth 4)
  | .ptest => .ptest g (f.d.setWidth 4) f.a
  | .pget => .pget g f.d (f.a.setWidth 4)
  | .cmov => .cmov g (.ofBits f.d) (.ofBits f.a)
  | .cnrow => let r := RegBits.of f.rest; .cnrow g (.ofBits f.d) (.ofBits f.a) r.b r.c
  | .cnbyte => let r := RegBits.of f.rest; .cnbyte g (.ofBits f.d) (.ofBits f.a) r.b r.c
  | .cnstride => let r := RegBits.of f.rest; .cnstride g (.ofBits f.d) (.ofBits f.a) r.b
  | .cnperm => let r := RegBits.of f.rest; .cnperm g (.ofBits f.d) (.ofBits f.a) (r.op.setWidth 3)
  | .cfmt => let r := RegBits.of f.rest; .cfmt g (.ofBits f.d) (.ofBits f.a) r.fa
  | .cget => let r := RegBits.of f.rest; .cget g (.ofBits r.op) f.d (.ofBits f.a)
  | .ctab => .ctab g (.ofBits f.d) f.rest
  | .vadd => let r := RegBits.of f.rest; .vadd g (.ofBits r.w) (r.sat == 1) (f.d.setWidth 5) (f.a.setWidth 5) (.ofBits r.bc r.b)
  | .vsub => let r := RegBits.of f.rest; .vsub g (.ofBits r.w) (r.sat == 1) (f.d.setWidth 5) (f.a.setWidth 5) (.ofBits r.bc r.b)
  | .vmul => let r := RegBits.of f.rest; .vmul g (.ofBits r.w) (f.d.setWidth 5) (f.a.setWidth 5) (.ofBits r.bc r.b)
  | .vmulh => let r := RegBits.of f.rest; .vmulh g (.ofBits r.w) (f.d.setWidth 5) (f.a.setWidth 5) (.ofBits r.bc r.b)
  | .vmin => let r := RegBits.of f.rest; .vmin g (.ofBits r.w) (f.d.setWidth 5) (f.a.setWidth 5) (.ofBits r.bc r.b)
  | .vmax => let r := RegBits.of f.rest; .vmax g (.ofBits r.w) (f.d.setWidth 5) (f.a.setWidth 5) (.ofBits r.bc r.b)
  | .vminu => let r := RegBits.of f.rest; .vminu g (.ofBits r.w) (f.d.setWidth 5) (f.a.setWidth 5) (.ofBits r.bc r.b)
  | .vmaxu => let r := RegBits.of f.rest; .vmaxu g (.ofBits r.w) (f.d.setWidth 5) (f.a.setWidth 5) (.ofBits r.bc r.b)
  | .vand => let r := RegBits.of f.rest; .vand g (.ofBits r.w) (f.d.setWidth 5) (f.a.setWidth 5) (.ofBits r.bc r.b)
  | .vor => let r := RegBits.of f.rest; .vor g (.ofBits r.w) (f.d.setWidth 5) (f.a.setWidth 5) (.ofBits r.bc r.b)
  | .vxor => let r := RegBits.of f.rest; .vxor g (.ofBits r.w) (f.d.setWidth 5) (f.a.setWidth 5) (.ofBits r.bc r.b)
  | .vsll => let r := RegBits.of f.rest; .vsll g (.ofBits r.w) (f.d.setWidth 5) (f.a.setWidth 5) (.ofBits r.bc r.b)
  | .vsrl => let r := RegBits.of f.rest; .vsrl g (.ofBits r.w) (f.d.setWidth 5) (f.a.setWidth 5) (.ofBits r.bc r.b)
  | .vsra => let r := RegBits.of f.rest; .vsra g (.ofBits r.w) (f.d.setWidth 5) (f.a.setWidth 5) (.ofBits r.bc r.b)
  | .vabs => let r := RegBits.of f.rest; .vabs g (.ofBits r.w) (f.d.setWidth 5) (f.a.setWidth 5)
  | .vcmp => let r := RegBits.of f.rest; .vcmp g (.ofBits r.w) (.ofBits r.op) (f.d.setWidth 5) (f.a.setWidth 5) (.ofBits r.bc r.b)
  | .vsel => let r := RegBits.of f.rest; .vsel g (.ofBits r.w) (f.d.setWidth 5) (f.a.setWidth 5) (.ofBits r.bc r.b) (r.c.setWidth 5)
  | .vfadd => let r := RegBits.of f.rest; .vfadd g (.ofBits r.rm) (f.d.setWidth 5) (f.a.setWidth 5) (.ofBits r.bc r.b)
  | .vfsub => let r := RegBits.of f.rest; .vfsub g (.ofBits r.rm) (f.d.setWidth 5) (f.a.setWidth 5) (.ofBits r.bc r.b)
  | .vfmul => let r := RegBits.of f.rest; .vfmul g (.ofBits r.rm) (f.d.setWidth 5) (f.a.setWidth 5) (.ofBits r.bc r.b)
  | .vfdiv => let r := RegBits.of f.rest; .vfdiv g (.ofBits r.rm) (f.d.setWidth 5) (f.a.setWidth 5) (.ofBits r.bc r.b)
  | .vfma => let r := RegBits.of f.rest; .vfma g (.ofBits r.rm) (f.d.setWidth 5) (f.a.setWidth 5) (.ofBits r.bc r.b) (r.c.setWidth 5)
  | .vfsqrt => let r := RegBits.of f.rest; .vfsqrt g (.ofBits r.rm) (f.d.setWidth 5) (f.a.setWidth 5)
  | .vfmin => let r := RegBits.of f.rest; .vfmin g (f.d.setWidth 5) (f.a.setWidth 5) (.ofBits r.bc r.b)
  | .vfmax => let r := RegBits.of f.rest; .vfmax g (f.d.setWidth 5) (f.a.setWidth 5) (.ofBits r.bc r.b)
  | .vfcmp => let r := RegBits.of f.rest; .vfcmp g (.ofBits r.op) (f.d.setWidth 5) (f.a.setWidth 5) (.ofBits r.bc r.b)
  | .vcvt => let r := RegBits.of f.rest; .vcvt g (.ofBits r.rm) (r.sat == 1) r.fa r.fb (f.d.setWidth 5) (f.a.setWidth 5)
  | .vfdot => let r := RegBits.of f.rest; .vfdot g r.fa (f.d.setWidth 5) (f.a.setWidth 5) (r.b.setWidth 5) r.c
  | .vfsgn => let r := RegBits.of f.rest; .vfsgn g (.ofBits r.op) (f.d.setWidth 5) (f.a.setWidth 5) (.ofBits r.bc r.b)
  | .vperm => let r := RegBits.of f.rest; .vperm g (.ofBits r.w) (f.d.setWidth 5) (f.a.setWidth 5) (r.b.setWidth 5)
  | .vzip => let r := RegBits.of f.rest; .vzip g (.ofBits r.w) (f.d.setWidth 5) (f.a.setWidth 5) (r.b.setWidth 5)
  | .vunzip => let r := RegBits.of f.rest; .vunzip g (.ofBits r.w) (f.d.setWidth 5) (f.a.setWidth 5) (r.b.setWidth 5)
  | .vslide => let r := RegBits.of f.rest; .vslide g (.ofBits r.w) (f.d.setWidth 5) (f.a.setWidth 5) r.b
  | .vbcast => let r := RegBits.of f.rest; .vbcast g (.ofBits r.w) (f.d.setWidth 5) (f.a.setWidth 5) r.b
  | .vext => let r := RegBits.of f.rest; .vext g (.ofBits r.w) f.d (f.a.setWidth 5) r.b
  | .vins => let r := RegBits.of f.rest; .vins g (.ofBits r.w) (f.d.setWidth 5) f.a r.b
  | .viota => let r := RegBits.of f.rest; .viota g (.ofBits r.w) (f.d.setWidth 5)
  | .vmov => let r := RegBits.of f.rest; .vmov g (.ofBits r.w) (f.d.setWidth 5) (.ofBits r.bc r.b)
  | .vred => let r := RegBits.of f.rest; .vred g (.ofBits r.w) (.ofBits r.op) f.d (f.a.setWidth 5)
  | .vfred => let r := RegBits.of f.rest; .vfred g (.ofBits r.rm) (.ofBits r.op) f.d (f.a.setWidth 5)
  | .vscan => let r := RegBits.of f.rest; .vscan g (.ofBits r.w) (.ofBits r.op) (f.d.setWidth 5) (f.a.setWidth 5)
  | .vfscan => let r := RegBits.of f.rest; .vfscan g (.ofBits r.rm) (.ofBits r.op) (f.d.setWidth 5) (f.a.setWidth 5)
  | .vfaffine => let r := RegBits.of f.rest; .vfaffine g (.ofBits r.rm) (f.d.setWidth 5) (f.a.setWidth 5) (r.b.setWidth 5)
  | .vld => let r := MemBits.of f.rest; .vld g (f.d.setWidth 5) (r.scalar f.a)
  | .vst => let r := MemBits.of f.rest; .vst g (r.scalar f.a) (f.d.setWidth 5)
  | .vgather => let r := MemBits.of f.rest; .vgather g (.ofBits r.w) (f.d.setWidth 5) (r.vector f.a)
  | .vscatter => let r := MemBits.of f.rest; .vscatter g (.ofBits r.w) (r.vector f.a) (f.d.setWidth 5)
  | .vamo => let r := MemBits.of f.rest; .vamo g (.ofBits r.w) (.ofBits r.mop) (.ofBits r.scope) (r.vector f.a) (f.d.setWidth 5)
  | .ld => let r := MemBits.of f.rest; .ld g (.ofBits r.w) f.d (r.scalar f.a)
  | .ldu => let r := MemBits.of f.rest; .ldu g (.ofBits r.w) f.d (r.scalar f.a)
  | .st => let r := MemBits.of f.rest; .st g (.ofBits r.w) (r.scalar f.a) f.d
  | .ldq => let r := MemBits.of f.rest; .ldq g (f.d.setWidth 5) (r.scalar f.a)
  | .stq => let r := MemBits.of f.rest; .stq g (r.scalar f.a) (f.d.setWidth 5)
  | .ldacq => let r := MemBits.of f.rest; .ldacq g (.ofBits r.w) (.ofBits r.scope) f.d (r.scalar f.a)
  | .strel => let r := MemBits.of f.rest; .strel g (.ofBits r.w) (.ofBits r.scope) (r.scalar f.a) f.d
  | .amo => let r := MemBits.of f.rest; .amo g (.ofBits r.w) (.ofBits r.mop) (.ofBits r.scope) f.d (r.scalar f.a) r.c
  | .amoCas => let r := MemBits.of f.rest; .amoCas g (.ofBits r.w) (.ofBits r.scope) f.d (r.scalar f.a) r.c
  | .fence => let r := RegBits.of f.rest; .fence g (.ofBits r.scope) (.ofBits r.hint)
  | .feClear => let r := MemBits.of f.rest; .feClear g (r.scalar f.a)
  | .feSet => let r := MemBits.of f.rest; .feSet g (r.scalar f.a)
  | .feWait => let r := MemBits.of f.rest; .feWait g (r.scalar f.a)
  | .tlWait => let r := RegBits.of f.rest; .tlWait g (.ofBits r.hint) (.ofBits f.a) r.b
  | .tlRead => .tlRead g f.d (.ofBits f.a)
  | .barInit => let r := MemBits.of f.rest; .barInit g (r.scalar f.a) f.d
  | .barArrive => let r := MemBits.of f.rest; .barArrive g (r.scalar f.a)
  | .barWait => let r := MemBits.of f.rest; .barWait g (r.scalar f.a)
  | .hbar => let r := RegBits.of f.rest; .hbar g (r.op.setWidth 3) (.ofBits r.hint)
  | .sigPost => let r := MemBits.of f.rest; .sigPost g (r.scalar f.a) f.d r.c
  | .sigWait => let r := MemBits.of f.rest; .sigWait g (r.scalar f.a) f.d
  | .fwdPut => let r := RegBits.of f.rest; .fwdPut g (.ofBits f.a) (r.b.setWidth 5)
  | .fwdGet => .fwdGet g (f.d.setWidth 5) (.ofBits f.a)
  | .pumpLd => let r := RegBits.of f.rest; .pumpLd g (f.d.setWidth 4) (.ofBits f.a) (.ofBits r.b) r.c
  | .pumpSt => let r := RegBits.of f.rest; .pumpSt g (f.d.setWidth 4) (.ofBits f.a) (.ofBits r.b) r.c
  | .br => .br g f.rest
  | .call => .call g f.rest
  | .loop => .loop g f.a f.rest
  | .jr => .jr g f.a
  | .callr => .callr g f.a
  | .ret => .ret g
  | .rcall => .rcall g f.rest
  | .yield => .yield g
  | .rdv => .rdv g
  | .sys => .sys g (f.rest.setWidth 16)
  | .trap => .trap g (f.rest.setWidth 16)
  | .eret => .eret g
  | .rdc => .rdc g f.d f.a
  | .wrc => .wrc g f.d f.a
  | .dlRead => .dlRead g f.d
  | .vflagSet => let r := RegBits.of f.rest; .vflagSet g (.ofBits f.a) r.b
  | .nop => .nop g
  | .bkpt => .bkpt g
  | .nxStub => .nxStub g f.rest
  | .nxRbeg => .nxRbeg g f.rest
  | .nxRend => .nxRend g
  | .nxRyld => .nxRyld g f.rest
  | .nxMpush => let r := RegBits.of f.rest; .nxMpush g (.ofBits r.op) (.ofBits f.a) (.ofBits r.b) r.c
  | .nxDtab => .nxDtab g (.ofBits f.a)
  | .nxSpill => .nxSpill g (f.a.setWidth 5) f.rest
  | .nxFill => .nxFill g (f.d.setWidth 5) f.rest
  | .nxVfn => let r := RegBits.of f.rest; .nxVfn g (.ofBits r.op) (f.d.setWidth 5) (f.a.setWidth 5)

/-- The predicate that PRED and NEG name (R118). -/
def Fields.guard (f : Fields) : Pred := ⟨f.pred, f.neg == 1⟩

/-- Decode a word; `slot` admits the native-only operations, which have meaning only in a native bundle slot (R148). -/
def decodeIn (slot : Bool) (w : Word) : Except Unassigned Instr :=
  let f := Fields.of w
  match Op.ofKey (256 * f.cls.toNat + f.opc.toNat) with
  | none => .error .opcode
  | some o =>
    if o.native && !slot then .error .opcode
    else if !f.guard.ok then .error .predicate
    else
      match o.form.check f with
      | .error e => .error e
      | .ok _ => .ok (o.build f.guard f)

/-- Decode a Juden word: its instruction, or the condition of R150 that makes it an unassigned encoding. -/
def decode (w : Word) : Except Unassigned Instr := decodeIn false w

/-- Decode the word of a native bundle slot (R287, R291). -/
def decodeSlot (w : Word) : Except Unassigned Instr := decodeIn true w

/-- The word of the given form, predicate, D, A and bits 36:0 (R135). -/
def Op.word (o : Op) (g : Pred) (d a : BitVec 6) (rest : BitVec 37) : Word :=
  Fields.word ⟨BitVec.ofNat 2 (o.key / 256), BitVec.ofNat 8 o.key, g.reg, if g.neg then 1 else 0, d, a, rest⟩

/-- The word of an instruction, from the same encoding tables; none for an event, which is no instruction word. -/
def encode : Instr → Option Word
  | .add g w d a b => some (Op.word .add g d a (RegBits.bits { w := w.bits, b := b }))
  | .sub g w d a b => some (Op.word .sub g d a (RegBits.bits { w := w.bits, b := b }))
  | .mul g w d a b => some (Op.word .mul g d a (RegBits.bits { w := w.bits, b := b }))
  | .mulh g w d a b => some (Op.word .mulh g d a (RegBits.bits { w := w.bits, b := b }))
  | .mulhu g w d a b => some (Op.word .mulhu g d a (RegBits.bits { w := w.bits, b := b }))
  | .div g w d a b => some (Op.word .div g d a (RegBits.bits { w := w.bits, b := b }))
  | .divu g w d a b => some (Op.word .divu g d a (RegBits.bits { w := w.bits, b := b }))
  | .rem g w d a b => some (Op.word .rem g d a (RegBits.bits { w := w.bits, b := b }))
  | .remu g w d a b => some (Op.word .remu g d a (RegBits.bits { w := w.bits, b := b }))
  | .and g w d a b => some (Op.word .and g d a (RegBits.bits { w := w.bits, b := b }))
  | .or g w d a b => some (Op.word .or g d a (RegBits.bits { w := w.bits, b := b }))
  | .xor g w d a b => some (Op.word .xor g d a (RegBits.bits { w := w.bits, b := b }))
  | .sll g w d a b => some (Op.word .sll g d a (RegBits.bits { w := w.bits, b := b }))
  | .srl g w d a b => some (Op.word .srl g d a (RegBits.bits { w := w.bits, b := b }))
  | .sra g w d a b => some (Op.word .sra g d a (RegBits.bits { w := w.bits, b := b }))
  | .min g w d a b => some (Op.word .min g d a (RegBits.bits { w := w.bits, b := b }))
  | .max g w d a b => some (Op.word .max g d a (RegBits.bits { w := w.bits, b := b }))
  | .minu g w d a b => some (Op.word .minu g d a (RegBits.bits { w := w.bits, b := b }))
  | .maxu g w d a b => some (Op.word .maxu g d a (RegBits.bits { w := w.bits, b := b }))
  | .clz g w d a => some (Op.word .clz g d a (RegBits.bits { w := w.bits }))
  | .ctz g w d a => some (Op.word .ctz g d a (RegBits.bits { w := w.bits }))
  | .popc g w d a => some (Op.word .popc g d a (RegBits.bits { w := w.bits }))
  | .brev g w d a => some (Op.word .brev g d a (RegBits.bits { w := w.bits }))
  | .bswap g w d a => some (Op.word .bswap g d a (RegBits.bits { w := w.bits }))
  | .bfx g w d a b c => some (Op.word .bfx g d a (RegBits.bits { w := w.bits, b := b, c := c }))
  | .bfxu g w d a b c => some (Op.word .bfxu g d a (RegBits.bits { w := w.bits, b := b, c := c }))
  | .bfi g w d a b c => some (Op.word .bfi g d a (RegBits.bits { w := w.bits, b := b, c := c }))
  | .cmp g w op d a b => some (Op.word .cmp g (d.setWidth 6) a (RegBits.bits { w := w.bits, op := op.bits, b := b }))
  | .sel g d a b c => some (Op.word .sel g d a (RegBits.bits { b := b, c := c.setWidth 6 }))
  | .addi g d a imm => some (Op.word .addi g d a imm)
  | .andi g d a imm => some (Op.word .andi g d a imm)
  | .ori g d a imm => some (Op.word .ori g d a imm)
  | .xori g d a imm => some (Op.word .xori g d a imm)
  | .slli g d a imm => some (Op.word .slli g d a (imm.setWidth 37))
  | .srli g d a imm => some (Op.word .srli g d a (imm.setWidth 37))
  | .srai g d a imm => some (Op.word .srai g d a (imm.setWidth 37))
  | .muli g d a imm => some (Op.word .muli g d a imm)
  | .li g d imm => some (Op.word .li g d 0 imm)
  | .lhi g d a imm => some (Op.word .lhi g d a (imm.setWidth 37))
  | .fadd g rm d a b => some (Op.word .fadd g d a (RegBits.bits { rm := rm.bits, b := b }))
  | .fsub g rm d a b => some (Op.word .fsub g d a (RegBits.bits { rm := rm.bits, b := b }))
  | .fmul g rm d a b => some (Op.word .fmul g d a (RegBits.bits { rm := rm.bits, b := b }))
  | .fdiv g rm d a b => some (Op.word .fdiv g d a (RegBits.bits { rm := rm.bits, b := b }))
  | .fsqrt g rm d a => some (Op.word .fsqrt g d a (RegBits.bits { rm := rm.bits }))
  | .fma g rm d a b c => some (Op.word .fma g d a (RegBits.bits { rm := rm.bits, b := b, c := c }))
  | .fmin g d a b => some (Op.word .fmin g d a (RegBits.bits { b := b }))
  | .fmax g d a b => some (Op.word .fmax g d a (RegBits.bits { b := b }))
  | .fcmp g op d a b => some (Op.word .fcmp g (d.setWidth 6) a (RegBits.bits { op := op.bits, b := b }))
  | .fcvt g rm sat fa fb d a => some (Op.word .fcvt g d a (RegBits.bits { rm := rm.bits, sat := if sat then 1 else 0, fa := fa, fb := fb }))
  | .fcvti g w rm sat d a => some (Op.word .fcvti g d a (RegBits.bits { w := w.bits, rm := rm.bits, sat := if sat then 1 else 0 }))
  | .icvtf g w rm d a => some (Op.word .icvtf g d a (RegBits.bits { w := w.bits, rm := rm.bits }))
  | .fclass g d a => some (Op.word .fclass g d a 0)
  | .fsgn g op d a b => some (Op.word .fsgn g d a (RegBits.bits { op := op.bits, b := b }))
  | .pand g d a b => some (Op.word .pand g (d.setWidth 6) (a.setWidth 6) (RegBits.bits { b := b.setWidth 6 }))
  | .por g d a b => some (Op.word .por g (d.setWidth 6) (a.setWidth 6) (RegBits.bits { b := b.setWidth 6 }))
  | .pxor g d a b => some (Op.word .pxor g (d.setWidth 6) (a.setWidth 6) (RegBits.bits { b := b.setWidth 6 }))
  | .pandn g d a b => some (Op.word .pandn g (d.setWidth 6) (a.setWidth 6) (RegBits.bits { b := b.setWidth 6 }))
  | .ptest g d a => some (Op.word .ptest g (d.setWidth 6) a 0)
  | .pget g d a => some (Op.word .pget g d (a.setWidth 6) 0)
  | .cmov g d a => some (Op.word .cmov g d.bits a.bits 0)
  | .cnrow g d a b c => some (Op.word .cnrow g d.bits a.bits (RegBits.bits { b := b, c := c }))
  | .cnbyte g d a b c => some (Op.word .cnbyte g d.bits a.bits (RegBits.bits { b := b, c := c }))
  | .cnstride g d a b => some (Op.word .cnstride g d.bits a.bits (RegBits.bits { b := b }))
  | .cnperm g d a op => some (Op.word .cnperm g d.bits a.bits (RegBits.bits { op := op.setWidth 5 }))
  | .cfmt g d a fa => some (Op.word .cfmt g d.bits a.bits (RegBits.bits { fa := fa }))
  | .cget g op d a => some (Op.word .cget g d a.bits (RegBits.bits { op := op.bits }))
  | .ctab g d imm => some (Op.word .ctab g d.bits 0 imm)
  | .vadd g w sat d a b => some (Op.word .vadd g (d.setWidth 6) (a.setWidth 6) (RegBits.bits { w := w.bits, sat := if sat then 1 else 0, b := b.bits, bc := b.bc }))
  | .vsub g w sat d a b => some (Op.word .vsub g (d.setWidth 6) (a.setWidth 6) (RegBits.bits { w := w.bits, sat := if sat then 1 else 0, b := b.bits, bc := b.bc }))
  | .vmul g w d a b => some (Op.word .vmul g (d.setWidth 6) (a.setWidth 6) (RegBits.bits { w := w.bits, b := b.bits, bc := b.bc }))
  | .vmulh g w d a b => some (Op.word .vmulh g (d.setWidth 6) (a.setWidth 6) (RegBits.bits { w := w.bits, b := b.bits, bc := b.bc }))
  | .vmin g w d a b => some (Op.word .vmin g (d.setWidth 6) (a.setWidth 6) (RegBits.bits { w := w.bits, b := b.bits, bc := b.bc }))
  | .vmax g w d a b => some (Op.word .vmax g (d.setWidth 6) (a.setWidth 6) (RegBits.bits { w := w.bits, b := b.bits, bc := b.bc }))
  | .vminu g w d a b => some (Op.word .vminu g (d.setWidth 6) (a.setWidth 6) (RegBits.bits { w := w.bits, b := b.bits, bc := b.bc }))
  | .vmaxu g w d a b => some (Op.word .vmaxu g (d.setWidth 6) (a.setWidth 6) (RegBits.bits { w := w.bits, b := b.bits, bc := b.bc }))
  | .vand g w d a b => some (Op.word .vand g (d.setWidth 6) (a.setWidth 6) (RegBits.bits { w := w.bits, b := b.bits, bc := b.bc }))
  | .vor g w d a b => some (Op.word .vor g (d.setWidth 6) (a.setWidth 6) (RegBits.bits { w := w.bits, b := b.bits, bc := b.bc }))
  | .vxor g w d a b => some (Op.word .vxor g (d.setWidth 6) (a.setWidth 6) (RegBits.bits { w := w.bits, b := b.bits, bc := b.bc }))
  | .vsll g w d a b => some (Op.word .vsll g (d.setWidth 6) (a.setWidth 6) (RegBits.bits { w := w.bits, b := b.bits, bc := b.bc }))
  | .vsrl g w d a b => some (Op.word .vsrl g (d.setWidth 6) (a.setWidth 6) (RegBits.bits { w := w.bits, b := b.bits, bc := b.bc }))
  | .vsra g w d a b => some (Op.word .vsra g (d.setWidth 6) (a.setWidth 6) (RegBits.bits { w := w.bits, b := b.bits, bc := b.bc }))
  | .vabs g w d a => some (Op.word .vabs g (d.setWidth 6) (a.setWidth 6) (RegBits.bits { w := w.bits }))
  | .vcmp g w op d a b => some (Op.word .vcmp g (d.setWidth 6) (a.setWidth 6) (RegBits.bits { w := w.bits, op := op.bits, b := b.bits, bc := b.bc }))
  | .vsel g w d a b c => some (Op.word .vsel g (d.setWidth 6) (a.setWidth 6) (RegBits.bits { w := w.bits, b := b.bits, bc := b.bc, c := c.setWidth 6 }))
  | .vfadd g rm d a b => some (Op.word .vfadd g (d.setWidth 6) (a.setWidth 6) (RegBits.bits { rm := rm.bits, b := b.bits, bc := b.bc, w := Width.w32.bits }))
  | .vfsub g rm d a b => some (Op.word .vfsub g (d.setWidth 6) (a.setWidth 6) (RegBits.bits { rm := rm.bits, b := b.bits, bc := b.bc, w := Width.w32.bits }))
  | .vfmul g rm d a b => some (Op.word .vfmul g (d.setWidth 6) (a.setWidth 6) (RegBits.bits { rm := rm.bits, b := b.bits, bc := b.bc, w := Width.w32.bits }))
  | .vfdiv g rm d a b => some (Op.word .vfdiv g (d.setWidth 6) (a.setWidth 6) (RegBits.bits { rm := rm.bits, b := b.bits, bc := b.bc, w := Width.w32.bits }))
  | .vfma g rm d a b c => some (Op.word .vfma g (d.setWidth 6) (a.setWidth 6) (RegBits.bits { rm := rm.bits, b := b.bits, bc := b.bc, c := c.setWidth 6, w := Width.w32.bits }))
  | .vfsqrt g rm d a => some (Op.word .vfsqrt g (d.setWidth 6) (a.setWidth 6) (RegBits.bits { rm := rm.bits, w := Width.w32.bits }))
  | .vfmin g d a b => some (Op.word .vfmin g (d.setWidth 6) (a.setWidth 6) (RegBits.bits { b := b.bits, bc := b.bc, w := Width.w32.bits }))
  | .vfmax g d a b => some (Op.word .vfmax g (d.setWidth 6) (a.setWidth 6) (RegBits.bits { b := b.bits, bc := b.bc, w := Width.w32.bits }))
  | .vfcmp g op d a b => some (Op.word .vfcmp g (d.setWidth 6) (a.setWidth 6) (RegBits.bits { op := op.bits, b := b.bits, bc := b.bc, w := Width.w32.bits }))
  | .vcvt g rm sat fa fb d a => some (Op.word .vcvt g (d.setWidth 6) (a.setWidth 6) (RegBits.bits { rm := rm.bits, sat := if sat then 1 else 0, fa := fa, fb := fb }))
  | .vfdot g fa d a b c => some (Op.word .vfdot g (d.setWidth 6) (a.setWidth 6) (RegBits.bits { fa := fa, b := b.setWidth 6, c := c }))
  | .vfsgn g op d a b => some (Op.word .vfsgn g (d.setWidth 6) (a.setWidth 6) (RegBits.bits { op := op.bits, b := b.bits, bc := b.bc, w := Width.w32.bits }))
  | .vperm g w d a b => some (Op.word .vperm g (d.setWidth 6) (a.setWidth 6) (RegBits.bits { w := w.bits, b := b.setWidth 6 }))
  | .vzip g w d a b => some (Op.word .vzip g (d.setWidth 6) (a.setWidth 6) (RegBits.bits { w := w.bits, b := b.setWidth 6 }))
  | .vunzip g w d a b => some (Op.word .vunzip g (d.setWidth 6) (a.setWidth 6) (RegBits.bits { w := w.bits, b := b.setWidth 6 }))
  | .vslide g w d a b => some (Op.word .vslide g (d.setWidth 6) (a.setWidth 6) (RegBits.bits { w := w.bits, b := b, bc := 1 }))
  | .vbcast g w d a b => some (Op.word .vbcast g (d.setWidth 6) (a.setWidth 6) (RegBits.bits { w := w.bits, b := b, bc := 1 }))
  | .vext g w d a b => some (Op.word .vext g d (a.setWidth 6) (RegBits.bits { w := w.bits, b := b, bc := 1 }))
  | .vins g w d a b => some (Op.word .vins g (d.setWidth 6) a (RegBits.bits { w := w.bits, b := b, bc := 1 }))
  | .viota g w d => some (Op.word .viota g (d.setWidth 6) 0 (RegBits.bits { w := w.bits }))
  | .vmov g w d b => some (Op.word .vmov g (d.setWidth 6) 0 (RegBits.bits { w := w.bits, b := b.bits, bc := b.bc }))
  | .vred g w op d a => some (Op.word .vred g d (a.setWidth 6) (RegBits.bits { w := w.bits, op := op.bits }))
  | .vfred g rm op d a => some (Op.word .vfred g d (a.setWidth 6) (RegBits.bits { rm := rm.bits, op := op.bits, w := Width.w32.bits }))
  | .vscan g w op d a => some (Op.word .vscan g (d.setWidth 6) (a.setWidth 6) (RegBits.bits { w := w.bits, op := op.bits }))
  | .vfscan g rm op d a => some (Op.word .vfscan g (d.setWidth 6) (a.setWidth 6) (RegBits.bits { rm := rm.bits, op := op.bits, w := Width.w32.bits }))
  | .vfaffine g rm d a b => some (Op.word .vfaffine g (d.setWidth 6) (a.setWidth 6) (RegBits.bits { rm := rm.bits, b := b.setWidth 6, w := Width.w32.bits }))
  | .vld g d m => some (Op.word .vld g (d.setWidth 6) m.cap.bits (MemBits.bits { b := m.idx, off := m.off, hint := m.hint.bits, bc := 1 }))
  | .vst g m d => some (Op.word .vst g (d.setWidth 6) m.cap.bits (MemBits.bits { b := m.idx, off := m.off, hint := m.hint.bits, bc := 1 }))
  | .vgather g w d m => some (Op.word .vgather g (d.setWidth 6) m.cap.bits (MemBits.bits { w := w.bits, b := m.idx.setWidth 6, off := m.off, hint := m.hint.bits }))
  | .vscatter g w m d => some (Op.word .vscatter g (d.setWidth 6) m.cap.bits (MemBits.bits { w := w.bits, b := m.idx.setWidth 6, off := m.off, hint := m.hint.bits }))
  | .vamo g w op scope m d => some (Op.word .vamo g (d.setWidth 6) m.cap.bits (MemBits.bits { w := w.bits, mop := op.bits, scope := scope.bits, b := m.idx.setWidth 6, off := m.off, hint := m.hint.bits }))
  | .ld g w d m => some (Op.word .ld g d m.cap.bits (MemBits.bits { w := w.bits, b := m.idx, off := m.off, hint := m.hint.bits }))
  | .ldu g w d m => some (Op.word .ldu g d m.cap.bits (MemBits.bits { w := w.bits, b := m.idx, off := m.off, hint := m.hint.bits }))
  | .st g w m d => some (Op.word .st g d m.cap.bits (MemBits.bits { w := w.bits, b := m.idx, off := m.off, hint := m.hint.bits }))
  | .ldq g d m => some (Op.word .ldq g (d.setWidth 6) m.cap.bits (MemBits.bits { b := m.idx, off := m.off, hint := m.hint.bits }))
  | .stq g m d => some (Op.word .stq g (d.setWidth 6) m.cap.bits (MemBits.bits { b := m.idx, off := m.off, hint := m.hint.bits }))
  | .ldacq g w scope d m => some (Op.word .ldacq g d m.cap.bits (MemBits.bits { w := w.bits, scope := scope.bits, b := m.idx, off := m.off, hint := m.hint.bits }))
  | .strel g w scope m d => some (Op.word .strel g d m.cap.bits (MemBits.bits { w := w.bits, scope := scope.bits, b := m.idx, off := m.off, hint := m.hint.bits }))
  | .amo g w op scope d m c => some (Op.word .amo g d m.cap.bits (MemBits.bits { w := w.bits, mop := op.bits, scope := scope.bits, b := m.idx, off := m.off, hint := m.hint.bits, c := c }))
  | .amoCas g w scope d m c => some (Op.word .amoCas g d m.cap.bits (MemBits.bits { w := w.bits, scope := scope.bits, b := m.idx, off := m.off, hint := m.hint.bits, c := c }))
  | .fence g scope hint => some (Op.word .fence g 0 0 (RegBits.bits { scope := scope.bits, hint := hint.bits }))
  | .feClear g m => some (Op.word .feClear g 0 m.cap.bits (MemBits.bits { b := m.idx, off := m.off, hint := m.hint.bits }))
  | .feSet g m => some (Op.word .feSet g 0 m.cap.bits (MemBits.bits { b := m.idx, off := m.off, hint := m.hint.bits }))
  | .feWait g m => some (Op.word .feWait g 0 m.cap.bits (MemBits.bits { b := m.idx, off := m.off, hint := m.hint.bits }))
  | .tlWait g hint a b => some (Op.word .tlWait g 0 a.bits (RegBits.bits { hint := hint.bits, b := b }))
  | .tlRead g d a => some (Op.word .tlRead g d a.bits 0)
  | .barInit g m d => some (Op.word .barInit g d m.cap.bits (MemBits.bits { b := m.idx, off := m.off, hint := m.hint.bits }))
  | .barArrive g m => some (Op.word .barArrive g 0 m.cap.bits (MemBits.bits { b := m.idx, off := m.off, hint := m.hint.bits }))
  | .barWait g m => some (Op.word .barWait g 0 m.cap.bits (MemBits.bits { b := m.idx, off := m.off, hint := m.hint.bits }))
  | .hbar g op hint => some (Op.word .hbar g 0 0 (RegBits.bits { op := op.setWidth 5, hint := hint.bits }))
  | .sigPost g m d c => some (Op.word .sigPost g d m.cap.bits (MemBits.bits { b := m.idx, off := m.off, hint := m.hint.bits, c := c }))
  | .sigWait g m d => some (Op.word .sigWait g d m.cap.bits (MemBits.bits { b := m.idx, off := m.off, hint := m.hint.bits }))
  | .fwdPut g a b => some (Op.word .fwdPut g 0 a.bits (RegBits.bits { b := b.setWidth 6 }))
  | .fwdGet g d a => some (Op.word .fwdGet g (d.setWidth 6) a.bits 0)
  | .pumpLd g d a b c => some (Op.word .pumpLd g (d.setWidth 6) a.bits (RegBits.bits { b := b.bits, c := c }))
  | .pumpSt g d a b c => some (Op.word .pumpSt g (d.setWidth 6) a.bits (RegBits.bits { b := b.bits, c := c }))
  | .br g imm => some (Op.word .br g 0 0 imm)
  | .call g imm => some (Op.word .call g 0 0 imm)
  | .loop g a imm => some (Op.word .loop g 0 a imm)
  | .jr g a => some (Op.word .jr g 0 a 0)
  | .callr g a => some (Op.word .callr g 0 a 0)
  | .ret g => some (Op.word .ret g 0 0 0)
  | .rcall g imm => some (Op.word .rcall g 0 0 imm)
  | .yield g => some (Op.word .yield g 0 0 0)
  | .rdv g => some (Op.word .rdv g 0 0 0)
  | .sys g imm => some (Op.word .sys g 0 0 (imm.setWidth 37))
  | .trap g imm => some (Op.word .trap g 0 0 (imm.setWidth 37))
  | .eret g => some (Op.word .eret g 0 0 0)
  | .rdc g d a => some (Op.word .rdc g d a 0)
  | .wrc g d a => some (Op.word .wrc g d a 0)
  | .dlRead g d => some (Op.word .dlRead g d 0 0)
  | .vflagSet g a b => some (Op.word .vflagSet g 0 a.bits (RegBits.bits { b := b }))
  | .nop g => some (Op.word .nop g 0 0 0)
  | .bkpt g => some (Op.word .bkpt g 0 0 0)
  | .nxStub g imm => some (Op.word .nxStub g 0 0 imm)
  | .nxRbeg g imm => some (Op.word .nxRbeg g 0 0 imm)
  | .nxRend g => some (Op.word .nxRend g 0 0 0)
  | .nxRyld g imm => some (Op.word .nxRyld g 0 0 imm)
  | .nxMpush g op a b c => some (Op.word .nxMpush g 0 a.bits (RegBits.bits { op := op.bits, b := b.bits, c := c }))
  | .nxDtab g a => some (Op.word .nxDtab g 0 a.bits 0)
  | .nxSpill g a imm => some (Op.word .nxSpill g 0 (a.setWidth 6) imm)
  | .nxFill g d imm => some (Op.word .nxFill g (d.setWidth 6) 0 imm)
  | .nxVfn g op d a => some (Op.word .nxVfn g (d.setWidth 6) (a.setWidth 6) (RegBits.bits { op := op.bits }))
  | .firmwareCallVersion _ => none
  | .sysRaiseCause _ => none
  | .sysTranslateFunction _ => none
  | .regionCommit _ => none
  | .walk _ => none
  | .xinval _ => none
  | .shootdownReceive _ => none
  | .shootdownAcknowledge _ => none
  | .stallEnd _ _ => none
  | .feWaitEnd _ _ => none
  | .tlWaitEnd _ _ => none
  | .barWaitEnd _ _ => none
  | .sigWaitEnd _ _ => none
  | .forwardingWaitEnd _ _ => none
  | .hbarRelease _ => none
  | .pumpUnit _ _ _ => none
  | .pumpResume _ _ => none
  | .peerLineArrival _ => none
  | .remoteBarrierDecrement _ => none
  | .peerErrorResponse _ _ _ => none
  | .sigPostPerform _ => none
  | .mmWload => none
  | .mmWdecode => none
  | .mmSwap => none
  | .mmAct => none
  | .mmDrain => none
  | .mmZero => none
  | .wload _ => none
  | .wloadc _ => none
  | .table _ => none
  | .decode _ => none
  | .swap _ => none
  | .act _ => none
  | .zero _ => none
  | .drain _ => none
  | .matrixResume _ => none
  | .decodeResume _ => none
  | .tileCopy => none
  | .tileTranspose => none
  | .tileCvt => none
  | .tileGather => none
  | .tileScatter => none
  | .tileLdscale => none
  | .scanAdd => none
  | .scanAffine => none
  | .redSum => none
  | .redMax => none
  | .redAmax => none
  | .scaleFold => none
  | .ewExp => none
  | .ewSigmoid => none
  | .ewSilu => none
  | .ewGelu => none
  | .ewRsqrt => none
  | .normRms => none
  | .normLayer => none
  | .softmaxRow => none
  | .ssmChunk => none
  | .hashMul => none
  | .decodeSeg => none
  | .accAddrow => none
  | .quantRow => none
  | .topkRow => none
  | .submit _ _ => none
  | .nodeAdmission _ => none
  | .nodeDispatch _ => none
  | .overlaySwap _ => none
  | .nodeCompletion _ => none
  | .evset _ _ _ => none
  | .evclr _ _ _ => none
  | .hold _ _ => none
  | .preemption _ _ => none
  | .gangSlotEdge => none
  | .groupTableWrite _ _ _ => none
  | .grantTableWrite _ _ _ => none
  | .tileReset _ => none
  | .tileResetRelease _ => none
  | .tileResetExit _ => none
  | .callTime _ => none
  | .diversion _ => none
  | .hardStop _ => none
  | .engineFaultPassOn _ _ => none
  | .streamResume _ => none
  | .streamAbandon _ => none
  | .cfrtail _ => none
  | .correctableError _ _ => none
  | .freezeEnd _ => none
  | .uncorrectableError _ _ => none
  | .ptpMessage _ _ => none
  | .pulsePerSecondOutput => none
  | .pulsePerSecondInput _ => none
  | .deviceReset _ => none
  | .bootImageFetch _ => none
  | .bootRetry => none
  | .attreq _ => none
  | .attestationReport => none
  | .ettxtail _ _ => none
  | .etrxtail _ _ => none
  | .etctl _ _ => none
  | .ethernetTransmit _ => none
  | .ethernetReceive _ _ => none
  | .linkTraining _ _ => none
  | .flitReceive _ _ => none
  | .negativeAcknowledgement _ _ => none
  | .pcieBar0Access _ _ => none
  | .pcieBar2Access _ _ => none
  | .codeObjectLoad _ _ _ _ => none
  | .thermalThrottle _ => none
  | .overheat => none
  | .powerGate _ => none
  | .deviceRegisterWrite _ _ _ _ => none
  | .illegalInstruction => none
  | .hostCoreAccess _ _ => none
  | .holdover => none
  | .ethernetLinkChange _ _ => none
  | .networkTimeout => none

/-- The instruction's word (zero for an event). -/
def encodeWord (i : Instr) : Word := (encode i).getD 0

/-- A word as the eight bytes that memory holds, lowest address first (R135, R5). -/
def wordBytes (w : Word) : List Byte :=
  (List.range 8).map fun k => w.extractLsb' (8 * k) 8

/-- The word that eight bytes hold, lowest address first (R135, R5). -/
def wordOfBytes (bs : List Byte) : Word :=
  bs.foldr (fun b w => (w <<< 8) ||| b.setWidth 64) 0

/-- The instruction that the decoder reads from an instruction whose bits are `w`, numbered as spec/opcode_table.json
numbers them: a Juden instruction is one little-endian 64-bit word (R135); a native-only operation is read as the word
of its bundle slot (R291). -/
def decodeTableWord (nbits w : Nat) : Option Instr :=
  let word := wordOfBytes (wordBytes (BitVec.ofNat 64 (w % 2 ^ nbits)))
  match decode word with
  | .ok i => some i
  | .error _ =>
    match decodeSlot word with
    | .ok i => some i
    | .error _ => none

end Sys2Proof
end

