-- ==== Sys2Proof/Machine/State.lean ====
section
/-! DEFINITION. The machine's state, as plain data, and its value after device reset. Every field names the rule of
spec/ that gives it; where the spec gives no reset value, the log entry that chose one. -/

namespace Sys2Proof.Machine

/-- How the machine stops with a fault. No rule of the spec stops the machine as a whole; these are the ends of a step
to which the spec gives no effect at all. -/
inductive Fault where
  /-- Raised when the firmware context of a tile takes a fault of its own: the spec gives a trap frame, a handler and a
  return only to the user stream (R372, R377, R378). Safe: the model stops where the hardware does something unstated. -/
  | firmwareFault (t : TileId) (cause : BitVec 8)
deriving DecidableEq, Repr

/-- Why an instruction is refused. -/
inductive Refusal where
  /-- An arm of `exec` that has no meaning yet. Safe: nothing is claimed of the instruction. -/
  | notModelled (mnemonic : String)
deriving DecidableEq, Repr

/-- The states of a stream (R331). A stream in Clearing is `running` with `diverted` set. -/
inductive StreamState where
  | idle | loaded | running | stalled | waiting | trapped | ended | stopped
deriving DecidableEq, Repr

/-- What a stalled or waiting stream waits for (R89, R90, R202, R214, R215, R261). -/
inductive Wait where
  | none
  /-- A whole-tile stall on an empty line, by line number (R86, R89). -/
  | line (n : Nat)
  /-- A whole-tile stall on an access to the cistern of a frozen tile (R98). -/
  | thaw (t : TileId)
  /-- A whole-tile stall on a full signal queue (R215). -/
  | signalQueue
  /-- `fe.wait` on a line (R207). -/
  | full (n : Nat)
  /-- `tl.wait` (R208). -/
  | timeline (a : Timeline) (v : Word)
  /-- `bar.wait` on the object at a physical address, with the recorded generation (R213). -/
  | barrier (pa : Nat) (gen : BitVec 4)
  /-- `sig.wait` on the word at a physical address (R216). -/
  | signal (pa : Nat) (va : Word) (v : Word)
  /-- `fwd.put` of a vector towards a full port (R217). -/
  | put (a : Port) (x : Vec)
  /-- `fwd.get` from an empty port (R217). -/
  | get (a : Port) (d : VReg)
  /-- `rdv`, the k-th rendezvous of the job (R177). -/
  | rendezvous (k : Nat)
  /-- `hbar` on a route tag (R214). -/
  | hardwareBarrier (tag : BitVec 3)
  /-- An asynchronous `rcall` on a full compute queue (R261). -/
  | computeQueue
  /-- `acc.addrow` waiting for `tlm` to catch up with its issue number (R281). -/
  | matrixCatchUp
deriving DecidableEq, Repr

/-- A stream's barrier record (R213). -/
structure BarrierRecord where
  va  : BitVec 48
  gen : BitVec 4
deriving DecidableEq, Repr

/-- The catalogue routines (R256, R268 to R283), in the order of the spec. -/
inductive Routine where
  | mmWload | mmWdecode | mmSwap | mmAct | mmDrain | mmZero
  | tileCopy | tileTranspose | tileCvt | tileGather | tileScatter | tileLdscale
  | scanAdd | scanAffine | redSum | redMax | redAmax | scaleFold
  | ewExp | ewSigmoid | ewSilu | ewGelu | ewRsqrt
  | normRms | normLayer | softmaxRow | ssmChunk | hashMul | decodeSeg | accAddrow | quantRow | topkRow
deriving DecidableEq, Repr

/-- A capability's bits with its tag (R119). -/
structure Cap where
  bits : Quad
  tag  : Bool
deriving DecidableEq, Repr

/-- A command of the compute queue with its operands (R234). -/
inductive MatCmd where
  | wload (w sc : Cap)
  | wloadc (hdr : Cap) (t0 t1 : BitVec 24) (sc : Cap)
  | table (hdr : Cap)
  | decode (hdr : Cap) (tile : Word) (dst : Cap)
  | swap
  | act (a sc : Cap) (abase : Word)
  | zero (abase count : Word)
  | drain (dst q : Cap) (abase : Word) (rm : Rm) (sat za : Bool)
deriving DecidableEq, Repr

/-- A translation that a TLB holds (R33). -/
structure TlbEntry where
  /-- The page's first virtual page number, and the number of low bits of it that the page spans: 0, 4, 9 or 18. -/
  vpn    : BitVec 36
  span   : Nat
  asid   : BitVec 16
  /-- Bits of the leaf: G, U, X, W, R, A, D and PBMT, and the page's first physical page number. -/
  g      : Bool
  u      : Bool
  x      : Bool
  w      : Bool
  r      : Bool
  d      : Bool
  pbmt   : BitVec 2
  ppn    : BitVec 44
deriving DecidableEq, Repr

/-- An active routine call (R252): the routine's place, its return address, and the path it runs on (R253). -/
structure CallFrame where
  /-- The native implementation, when the call took that path and has not left it. -/
  native  : Option Routine
  /-- The address of the first word of the definition's body. -/
  body    : Word
  /-- The words of the body (R247). -/
  ninsn   : Nat
  /-- Where the routine returns: the word after the `rcall`. -/
  ret     : Word
  /-- s1 before the `rcall`, which a native check that fails at the `rcall` puts back (R261). -/
  link    : Word
  /-- ASY of the record (R261). -/
  asy     : Bool
  /-- The counter that the asynchronous call numbers, and its number (R261), on the definition path. -/
  number  : Option (Timeline × Word)
  /-- SCRATCH of the record: the scratch area is cpv s2 − SCRATCH .. s2 − 1 (R252). -/
  scratch : Nat
  /-- The call's place in the routine table of its code object: object and entry. -/
  object  : Nat
  entry   : Nat
  /-- The progress of a native unit: the next row or step of the routine (R263). -/
  prog    : Nat
  aux     : Quad
  /-- The command that the call stands for, on the definition path of a routine that pushes one (R83). -/
  cmd     : Option MatCmd
  /-- Where native issue resumes at the return: the RP bundle of the region that the `rcall` ended, and its position
  entry (R296). -/
  rejoin  : Option (Word × Nat)
deriving DecidableEq, Repr

/-- A register write of a native bundle that has not landed (R289, R290). -/
inductive NativeReg where
  | s (r : SReg) | cpv | v (r : VReg) | p (r : PReg)
deriving DecidableEq, Repr

/-- A pending native write: the cycle at which it lands, the register and its value. -/
structure PendingWrite where
  at_ : Nat
  reg : NativeReg
  val : Vec
  tag : Bool
deriving DecidableEq, Repr

/-- A store held in the region store buffer (R295): one part of an access, by its virtual and its physical address, with
the swizzle mask that maps its bytes (R97). -/
structure BufferedWrite where
  va    : Word
  pa    : Nat
  mask  : Option Word
  bytes : List Byte
  /-- The cached translation that the access used (R42). -/
  via   : Option TlbEntry
deriving DecidableEq, Repr

/-- The registers that a recovery region undoes (R295, R296), and the fraction that a read of `DTIME` latches (R125). -/
structure NativeUndo where
  s      : Vector Word 64
  tags   : BitVec 32
  p      : BitVec 16
  v      : Vector Vec 16
  fpctl  : BitVec 32
  dtimef : BitVec 16
deriving DecidableEq, Repr

/-- A lane of a `vamo` that has passed its checks and is still to be performed (R205): its number, its addresses, the
mask of its access and the cached translation that it used. -/
structure LanePart where
  lane : Nat
  va   : Word
  pa   : Nat
  mask : Option Word
  via  : Option TlbEntry
deriving DecidableEq, Repr

/-- The last bundle of a finished region: its region-ending operation and its transfer, its position entry, the cycle
that it issued in and the address of the bundle after it (R286, R294). -/
structure Finished where
  ending   : Option Instr
  transfer : Option Instr
  pmi      : Nat
  issued   : Nat
  next     : Word
deriving DecidableEq, Repr

/-- A native stream (R285 to R299): the bundle that issues next, the native vector registers, the writes still to land,
and the region in progress. -/
structure Native where
  /-- The native address of the next bundle. -/
  npc      : Word
  /-- Issue cycles counted so far, the time base of R289. A stall, a wait and a freeze count none, since every operation
  in flight holds its place (R19, R90). -/
  cycle    : Nat
  pending  : List PendingWrite
  /-- The region store buffer (R295), and the writes that the region has made (R294). -/
  buffer   : List BufferedWrite
  writes   : Nat
  /-- No bundle of the region has issued (R294). -/
  atStart  : Bool
  /-- Undo copies as the region began (R295). -/
  undo     : NativeUndo
  /-- A finished region waits to commit: its last bundle. -/
  finished : Option Finished
  /-- The registers that the region-ending operation and the transfer read as the last bundle issued (R288). -/
  view     : NativeUndo
  /-- The finished region's writes are performed, and its region-ending operation has begun (R295). -/
  opened   : Bool
  /-- The routine-table index of an open `nx.rbeg` bracket (R291). -/
  bracket  : Option Nat
  /-- The bundle whose `call` led to the next one, for the patch of a call site (R301). -/
  site     : Option Word
deriving DecidableEq, Repr

/-- The stream of one hardware context: its registers (R116) and its progress. -/
structure Stream where
  state    : StreamState
  wait     : Wait
  /-- The stream has been diverted and runs clearing code (R331, R357). -/
  diverted : Bool
  /-- The stream has executed an instruction (R356, R363). -/
  begun    : Bool
  pc       : Word
  s        : Vector Word 64
  /-- Bit n: the tag of cn (R119). -/
  tags     : BitVec 32
  cpv      : Quad
  cpvTag   : Bool
  v        : Vector Vec 32
  /-- Native vector registers (R116, R287). -/
  nv       : Vector Vec 16
  p        : BitVec 16
  xm       : Vector Word 16
  /-- fwn, fwe, fws, fww: entries, oldest first (R123). -/
  ports    : Vector (List Vec) 4
  fpctl    : BitVec 32
  dpc      : Word
  /-- The fraction latched by the last read of `DTIME` (R125). -/
  dtimef   : BitVec 16
  vpos     : Word
  /-- REFA, SCB and REF in bits 2, 1, 0 (R254). -/
  ctxcfg   : Word
  ctxroot  : Word
  barrier  : Option BarrierRecord
  /-- Rendezvous arrivals since job start (R177). -/
  arrivals : Nat
  /-- Active routine calls, innermost first (R252). -/
  calls    : List CallFrame
  /-- The lanes that a stalled `vamo` still has to perform (R205, R198). -/
  vamoTodo : List LanePart
  /-- A whole-tile stall has ended and its access is about to complete, before any interruption (R198, R356, R372). -/
  woken    : Bool
  /-- The next instruction is performed as a Juden instruction, in the replay of a region (R296). -/
  single   : Bool
  /-- The RP bundle after which native issue resumes once a replay has reached the end of its region, and the position
  entry of that end (R296). -/
  rejoin   : Option (Word × Nat)
  /-- The stream has gone on since a call time was noted (R356). -/
  went     : Bool
  /-- Flags that the matrix engine has raised while the stream is trapped, which its return ORs into `FPCTL` (R62,
  R236). -/
  late     : BitVec 5
  native   : Option Native
deriving DecidableEq, Repr

/-- A command in a pump queue (R103, R107), with its progress (R105). -/
structure PumpCmd where
  k      : BitVec 2
  number : Word
  dst    : Quad
  src    : Quad
  desc   : Word
  jobtag : BitVec 16
  row    : Nat
  byte   : Nat
  /-- Peer transfers: the bytes read so far of the line to be sent. -/
  line   : List Byte
  /-- Barrier counts still to be made for the last unit (R109): outbound and inbound. -/
  oweOut : Bool
  oweIn  : Bool
  /-- The tile whose cistern holds the command's first destination byte (R109). -/
  home   : Option TileId
  /-- The virtual pages that accesses of the command have entered (R35). -/
  pages  : List Nat
deriving DecidableEq, Repr

/-- Why a pump context is halted (R111, R112). -/
structure PumpHalt where
  store : Bool
  cause : BitVec 8
  side  : Bool
  addr  : Word
deriving DecidableEq, Repr

/-- A pump context (R107, R112). -/
structure PumpCtx where
  tlp    : Word
  issue  : Word
  /-- Numbers above `tlp` whose commands are complete (R107). -/
  done   : List Word
  halt   : Option PumpHalt
  /-- The queue whose head was performed last, for ROW and BYTE of `PSTATn`. -/
  last   : Bool
deriving DecidableEq, Repr

/-- A command of the compute queue and its number (R234). -/
structure MatEntry where
  cmd    : MatCmd
  number : Word
deriving DecidableEq, Repr

/-- A weight bank (R232): column n in row n of `w`, packed by R51; WK codes from bit 0 up, WN codes likewise (R233). -/
structure Bank where
  w     : Vector (BitVec 2048) 128
  fmt   : Fmt
  wk    : BitVec 256
  wn    : BitVec 1024
  valid : Bool
deriving DecidableEq, Repr

/-- Why the engine is halted (R243, R244); `well` for a wellhead command, which reports by `WHSTAT`. -/
structure MatHalt where
  cause : BitVec 8
  opnd  : BitVec 3
  addr  : Word
  well  : Bool
deriving DecidableEq, Repr

/-- The matrix engine and the wellhead of a tile (R71, R78, R232 to R243). -/
structure Matrix where
  bank0  : Bank
  bank1  : Bank
  ab     : Bool
  acc    : Vector (BitVec 4096) 1024
  queue  : List MatEntry
  tlm    : Word
  tlw    : Word
  issueM : Word
  issueW : Word
  /-- Numbers above `tlm` and `tlw` whose commands or calls are complete (R261). -/
  doneM  : List Word
  doneW  : List Word
  /-- The head command has passed its start checks. -/
  begun  : Bool
  rowp   : Nat
  halt   : Option MatHalt
  /-- STATE of `MSTAT` is 0b11: stopped at a hard stop (R245). -/
  stopped : Bool
  /-- Flags of the head command, ORed into `FPCTL` when it completes (R236). -/
  flags  : BitVec 5
  /-- AK codes read at the start of an ACT (R238), and the scale bytes that a load has read. -/
  ak     : BitVec 512
  /-- Weights and scales that a load has read and not yet delivered (R231, R232). -/
  stage  : Bank
  /-- Decoder slots as table records (R69, R71) and their valid bits. -/
  slots  : Vector (BitVec 4096) 8
  mask   : BitVec 8
  /-- The slots and their valid bits as the WLOADC or DECODE at the head found them when it started (R81). -/
  heldSlots : Vector (BitVec 4096) 8
  heldMask  : BitVec 8
  /-- `WHSTAT` (R78). -/
  whTile  : BitVec 24
  whSeg   : BitVec 3
  whSym   : BitVec 11
  whSlot  : BitVec 3
  whCause : BitVec 8
  whState : BitVec 2
  /-- Which of the two tiles of a WLOADC is being decoded. -/
  whSecond : Bool
  /-- The header of the coded tensor that the head command has checked, and the index entry of the tile that it decodes. -/
  header   : BitVec 512
  entry    : Option (BitVec 256)
  /-- The virtual pages that accesses of the head command have entered (R35). -/
  pages    : List Nat
deriving DecidableEq, Repr

/-- A post in the signal queue (R215): `need` is each pump context's issue number at the post, `sent` the sequence
number under which it has been sent to a peer. -/
structure SigPost where
  peer   : Bool
  chip   : BitVec 8
  tile   : TileId
  /-- The word's address as the post reports it: virtual for PEER = 0, the cistern offset for PEER = 1. -/
  addr   : Word
  /-- The word's physical address, for PEER = 0. -/
  pa     : Nat
  amount : Word
  jobtag : BitVec 16
  need   : Vector Word 4
  sent   : Option (BitVec 64)
  /-- The cached translation that the post used, for PEER = 0 (R42). -/
  via    : Option TlbEntry
deriving DecidableEq, Repr

/-- A page-table pointer that the walk cache holds (R33): the level of the entry it was read from (3, 2 or 1), and the
virtual page number bits that lead to it. -/
structure WalkEntry where
  level  : Nat
  prefix_ : BitVec 36
  asid   : BitVec 16
  g      : Bool
  ppn    : BitVec 44
deriving DecidableEq, Repr

/-- Who asks for a walk: the control TLB, or the stream TLB of a pump context or of the matrix engine (R33, R37). -/
inductive Walker where
  | control (side : Side)
  | pump (k : BitVec 2)
  | matrix
deriving DecidableEq, Repr

/-- The kinds of access (R24, R28); a `sig.post` has the rights of an atomic and is performed at its target later
(R215). -/
inductive Access where
  | load | store | atomic | fetch | post
deriving DecidableEq, Repr

/-- A queued walk request (R35, R37). -/
structure WalkReq where
  who    : Walker
  /-- The root through which the walk starts: that of the requester as it asked (R26). -/
  root   : Word
  va     : BitVec 48
  access : Access
  /-- A prefetch walk leaves no trace when it fails (R35). -/
  prefetch : Bool
deriving DecidableEq, Repr

/-- The translation caches of a tile (R33) and its walker (R37, R42). -/
structure Mmu where
  l1      : List TlbEntry
  l2      : List TlbEntry
  streams : Vector (List TlbEntry) 5
  walks   : List WalkEntry
  queue   : List WalkReq
  /-- The received generation (R42). -/
  gen     : BitVec 32
  /-- Shoot-downs received and not yet acknowledged (R42). -/
  unacked : List (BitVec 32)
deriving DecidableEq, Repr

/-- The first tile fault and what stands recorded with it (R372, R373). -/
structure TileFault where
  /-- An engine fault passed on: the stream is still to be trapped at its next boundary (R372). -/
  pending : Bool
  cause   : BitVec 8
  src     : BitVec 4
  esc     : Bool
  res     : Bool
  imm     : BitVec 16
  addr    : Word
  stamp   : Nat
  nsec    : Nat
  /-- The engine fields of the record, as they stood at the cycle of the fault (R375). -/
  engines : List Word
  /-- The sources whose fault the record shows or NSEC counts already (R373). -/
  counted : List (BitVec 4)
deriving DecidableEq, Repr

/-- A node staged in a tile's shadow bank (R346). -/
structure Shadow where
  serial : Nat
  /-- The virtual index of the tile in the node's group. -/
  vidx   : BitVec 8
  /-- The registers of R329 as staged. -/
  s      : Vector Word 64
  tags   : BitVec 32
  cpv    : Quad
  vpos   : Word
  ctxroot : Word
  entry  : Word
  dlcall : Word
  dlhard : Word
  spbase : Word
  pmbase : Word
  /-- Vectors that streams of the node on other tiles have put to this tile's ports before its stream starts (R217). -/
  ports  : Vector (List Vec) 4
deriving DecidableEq, Repr

/-- A tile (R13). -/
structure Tile where
  user     : Stream
  fw       : Stream
  loadQ    : List PumpCmd
  storeQ   : List PumpCmd
  pumps    : Vector PumpCtx 4
  /-- The contexts that the pump last worked for in the load queue and in the store queue (R101). -/
  turnLoad  : BitVec 2
  turnStore : BitVec 2
  mx       : Matrix
  sigQ     : List SigPost
  /-- The signal queue's engine fault, if any (R215). -/
  sigFault : Option (BitVec 8 × Word)
  mmu      : Mmu
  /-- Route tags that this tile has arrived on and not been released from (R214). -/
  hbarArrived : BitVec 8
  shadow   : Option Shadow
  /-- The node whose stream is on the tile, and the node before it. -/
  node     : Option Nat
  lastNode : Option Nat
  /-- The context of the last node that ran on the tile (R346, R350). -/
  lastCtx  : Option CtxId
  /-- The virtual index of the tile in its node's group. -/
  vidx     : BitVec 8
  /-- A deadline diversion waits for the stream's next diversion point: the code of R356 that it records there. -/
  callTime : Option (BitVec 8)
  /-- The first tile fault (R372, R373): the tile is frozen while it stands. -/
  fault    : Option TileFault
  /-- An uncorrectable error lost tile state: the next node starts with context initialisation (R381). -/
  lost     : Bool
  /-- The registers as the last save wrote them (R380). -/
  savedS   : Vector Word 64
  savedTags : BitVec 32
  -- firmware registers (R376); one set per tile
  pmbase   : Word
  spbase   : Word
  dlcall   : Word
  dlhard   : Word
  tcause   : Word
  taddr    : Word
  tpc      : Word
  tsave    : Word
  -- TCFG (R348, R349)
  fwsh     : BitVec 4
  rst      : Bool
  rbusy    : Bool
  /-- A correctable-error freeze is on (R98). -/
  frozen   : Bool
  /-- The tile is power-gated with its cistern in retention (R409, R385). -/
  gated    : Bool
deriving DecidableEq, Repr

/-- A routine-table entry as the loader binds it (R249). -/
structure RoutineEntry where
  hash    : BitVec 128
  body    : Word
  ninsn   : Nat
  asy     : Bool
  scratch : Nat
  callees : List Nat
deriving DecidableEq, Repr

/-- A code object loaded for a context (R303 to R307): the extents, as first address and size, of its code and routine
sections, its tables, and what the job's translation directory and translation cache hold of it. -/
structure CodeObject where
  base     : Word
  fclv     : BitVec 8
  code     : List (Nat × Nat)
  routine  : List (Nat × Nat)
  routines : List RoutineEntry
  caps     : List Quad
  /-- Function entries known to the loader (R300, R309). -/
  funcs    : List Word
  /-- The translation directory, by Juden address and native address (R300, R307): the entries of the native section,
  the stubs of functions, and the translations made. -/
  dir      : List (Word × Word)
  stubs    : List (Word × Word)
  made     : List (Word × Word)
  /-- The bundles that the loader placed in the translation cache, by first address and size, and the length of the
  job's position map once its entries were appended (R302, R307). -/
  bundles  : Nat × Nat
  pmapEnd  : Nat
deriving DecidableEq, Repr

/-- One of the 64 contexts of the well-house (R332). -/
structure Ctx where
  root   : Word
  events : BitVec 256
  subQ   : List Word
  ovf    : Bool
  hold   : Bool
  gsmask : Word
  jobtag : BitVec 16
  /-- Tiles on which the held context has finished pre-emption (R350). -/
  quiet  : List TileId
  /-- Carry registers saved at pre-emption, by virtual position: group identity and virtual index (R341, R350). -/
  carry  : List (BitVec 16 × Vector Word 8)
  objects : List CodeObject
  /-- P, the size of the private area that the loader fixes, and the areas of its tiles (R329, R377). -/
  priv   : Nat
  areas  : List TileArea
  spbase : Word
  /-- The job's position map: its base, its length and its room, in entries (R298, R307). -/
  pmbase : Word
  pmapLen : Nat
  pmapRoom : Nat
  /-- The job's translation cache: its base, its size, and the bytes in use (R302). -/
  cache  : Word
  cacheSize : Nat
  cacheUsed : Nat
  /-- The E slots that patches have replaced, by address, with the words that stood there (R301). -/
  patched : List (Word × Word)
deriving DecidableEq, Repr

/-- The states of a node (R345). -/
inductive NodeState where
  | admitted | dispatched | running | draining
deriving DecidableEq, Repr

/-- A group table entry (R339): V, ERR, CTX, GHM1, GWM1 and MEM. -/
structure Group where
  valid : Bool
  err   : Bool
  ctx   : CtxId
  ghm1  : BitVec 8
  gwm1  : BitVec 8
  mem   : Vector (BitVec 8) 256
deriving DecidableEq, Repr

/-- A node in the ready pool or running (R334, R337, R345): its record's fields as read at admission. -/
structure Node where
  serial   : Nat
  ctx      : CtxId
  va       : Word
  state    : NodeState
  flags    : Word
  entry    : Word
  next     : Word
  deadline : Word
  budget   : BitVec 32
  estim    : BitVec 32
  clear    : Word
  vcap     : Quad
  wait     : BitVec 256
  set      : BitVec 256
  cargs    : Vector Quad 4
  sargs    : Vector Word 8
  /-- The chain predecessor's serial number (R344), and whether it has been dispatched. -/
  pred     : Option Nat
  /-- Member tiles in virtual index order, from the copy of the group entry taken at dispatch (R339). -/
  tiles    : List TileId
  gwm1     : BitVec 8
  ghm1     : BitVec 8
  /-- Tiles on which its stream has not yet started. -/
  unstarted : List TileId
  /-- Tiles whose streams have ended or been stopped. -/
  ended    : List TileId
  /-- Rendezvous completed so far (R177). -/
  rdv      : Nat
  hs       : Bool
  dv       : Bool
  /-- Tiles on which a pre-emption intervened after this node's predecessor (R346). -/
  broken   : List TileId
deriving DecidableEq, Repr

/-- What the machine sends to the outside (R378, R402, R403, R404, R406): the model keeps it in order (DESIGN CHOICE,
log entry 7). -/
inductive Output where
  | interrupt (source : Nat) (cause : BitVec 8)
  | packet (chip : BitVec 8) (p : PeerPacket)
  | answer (chip : BitVec 8) (seq : BitVec 64) (a : PeerAnswer)
  | frame (port : BitVec 2) (bytes : List Byte)
  | pcie (data : Option (List Byte))
  | hostLoad (v : Word)
  | hostFault (cause : BitVec 8)
  | pulse (second : Nat)
  | nack (link : BitVec 5) (seq : BitVec 16)
  | resend (link : BitVec 5) (flits : List (List Byte))
  | loaded (ctx : CtxId) (refused : Option Nat)
deriving DecidableEq, Repr

/-- A packet sent to a peer and not yet answered (R94, R406). -/
structure PeerOut where
  seq   : BitVec 64
  chip  : BitVec 8
  tile  : TileId
  /-- The pump context and queue, or none for the signal queue. -/
  pump  : Option (BitVec 2 × Bool)
  /-- The address that a refusal reports, and whether the packet is a barrier decrement. -/
  addr  : Word
  count : Bool
deriving DecidableEq, Repr

/-- An Ethernet port's registers (R402). -/
structure EthPort where
  ctl    : Word
  link   : Bool
  rxovf  : Bool
  mac    : Word
  txbase : Word
  txsize : BitVec 4
  txhead : Word
  txtail : Word
  rxbase : Word
  rxsize : BitVec 4
  rxhead : Word
  rxtail : Word
deriving DecidableEq, Repr

/-- A scale-up link (R406 to R408, R410). -/
structure Link where
  up      : Bool
  /-- The sequence number of the next flit sent. -/
  next    : BitVec 16
  /-- The packet stream that no flit holds yet: whole packets, oldest first, and how many bytes of the first one flits
  hold (R407). -/
  stream  : List (List Byte)
  cut     : Nat
  /-- Packets whose last byte lies in a flit that is not acknowledged, with that flit's number (R408). -/
  flying  : List (BitVec 16 × List Byte)
  /-- The retry buffer: flits sent and not acknowledged, oldest first (R408). -/
  retry   : List (BitVec 16 × List Byte)
  /-- The sequence number of the next flit received in order. -/
  expect  : BitVec 16
  /-- The flit that this chip negatively acknowledged last, and how often in a row. -/
  nackSeq : BitVec 16
  nacks   : Nat
  /-- The flit of this chip that was negatively acknowledged last, and how often in a row. -/
  backSeq : BitVec 16
  backs   : Nat
  /-- A discarded flit is awaited again: later flits are discarded (R408). -/
  lost    : Bool
  /-- The bytes of the packet stream received in order that make no whole packet yet (R407). -/
  part    : List Byte
deriving DecidableEq, Repr

/-- The boot and security unit (R396 to R400). -/
structure Boot where
  stage   : BitVec 4
  cause   : BitVec 8
  fails   : BitVec 8
  imgver  : BitVec 16
  /-- The configuration record, as flash holds it (R396). -/
  record  : List Byte
  minsvn  : BitVec 32
  svn     : BitVec 32
  bodyHash : Vector Byte 32
  /-- The substitution table of the accepted image: a hash per catalogue routine (R256). -/
  table   : List (BitVec 128)
  subver  : BitVec 128
  /-- A fetched image that does not run yet (R398, R399). -/
  image   : Option Image
  /-- A failed fetch or check waits for its retry, at this instant (R398). -/
  retryAt : Option Nat
  /-- The entry that the firmware image gives the tiles' firmware contexts (R349). -/
  fwEntry : Word
  nonce   : Vector Word 8
  attreq  : Option Word
deriving DecidableEq, Repr

/-- The ring registers (R382), and the records and entries that have not reached their ring: each with its stamp and
source number, in the order of R384. A record stays here while the composite ring is full. -/
structure Rings where
  cfbase : Word
  cfsize : BitVec 4
  cfhead : Word
  cftail : Word
  elbase : Word
  elsize : BitVec 4
  elhead : Word
  eltail : Word
  ellost : Word
  cfPend : List (Nat × Nat × List Byte)
  elPend : List (Nat × Nat × List Byte)
deriving DecidableEq, Repr

/-- The timing unit (R352 to R354): device time in units of 2^-16 nanoseconds. -/
structure Timing where
  now    : Nat
  mode   : BitVec 2
  freq   : BitVec 16
  offset : BitVec 32
  /-- Whole seconds whose pulse has been output (R403). -/
  pulsed : Nat
  /-- The usable masters, each with the port that it is heard on (R403). -/
  masters : List (BitVec 2 × PtpMaster)
deriving DecidableEq, Repr

/-- A host core (R395): its registers, its privilege level, the root of its translation, the registers of its traps, its
translation cache, and the bytes that a load-reserved has reserved, by physical address and number (PRESUMED, log entry
27). -/
structure HostCore where
  running  : Bool
  x        : Vector Word 32
  f        : Vector Word 32
  fcsr     : BitVec 32
  pc       : Word
  priv     : HostPriv
  satp     : Word
  mstatus  : Word
  medeleg  : Word
  mtvec    : Word
  mepc     : Word
  mcause   : Word
  mtval    : Word
  stvec    : Word
  sepc     : Word
  scause   : Word
  stval    : Word
  tlb      : List TlbEntry
  reserved : Option (Nat × Nat)
deriving DecidableEq, Repr

/-- One turn of the machine: which agent moves next. The order in which the concurrent units move is the model's own
plain data (R15): every agenda is one interleaving (DESIGN CHOICE, log entry 2). -/
inductive Turn where
  /-- The hardware context issues one instruction. -/
  | insn (t : TileId) (side : Side)
  /-- A step of another agent, or an event from outside. -/
  | event (i : Instr)
  /-- Device time advances by a number of 2^-16 nanoseconds. -/
  | time (d : Nat)
deriving DecidableEq, Repr

/-- The hardware context that the step belongs to. -/
structure Cur where
  tile : TileId
  side : Side
deriving DecidableEq, Repr

/-- The machine's state. -/
structure State where
  /-- Memory and cisterns, by physical address, in canonical form: addresses strictly rising, no byte equal to zero,
  which is what an unlisted address reads as (R20, R23, R84). -/
  mem      : List Host.Cell
  /-- Cistern lines that are empty, by line number (physical address / 128), rising; every other line is full (R84). -/
  empty    : List Nat
  /-- Poisoned lines, by line number, rising (R21, R84). -/
  poison   : List Nat
  tiles    : Vector Tile 256
  ctxs     : Vector Ctx 64
  groups   : Vector Group 256
  grants   : Vector Quad 64
  /-- Nodes admitted and not yet completed: the ready pool and the nodes on tiles (R337, R345). -/
  nodes    : List Node
  serial   : Nat
  rings    : Rings
  timing   : Timing
  boot     : Boot
  /-- The cores of the host complex (R395). -/
  hosts    : Vector HostCore 16
  eth      : Vector EthPort 4
  links    : Vector Link 32
  /-- `GSBASE`, `GSPERIOD` (R351). -/
  gsbase   : Word
  gsperiod : Word
  /-- The gang slot in force (R351). -/
  gslot    : Nat
  /-- `XINVGEN` (R41) and the shoot-downs issued and not completed, by generation, with the tiles still to receive them
  and those still to acknowledge them (R42). -/
  issued   : BitVec 32
  completed : BitVec 32
  shoots   : List (BitVec 32 × Word × List TileId × List TileId)
  /-- `PCIWIN` (R404). -/
  pciwin   : BitVec 4
  /-- `DOMAIN` (R410). -/
  domainV  : Bool
  domainNum : BitVec 8
  /-- End-to-end sequence numbers: the next to send, packets not yet answered, and those performed, by source chip
  (R408). -/
  seqNext  : Vector (BitVec 64) 256
  peerOut  : List PeerOut
  seqSeen  : List (BitVec 8 × BitVec 64)
  /-- Packets that the flits of the links have brought and that are still to be performed (R407). -/
  inbox    : List PeerPacket
  /-- Route-tag membership that the firmware configures (R214): a list of tiles per tag. -/
  hbar     : Vector (List TileId) 8
  /-- Steps by which the arithmetic clock is lowered (R409). -/
  clock    : Nat
  outputs  : List Output
  /-- The model's own counter for free values (DESIGN CHOICE, log entry 5). -/
  fresh    : Nat
  agenda   : List Turn
  cur      : Cur
deriving DecidableEq, Repr

/-- A stream with every register at zero: the user context of a tile that holds no stream, and the firmware context
(R329, R349; DESIGN CHOICE, log entry 3 for the registers that no rule gives a reset value). -/
def Stream.reset : Stream where
  state := .idle
  wait := .none
  diverted := false
  begun := false
  pc := 0
  s := Vector.replicate 64 0
  tags := 0
  cpv := 0
  cpvTag := false
  v := Vector.replicate 32 0
  nv := Vector.replicate 16 0
  p := 1
  xm := Vector.replicate 16 0
  ports := Vector.replicate 4 []
  fpctl := 0x100
  dpc := 0
  dtimef := 0
  vpos := 0
  ctxcfg := 0
  ctxroot := 0
  barrier := none
  arrivals := 0
  calls := []
  vamoTodo := []
  woken := false
  single := false
  rejoin := none
  went := false
  late := 0
  native := none

/-- A pump context after context initialisation (R107, R112). -/
def PumpCtx.reset : PumpCtx := ⟨0, 0, [], none, false⟩

/-- An invalid bank; its content is a model's choice (DESIGN CHOICE, log entry 3). -/
def Bank.reset : Bank := ⟨Vector.replicate 128 0, 0, 0, 0, false⟩

/-- The matrix state, the wellhead and the decoder after context initialisation (R71, R78, R232, R243). -/
def Matrix.reset : Matrix where
  bank0 := Bank.reset
  bank1 := Bank.reset
  ab := false
  acc := Vector.replicate 1024 0
  queue := []
  tlm := 0
  tlw := 0
  issueM := 0
  issueW := 0
  doneM := []
  doneW := []
  begun := false
  rowp := 0
  halt := none
  stopped := false
  flags := 0
  ak := 0
  stage := Bank.reset
  slots := Vector.replicate 8 0
  mask := 0
  heldSlots := Vector.replicate 8 0
  heldMask := 0
  whTile := 0
  whSeg := 0
  whSym := 0
  whSlot := 0
  whCause := 0
  whState := 0
  whSecond := false
  header := 0
  entry := none
  pages := []

/-- Empty translation caches (R349). -/
def Mmu.reset : Mmu := ⟨[], [], Vector.replicate 5 [], [], [], 0, []⟩

/-- A tile in tile reset, as device reset leaves it (R348, R349). -/
def Tile.reset : Tile where
  user := Stream.reset
  fw := Stream.reset
  loadQ := []
  storeQ := []
  pumps := Vector.replicate 4 PumpCtx.reset
  turnLoad := 3
  turnStore := 3
  mx := Matrix.reset
  sigQ := []
  sigFault := none
  mmu := Mmu.reset
  hbarArrived := 0
  shadow := none
  node := none
  lastNode := none
  lastCtx := none
  vidx := 0
  callTime := none
  fault := none
  lost := false
  savedS := Vector.replicate 64 0
  savedTags := 0
  pmbase := 0
  spbase := 0
  dlcall := BitVec.allOnes 64
  dlhard := BitVec.allOnes 64
  tcause := 0
  taddr := 0
  tpc := 0
  tsave := 0
  fwsh := 2
  rst := true
  rbusy := true
  frozen := false
  gated := false

/-- A context after device reset (R332). -/
def Ctx.reset : Ctx where
  root := 0
  events := 0
  subQ := []
  ovf := false
  hold := false
  gsmask := BitVec.allOnes 64
  jobtag := 0
  quiet := []
  carry := []
  objects := []
  priv := 0
  areas := []
  spbase := 0
  pmbase := 0
  pmapLen := 0
  pmapRoom := 0
  cache := 0
  cacheSize := 0
  cacheUsed := 0
  patched := []

/-- A group entry after device reset (R339). -/
def Group.reset : Group := ⟨false, false, 0, 0, 0, Vector.replicate 256 0⟩

/-- An Ethernet port after device reset (R402). -/
def EthPort.reset : EthPort := ⟨0, false, false, 0, 0, 0, 0, 0, 0, 0, 0, 0⟩

/-- A link before training (R410; DESIGN CHOICE, log entry 3). -/
def Link.reset : Link := ⟨false, 0, [], 0, [], [], 0, 0, 0, 0, 0, false, []⟩

/-- The boot unit before it checks the configuration record (R398, R399). -/
def Boot.reset : Boot where
  stage := 0
  cause := 0
  fails := 0
  imgver := 0
  record := []
  minsvn := 0
  svn := 0
  bodyHash := Vector.replicate 32 0
  table := []
  subver := 0
  image := none
  retryAt := none
  fwEntry := 0
  nonce := Vector.replicate 8 0
  attreq := none

/-- The rings after device reset (R382). -/
def Rings.reset : Rings := ⟨0, 0, 0, 0, 0, 0, 0, 0, 0, [], []⟩

/-- The timing unit after device reset: device time counts from 0 and is not yet locked (R353, R354). -/
def Timing.reset : Timing := ⟨0, 0, 0, 0, 0, []⟩

/-- A host core before the boot unit starts it, at machine level (R395, R398; PRESUMED for the level, DESIGN CHOICE for
the rest, log entry 3). -/
def HostCore.reset : HostCore where
  running := false
  x := Vector.replicate 32 0
  f := Vector.replicate 32 0
  fcsr := 0
  pc := 0
  priv := .machine
  satp := 0
  mstatus := 0
  medeleg := 0
  mtvec := 0
  mepc := 0
  mcause := 0
  mtval := 0
  stvec := 0
  sepc := 0
  scause := 0
  stval := 0
  tlb := []
  reserved := none

/-- The machine right after device reset, before the boot unit's first step (R398). -/
def State.reset : State where
  mem := []
  empty := []
  poison := []
  tiles := Vector.replicate 256 Tile.reset
  ctxs := Vector.replicate 64 Ctx.reset
  groups := Vector.replicate 256 Group.reset
  grants := Vector.replicate 64 0
  nodes := []
  serial := 0
  rings := Rings.reset
  timing := Timing.reset
  boot := Boot.reset
  hosts := Vector.replicate 16 HostCore.reset
  eth := Vector.replicate 4 EthPort.reset
  links := Vector.replicate 32 Link.reset
  gsbase := 0
  gsperiod := 0
  gslot := 0
  issued := 0
  completed := 0
  shoots := []
  pciwin := 0
  domainV := false
  domainNum := 0
  seqNext := Vector.replicate 256 0
  peerOut := []
  seqSeen := []
  inbox := []
  hbar := Vector.replicate 8 []
  clock := 0
  outputs := []
  fresh := 0
  agenda := []
  cur := ⟨0, .user⟩

end Sys2Proof.Machine
end

