-- ==== Sys2Proof/Machine/Bits.lean ====
section
/-! DEFINITION. Bits, bytes and lanes: byte order (spec/00_scope.md R5), lanes of a vector (spec/10_vector.md R180), bit
fields of a word. -/

namespace Sys2Proof

/-- The bits of a width (R141). -/
def Width.n : Width → Nat
  | .w8 => 8
  | .w16 => 16
  | .w32 => 32
  | .w64 => 64

/-- The bytes of a width (R141). -/
def Width.bytes : Width → Nat
  | .w8 => 1
  | .w16 => 2
  | .w32 => 4
  | .w64 => 8

/-- Lanes of a width in a vector (R180). -/
def Width.count (w : Width) : Nat := 1024 / w.n

end Sys2Proof

namespace Sys2Proof.Machine

/-- The n bytes of a value, lowest address first (R5). -/
def toBytes {w : Nat} (n : Nat) (x : BitVec w) : List Byte :=
  (List.range n).map fun k => x.extractLsb' (8 * k) 8

/-- The value of bytes, lowest address first (R5). -/
def ofBytes (w : Nat) (bs : List Byte) : BitVec w :=
  bs.foldr (fun b x => (x <<< 8) ||| b.setWidth w) 0

/-- The natural number of bytes, lowest address first. -/
def natOfBytes (bs : List Byte) : Nat :=
  bs.foldr (fun b x => 256 * x + b.toNat) 0

/-- Sign-extend the low n bits of a word (R152). -/
def signExtend {n : Nat} (x : BitVec n) : Word := x.signExtend 64

/-- Lane i of width n of a vector (R180). -/
def lane (n : Nat) (v : Vec) (i : Nat) : BitVec n := v.extractLsb' (n * i) n

/-- The vector of k values of width n (R180). -/
def ofLanes {w : Nat} (n : Nat) (xs : List (BitVec n)) : BitVec w :=
  xs.foldr (fun x v => (v <<< n) ||| x.setWidth w) 0

/-- The vector whose lane i of width n is f i. -/
def mkLanes (n : Nat) (f : Nat → BitVec n) : Vec :=
  ofLanes n ((List.range (1024 / n)).map f)

/-- The value of lane i of a row of 4096 bits. -/
def rowLane (n : Nat) (r : BitVec 4096) (i : Nat) : BitVec n := r.extractLsb' (n * i) n

/-- A Boolean as a bit. -/
def bit (b : Bool) : BitVec 1 := if b then 1 else 0

/-- The line that a physical address lies in (R6). -/
def lineOf (pa : Nat) : Nat := pa / 128

/-- Insert a number into a rising list. -/
def insertNat (n : Nat) : List Nat → List Nat
  | [] => [n]
  | x :: xs => if n < x then n :: x :: xs else if n = x then x :: xs else x :: insertNat n xs

/-- Remove a number from a rising list. -/
def removeNat (n : Nat) (xs : List Nat) : List Nat := xs.filter (· ≠ n)

/-- The first `n` naturals for which a Boolean function holds: the sum over a Boolean of the positions. -/
def countTrue (f : Nat → Bool) (n : Nat) : Nat := ((List.range n).filter f).length

/-- Replace element k of a list. -/
def listSet {α : Type} (xs : List α) (k : Nat) (x : α) : List α := xs.set k x

/-- The value of a list at k, or a default. -/
def listGet {α : Type} (xs : List α) (k : Nat) (d : α) : α := xs.getD k d

end Sys2Proof.Machine
end

