-- ==== Sys2Proof/Machine/Memory.lean ====
section
/-! DEFINITION. Physical memory and the cisterns: the map of spec/02_address_space.md R20 to R24, bytes in canonical
form, line states of spec/05_cisterns.md R84 to R87. -/

namespace Sys2Proof.Machine

/-- What a byte of memory that is not listed reads as: zero, the content of a cistern after reset (R84); for
high-bandwidth memory the spec gives no content after power-on (DESIGN CHOICE, log entry 1). -/
def memDefault : Byte := 0

/-- The byte at an address. -/
def memRead : List Host.Cell → Nat → Byte
  | [], _ => memDefault
  | (a, b) :: m, x => if x = a then b else if x < a then memDefault else memRead m x

/-- Write a byte, keeping the canonical form. -/
def memWrite : List Host.Cell → Nat → Byte → List Host.Cell
  | [], x, b => if b = memDefault then [] else [(x, b)]
  | (a, c) :: m, x, b =>
    if x < a then (if b = memDefault then (a, c) :: m else (x, b) :: (a, c) :: m)
    else if x = a then (if b = memDefault then m else (a, b) :: m)
    else (a, c) :: memWrite m x b

/-- Every address of the list lies above x. -/
def memAbove (x : Nat) (m : List Host.Cell) : Bool := m.all fun c => decide (x < c.1)

/-- The canonical form: addresses strictly rising, no byte equal to what an unlisted address reads as. -/
def Memory.wf : List Host.Cell → Bool
  | [] => true
  | (a, b) :: m => memAbove a m && b != memDefault && Memory.wf m

/-- Write bytes at rising addresses from `x`. -/
def memWriteBytes : List Host.Cell → Nat → List Byte → List Host.Cell
  | m, _, [] => m
  | m, x, b :: bs => memWriteBytes (memWrite m x b) (x + 1) bs

/-- The n bytes from `x` up. -/
def memReadBytes (m : List Host.Cell) (x n : Nat) : List Byte :=
  (List.range n).map fun k => memRead m (x + k)

/-- Where a physical address lies (R22, R23). -/
inductive Region where
  | hbm
  | cistern (t : TileId) (off : Nat)
  | device
  | hole
deriving DecidableEq, Repr

/-- The base of the cistern windows (R22). -/
def cisternBase : Nat := 0x10000000000

/-- The base of the device registers (R22). -/
def deviceBase : Nat := 0x18000000000

/-- The region of a physical address; every address with a bit at 41 or above is a hole here (R22 to R24). -/
def regionOf (pa : Nat) : Region :=
  if pa < 0xC000000000 then .hbm
  else if pa < cisternBase then .hole
  else if pa < 0x10080000000 then
    if (pa - cisternBase) % 0x800000 < 0x600000 then
      .cistern (BitVec.ofNat 8 ((pa - cisternBase) / 0x800000)) ((pa - cisternBase) % 0x800000)
    else .hole
  else if pa < deviceBase then .hole
  else if pa < 0x18200000000 then .device
  else .hole

/-- The physical address of a byte of a tile's cistern (R23). -/
def cisternAddr (t : TileId) (off : Nat) : Nat := cisternBase + t.toNat * 0x800000 + off

/-- Is the address a byte of a cistern? -/
def inCistern (pa : Nat) : Bool :=
  match regionOf pa with
  | .cistern _ _ => true
  | .hbm => false
  | .device => false
  | .hole => false

/-- The tile whose cistern holds the address. -/
def cisternTile (pa : Nat) : Option TileId :=
  match regionOf pa with
  | .cistern t _ => some t
  | .hbm => none
  | .device => none
  | .hole => none

/-- A tile of the state. -/
def State.tile (s : State) (t : TileId) : Tile := s.tiles[t.toNat]'t.isLt

/-- Replace a tile. -/
def State.setTile (s : State) (t : TileId) (x : Tile) : State :=
  { s with tiles := s.tiles.set t.toNat x t.isLt }

/-- A context of the state. -/
def State.ctx (s : State) (c : CtxId) : Ctx := s.ctxs[c.toNat]'c.isLt

/-- Replace a context. -/
def State.setCtx (s : State) (c : CtxId) (x : Ctx) : State :=
  { s with ctxs := s.ctxs.set c.toNat x c.isLt }

/-- A byte of physical memory. -/
def State.readByte (s : State) (pa : Nat) : Byte := memRead s.mem pa

/-- The n bytes at a physical address. -/
def State.readBytes (s : State) (pa n : Nat) : List Byte := memReadBytes s.mem pa n

/-- A host core's reservation after a write of n bytes at a physical address: gone, where they meet it (R395; PRESUMED,
log entry 27). -/
def HostCore.snoop (h : HostCore) (pa n : Nat) : HostCore :=
  { h with reserved := h.reserved.filter fun r => !decide (pa < r.1 + r.2 ∧ r.1 < pa + n) }

/-- The host cores see a write. -/
def State.snoop (s : State) (pa n : Nat) : State := { s with hosts := s.hosts.map fun h => h.snoop pa n }

/-- Write bytes at a physical address, leaving the state of the lines alone. -/
def State.writeBytes (s : State) (pa : Nat) (bs : List Byte) : State :=
  { s.snoop pa bs.length with mem := memWriteBytes s.mem pa bs }

/-- Is a line empty (R84)? -/
def State.lineEmpty (s : State) (n : Nat) : Bool := s.empty.contains n

/-- Is a line poisoned (R21, R84)? -/
def State.linePoisoned (s : State) (n : Nat) : Bool := s.poison.contains n

/-- Set a line full (R84, R85). -/
def State.setFull (s : State) (n : Nat) : State := { s with empty := removeNat n s.empty }

/-- Set a line empty (R207). -/
def State.setEmpty (s : State) (n : Nat) : State := { s with empty := insertNat n s.empty }

/-- Poison a line (R21, R99). -/
def State.setPoison (s : State) (n : Nat) : State := { s with poison := insertNat n s.poison }

/-- Clear a line's poison (R21). -/
def State.clearPoison (s : State) (n : Nat) : State := { s with poison := removeNat n s.poison }

/-- The lines that an access of n bytes touches, rising. -/
def linesOf (pa n : Nat) : List Nat :=
  if n = 0 then [] else (List.range ((pa + n - 1) / 128 - pa / 128 + 1)).map (pa / 128 + ·)

/-- The lines that an access covers whole (R21). -/
def wholeLines (pa n : Nat) : List Nat :=
  (linesOf pa n).filter fun l => decide (pa ≤ 128 * l) && decide (128 * l + 128 ≤ pa + n)

/-- Perform a write as one access: its bytes, and the poison of every line that it covers whole is cleared (R21). -/
def State.store (s : State) (pa : Nat) (bs : List Byte) : State :=
  (wholeLines pa bs.length).foldl State.clearPoison (s.writeBytes pa bs)

/-- The first poisoned line that an access touches (R21). -/
def State.poisonedLine (s : State) (pa n : Nat) : Option Nat := (linesOf pa n).find? s.linePoisoned

/-- The first empty line that an access touches (R86). -/
def State.emptyLine (s : State) (pa n : Nat) : Option Nat := (linesOf pa n).find? s.lineEmpty

/-- Device time in nanoseconds (R352). -/
def State.dtime (s : State) : Word := BitVec.ofNat 64 (s.timing.now / 65536)

/-- The fraction of the same instant (R125). -/
def State.dfrac (s : State) : BitVec 16 := BitVec.ofNat 16 s.timing.now

/-- The context that a tile's stream belongs to: that of its node. -/
def State.ctxOf (s : State) (t : TileId) : CtxId :=
  match (s.tile t).node with
  | none => 0
  | some n =>
    match s.nodes.find? (fun x => x.serial == n) with
    | none => 0
    | some x => x.ctx

/-- Keep what the machine sends to the outside, in order. -/
def State.emit (s : State) (o : Output) : State := { s with outputs := s.outputs ++ [o] }

end Sys2Proof.Machine
end

