-- ==== Sys2Proof/Machine/Logs.lean ====
section
/-! DEFINITION. Status words, the fault header, the composite record, and the two rings in which the device keeps its
errors (spec/22_traps_and_context.md R370 to R384; PSTAT of spec/06_pumps.md R112, MSTAT of spec/13_matrix_engine.md
R243, WHSTAT of spec/04_coded_weights.md R78). -/

namespace Sys2Proof.Machine

/-- The causes that the machine raises, by name (R371). -/
def Cause.illegalInstruction : BitVec 8 := 0x01
def Cause.misalignedInstructionAddress : BitVec 8 := 0x02
def Cause.breakpoint : BitVec 8 := 0x03
def Cause.nativeBundleInvalid : BitVec 8 := 0x04
def Cause.stallCountTooSmall : BitVec 8 := 0x05
def Cause.nativeOperationAbsent : BitVec 8 := 0x06
def Cause.translationRequired : BitVec 8 := 0x07
def Cause.loadPageFault : BitVec 8 := 0x20
def Cause.storePageFault : BitVec 8 := 0x21
def Cause.fetchPageFault : BitVec 8 := 0x22
def Cause.loadAccessFault : BitVec 8 := 0x23
def Cause.storeAccessFault : BitVec 8 := 0x24
def Cause.fetchAccessFault : BitVec 8 := 0x25
def Cause.misalignedAtomic : BitVec 8 := 0x26
def Cause.capabilityTagClear : BitVec 8 := 0x40
def Cause.invalidCapabilityField : BitVec 8 := 0x41
def Cause.capabilityPermission : BitVec 8 := 0x42
def Cause.capabilityBounds : BitVec 8 := 0x43
def Cause.capabilityWidening : BitVec 8 := 0x44
def Cause.capabilityTableIndex : BitVec 8 := 0x45
def Cause.pumpDescriptorInvalid : BitVec 8 := 0x46
def Cause.pumpShapeMismatch : BitVec 8 := 0x47
def Cause.remoteGrantRefused : BitVec 8 := 0x48
def Cause.signalTargetInvalid : BitVec 8 := 0x49
def Cause.routineIndex : BitVec 8 := 0x4A
def Cause.routineOperandInvalid : BitVec 8 := 0x4B
def Cause.matrixShapeMismatch : BitVec 8 := 0x4C
def Cause.accumulatorRange : BitVec 8 := 0x4D
def Cause.pumpOperandOutsideOwnCistern : BitVec 8 := 0x4E
def Cause.unsupportedFormat : BitVec 8 := 0x60
def Cause.matrixFormatPair : BitVec 8 := 0x61
def Cause.badTableSum : BitVec 8 := 0x70
def Cause.slotBeyondTable : BitVec 8 := 0x71
def Cause.readPastSegment : BitVec 8 := 0x72
def Cause.finalStateMismatch : BitVec 8 := 0x73
def Cause.inconsistentIndexEntry : BitVec 8 := 0x74
def Cause.badRestartMarker : BitVec 8 := 0x75
def Cause.decoderTableAbsent : BitVec 8 := 0x76
def Cause.badCodedTensorHeader : BitVec 8 := 0x77
def Cause.remoteTileUnavailable : BitVec 8 := 0x80
def Cause.barrierTransferUnderflow : BitVec 8 := 0x81
def Cause.timelineWaitBeyondIssue : BitVec 8 := 0x82
def Cause.barrierObjectInvalid : BitVec 8 := 0x83
def Cause.barrierArrivalOverflow : BitVec 8 := 0x84
def Cause.barrierWaitWithoutArrival : BitVec 8 := 0x85
def Cause.forwardingPortWithoutNeighbour : BitVec 8 := 0x86
def Cause.rendezvousInsideRoutine : BitVec 8 := 0x87
def Cause.matrixBankNotLoaded : BitVec 8 := 0x88
def Cause.privilegedRegisterAccess : BitVec 8 := 0xA0
def Cause.privilegedInstruction : BitVec 8 := 0xA1
def Cause.firmwareCall : BitVec 8 := 0xA2
def Cause.softwareTrap : BitVec 8 := 0xA3
def Cause.validityStateReserved : BitVec 8 := 0xA4
def Cause.poisonedRead : BitVec 8 := 0xA5
def Cause.linePoisoned : BitVec 8 := 0xA6
def Cause.tileStateLost : BitVec 8 := 0xA7
def Cause.nodeRecordInvalid : BitVec 8 := 0xA8
def Cause.nodeGroupInvalid : BitVec 8 := 0xA9

/-- The first handler beyond the tile's own firmware context (R371, R378). -/
inductive Handler where
  | firmware | system | process
deriving DecidableEq, Repr

/-- The Handler column of R371. -/
def handlerOf (cause : BitVec 8) : Handler :=
  if cause = Cause.translationRequired || cause = Cause.firmwareCall then .firmware
  else if cause = Cause.loadPageFault || cause = Cause.storePageFault || cause = Cause.fetchPageFault
      || cause = Cause.poisonedRead || cause = Cause.linePoisoned || cause = Cause.tileStateLost then .system
  else .process

/-- A fault is any trap other than *translation required* and *firmware call* (R372). -/
def isFault (cause : BitVec 8) : Bool :=
  !(cause == Cause.translationRequired || cause == Cause.firmwareCall)

/-- The commands of a pump context in a queue. -/
def cmdsOf (q : List PumpCmd) (k : BitVec 2) : List PumpCmd := q.filter (fun c => c.k == k)

/-- A pump context of a tile. -/
def Tile.pump (x : Tile) (k : BitVec 2) : PumpCtx := x.pumps[k.toNat]'k.isLt

/-- Replace a pump context. -/
def Tile.setPump (x : Tile) (k : BitVec 2) (p : PumpCtx) : Tile :=
  { x with pumps := x.pumps.set k.toNat p k.isLt }

/-- The queue that a pump unit takes its head command from. -/
def Tile.queue (x : Tile) (store : Bool) : List PumpCmd := if store then x.storeQ else x.loadQ

/-- Replace a pump queue. -/
def Tile.setQueue (x : Tile) (store : Bool) (q : List PumpCmd) : Tile :=
  if store then { x with storeQ := q } else { x with loadQ := q }

/-- The status word of a pump context (R112; DEDUCED, log entry 39). -/
def pstat (x : Tile) (k : BitVec 2) : Word :=
  let p := x.pump k
  let ld := cmdsOf x.loadQ k
  let st := cmdsOf x.storeQ k
  let store :=
    match p.halt with
    | some h => h.store
    | none => (p.last && !st.isEmpty) || ld.isEmpty
  let head := (if store then st else ld).head?
  let row := (head.map (·.row)).getD 0
  let byte := (head.map (·.byte)).getD 0
  let cause := (p.halt.map (·.cause)).getD 0
  let side := (p.halt.map (·.side)).getD false
  let q := (p.halt.map (·.store)).getD false
  let state : BitVec 2 := if p.halt.isSome then 2 else if ld.isEmpty && st.isEmpty then 0 else 1
  BitVec.ofNat 16 row ++ BitVec.ofNat 16 byte ++ cause ++ (0 : BitVec 6) ++ bit side ++ bit q
    ++ BitVec.ofNat 6 ld.length ++ BitVec.ofNat 6 st.length ++ (0 : BitVec 2) ++ state

/-- Is a command of the compute queue one that the wellhead performs (R234, R243)? -/
def MatCmd.well : MatCmd → Bool
  | .wload _ _ => false
  | .wloadc _ _ _ _ => true
  | .table _ => true
  | .decode _ _ _ => true
  | .swap => false
  | .act _ _ _ => false
  | .zero _ _ => false
  | .drain _ _ _ _ _ _ => false

/-- The status word of the matrix engine (R243; DEDUCED, log entry 37). -/
def mstat (m : Matrix) : Word :=
  let well := (m.queue.head?.map (·.cmd.well)).getD false
  let rowp := if well then 0 else m.rowp
  let cause := (m.halt.map (·.cause)).getD 0
  let opnd := (m.halt.map (·.opnd)).getD 0
  let state : BitVec 2 :=
    if m.halt.isSome then 2 else if !m.queue.isEmpty then 1 else if m.stopped then 3 else 0
  BitVec.ofNat 11 rowp ++ BitVec.ofNat 5 m.queue.length ++ cause ++ m.bank1.fmt ++ m.bank0.fmt
    ++ (0 : BitVec 21) ++ opnd ++ (0 : BitVec 2) ++ bit m.bank1.valid ++ bit m.bank0.valid ++ bit m.ab
    ++ (0 : BitVec 1) ++ state

/-- The status word of the wellhead (R78). -/
def whstat (m : Matrix) : Word :=
  m.whTile ++ m.whSeg ++ m.whSym ++ m.whSlot ++ (0 : BitVec 7) ++ m.whCause ++ (0 : BitVec 6) ++ m.whState

/-- The fault header (R374). -/
def fhdr (cause : BitVec 8) (src : BitVec 4) (ref : Bool) (t : TileId) (ctx : CtxId) (res esc : Bool)
    (imm : BitVec 16) (nsec : Nat) : Word :=
  (0 : BitVec 8) ++ BitVec.ofNat 8 (Nat.min nsec 255) ++ imm ++ bit esc ++ bit res ++ ctx ++ t
    ++ (0 : BitVec 3) ++ bit ref ++ src ++ cause

/-- The engine fields of a composite record, bytes 0x40 to 0xDF (R375). -/
def engineWords (x : Tile) : List Word :=
  [pstat x 0, pstat x 1, pstat x 2, pstat x 3, mstat x.mx, whstat x.mx, BitVec.ofNat 64 x.sigQ.length, 0,
    (x.pump 0).tlp, (x.pump 1).tlp, (x.pump 2).tlp, (x.pump 3).tlp, x.mx.tlm, x.mx.tlw,
    (x.pump 0).issue, (x.pump 1).issue, (x.pump 2).issue, (x.pump 3).issue, x.mx.issueM, x.mx.issueW]

/-- A composite record with the given engine fields (R375). -/
def compositeOf (t : TileId) (header addr jpc dpc : Word) (stamp : Nat) (engines : List Word) : List Byte :=
  let words : List Word :=
    [header, addr, jpc, BitVec.ofNat 64 (stamp / 65536), BitVec.ofNat 64 (stamp % 65536 + 65536 * t.toNat), 0, dpc, 0]
  (words ++ engines ++ List.replicate 4 0).flatMap (toBytes 8)

/-- The composite record, with the engines as they stand (R375). -/
def composite (s : State) (t : TileId) (header addr jpc : Word) (stamp : Nat) : List Byte :=
  compositeOf t header addr jpc (s.tile t).user.dpc stamp (engineWords (s.tile t))

/-- Place a record or entry among those that have not reached their ring, in the order of stamp and then source number;
equals stand in the order in which they occurred (R384). -/
def insertPending (e : Nat × Nat × List Byte) : List (Nat × Nat × List Byte) → List (Nat × Nat × List Byte)
  | [] => [e]
  | x :: xs =>
    if e.1 < x.1 || (e.1 == x.1 && decide (e.2.1 < x.2.1)) then e :: x :: xs else x :: insertPending e xs

/-- Write an entry to the error log (R383); it reaches the ring when time next advances (R384). -/
def State.logError (s : State) (kind cause : BitVec 8) (src : Nat) (ctx : CtxId) (addr detail : Word) : State :=
  let info : Word := (0 : BitVec 10) ++ ctx ++ cause ++ kind ++ BitVec.ofNat 16 src ++ s.dfrac
  let entry := toBytes 8 s.dtime ++ toBytes 8 info ++ toBytes 8 addr ++ toBytes 8 detail
  { s with rings := { s.rings with elPend := insertPending (s.timing.now, src, entry) s.rings.elPend } }

/-- Write a composite record with its stamp to the composite ring, accompanied by an error log entry of KIND 0x08 (R378,
R384). -/
def State.logComposite (s : State) (t : TileId) (cause : BitVec 8) (ctx : CtxId) (addr : Word) (stamp : Nat)
    (record : List Byte) : State :=
  let s := { s with rings := { s.rings with cfPend := insertPending (stamp, t.toNat, record) s.rings.cfPend } }
  s.logError 0x08 cause t.toNat ctx addr 0

/-- Entries of a ring of the given size that a head and a tail index leave for the reader (R382; DEDUCED, log entry 9). -/
def ringFull (size : Nat) (head tail : Word) : Bool := (head.toNat + 1) % size == tail.toNat % size

/-- An error log entry moves into its ring; one that finds the ring full is discarded and counted (R382). -/
def State.flushError (s : State) (e : Nat × Nat × List Byte) : State :=
  let size := 2 ^ (s.rings.elsize.toNat + 6)
  if ringFull size s.rings.elhead s.rings.eltail then
    let lost := s.rings.ellost
    { s with rings := { s.rings with ellost := if lost == BitVec.allOnes 64 then lost else lost + 1 } }
  else
    let head := s.rings.elhead.toNat % size
    let s := s.store (s.rings.elbase.toNat + 32 * head) e.2.2
    { s with rings := { s.rings with elhead := BitVec.ofNat 64 ((head + 1) % size) } }

/-- Entries of the error log whose instant has passed move into the ring (R384). -/
def State.flushErrors (s : State) : State :=
  let due := s.rings.elPend.filter fun e => e.1 < s.timing.now
  let later := s.rings.elPend.filter fun e => ¬ e.1 < s.timing.now
  due.foldl State.flushError { s with rings := { s.rings with elPend := later } }

/-- A record moves into the composite ring, or is held while an earlier one is held or the ring is full (R382). -/
def State.flushRecord (s : State) (e : Nat × Nat × List Byte) : State :=
  let size := 2 ^ (s.rings.cfsize.toNat + 4)
  if !s.rings.cfPend.isEmpty || ringFull size s.rings.cfhead s.rings.cftail then
    { s with rings := { s.rings with cfPend := s.rings.cfPend ++ [e] } }
  else
    let head := s.rings.cfhead.toNat % size
    let s := s.store (s.rings.cfbase.toNat + 256 * head) e.2.2
    { s with rings := { s.rings with cfhead := BitVec.ofNat 64 ((head + 1) % size) } }

/-- May a record move into its ring: its instant has passed, and no fault that is still to be reported has an earlier
stamp, or the same stamp and a lower source (R372, R384)? -/
def State.recordDue (s : State) (e : Nat × Nat × List Byte) : Bool :=
  decide (e.1 < s.timing.now) && s.tiles.toList.zipIdx.all fun (x, t) =>
    match x.fault with
    | none => true
    | some f => !f.pending || decide (e.1 < f.stamp) || (e.1 == f.stamp && decide (e.2.1 ≤ t))

/-- Records whose instant has passed move into the composite ring, as far as it has room (R382, R384). -/
def State.flushRecords (s : State) : State :=
  let due := s.rings.cfPend.filter s.recordDue
  let later := s.rings.cfPend.filter fun e => !s.recordDue e
  let s := due.foldl State.flushRecord { s with rings := { s.rings with cfPend := [] } }
  { s with rings := { s.rings with cfPend := s.rings.cfPend ++ later } }

/-- Both rings take what waits for them. -/
def State.flushLogs (s : State) : State := s.flushErrors.flushRecords

/-- Has a record REF = 1: an engine fault referred without a freeze (R374, R411)? -/
def isReferral (record : List Byte) : Bool := (record.getD 1 0).getLsbD 4

/-- A composite record of the tile is held because the ring is full, or has not reached it: the tile stays frozen
(R382). A referral freezes no tile. -/
def State.recordHeld (s : State) (t : TileId) : Bool :=
  s.rings.cfPend.any fun e => e.2.1 == t.toNat && !isReferral e.2.2

end Sys2Proof.Machine
end

