-- ==== Sys2Proof/Machine/Device.lean ====
section
/-! DEFINITION. The device registers of the I/O dies (spec/02_address_space.md R25, R40, R41; spec/05_cisterns.md R93;
spec/19_execution_and_scheduling.md R332, R337, R339, R348 to R351; spec/20_deadlines.md R354;
spec/22_traps_and_context.md R382; spec/25_edges.md R399, R400, R402, R404, R410): what a read returns and what a write
does, by register. -/

namespace Sys2Proof.Machine

/-- The registers of an Ethernet port (R402). -/
inductive EthReg where
  | ctl | stat | mac | txbase | txsize | txhead | txtail | rxbase | rxsize | rxhead | rxtail
deriving DecidableEq, Repr

/-- The registers of a context's page (R332). -/
inductive CtxReg where
  | submit | substat | evvec (w : BitVec 2) | evset (w : BitVec 2) | evclr (w : BitVec 2) | hold | gsmask | jobtag
deriving DecidableEq, Repr

/-- The ring registers (R382). -/
inductive RingReg where
  | cfbase | cfsize | cfhead | cftail | elbase | elsize | elhead | eltail | ellost
deriving DecidableEq, Repr

/-- The device registers. -/
inductive DevReg where
  | xinval | xinvgen | gsbase | gsperiod
  | ring (r : RingReg)
  | grant (i : BitVec 6)
  | tcfg (t : TileId)
  | dtstat
  | group (g : BitVec 8) (dbl : BitVec 6)
  | bootstat
  | attnonce (k : BitVec 3)
  | attreq
  | pciwin | domain
  | eth (p : BitVec 2) (r : EthReg)
  | ctx (c : CtxId) (r : CtxReg)
deriving DecidableEq, Repr

/-- The ring register at a multiple of eight (R382). -/
def ringRegOf (k : Nat) : Option RingReg :=
  [RingReg.cfbase, .cfsize, .cfhead, .cftail, .elbase, .elsize, .elhead, .eltail, .ellost][k]?

/-- The Ethernet register at an offset of its page (R402). -/
def ethRegOf (o : Nat) : Option EthReg :=
  match o with
  | 0x00 => some .ctl
  | 0x08 => some .stat
  | 0x10 => some .mac
  | 0x20 => some .txbase
  | 0x28 => some .txsize
  | 0x30 => some .txhead
  | 0x38 => some .txtail
  | 0x40 => some .rxbase
  | 0x48 => some .rxsize
  | 0x50 => some .rxhead
  | 0x58 => some .rxtail
  | _ => none

/-- The context register at an offset of its page (R332). -/
def ctxRegOf (o : Nat) : Option CtxReg :=
  match o with
  | 0x00 => some .submit
  | 0x08 => some .substat
  | 0x20 => some (.evvec 0)
  | 0x28 => some (.evvec 1)
  | 0x30 => some (.evvec 2)
  | 0x38 => some (.evvec 3)
  | 0x40 => some (.evset 0)
  | 0x48 => some (.evset 1)
  | 0x50 => some (.evset 2)
  | 0x58 => some (.evset 3)
  | 0x60 => some (.evclr 0)
  | 0x68 => some (.evclr 1)
  | 0x70 => some (.evclr 2)
  | 0x78 => some (.evclr 3)
  | 0x80 => some .hold
  | 0x88 => some .gsmask
  | 0x90 => some .jobtag
  | _ => none

/-- The register at an offset of the device-register region (R25), by its first byte; every other offset is a hole. -/
def devRegAt (o : Nat) : Option DevReg :=
  if o = 0x100 then some .xinval
  else if o = 0x108 then some .xinvgen
  else if o = 0x200 then some .gsbase
  else if o = 0x208 then some .gsperiod
  else if 0x400 ≤ o ∧ o < 0x448 then (ringRegOf ((o - 0x400) / 8)).map .ring
  else if 0x10000 ≤ o ∧ o < 0x10400 then some (.grant (BitVec.ofNat 6 ((o - 0x10000) / 16)))
  else if 0x20000 ≤ o ∧ o < 0x20800 then some (.tcfg (BitVec.ofNat 8 ((o - 0x20000) / 8)))
  else if o = 0x30000 then some .dtstat
  else if 0x40000 ≤ o ∧ o < 0x60000 then
    some (.group (BitVec.ofNat 8 ((o - 0x40000) / 512)) (BitVec.ofNat 6 ((o - 0x40000) % 512 / 8)))
  else if o = 0x60000 then some .bootstat
  else if 0x61000 ≤ o ∧ o < 0x61040 then some (.attnonce (BitVec.ofNat 3 ((o - 0x61000) / 8)))
  else if o = 0x61040 then some .attreq
  else if o = 0x70000 then some .pciwin
  else if o = 0x80000 then some .domain
  else if 0x90000 ≤ o ∧ o < 0x94000 then
    (ethRegOf ((o - 0x90000) % 4096)).map (.eth (BitVec.ofNat 2 ((o - 0x90000) / 4096)))
  else if 0x100000 ≤ o ∧ o < 0x140000 then
    (ctxRegOf ((o - 0x100000) % 4096)).map (.ctx (BitVec.ofNat 6 ((o - 0x100000) / 4096)))
  else none

/-- The access width of a register (R25). -/
def DevReg.width : DevReg → Nat
  | .grant _ => 16
  | _ => 8

/-- The register that an access of n bytes names: one of its width, aligned on that width (R25). -/
def devRegOf (pa n : Nat) : Option DevReg :=
  match devRegAt (pa - deviceBase) with
  | none => none
  | some r => if n = r.width && pa % r.width == 0 then some r else none

/-! ### Held contexts and tile reset -/

/-- Is the context held: its `HOLD` is 1, or its gang slot excludes it (R350, R351)? -/
def State.ctxHeld (s : State) (c : CtxId) : Bool :=
  (s.ctx c).hold || (s.gsperiod != 0 && !(s.ctx c).gsmask.getLsbD s.gslot)

/-- A node by its serial number. -/
def State.node? (s : State) (n : Nat) : Option Node := s.nodes.find? fun x => x.serial == n

/-- The context of a node, by serial number. -/
def State.nodeCtx (s : State) (n : Option Nat) : Option CtxId := (n.bind s.node?).map (·.ctx)

/-- Has the tile done what the holding of a context asks of it (R350): it stages and runs no node of the context, and if
its last node was of the context, its pre-emption is complete? -/
def State.tileQuiet (s : State) (c : CtxId) (t : TileId) : Bool :=
  let x := s.tile t
  s.nodeCtx (x.shadow.map (·.serial)) != some c && s.nodeCtx x.node != some c
    && (x.lastCtx != some c || (s.ctx c).quiet.contains t)

/-- The tiles, in order. -/
def tileIds : List TileId := (List.range 256).map (BitVec.ofNat 8)

/-- HELD of `SUBSTAT` (R332, R350). -/
def State.held (s : State) (c : CtxId) : Bool := s.ctxHeld c && tileIds.all (s.tileQuiet c)

/-- Change a node in the pool. -/
def State.mapNode (s : State) (n : Nat) (f : Node → Node) : State :=
  { s with nodes := s.nodes.map fun x => if x.serial == n then f x else x }

/-- Take a node's staging off every tile (R345, R412). -/
def State.unstage (s : State) (n : Nat) : State :=
  { s with tiles := s.tiles.map fun x =>
      match x.shadow with
      | none => x
      | some sh =>
        if sh.serial == n then
          { x with
            shadow := none
            user := if x.user.state = .loaded then { x.user with state := .idle } else x.user }
        else x }

/-- A staged node of a held context returns to Admitted, and its consumed wait bits are ORed back (R345, R350). -/
def State.returnStaged (s : State) (c : CtxId) : State :=
  if s.ctxHeld c then
    (s.nodes.filter fun x => x.ctx == c && x.state == .dispatched).foldl (init := s) fun s x =>
      let s := (s.unstage x.serial).mapNode x.serial fun y => { y with state := .admitted, tiles := [] }
      s.setCtx c { s.ctx c with events := (s.ctx c).events ||| x.wait }
  else s.setCtx c { s.ctx c with quiet := [] }

/-- The gang slot at the present device time (R351). -/
def State.slotNow (s : State) : Nat :=
  if s.gsperiod = 0 || s.dtime < s.gsbase then 0
  else (s.dtime - s.gsbase).toNat / s.gsperiod.toNat % 64

/-- The contexts, in order. -/
def ctxIds : List CtxId := (List.range 64).map (BitVec.ofNat 6)

/-- The present gang slot comes into force, holding and releasing contexts (R351). -/
def State.gangSlot (s : State) : State := ctxIds.foldl State.returnStaged { s with gslot := s.slotNow }

/-- Every byte of a tile's cistern becomes zero, full and not poisoned (R349). -/
def State.clearCistern (s : State) (t : TileId) : State :=
  let keep (pa : Nat) : Bool := cisternTile pa != some t
  { s with
    mem := s.mem.filter fun c => keep c.1
    empty := s.empty.filter fun l => keep (128 * l)
    poison := s.poison.filter fun l => keep (128 * l) }

/-- Does no queue of the tile hold a command (R349)? -/
def Tile.noCommand (x : Tile) : Bool := x.loadQ.isEmpty && x.storeQ.isEmpty && x.mx.queue.isEmpty

/-- Are the queues of the tile empty, the signal queue among them (R347, R350)? -/
def Tile.queuesEmpty (x : Tile) : Bool := x.noCommand && x.sigQ.isEmpty

/-- A user context that holds no stream; the registers that no rule resets stay (R8, R331, R349). -/
def Stream.vacant (x : Stream) : Stream :=
  { x with
    state := .idle, wait := .none, diverted := false, begun := false, ports := Vector.replicate 4 [], barrier := none
    arrivals := 0, calls := [], vamoTodo := [], woken := false
    single := false, rejoin := none, went := false, late := 0, native := none }

/-- The tile enters tile reset (R349): its cistern, queues, ports, caches, matrix and decoder state take their reset
values, the user context holds no stream and the firmware context does not issue. A discarded post has no answer any
more. Registers whose reset is another one, or that have none, stay (R8). -/
def State.enterReset (s : State) (t : TileId) : State :=
  let x := s.tile t
  ({ s with peerOut := s.peerOut.filter (·.tile != t) }.clearCistern t).setTile t
    { x with
      user := x.user.vacant, fw := { x.fw with state := .idle, wait := .none }
      loadQ := [], storeQ := [], pumps := Vector.replicate 4 PumpCtx.reset
      mx := { Matrix.reset with slots := x.mx.slots }, sigQ := [], sigFault := none
      mmu := { Mmu.reset with gen := x.mmu.gen, unacked := x.mmu.unacked }
      hbarArrived := 0, shadow := none, node := none, lastNode := none, lastCtx := none, callTime := none, fault := none
      lost := false, rst := true, rbusy := true, frozen := false, gated := false }

/-- May a write of RST = 1 take effect: no node is staged or running on the tile and no queue of the tile holds a
command (R349)? -/
def Tile.resettable (x : Tile) : Bool := x.shadow.isNone && x.node.isNone && x.noCommand

/-- A write of RST = 1 (R349). -/
def State.resetTile (s : State) (t : TileId) : State := if (s.tile t).resettable then s.enterReset t else s

/-- Are tiles enabled at all? After a configuration record that failed none is (R397). -/
def State.tilesEnabled (s : State) : Bool := s.boot.stage != 0xF

/-- A write of RST = 0 (R349). -/
def State.releaseTile (s : State) (t : TileId) : State :=
  if s.tilesEnabled then s.setTile t { s.tile t with rst := false } else s

/-! ### Writes, register by register -/

/-- A write to `SUBMIT` (R337). -/
def State.submit (s : State) (c : CtxId) (v : Word) : State :=
  let x := s.ctx c
  if v.extractLsb' 48 16 ≠ 0 || v.extractLsb' 0 6 ≠ 0 || x.subQ.length ≥ 64 then s.setCtx c { x with ovf := true }
  else s.setCtx c { x with subQ := x.subQ ++ [v] }

/-- A double placed in an event vector. -/
def eventMask (w : BitVec 2) (v : Word) : BitVec 256 := v.setWidth 256 <<< (64 * w.toNat)

/-- A write to `EVSETw` (R333). -/
def State.evset (s : State) (c : CtxId) (w : BitVec 2) (v : Word) : State :=
  s.setCtx c { s.ctx c with events := (s.ctx c).events ||| eventMask w v }

/-- A write to `EVCLRw` (R333). -/
def State.evclr (s : State) (c : CtxId) (w : BitVec 2) (v : Word) : State :=
  s.setCtx c { s.ctx c with events := (s.ctx c).events &&& ~~~(eventMask w v) }

/-- A write to `HOLD` (R332, R350). -/
def State.writeHold (s : State) (c : CtxId) (v : Word) : State :=
  (s.setCtx c { s.ctx c with hold := v.getLsbD 0 }).returnStaged c

/-- A write to `XINVAL`: one shoot-down with the next generation number, for every enabled tile (R40, R42). -/
def State.xinval (s : State) (v : Word) : State :=
  let n := s.issued + 1
  { s with issued := n, shoots := s.shoots ++ [(n, v, tileIds, tileIds)] }

/-- The size of the grid of a group entry. -/
def Group.size (g : Group) : Nat := (g.gwm1.toNat + 1) * (g.ghm1.toNat + 1)

/-- The members of a group entry, in virtual index order (R339). -/
def Group.members (g : Group) : List TileId := g.mem.toList.take g.size

/-- Are the elements of a list distinct? -/
def distinct : List TileId → Bool
  | [] => true
  | x :: xs => !xs.contains x && distinct xs

/-- May the entry be made valid (R339)? -/
def State.groupOk (s : State) (e : BitVec 8) (g : Group) : Bool :=
  let others := (s.groups.toList.zipIdx.filter fun p => p.2 ≠ e.toNat && p.1.valid).map (·.1)
  decide (g.size ≤ 256) && s.tilesEnabled && distinct g.members
    && g.members.all fun t => decide ((others.filter fun o => o.members.contains t).length < 4)

/-- A write of a double of a group entry (R339): a write that sets V = 1 on an entry that may not be valid is refused,
which leaves V = 0 and sets ERR; every other write clears ERR (DEDUCED, log entry 41). -/
def State.writeGroup (s : State) (e : BitVec 8) (dbl : BitVec 6) (v : Word) : State :=
  let g := s.groups[e.toNat]'e.isLt
  let put (g : Group) : State := { s with groups := s.groups.set e.toNat g e.isLt }
  if dbl = 0 then
    let g := { g with
      valid := v.getLsbD 63, err := false, ctx := v.extractLsb' 56 6, ghm1 := v.extractLsb' 8 8
      gwm1 := v.extractLsb' 0 8 }
    if g.valid && !s.groupOk e g then put { g with valid := false, err := true } else put g
  else if dbl.toNat ≤ 32 then
    let mem : Vector (BitVec 8) 256 := Vector.ofFn fun i : Fin 256 =>
      if i.val / 8 + 1 = dbl.toNat then v.extractLsb' (8 * (i.val % 8)) 8 else g.mem[i.val]
    put { g with mem := mem, err := false }
  else put { g with err := false }

/-- The bits of a grant entry that are not reserved (R93). -/
def grantMask : Quad := 0xE0FFFFFFFFFFFFFFFFFF000000000000

/-- A store to a grant entry: only stores by a firmware context take effect (R93). -/
def State.writeGrant (s : State) (agent : Agent) (e : BitVec 6) (v : Quad) : State :=
  match agent with
  | .firmware _ => { s with grants := s.grants.set e.toNat (v &&& grantMask) e.isLt }
  | .user _ => s
  | .host => s
  | .pcie => s

/-- A write to `TCFG` (R348, R349): one that would reset the tile when it may not is ignored. -/
def State.writeTcfg (s : State) (t : TileId) (v : Word) : State :=
  let s' := s.setTile t { s.tile t with fwsh := v.extractLsb' 0 4 }
  if !v.getLsbD 8 then s'.releaseTile t
  else if (s.tile t).resettable then s'.enterReset t
  else s

/-- A write to `CFRTAIL`: held records move into the entries that it frees (R382). -/
def State.writeCfrtail (s : State) (v : Word) : State :=
  ({ s with rings := { s.rings with cftail := v } }).flushRecords

/-- A write to a ring register (R382); the heads and `ELLOST` are read-only. -/
def State.writeRing (s : State) (r : RingReg) (v : Word) : State :=
  match r with
  | .cfbase => { s with rings := { s.rings with cfbase := v } }
  | .cfsize => { s with rings := { s.rings with cfsize := v.setWidth 4 } }
  | .cfhead => s
  | .cftail => s.writeCfrtail v
  | .elbase => { s with rings := { s.rings with elbase := v } }
  | .elsize => { s with rings := { s.rings with elsize := v.setWidth 4 } }
  | .elhead => s
  | .eltail => { s with rings := { s.rings with eltail := v } }
  | .ellost => s

/-- Does the port belong to the boot unit (R402)? -/
def State.ethBoot (s : State) (p : BitVec 2) : Bool := p == 0 && s.boot.stage != 4

/-- A ring index that the host may write: one that does not make the ring hold as many entries as it has (R402;
DEDUCED, log entry 40). -/
def tailOk (size : Nat) (head tail : Word) : Bool :=
  !(tail != head && (tail - head).toNat % size == 0)

/-- A write to an Ethernet register while the host owns the port (R402). -/
def EthPort.write (e : EthPort) (r : EthReg) (v : Word) : EthPort :=
  let tx := e.ctl.getLsbD 0 && e.ctl.getLsbD 1
  let rx := e.ctl.getLsbD 0 && e.ctl.getLsbD 2
  match r with
  | .ctl => { e with ctl := v &&& 0xF }
  | .stat => if v.getLsbD 1 then { e with rxovf := false } else e
  | .mac => { e with mac := v &&& 0x8000FFFFFFFFFFFF }
  | .txbase => if tx then e else { e with txbase := v }
  | .txsize => if tx then e else { e with txsize := v.setWidth 4 }
  | .txhead => e
  | .txtail => if tailOk (2 ^ (e.txsize.toNat + 4)) e.txhead v then { e with txtail := v } else e
  | .rxbase => if rx then e else { e with rxbase := v }
  | .rxsize => if rx then e else { e with rxsize := v.setWidth 4 }
  | .rxhead => e
  | .rxtail => if tailOk (2 ^ (e.rxsize.toNat + 4)) e.rxhead v then { e with rxtail := v } else e

/-- An Ethernet port. -/
def State.port (s : State) (p : BitVec 2) : EthPort := s.eth[p.toNat]'p.isLt

/-- Replace an Ethernet port. -/
def State.setPort (s : State) (p : BitVec 2) (e : EthPort) : State := { s with eth := s.eth.set p.toNat e p.isLt }

/-- A write to an Ethernet register (R402). -/
def State.writeEth (s : State) (p : BitVec 2) (r : EthReg) (v : Word) : State :=
  if s.ethBoot p then s else s.setPort p ((s.port p).write r v)

/-- A write to `ATTREQ`; a request written while an earlier one is outstanding is ignored (R400). -/
def State.writeAttreq (s : State) (v : Word) : State :=
  match s.boot.attreq with
  | none => { s with boot := { s.boot with attreq := some v } }
  | some _ => s

/-- A write to a register of a context's page (R332). -/
def State.writeCtx (s : State) (c : CtxId) (r : CtxReg) (v : Word) : State :=
  match r with
  | .submit => s.submit c v
  | .substat => if v.getLsbD 8 then s.setCtx c { s.ctx c with ovf := false } else s
  | .evvec _ => s
  | .evset w => s.evset c w v
  | .evclr w => s.evclr c w v
  | .hold => s.writeHold c v
  | .gsmask => (s.setCtx c { s.ctx c with gsmask := v }).returnStaged c
  | .jobtag => s.setCtx c { s.ctx c with jobtag := v.setWidth 16 }

/-- A write to a device register by an agent (R25; DEDUCED, log entry 44). -/
def State.devWrite (s : State) (agent : Agent) (r : DevReg) (q : Quad) : State :=
  let v : Word := q.setWidth 64
  match r with
  | .xinval => s.xinval v
  | .xinvgen => s
  | .gsbase => ({ s with gsbase := v }).gangSlot
  | .gsperiod => ({ s with gsperiod := v }).gangSlot
  | .ring r => s.writeRing r v
  | .grant i => s.writeGrant agent i q
  | .tcfg t => s.writeTcfg t v
  | .dtstat => s
  | .group g d => s.writeGroup g d v
  | .bootstat => s
  | .attnonce k => { s with boot := { s.boot with nonce := s.boot.nonce.set k.toNat v k.isLt } }
  | .attreq => s.writeAttreq v
  | .pciwin => { s with pciwin := v.setWidth 4 }
  | .domain => s
  | .eth p r => s.writeEth p r v
  | .ctx c r => s.writeCtx c r v

/-! ### Reads -/

/-- The first double of a group entry (R339). -/
def Group.double (g : Group) : Word :=
  bit g.valid ++ bit g.err ++ g.ctx ++ (0 : BitVec 40) ++ g.ghm1 ++ g.gwm1

/-- A double of a group entry (R339). -/
def Group.read (g : Group) (dbl : BitVec 6) : Word :=
  if dbl = 0 then g.double
  else if dbl.toNat ≤ 32 then ofBytes 64 ((g.mem.toList.drop (8 * (dbl.toNat - 1))).take 8)
  else 0

/-- `TCFG` as it reads (R348). -/
def Tile.tcfg (x : Tile) : Word := (0 : BitVec 54) ++ bit x.rbusy ++ bit x.rst ++ (0 : BitVec 4) ++ x.fwsh

/-- `DTSTAT` (R354). -/
def Timing.dtstat (x : Timing) : Word := x.mode ++ (0 : BitVec 14) ++ x.freq ++ x.offset

/-- `BOOTSTAT` (R399). -/
def Boot.bootstat (b : Boot) : Word :=
  (0 : BitVec 16) ++ b.imgver ++ b.fails ++ b.cause ++ (0 : BitVec 12) ++ b.stage

/-- A ring register as it reads (R382). -/
def Rings.read (r : Rings) : RingReg → Word
  | .cfbase => r.cfbase
  | .cfsize => r.cfsize.setWidth 64
  | .cfhead => r.cfhead
  | .cftail => r.cftail
  | .elbase => r.elbase
  | .elsize => r.elsize.setWidth 64
  | .elhead => r.elhead
  | .eltail => r.eltail
  | .ellost => r.ellost

/-- An Ethernet register as it reads (R402). -/
def EthPort.read (e : EthPort) : EthReg → Word
  | .ctl => e.ctl
  | .stat => (0 : BitVec 62) ++ bit e.rxovf ++ bit e.link
  | .mac => e.mac
  | .txbase => e.txbase
  | .txsize => e.txsize.setWidth 64
  | .txhead => e.txhead
  | .txtail => e.txtail
  | .rxbase => e.rxbase
  | .rxsize => e.rxsize.setWidth 64
  | .rxhead => e.rxhead
  | .rxtail => e.rxtail

/-- A register of a context's page as it reads (R332); the write-only registers read zero (R8). -/
def State.readCtx (s : State) (c : CtxId) : CtxReg → Word
  | .submit => 0
  | .substat =>
    (0 : BitVec 54) ++ bit (s.held c) ++ bit (s.ctx c).ovf ++ (0 : BitVec 1)
      ++ BitVec.ofNat 7 (64 - (s.ctx c).subQ.length)
  | .evvec w => (s.ctx c).events.extractLsb' (64 * w.toNat) 64
  | .evset _ => 0
  | .evclr _ => 0
  | .hold => (bit (s.ctx c).hold).setWidth 64
  | .gsmask => (s.ctx c).gsmask
  | .jobtag => (s.ctx c).jobtag.setWidth 64

/-- A device register as it reads, and the state after the read. For `ATTNONCE` and `ATTREQ` the spec states no value
that a read returns: it is free (DESIGN CHOICE, log entry 5). -/
def State.devRead (s : State) : DevReg → Quad × State
  | .xinval => (0, s)
  | .xinvgen => ((s.issued ++ s.completed : Word).setWidth 128, s)
  | .gsbase => (s.gsbase.setWidth 128, s)
  | .gsperiod => (s.gsperiod.setWidth 128, s)
  | .ring r => ((s.rings.read r).setWidth 128, s)
  | .grant i => (s.grants[i.toNat]'i.isLt, s)
  | .tcfg t => ((s.tile t).tcfg.setWidth 128, s)
  | .dtstat => (s.timing.dtstat.setWidth 128, s)
  | .group g d => (((s.groups[g.toNat]'g.isLt).read d).setWidth 128, s)
  | .bootstat => (s.boot.bootstat.setWidth 128, s)
  | .attnonce _ => ((Config.freeWord s.fresh).setWidth 128, { s with fresh := s.fresh + 1 })
  | .attreq => ((Config.freeWord s.fresh).setWidth 128, { s with fresh := s.fresh + 1 })
  | .pciwin => (s.pciwin.setWidth 128, s)
  | .domain => (((0 : BitVec 55) ++ bit s.domainV ++ s.domainNum : Word).setWidth 128, s)
  | .eth p r => ((if s.ethBoot p then EthPort.reset.read r else (s.port p).read r).setWidth 128, s)
  | .ctx c r => ((s.readCtx c r).setWidth 128, s)

end Sys2Proof.Machine
end

