-- ==== Sys2Proof/Machine/Translate.lean ====
section
/-! DEFINITION. Translation: Sv48 walks, the translation caches and the physical conditions (spec/02_address_space.md
R24 to R43), swizzle masks (spec/05_cisterns.md R96, R97). -/

namespace Sys2Proof.Machine

/-- The page fault of an access's kind (R27, R28, R371). An atomic's kind is that of a store (DEDUCED, log entry 12). -/
def pageFault : Access → BitVec 8
  | .load => Cause.loadPageFault
  | .store => Cause.storePageFault
  | .atomic => Cause.storePageFault
  | .post => Cause.storePageFault
  | .fetch => Cause.fetchPageFault

/-- The access fault of an access's kind (R24). -/
def accessFault : Access → BitVec 8
  | .load => Cause.loadAccessFault
  | .store => Cause.storeAccessFault
  | .atomic => Cause.storeAccessFault
  | .post => Cause.storeAccessFault
  | .fetch => Cause.fetchAccessFault

/-- A 48-bit virtual address with bit 47 sign-extended (R29, R176). -/
def canonical (va : Word) : Word := (va.setWidth 48 : BitVec 48).signExtend 64

/-- A write of `CTXROOT` (R26): a MODE other than bare and Sv48 leaves MODE as it was. -/
def writeRoot (old v : Word) : Word :=
  let mode : BitVec 4 := v.extractLsb' 60 4
  (if mode = 0 || mode = 9 then mode else old.extractLsb' 60 4) ++ (v.extractLsb' 0 60 : BitVec 60)

/-- Does the access need write permission? -/
def Access.writes : Access → Bool
  | .load => false
  | .store => true
  | .atomic => true
  | .post => true
  | .fetch => false

/-- Does a leaf grant the access (R28)? `user` is the user hardware context or its engines. -/
def leafGrants (u x w r : Bool) (acc : Access) (user : Bool) : Bool :=
  (u == user) &&
    match acc with
    | .load => r
    | .store => w
    | .atomic => r && w
    | .post => r && w
    | .fetch => x

/-- A completed walk (R27): the leaf's place, its value, the page's span and the pointers read on the way. -/
structure Walked where
  pteAddr : Nat
  pte     : Word
  span    : Nat
  ppn     : BitVec 44
  global  : Bool
  tables  : List WalkEntry
deriving DecidableEq, Repr

/-- Where a page-table read may be made: memory or a cistern whose tile is not in reset (R27, R349). -/
def State.pteReadable (s : State) (a : Nat) : Bool :=
  match regionOf a with
  | .hbm => true
  | .cistern t _ => !(s.tile t).rbusy
  | .device => false
  | .hole => false

/-- One level of a walk and the levels below it (R27); `n` is the level plus one (PRESUMED, log entry 13). -/
def walkFrom (s : State) (asid : BitVec 16) (va : BitVec 48) (acc : Access) :
    Nat → Nat → Bool → List WalkEntry → Except (BitVec 8) Walked
  | 0, _, _, _ => .error (pageFault acc)
  | level + 1, table, glob, seen =>
    let addr := table + 8 * ((va.toNat >>> (12 + 9 * level)) % 512)
    if !s.pteReadable addr then .error (accessFault acc)
    else if s.linePoisoned (lineOf addr) then .error Cause.poisonedRead
    else
      let pte := ofBytes 64 (s.readBytes addr 8)
      let b (n : Nat) : Bool := pte.getLsbD n
      let pbmt : BitVec 2 := pte.extractLsb' 61 2
      let ppn : BitVec 44 := pte.extractLsb' 10 44
      if !b 0 || (b 2 && !b 1) || pte.extractLsb' 54 7 ≠ 0 then .error (pageFault acc)
      else if !b 1 && !b 3 then
        -- a pointer: PBMT and N must be zero (R27), and so must U, A and D (PRESUMED, log entry 13)
        if pbmt ≠ 0 || b 63 || b 4 || b 6 || b 7 then .error (pageFault acc)
        else
          let e : WalkEntry :=
            ⟨level, BitVec.ofNat 36 ((va.toNat >>> 12) >>> (9 * level)), asid, glob || b 5, ppn⟩
          walkFrom s asid va acc level (ppn.toNat * 4096) (glob || b 5) (e :: seen)
      else if level = 3 || pbmt = 3 then .error (pageFault acc)
      else if b 63 then
        if level = 0 && ppn.extractLsb' 0 4 = 8 then
          .ok ⟨addr, pte, 4, BitVec.ofNat 44 (ppn.toNat / 16 * 16), glob || b 5, seen⟩
        else .error (pageFault acc)
      else if ppn.toNat % 2 ^ (9 * level) ≠ 0 then .error (pageFault acc)
      else .ok ⟨addr, pte, 9 * level, ppn, glob || b 5, seen⟩

/-- The first poisoned line that a walk reads: the line of the page-table entry at which it stops (R27, R381). -/
def poisonedPte (s : State) (va : BitVec 48) : Nat → Nat → Nat
  | 0, table => lineOf table
  | level + 1, table =>
    let addr := table + 8 * ((va.toNat >>> (12 + 9 * level)) % 512)
    if s.linePoisoned (lineOf addr) then lineOf addr
    else poisonedPte s va level (((ofBytes 64 (s.readBytes addr 8)).extractLsb' 10 44).toNat * 4096)

/-- The deepest pointer that the walk cache holds for an address (R33). -/
def walkCached (m : Mmu) (asid : BitVec 16) (va : BitVec 48) : Option WalkEntry :=
  let hit (e : WalkEntry) : Bool :=
    (e.g || e.asid == asid) && e.prefix_ == BitVec.ofNat 36 ((va.toNat >>> 12) >>> (9 * e.level))
  [1, 2, 3].findSome? fun l => m.walks.find? fun e => e.level == l && hit e

/-- Keep the newest entries of a cache, within its capacity. -/
def cachePut {α : Type} [DecidableEq α] (cap : Nat) (x : α) (xs : List α) : List α :=
  (x :: xs.filter (· ≠ x)).take cap

/-- The set of the second-level control TLB that an entry falls in: 512 entries, four-way (R33). -/
def l2Set (e : TlbEntry) : Nat := (e.vpn.toNat >>> e.span) % 128

/-- Insert into the second-level control TLB, at most four entries a set (R33). -/
def l2Put (e : TlbEntry) (xs : List TlbEntry) : List TlbEntry :=
  let rest := xs.filter (· ≠ e)
  e :: (rest.filter (fun x => l2Set x ≠ l2Set e) ++ (rest.filter (fun x => l2Set x = l2Set e)).take 3)

/-- The stream TLB of an engine context: one per pump context and one for the matrix engine (R33). -/
def Walker.stream : Walker → Option (Fin 5)
  | .control _ => none
  | .pump k => some ⟨k.toNat, Nat.lt_of_lt_of_le k.isLt (by decide)⟩
  | .matrix => some 4

/-- Does an entry translate the address for the address space (R33)? -/
def TlbEntry.matches (e : TlbEntry) (asid : BitVec 16) (va : BitVec 48) : Bool :=
  (e.g || e.asid == asid) && e.vpn.toNat >>> e.span == (va.toNat >>> 12) >>> e.span

/-- The physical address that an entry gives (R27). -/
def TlbEntry.phys (e : TlbEntry) (va : BitVec 48) : Nat :=
  e.ppn.toNat * 4096 + va.toNat % 2 ^ (12 + e.span)

/-- Does a cached entry serve the access (R28, R38: an entry with D = 0 never serves a store)? -/
def TlbEntry.serves (e : TlbEntry) (acc : Access) (user : Bool) : Bool :=
  leafGrants e.u e.x e.w e.r acc user && (!acc.writes || e.d)

/-- Look an address up in the caches of a requester (R33; DEDUCED, log entry 59). -/
def tlbLookup (m : Mmu) (who : Walker) (asid : BitVec 16) (va : BitVec 48) (acc : Access) (user : Bool) :
    Option TlbEntry :=
  let ok (e : TlbEntry) : Bool := e.matches asid va && e.serves acc user
  match who.stream with
  | none => (m.l1.find? ok).orElse fun _ => m.l2.find? ok
  | some i => (m.streams[i]).find? ok

/-- The caches after a hit or a fill: the control TLB's second level refills the first (R33). -/
def tlbFill (m : Mmu) (who : Walker) (e : TlbEntry) : Mmu :=
  match who.stream with
  | none =>
    if m.l1.contains e then m
    else { m with l1 := cachePut 32 e m.l1, l2 := l2Put e m.l2 }
  | some i =>
    if (m.streams[i]).contains e then m
    else { m with streams := m.streams.set i (cachePut 16 e m.streams[i]) }

/-- Set A, and D for a store or atomic, by compare-and-swap (R38). One walk is one step, so the swap does not fail. -/
def setAccessed (s : State) (k : Walked) (acc : Access) : State × Word :=
  let new := k.pte ||| 0x40 ||| (if acc.writes then 0x80 else 0)
  if new = k.pte then (s, new) else (s.writeBytes k.pteAddr (toBytes 8 new), new)

/-- The cached translation of a completed walk, with the leaf as the walk left it (R33). -/
def leafEntry (k : Walked) (pte : Word) (asid : BitVec 16) (va : BitVec 48) : TlbEntry :=
  let b (n : Nat) : Bool := k.pte.getLsbD n
  { vpn := BitVec.ofNat 36 ((va.toNat >>> 12) >>> k.span <<< k.span), span := k.span, asid := asid,
    g := k.global, u := b 4, x := b 3, w := b 2, r := b 1, d := pte.getLsbD 7,
    pbmt := pte.extractLsb' 61 2, ppn := k.ppn }

/-- Walk for an access, set A and D, and fill the caches (R27, R28, R34, R38). -/
def walkAndFill (s : State) (t : TileId) (who : Walker) (root : Word) (va : BitVec 48) (acc : Access)
    (user : Bool) : Except (BitVec 8) (TlbEntry × State) :=
  let asid : BitVec 16 := root.extractLsb' 44 16
  let m := (s.tile t).mmu
  let start : Nat × Nat × Bool :=
    match walkCached m asid va with
    | some e => (e.level, e.ppn.toNat * 4096, e.g)
    | none => (4, (root.extractLsb' 0 44).toNat * 4096, false)
  match walkFrom s asid va acc start.1 start.2.1 start.2.2 [] with
  | .error c => .error c
  | .ok k =>
    let b (n : Nat) : Bool := k.pte.getLsbD n
    if !leafGrants (b 4) (b 3) (b 2) (b 1) acc user then .error (pageFault acc)
    else
      let (s, pte) := setAccessed s k acc
      let e := leafEntry k pte asid va
      let x := s.tile t
      let m := tlbFill x.mmu who e
      let m := { m with walks := k.tables.foldl (fun ws w => cachePut 32 w ws) m.walks }
      .ok (e, s.setTile t { x with mmu := m })

/-! ### The walker's queue (R35, R37) -/

/-- The root through which a requester's walks start: that of the hardware context that it serves (R26, R376). -/
def Tile.walkRoot (x : Tile) (who : Walker) : Word :=
  match who with
  | .control .user => x.user.ctxroot
  | .control .firmware => x.fw.ctxroot
  | .pump _ => x.user.ctxroot
  | .matrix => x.user.ctxroot

/-- Does the requester stand for the user hardware context (R28)? -/
def Walker.isUser (who : Walker) : Bool := who != .control .firmware

/-- The caches after the walk of a queued request. A prefetch walk sets A and never D, and a walk that fails leaves no
trace (R34, R35); it is checked as a load whatever its command does there (DESIGN CHOICE, log entry 63). A bare root
walks no tables (R26). -/
def State.serveWalk (s : State) (t : TileId) (r : WalkReq) : State :=
  let acc := if r.prefetch then .load else r.access
  if r.root.extractLsb' 60 4 = 0 then s
  else
    match walkAndFill s t r.who r.root r.va acc r.who.isUser with
    | .error _ => s
    | .ok (_, s) => s

/-- The walker serves the request at the head of its queue. -/
def State.walkHead (s : State) (t : TileId) : State :=
  let x := s.tile t
  match x.mmu.queue with
  | [] => s
  | r :: rest => (s.setTile t { x with mmu := { x.mmu with queue := rest } }).serveWalk t r

/-- The walker serves every request that is queued, in the order of their arrival. -/
def State.walkAll (s : State) (t : TileId) : State :=
  ((s.tile t).mmu.queue).foldl (fun s _ => s.walkHead t) s

/-- A request joins the queue of eight; while the queue is full its requester waits for the walker to serve the head. -/
def State.requestWalk (s : State) (t : TileId) (r : WalkReq) : State :=
  let s := if 8 ≤ (s.tile t).mmu.queue.length then s.walkHead t else s
  let x := s.tile t
  s.setTile t { x with mmu := { x.mmu with queue := x.mmu.queue ++ [r] } }

/-- Does an access have to wait for a walk: no cache of its requester serves it (R33, R38)? -/
def State.needsWalk (s : State) (t : TileId) (who : Walker) (root : Word) (va : Word) (acc : Access) (user : Bool) : Bool :=
  root.extractLsb' 60 4 != 0
    && (tlbLookup (s.tile t).mmu who (root.extractLsb' 44 16) (va.setWidth 48) acc user).isNone

/-- The state in which an access is translated: a walk is served after every request that came before it (R37). -/
def State.beforeWalk (s : State) (t : TileId) (who : Walker) (root : Word) (va : Word) (acc : Access) (user : Bool) : State :=
  if s.needsWalk t who root va acc user then s.walkAll t else s

/-- The addresses of the page-table entries that a walk reads, from the given level down. -/
def walkReads (s : State) (va : BitVec 48) : Nat → Nat → List Nat
  | 0, _ => []
  | level + 1, table =>
    let addr := table + 8 * ((va.toNat >>> (12 + 9 * level)) % 512)
    let pte : Word := ofBytes 64 (s.readBytes addr 8)
    addr :: (if pte.getLsbD 0 && !pte.getLsbD 1 && !pte.getLsbD 3 then
      walkReads s va level ((pte.extractLsb' 10 44).toNat * 4096) else [])

/-- The frozen tile whose cistern holds an address: requests aimed at it wait (R98). -/
def State.frozenAt (s : State) (pa : Nat) : Option TileId := (cisternTile pa).filter fun t => (s.tile t).frozen

/-- The frozen tile that an access which translates to an address waits for, at its walk or at the address (R98). -/
def State.heldUp (s : State) (t : TileId) (who : Walker) (root : Word) (va : Word) (acc : Access) (user : Bool) (pa : Nat) :
    Option TileId :=
  let walked := if s.needsWalk t who root va acc user then
      walkReads s (va.setWidth 48) 4 ((root.extractLsb' 0 44).toNat * 4096)
    else []
  (walked ++ [pa]).findSome? s.frozenAt

/-- A translated page part of an access: its physical address, and whether its page is SO (R30). -/
structure Phys where
  pa : Nat
  so : Bool
deriving DecidableEq, Repr

/-- The physical conditions (R24), and those of a tile in tile reset as others meet it: a post is refused there as it is
performed (R349). -/
def physCheck (s : State) (t : TileId) (p : Phys) (acc : Access) : Option (BitVec 8) :=
  match regionOf p.pa with
  | .hbm => none
  | .cistern t' _ => if (s.tile t').rbusy && t' ≠ t && acc ≠ .post then some (accessFault acc) else none
  | .device => if p.so && acc ≠ .atomic && acc ≠ .post then none else some (accessFault acc)
  | .hole => some (accessFault acc)

/-- The translation of an address for a requester (R27, R28, R33): that of a cache that serves the access, or of a walk,
which comes after those that are queued (R37). -/
def State.entryFor (s : State) (t : TileId) (who : Walker) (root : Word) (va : Word) (acc : Access) (user : Bool) :
    Except (BitVec 8) (TlbEntry × State) :=
  let s := s.beforeWalk t who root va acc user
  match tlbLookup (s.tile t).mmu who (root.extractLsb' 44 16) (va.setWidth 48) acc user with
  | some e => .ok (e, s.setTile t { s.tile t with mmu := tlbFill (s.tile t).mmu who e })
  | none => walkAndFill s t who root (va.setWidth 48) acc user

/-- What an access that fails a check has left of its translation: the walks before its own, and where its own reached a
leaf that grants the access, A and D and the filled caches (R34, R38). -/
def State.tried (s : State) (t : TileId) (who : Walker) (root : Word) (va : Word) (acc : Access) (user : Bool) : State :=
  if root.extractLsb' 60 4 = 0 then s
  else
    match s.entryFor t who root va acc user with
    | .error _ => s.beforeWalk t who root va acc user
    | .ok (_, s) => s

/-- Checks 3 to 5 of R29 on one page part: translate a virtual address for a requester of a tile; a walk comes after
those that are queued (R37). -/
def translate (s : State) (t : TileId) (who : Walker) (root : Word) (va : Word) (acc : Access) (user : Bool) :
    Except (BitVec 8) (Phys × State) :=
  let v48 : BitVec 48 := va.setWidth 48
  if root.extractLsb' 60 4 = 0 then
    if user then .error (accessFault acc)
    else
      let pa := (canonical va).toNat
      let p : Phys := ⟨pa, regionOf pa = .device⟩
      match physCheck s t p acc with
      | some c => .error c
      | none => .ok (p, s)
  else
    match s.entryFor t who root va acc user with
    | .error c => .error c
    | .ok (e, s) =>
      let p : Phys := ⟨e.phys v48, e.pbmt = 2⟩
      match physCheck s t p acc with
      | some c => .error c
      | none => .ok (p, s)

/-- The cached translation that an access has just used; none under a bare root (R26, R33). -/
def State.serving (s : State) (t : TileId) (who : Walker) (root : Word) (va : Word) (acc : Access) (user : Bool) :
    Option TlbEntry :=
  if root.extractLsb' 60 4 = 0 then none
  else tlbLookup (s.tile t).mmu who (root.extractLsb' 44 16) (va.setWidth 48) acc user

/-- The line whose poison a translation meets (R381): that of the page-table entry at which its walk stops, from the
deepest pointer that the walk cache holds. -/
def translationPoison (s : State) (t : TileId) (root : Word) (va : Word) : Nat :=
  let v48 : BitVec 48 := va.setWidth 48
  match walkCached (s.tile t).mmu (root.extractLsb' 44 16) v48 with
  | some e => poisonedPte s v48 e.level (e.ppn.toNat * 4096)
  | none => poisonedPte s v48 4 ((root.extractLsb' 0 44).toNat * 4096)

/-- Is SWZ a valid swizzle index (R97)? -/
def swizzleValid (i : BitVec 6) : Bool := i == 0 || decide (16 ≤ i.toNat && i.toNat < 32)

/-- The mask that SWZ selects (R97). -/
def swizzleMask (xm : Vector Word 16) (i : BitVec 6) : Option Word :=
  if i.extractLsb' 4 2 = 1 then some (xm[(i.extractLsb' 0 4).toNat]'(i.extractLsb' 0 4).isLt) else none

/-- Bits 6:0 of a swizzled address (R97): for every active pair, A'[DST] := A'[DST] xor A[SRC]. -/
def swizzleLow (mask : Word) (va : Nat) : Nat :=
  [0, 1, 2, 3].foldl (init := va % 128) fun low m =>
    let pair : BitVec 16 := mask.extractLsb' (16 * m) 16
    let src := (pair.extractLsb' 5 5).toNat
    let dst := (pair.extractLsb' 0 5).toNat
    if pair.getLsbD 15 && va.testBit src then low ^^^ (2 ^ dst) else low

/-- The physical address of byte i of a page part, through the capability's mask (R97): the byte stays in its line. -/
def swizzled (mask : Option Word) (va pa i : Nat) : Nat :=
  match mask with
  | none => pa + i
  | some m => (pa + i) / 128 * 128 + swizzleLow m (va + i)

/-- The bytes of a page part as the mask maps them. -/
def State.readPart (s : State) (mask : Option Word) (va pa n : Nat) : List Byte :=
  match mask with
  | none => s.readBytes pa n
  | some m => (List.range n).map fun i => s.readByte (swizzled (some m) va pa i)

/-- Write bytes one by one at given addresses. -/
def memWriteAt : List Host.Cell → List (Nat × Byte) → List Host.Cell
  | m, [] => m
  | m, (a, b) :: xs => memWriteAt (memWrite m a b) xs

/-- Perform a write of a page part as one access, as the mask maps it. -/
def State.writePart (s : State) (mask : Option Word) (va pa : Nat) (bs : List Byte) : State :=
  match mask with
  | none => s.store pa bs
  | some m =>
    let cells := (List.range bs.length).map fun i => (swizzled (some m) va pa i, bs.getD i 0)
    let first := pa / 128 * 128
    (wholeLines pa bs.length).foldl State.clearPoison
      { s.snoop first (pa + bs.length - first + 128) with mem := memWriteAt s.mem cells }

/-- Is a mask value one that a write of `xm` keeps (R96)? -/
def maskValid (x : Word) : Bool :=
  [0, 1, 2, 3].all fun m =>
    let pair : BitVec 16 := x.extractLsb' (16 * m) 16
    let src := (pair.extractLsb' 5 5).toNat
    let dst := (pair.extractLsb' 0 5).toNat
    !pair.getLsbD 15 || (decide (7 ≤ src && src ≤ 22) && decide (4 ≤ dst && dst ≤ 6))

/-- A mask as it reads: the reserved bits of each pair are zero (R8, R96). -/
def maskValue (x : Word) : Word := x &&& 0x83FF83FF83FF83FF

end Sys2Proof.Machine
end

