-- ==== Sys2Proof/Machine/Ops.lean ====
section
/-! DEFINITION. The operations that every meaning is written with: the registers of the current stream
(spec/07_registers_and_language.md R116 to R119), the outcome of an instruction, taking a trap and returning from one
(spec/22_traps_and_context.md R372 to R380). -/

namespace Sys2Proof.Machine

/-! ### Registers of a stream -/

/-- The tag mask of the capability that a scalar register belongs to; s0 and s1 belong to none (R117, R119). -/
def tagBit (n : Nat) : BitVec 32 := if n = 0 then 0 else BitVec.twoPow 32 n

/-- A scalar register; s0 reads as zero (R117). -/
def Stream.getS (x : Stream) (r : SReg) : Word := if r = 0 then 0 else x.s[r.toNat]'r.isLt

/-- Write a scalar register: the value for s0 is discarded, and the tag of the register's pair is cleared (R117, R119). -/
def Stream.setS (x : Stream) (r : SReg) (w : Word) : Stream :=
  if r = 0 then x else { x with s := x.s.set r.toNat w r.isLt, tags := x.tags &&& ~~~(tagBit (r.toNat / 2)) }

/-- A vector register. -/
def Stream.getV (x : Stream) (r : VReg) : Vec := x.v[r.toNat]'r.isLt

/-- Write a vector register. -/
def Stream.setV (x : Stream) (r : VReg) (w : Vec) : Stream := { x with v := x.v.set r.toNat w r.isLt }

/-- A predicate; p0 reads as true (R117). -/
def Stream.getP (x : Stream) (r : PReg) : Bool := r == 0 || x.p.getLsbD r.toNat

/-- Write a predicate; p0 discards (R117). -/
def Stream.setP (x : Stream) (r : PReg) (b : Bool) : Stream :=
  if r = 0 then x
  else { x with p := if b then x.p ||| BitVec.twoPow 16 r.toNat else x.p &&& ~~~(BitVec.twoPow 16 r.toNat) }

/-- The null capability (R117). -/
def Cap.null : Cap := ⟨0, false⟩

/-- Register s2n of a pair. -/
def loReg (n : BitVec 5) : SReg := n.setWidth 6 <<< 1

/-- Register s2n+1 of a pair. -/
def hiReg (n : BitVec 5) : SReg := (n.setWidth 6 <<< 1) ||| 1

/-- A capability register: c0 is the null capability, cn the pair (s2n, s2n+1) with its tag (R117, R119). -/
def Stream.getC (x : Stream) : CapReg → Cap
  | .c n => if n = 0 then Cap.null else ⟨x.getS (hiReg n) ++ x.getS (loReg n), x.tags.getLsbD n.toNat⟩
  | .cpv => ⟨x.cpv, x.cpvTag⟩

/-- A capability instruction writes both registers of the pair and the tag; c0 discards (R117, R119). -/
def Stream.setC (x : Stream) (c : CapReg) (v : Cap) : Stream :=
  match c with
  | .c n =>
    if n = 0 then x
    else
      let y := (x.setS (loReg n) (v.bits.extractLsb' 0 64)).setS (hiReg n) (v.bits.extractLsb' 64 64)
      if v.tag then { y with tags := y.tags ||| tagBit n.toNat } else y
  | .cpv => { x with cpv := v.bits, cpvTag := v.tag }

/-- Does an instruction with this predicate execute (R118)? -/
def Stream.holds (x : Stream) (g : Pred) : Bool := xor (x.getP g.reg) g.neg

/-- The stream as Juden code sees it: a native stream at the boundary before its region, with the registers that it held
there (R294 to R296, R298). -/
def Stream.settle (x : Stream) : Stream :=
  match x.native with
  | none => x
  | some n =>
    { x with
      native := none, s := n.undo.s, tags := n.undo.tags, p := n.undo.p, fpctl := n.undo.fpctl
      dtimef := n.undo.dtimef }

/-- Move past an instruction word (R135). -/
def Stream.advance (x : Stream) : Stream := { x with pc := x.pc + 8 }

/-! ### The current stream -/

/-- A stream of a tile. -/
def Tile.stream (x : Tile) : Side → Stream
  | .user => x.user
  | .firmware => x.fw

/-- Replace a stream of a tile. -/
def Tile.setStream (x : Tile) (side : Side) (y : Stream) : Tile :=
  match side with
  | .user => { x with user := y }
  | .firmware => { x with fw := y }

/-- The tile that the step belongs to. -/
def State.here (s : State) : Tile := s.tile s.cur.tile

/-- The stream that the step belongs to. -/
def State.str (s : State) : Stream := s.here.stream s.cur.side

/-- Replace the current stream. -/
def State.setStr (s : State) (y : Stream) : State := s.setTile s.cur.tile (s.here.setStream s.cur.side y)

/-- Move the current stream past an instruction word. -/
def State.advance (s : State) : State := s.setStr s.str.advance

/-- Replace a stream of a tile. -/
def State.setStream (s : State) (t : TileId) (side : Side) (y : Stream) : State :=
  s.setTile t ((s.tile t).setStream side y)

/-- The context number of the current stream (R332). -/
def State.ctxId (s : State) : CtxId := s.ctxOf s.cur.tile

/-- Is the step the user context's? -/
def State.isUser (s : State) : Bool := s.cur.side == .user

/-! ### How an instruction ends -/

/-- How an instruction ends without completing. -/
inductive Stop where
  /-- A trap with its cause, its faulting address and IMM (R371, R413). -/
  | trap (cause : BitVec 8) (addr : Word) (imm : BitVec 16)
  /-- A whole-tile stall or a divertible wait (R89, R202). -/
  | wait (state : StreamState) (w : Wait)
deriving DecidableEq, Repr

/-- A computation over the machine's state that may end early. What it has done to the state until then stands: the
caches and the accessed bits of translations, and the lanes of a `vamo`. -/
abbrev M := EStateM Stop State

/-- End with a trap. -/
def M.trap {α : Type} (cause : BitVec 8) (addr : Word) : M α := throw (.trap cause addr 0)

/-- The current stream. -/
def M.str : M Stream := do
  let s ← get
  pure s.str

/-- Change the current stream. -/
def M.mod (f : Stream → Stream) : M Unit := modify fun s => s.setStr (f s.str)

/-- A scalar register of the current stream. -/
def M.getS (r : SReg) : M Word := do
  let x ← M.str
  pure (x.getS r)

/-- A capability register of the current stream. -/
def M.getC (c : CapReg) : M Cap := do
  let x ← M.str
  pure (x.getC c)

/-- A vector register of the current stream. -/
def M.getV (r : VReg) : M Vec := do
  let x ← M.str
  pure (x.getV r)

/-- An agent of a tile has read a poisoned line: an entry of KIND 0x09 with the line's address, which is physical (R14,
R381; DEDUCED, log entry 36). -/
def State.logPoison (s : State) (t : TileId) (l : Nat) : State :=
  s.logError 0x09 Cause.poisonedRead t.toNat (s.ctxOf t) (BitVec.ofNat 64 (128 * l)) 0

/-- A read of a poisoned line by an agent of a tile: its entry, then the cause at the access's address (R381). -/
def M.poisoned {α : Type} (t : TileId) (va : Word) (l : Nat) : M α := do
  modify fun s => s.logPoison t l
  M.trap Cause.poisonedRead va

/-- Translate an address for an agent of a tile; a failure is a cause at the address (R29; DEDUCED, log entry 14). An
access whose walk or whose address meets the cistern of a frozen tile waits (R98). -/
def M.translated (t : TileId) (who : Walker) (root : Word) (va : Word) (acc : Access) (user : Bool) : M Phys := do
  let s ← get
  match translate s t who root va acc user with
  | .error c => do
    let l := translationPoison (s.beforeWalk t who root va acc user) t root va
    set (s.tried t who root va acc user)
    if c = Cause.poisonedRead then M.poisoned t va l else M.trap c va
  | .ok (p, s') =>
    match s.heldUp t who root va acc user p.pa with
    | some k => throw (.wait .stalled (.thaw k))
    | none => do
      set s'
      pure p

/-! ### Taking a trap, and returning from one -/

/-- The physical address of a virtual address, with no effect and no check of permissions: the firmware's own look at
the engine image (R267). -/
def State.peek (s : State) (root : Word) (va : Word) : Option Nat :=
  match walkFrom s 0 (va.setWidth 48) .load 4 ((root.extractLsb' 0 44).toNat * 4096) false [] with
  | .error _ => none
  | .ok k => some (k.ppn.toNat * 4096 + (va.setWidth 48 : BitVec 48).toNat % 2 ^ (12 + k.span))

/-- A range of virtual addresses cut at the ends of pages; `fuel` bounds the pages. -/
def cutPages : Nat → Word → Nat → List (Word × Nat)
  | 0, _, _ => []
  | fuel + 1, va, n =>
    let room := 4096 - va.toNat % 4096
    if n = 0 then []
    else if n ≤ room then [(va, n)]
    else (va, room) :: cutPages fuel (va + BitVec.ofNat 64 room) (n - room)

/-- The firmware's own read of bytes through a root, page by page: the bytes, and the poisoned lines met, whose part
reads as nothing but zero (R21), as an unmapped page does. -/
def State.peekBytes (s : State) (root : Word) (va : Word) (n : Nat) : List Byte × List Nat :=
  (cutPages (n / 4096 + 2) va n).foldl (init := ([], [])) fun r p =>
    match s.peek root p.1 with
    | none => (r.1 ++ List.replicate p.2 0, r.2)
    | some pa =>
      match (linesOf pa p.2).filter s.linePoisoned with
      | [] => (r.1 ++ s.readBytes pa p.2, r.2)
      | bad => (r.1 ++ List.replicate p.2 0, r.2 ++ bad)

/-- The firmware's own write of bytes through a root, page by page, where a page is mapped to memory or a cistern.
`fuel` bounds the pages. -/
def State.pokeBytes : Nat → State → Word → Word → List Byte → State
  | 0, s, _, _, _ => s
  | fuel + 1, s, root, va, bs =>
    if bs.isEmpty then s
    else
      let room := 4096 - va.toNat % 4096
      let s :=
        match s.peek root va with
        | none => s
        | some pa => if regionOf pa = .hbm || inCistern pa then s.store pa (bs.take room) else s
      State.pokeBytes fuel s root (va + BitVec.ofNat 64 room) (bs.drop room)

/-- An address of the engine image of a stream (R266). -/
def Stream.image (x : Stream) (off : Nat) : Word := canonical (x.cpv.setWidth 64) + BitVec.ofNat 64 off

/-- The decoder slots and their valid mask: the decoder's, or the engine image's with REFA = 1 (R267, R377), and the
poisoned lines that the reading of the image met; what they hide is not valid (R21; DEDUCED, log entry 26). -/
def State.decoderView (s : State) (t : TileId) : BitVec 8 × Vector (BitVec 4096) 8 × List Nat :=
  let x := s.tile t
  let u := x.user
  if u.ctxcfg.getLsbD 2 then
    let (mask, bad) := s.peekBytes u.ctxroot (u.image 0x90145) 1
    let slots := (List.finRange 8).map fun k => s.peekBytes u.ctxroot (u.image (0x91000 + 512 * k.val)) 512
    let valid := (List.finRange 8).foldl (init := (0 : BitVec 8)) fun m k =>
      if (mask.headD 0).getLsbD k.val && (slots.getD k.val ([], [])).2.isEmpty then m ||| BitVec.twoPow 8 k.val else m
    (valid, Vector.ofFn fun k : Fin 8 => ofBytes 4096 (slots.getD k.val ([], [])).1, bad ++ slots.flatMap Prod.snd)
  else (x.mx.mask, x.mx.slots, [])

/-- The double of a barrier record (R377). -/
def barrierDouble : Option BarrierRecord → Word
  | none => 0
  | some b => (0x800 : BitVec 12) ++ b.gen ++ b.va

/-- The trap frame of a stream (R377). -/
def trapFrame (x : Stream) (header addr : Word) : List Byte :=
  let words : List Word :=
    (0 :: x.s.toList.drop 1) ++
      [(x.tags &&& ~~~1#32).setWidth 64, (x.p ||| 1).setWidth 64, x.pc, x.fpctl.setWidth 64, x.dpc, header, addr,
        barrierDouble x.barrier, x.cpv.extractLsb' 0 64, x.cpv.extractLsb' 64 64] ++
      x.xm.toList ++ List.replicate 6 0
  words.flatMap (toBytes 8)

/-- Write the vector registers, the ports and the decoder slots into a save area (R377). -/
def State.writeRest (s : State) (t : TileId) (area : Nat) : State :=
  let x := (s.tile t).user
  let (mask, slots, bad) := s.decoderView t
  let s := bad.foldl (fun s l => s.logPoison t l) s
  let s := s.store (area + 0x400) (x.v.toList.flatMap (toBytes 128))
  let s := [0, 1, 2, 3].foldl (init := s) fun s k =>
    let q := x.ports.toList.getD k []
    let s := s.store (area + 0x1400 + 0x280 * k) (toBytes 8 (BitVec.ofNat 64 q.length))
    s.store (area + 0x1480 + 0x280 * k) (q.flatMap (toBytes 128))
  let s := s.store (area + 0x1E00) (toBytes 8 (mask.setWidth 64) ++ List.replicate 0x1F8 0)
  s.store (area + 0x2000) (slots.toList.flatMap (toBytes 512))

/-- The fault header of a tile fault (R374). -/
def TileFault.header (f : TileFault) (t : TileId) (ctx : CtxId) : Word :=
  fhdr f.cause f.src false t ctx f.res f.esc f.imm f.nsec

/-- The report of a fault goes to the operating system: its composite record with the given JPC, and an interrupt
(R375, R378). -/
def State.reportFault (s : State) (t : TileId) (f : TileFault) (jpc : Word) : State :=
  let record := compositeOf t (f.header t (s.ctxOf t)) f.addr jpc (s.tile t).user.dpc f.stamp f.engines
  (s.logComposite t f.cause (s.ctxOf t) f.addr f.stamp record).emit (.interrupt t.toNat f.cause)

/-- Write the rest of a save area before a report: the copy of the composite record, the vectors, the ports and the
decoder slots (R377). -/
def State.writeReport (s : State) (t : TileId) (f : TileFault) (jpc : Word) : State :=
  let area := (s.tile t).tsave.toNat
  let record := compositeOf t (f.header t (s.ctxOf t)) f.addr jpc (s.tile t).user.dpc f.stamp f.engines
  (s.store (area + 0x300) record).writeRest t area

/-- Trap the user stream of a tile at its present program counter, for the given report: the trap frame, the firmware
registers, and for a trap that goes beyond the firmware context the rest of the save area, the composite record and the
interrupt (R375 to R378). A diversion that is pending takes effect at the return from it, or inside a routine as R260
states (R356, R389). -/
def State.deliver (s : State) (t : TileId) (f : TileFault) : State :=
  let x := s.tile t
  let u := x.user.settle
  let header := f.header t (s.ctxOf t)
  let s := s.store x.tsave.toNat (trapFrame u header f.addr)
  let s := s.setTile t
    { s.tile t with
      user := { u with
        state := .trapped, wait := .none, vamoTodo := [], woken := false, single := false
        rejoin := if f.cause = Cause.firmwareCall then u.rejoin else none }
      callTime := x.callTime.map fun _ => if u.calls.isEmpty then 7 else 3
      savedS := u.s, savedTags := u.tags, tcause := header, taddr := f.addr, tpc := u.pc }
  match handlerOf f.cause with
  | .firmware => s
  | .system => (s.writeReport t f u.pc).reportFault t f u.pc
  | .process => (s.writeReport t f u.pc).reportFault t f u.pc

/-- Does the cause leave the stream able to resume (RES of R374)? -/
def resumable (cause : BitVec 8) : Bool := !(cause == Cause.tileStateLost)

/-- A tile fault as it arises, from a source (R374, R375). -/
def State.faultOf (s : State) (t : TileId) (src : BitVec 4) (esc : Bool) (cause : BitVec 8) (addr : Word)
    (imm : BitVec 16) : TileFault where
  pending := false
  cause := cause
  src := src
  esc := esc
  res := resumable cause
  imm := imm
  addr := addr
  stamp := s.timing.now
  nsec := 0
  engines := engineWords (s.tile t)
  counted := [src]

/-- The report of a tile fault that a further fault joins: of two in the same cycle the one of lower source is the
first, and the other is counted (R373; DEDUCED, log entry 70). -/
def TileFault.join (f g : TileFault) : TileFault :=
  let first := if g.stamp = f.stamp && g.src.ult f.src then { g with pending := f.pending } else f
  { first with nsec := f.nsec + 1, counted := g.src :: f.counted }

/-- Bring up to date what stands of a fault's report: `TCAUSE` and `TADDR`, the frame and the composite copy of the
stream that it trapped, and the record and its entry that have not reached their rings (R373, R374; DEDUCED, log entry
70). -/
def State.amend (s : State) (t : TileId) (f : TileFault) : State :=
  let x := s.tile t
  if f.pending then s.setTile t { x with fault := some f }
  else
    let h := f.header t (s.ctxOf t)
    let head := toBytes 8 h ++ toBytes 8 f.addr
    let mine (e : Nat × Nat × List Byte) : Bool := e.1 == f.stamp && e.2.1 == t.toNat
    let record (e : Nat × Nat × List Byte) : Nat × Nat × List Byte :=
      if mine e && !isReferral e.2.2 then (e.1, e.2.1, head ++ e.2.2.drop 16) else e
    let entry (e : Nat × Nat × List Byte) : Nat × Nat × List Byte :=
      if mine e && e.2.2.getD 12 0 == 8 then
        (e.1, e.2.1, e.2.2.take 13 ++ [f.cause] ++ (e.2.2.drop 14).take 2 ++ toBytes 8 f.addr ++ e.2.2.drop 24)
      else e
    let s := s.setTile t { x with fault := some f, tcause := h, taddr := f.addr }
    let s := { s with rings := { s.rings with cfPend := s.rings.cfPend.map record, elPend := s.rings.elPend.map entry } }
    if x.user.state = .trapped then (s.store (x.tsave.toNat + 0x228) head).store (x.tsave.toNat + 0x300) head else s

/-- An engine's fault is recorded in its own status word while the tile is frozen: NSEC counts it once (R373). -/
def State.countFault (s : State) (t : TileId) (src : BitVec 4) : State :=
  match (s.tile t).fault with
  | none => s
  | some f =>
    if f.counted.contains src then s else s.amend t { f with nsec := f.nsec + 1, counted := src :: f.counted }

/-- The user stream of a tile takes a trap at its program counter: the one shared operation of every trap (R372, R373,
R377, R378). The first tile fault freezes the tile; a fault while an engine fault passed on is pending is counted in
NSEC, and the record reports the first. -/
def State.takeTrap (s : State) (t : TileId) (cause : BitVec 8) (addr : Word) (imm : BitVec 16) : State :=
  let g := s.faultOf t 0 false cause addr imm
  if !isFault cause then s.deliver t g
  else
    let f : TileFault :=
      match (s.tile t).fault with
      | none => g
      | some f => { f.join g with pending := false }
    (s.setTile t { s.tile t with fault := some f }).deliver t f

/-- The firmware context of a tile reads a poisoned line: the instruction has no effect, the context stops at it, and
the fault goes to the resident operating system (R99, R381; DESIGN CHOICE, log entry 16). -/
def State.firmwarePoison (s : State) (t : TileId) (addr : Word) : State :=
  let x := s.tile t
  let s := s.setTile t { x with fw := { x.fw with state := .trapped, wait := .none } }
  s.reportFault t (s.faultOf t 0 false Cause.poisonedRead addr 0) x.fw.pc

/-- The words of a save area. -/
def State.saveWord (s : State) (area off : Nat) : Word := ofBytes 64 (s.readBytes (area + off) 8)

/-- The tag of cn after a restore: set only when its bit is 1, the save wrote it set, and both registers of the pair
equal the values the save wrote (R380; DEDUCED, log entry 15). -/
def restoredTag (x : Tile) (bits : Word) (s : Vector Word 64) (n : Fin 32) : Bool :=
  n.val ≠ 0 && bits.getLsbD n.val && x.savedTags.getLsbD n.val
    && s[2 * n.val] == x.savedS[2 * n.val]
    && s[2 * n.val + 1] == x.savedS[2 * n.val + 1]

/-- FPCTL after a restore (R380): reserved bits ignored, an FRM outside 1 .. 5 leaves FRM as it was. -/
def restoredFpctl (old : BitVec 32) (saved : Word) : BitVec 32 :=
  let frm : BitVec 3 := saved.extractLsb' 8 3
  let keep := frm = 0 || frm = 6 || frm = 7
  ((if keep then old.extractLsb' 8 3 else frm) : BitVec 3).setWidth 32 <<< 8
    ||| (saved.extractLsb' 0 5 : BitVec 5).setWidth 32

/-- The routine calls that a resumed stream is still inside: from the innermost whose body holds its program counter
(R259, R379). -/
def callsAt (pc : Word) (calls : List CallFrame) : List CallFrame :=
  calls.dropWhile fun f => !(f.native.isNone && decide (f.body.toNat ≤ pc.toNat ∧ pc.toNat < f.body.toNat + 8 * f.ninsn))

/-- A stream as a trap frame restores it: s, p, tags, PC, FPCTL, masks and barrier record; cpv and DPC stay as they are
(R380). The flags that the matrix engine has raised since the trap stay raised (R62, R236). -/
def State.restoreFrame (s : State) (t : TileId) (area : Nat) : Stream :=
  let x := s.tile t
  let u := x.user
  let regs : Vector Word 64 :=
    Vector.ofFn fun n : Fin 64 => if n.val = 0 then 0 else s.saveWord area (8 * n.val)
  let bits := s.saveWord area 0x200
  let bar := s.saveWord area 0x238
  { u with
    state := .running
    wait := .none
    s := regs
    tags := (List.finRange 32).foldl (init := 0) fun a n =>
      if restoredTag x bits regs n then a ||| BitVec.twoPow 32 n.val else a
    p := (s.saveWord area 0x208).setWidth 16 ||| 1
    pc := s.saveWord area 0x210
    calls := callsAt (s.saveWord area 0x210) u.calls
    fpctl := restoredFpctl u.fpctl (s.saveWord area 0x218) ||| u.late.setWidth 32
    late := 0
    barrier := if bar.getLsbD 63 then some ⟨bar.setWidth 48, bar.extractLsb' 48 4⟩ else none
    xm := Vector.ofFn fun n : Fin 16 =>
      let m := s.saveWord area (0x250 + 8 * n.val)
      if maskValid m then maskValue m else u.xm[n.val] }

/-- A restore meets a poisoned line of the save area: it stops with nothing written, the stream stays Trapped, and the
fault goes to the operating system with ESC = 0 (R381). After a trap that the firmware context handles itself the rest
of the save area is still to be written (R377). -/
def State.restoreStops (s : State) (t : TileId) (l : Nat) : State :=
  let s := s.logPoison t l
  let x := s.tile t
  let f := s.faultOf t 0 false Cause.poisonedRead (BitVec.ofNat 64 (128 * l)) 0
  let s := if handlerOf (x.tcause.setWidth 8) = .firmware then s.writeReport t f x.tpc else s
  (s.setTile t { s.tile t with tcause := f.header t (s.ctxOf t), taddr := f.addr }).reportFault t f x.tpc

/-- The return from a trap: the firmware context resumes the interrupted user stream from its trap frame, and the freeze
ends (R226, R372, R379, R380). An engine fault that was passed on and not yet delivered stays pending. -/
def State.returnFromTrap (s : State) (t : TileId) : State :=
  let x := s.tile t
  let area := x.tsave.toNat
  if x.user.state ≠ .trapped then s
  else
    match s.poisonedLine area 0x300 with
    | some l => s.restoreStops t l
    | none => s.setTile t { x with user := s.restoreFrame t area, fault := x.fault.filter (·.pending) }

/-! ### Performing an instruction -/

/-- The outcome of an instruction's computation: a trap of the user stream is taken; a wait leaves the program counter
at the instruction. The spec gives no effect to a trap of a firmware context (DESIGN CHOICE, log entry 16). -/
def finish (r : EStateM.Result Stop State Unit) : Host.Outcome State Fault Refusal :=
  match r with
  | .ok _ s => .next s
  | .error (.trap cause addr imm) s =>
    match s.cur.side with
    | .user => .next (s.takeTrap s.cur.tile cause addr imm)
    | .firmware =>
      if cause = Cause.poisonedRead then .next (s.firmwarePoison s.cur.tile addr)
      else .fault (.firmwareFault s.cur.tile cause)
  | .error (.wait st w) s => .next (s.setStr { s.str with state := st, wait := w })

/-- Perform an instruction under its predicate: one that does not execute has no effect but to move past it (R118). -/
def perform (g : Pred) (body : M Unit) (s : State) : Host.Outcome State Fault Refusal :=
  if s.str.holds g then finish (body s) else .next s.advance

/-- Perform an instruction that only changes its own stream, and move past it. -/
def register (g : Pred) (f : Stream → Stream) (s : State) : Host.Outcome State Fault Refusal :=
  .next (if s.str.holds g then s.setStr (f s.str).advance else s.advance)

/-- Move past the instruction word. -/
def M.next : M Unit := M.mod Stream.advance

/-- Perform a computation as a step of an event, with the given stream as the current one; the step's own stream is
current again afterwards. -/
def State.as (s : State) (t : TileId) (side : Side) (f : State → State) : State :=
  { f { s with cur := ⟨t, side⟩ } with cur := s.cur }

end Sys2Proof.Machine
end

