-- ==== Sys2Proof/Machine/Slots.lean ====
section
/-! DEFINITION. The word of a slot of a native bundle: what it reads and writes, where it may stand and how long its
result takes (spec/15_native_form.md R287 to R294). -/

namespace Sys2Proof.Machine

/-! ### Fields of a word (R135) -/

/-- CLASS and OPC of a word (R135). -/
def opOf (w : Word) : BitVec 10 := w.extractLsb' 54 10

/-- Fields of a word (R136, R139): D, A, B, PRED and SCOPE. -/
def fieldD (w : Word) : BitVec 6 := w.extractLsb' 43 6
def fieldA (w : Word) : BitVec 6 := w.extractLsb' 37 6
def fieldB (w : Word) : BitVec 6 := w.extractLsb' 31 6
def fieldPred (w : Word) : BitVec 4 := w.extractLsb' 50 4
def fieldScope (w : Word) : BitVec 3 := w.extractLsb' 15 3

/-! ### Slots (R287, R293) -/

/-- The kinds of slot: S0 and S1, V, M and E. -/
inductive SlotKind where
  | s | v | m | e
deriving DecidableEq, Repr

/-- The word of a valid slot: its form, its fields and its instruction. -/
structure SlotOp where
  op   : Op
  f    : Fields
  insn : Instr
deriving DecidableEq, Repr

/-- The slot that holds a form (R287). -/
def slotKind (o : Op) : SlotKind :=
  match o.key / 256 with
  | 0 => .s
  | 1 => if o == .vld || o == .vst || o == .vgather || o == .vscatter || o == .vamo then .m else .v
  | 2 => if o == .pumpLd || o == .pumpSt then .e else .m
  | _ => if o == .nxVfn then .v else if o == .nxSpill || o == .nxFill then .m else .e

/-- The kinds of D, A, B and C of a form, and BC. -/
structure Operands where
  d  : Kind × BitVec 6
  a  : Kind × BitVec 6
  b  : Kind × BitVec 6
  c  : Kind × BitVec 6
  bc : BitVec 1

/-- The register fields of a slot's word (R136, R138, R139). -/
def SlotOp.operands (x : SlotOp) : Operands :=
  match x.op.form with
  | .reg m =>
    let r := RegBits.of x.f.rest
    ⟨(m.d, x.f.d), (m.a, x.f.a), (m.b, r.b), (m.c, r.c), r.bc⟩
  | .imm m => ⟨(m.d, x.f.d), (m.a, x.f.a), (.absent, 0), (.absent, 0), 0⟩
  | .mem m =>
    let r := MemBits.of x.f.rest
    ⟨(m.d, x.f.d), (.c, x.f.a), (m.b, r.b), (m.c, r.c), r.bc⟩

/-- The registers that a field of a kind names; s0, p0 and c0 name none (R117, R140). -/
def regsOf (k : Kind) (bc : BitVec 1) (x : BitVec 6) : List NativeReg :=
  let pair (n : BitVec 5) : List NativeReg := if n = 0 then [] else [.s (loReg n), .s (hiReg n)]
  match k with
  | .absent => []
  | .s => if x = 0 then [] else [.s x]
  | .v => [.v (x.setWidth 5)]
  | .vs => if bc = 0 then [.v (x.setWidth 5)] else if x = 0 then [] else [.s x]
  | .p => if x = 0 then [] else [.p (x.setWidth 4)]
  | .c => if x = 32 then [.cpv] else pair (x.setWidth 5)
  | .cq => pair (x.setWidth 5)
  | .port => []
  | .tl => []
  | .ctl => []

/-- Is D only read: the datum of a store, an amount or a value waited for? -/
def dSource (o : Op) : Bool :=
  o == .st || o == .stq || o == .strel || o == .vst || o == .vscatter || o == .vamo || o == .sigPost || o == .sigWait
    || o == .barInit || o == .wrc

/-- Is D both read and written? -/
def dBoth (o : Op) : Bool := o == .amoCas || o == .vins || o == .vfdot || o == .bfi

/-- The registers that a slot's word writes. -/
def SlotOp.writes (x : SlotOp) : List NativeReg :=
  let r := x.operands
  let d := if dSource x.op then [] else regsOf r.d.1 r.bc r.d.2
  if x.op == .loop then regsOf .s 0 x.f.a
  else if x.op == .call || x.op == .callr || x.op == .rcall then [.s 1]
  else d

/-- The registers that a slot's word reads, its predicate among them. -/
def SlotOp.reads (x : SlotOp) : List NativeReg :=
  let r := x.operands
  regsOf .p 0 (x.f.pred.setWidth 6) ++ regsOf r.a.1 r.bc r.a.2 ++ regsOf r.b.1 r.bc r.b.2 ++ regsOf r.c.1 r.bc r.c.2
    ++ (if dSource x.op || dBoth x.op then regsOf r.d.1 r.bc r.d.2 else [])
    ++ (if x.op == .ret then [.s 1] else [])
    ++ (if x.op == .nxSpill || x.op == .nxFill then [.cpv] else [])

/-- Does a vector field exceed 15 (R287, R293)? -/
def SlotOp.wide (x : SlotOp) : Bool :=
  (x.writes ++ x.reads).any fun r =>
    match r with
    | .v n => decide (15 < n.toNat)
    | .s _ => false
    | .cpv => false
    | .p _ => false

/-- The region-ending operations (R294). -/
def endsRegion (o : Op) : Bool :=
  o == .pumpLd || o == .pumpSt || o == .nxMpush || o == .nxDtab || o == .fwdPut || o == .fwdGet || o == .amo
    || o == .amoCas || o == .vamo || o == .vscatter || o == .ldacq || o == .strel || o == .fence || o == .feClear
    || o == .feSet || o == .feWait || o == .tlWait || o == .barInit || o == .barArrive || o == .barWait
    || o == .sigPost || o == .sigWait || o == .hbar || o == .rdv || o == .yield || o == .rcall || o == .sys
    || o == .trap || o == .eret || o == .wrc || o == .dlRead || o == .vflagSet || o == .nxRend || o == .nxRyld

/-- The control transfers of the E slot (R288). -/
def isTransfer (o : Op) : Bool :=
  o == .br || o == .call || o == .loop || o == .jr || o == .callr || o == .ret

/-- The region's writes that R294 counts. -/
def isRegionWrite (o : Op) : Bool := o == .st || o == .stq || o == .vst || o == .nxSpill

/-- Judge a valid slot (R287, R293): its word, a cause without a Juden counterpart, or none for an unassigned Juden
word, which faults in the replay. -/
def judgeSlot (k : SlotKind) (w : Word) : Except (Option (BitVec 8)) SlotOp :=
  match Op.ofKey (opOf w).toNat with
  | none => .error (if 0x3F0 ≤ (opOf w).toNat then some Cause.nativeOperationAbsent else none)
  | some o =>
    match decodeSlot w with
    | .error _ => .error (if o.native then some Cause.nativeBundleInvalid else none)
    | .ok i =>
      let x : SlotOp := ⟨o, Fields.of w, i⟩
      if slotKind o ≠ k || x.wide then .error (some Cause.nativeBundleInvalid) else .ok x

/-- The slot word of an instruction. -/
def slotOf (i : Instr) : Option SlotOp :=
  (encode i).bind fun w => (Op.ofKey (opOf w).toNat).map fun o => ⟨o, Fields.of w, i⟩

/-! ### Latencies (R289) -/

/-- The class of latency of a form: a number of cycles, or a load, of a fixed latency where it is local. -/
inductive Latency where
  | fixed (n : Nat)
  | load (n : Nat)
deriving DecidableEq, Repr

/-- The latency of a form (R289; DESIGN CHOICE, log entry 33). -/
def latency (o : Op) : Latency :=
  if o == .mul || o == .mulh || o == .mulhu || o == .muli || o == .vmul || o == .vmulh then .fixed 3
  else if o == .div || o == .rem || o == .divu || o == .remu || o == .fdiv || o == .fsqrt then .fixed 12
  else if o == .fadd || o == .fsub || o == .fmul || o == .fma || o == .fmin || o == .fmax || o == .fcmp || o == .fcvt
      || o == .fcvti || o == .icvtf || o == .fclass || o == .fsgn || o == .rdc then .fixed 4
  else if o == .vfdiv || o == .vfsqrt then .fixed 16
  else if o == .vfdot || o == .vred || o == .vfred || o == .vscan || o == .vfscan || o == .vfaffine || o == .nxVfn then
    .fixed 6
  else if o == .vfadd || o == .vfsub || o == .vfmul || o == .vfma || o == .vfmin || o == .vfmax || o == .vfcmp
      || o == .vcvt || o == .vfsgn then .fixed 4
  else if o == .ld || o == .ldu || o == .ldq || o == .ldacq then .load 4
  else if o == .vld || o == .vgather || o == .nxFill then .load 6
  else if slotKind o == .v then .fixed 2
  else .fixed 1

end Sys2Proof.Machine
end

