-- ==== Sys2Proof/Machine/Lompex.lean ====
section
/-! DEFINITION. The translator Lompex and what belongs to it: the job's position map, translation directory and
translation cache, the translation of a function, and how a stream enters native code (spec/01_the_road.md R17,
spec/15_native_form.md R298 to R302, spec/16_program_translation.md R311). -/

namespace Sys2Proof.Machine

/-! ### Code as it lies in memory -/

/-- The word at a virtual address of a tile's user stream, with no effect. -/
def State.peekWord (s : State) (t : TileId) (va : Word) : Option Word :=
  (s.peek (s.tile t).user.ctxroot va).map fun pa => ofBytes 64 (s.readBytes pa 8)

/-- The code extent of the tile's context that holds an address. -/
def State.extentOf (s : State) (t : TileId) (a : Word) : Option (Nat × Nat) :=
  (s.ctx (s.ctxOf t)).objects.findSome? fun o =>
    o.code.find? fun e => decide (e.1 ≤ a.toNat ∧ a.toNat < e.1 + e.2)

/-- The poisoned line that a read of bytes at a virtual address meets (R21). -/
def State.poisonAt (s : State) (t : TileId) (va : Word) (n : Nat) : Option Nat :=
  (s.peek (s.tile t).user.ctxroot va).bind fun pa => s.poisonedLine pa n

/-- The machine checks of the poisoned lines that the control unit or the translator meets, each line once (R21, R381). -/
def State.logPoisons (s : State) (t : TileId) (ls : List Nat) : State := ls.eraseDups.foldl (fun s l => s.logPoison t l) s

/-- A word of code for the translator: none on a page that is not mapped or on a poisoned line (R21). -/
def State.codeWord (s : State) (t : TileId) (va : Word) : Option Word :=
  if (s.poisonAt t va 8).isSome then none else s.peekWord t va

/-! ### The position map (R298) -/

/-- The physical address of the entry PMI of the job's position map: an array in memory at the physical address in
`PMBASE` (R298; DESIGN CHOICE, log entry 28 for the kind of address). -/
def State.positionAddr (s : State) (t : TileId) (pmi : Nat) : Nat := (s.tile t).pmbase.toNat + 32 * pmi

/-- The poisoned line that a read of an entry of the position map meets (R21). -/
def State.positionPoison (s : State) (t : TileId) (pmi : Nat) : Option Nat := s.poisonedLine (s.positionAddr t pmi) 32

/-- The entry PMI of the job's position map; none where it lies outside memory or on a poisoned line (R21, R298). -/
def State.position (s : State) (t : TileId) (pmi : Nat) : Option (BitVec 256) :=
  let pa := s.positionAddr t pmi
  if pa + 32 ≤ 0xC000000000 && (s.positionPoison t pmi).isNone then some (ofBytes 256 (s.readBytes pa 32)) else none

/-- JPC of a position entry (R298). -/
def positionPc (e : BitVec 256) : Word := e.extractLsb' 0 64

/-- VLOC of Juden vN (R298). -/
def positionLoc (e : BitVec 256) (n : Nat) : BitVec 5 := e.extractLsb' (64 + 5 * n) 5

/-- The place of Juden vN at every recovery point: v0 .. v11 in the native registers of their numbers, the others in
their home slots (R311). -/
def homeLoc (n : Nat) : Nat := if n < 12 then n else 16

/-- The position entry of a boundary under the placement of R311 (DEDUCED, log entry 30). -/
def placement (jpc : Word) : BitVec 256 :=
  (List.range 32).foldl (init := jpc.setWidth 256) fun e n => e ||| (BitVec.ofNat 256 (homeLoc n)) <<< (64 + 5 * n)

/-! ### The translation directory (R300) -/

/-- The directory entries of a code object that name native code: those of its native section, then those of its
translations. In reference mode a native section is not used, whose brackets take routines from their definitions (R253,
R307; DESIGN CHOICE, log entry 35). -/
def CodeObject.listed (o : CodeObject) (ref : Bool) : List (Word × Word) := (if ref then [] else o.dir) ++ o.made

/-- The directory entries of a code object, its stubs last (R300). -/
def CodeObject.entries (o : CodeObject) (ref : Bool) : List (Word × Word) := o.listed ref ++ o.stubs

/-- The native address that the job's translation directory gives a Juden address (R300). -/
def State.native? (s : State) (t : TileId) (pc : Word) : Option Word :=
  (s.ctx (s.ctxOf t)).objects.findSome? fun o =>
    ((o.entries ((s.tile t).user.ctxcfg.getLsbD 2)).find? fun e => e.1 == pc).map (·.2)

/-- The function of a code section that holds an address: its entry and its number of words. It ends at the next
function of the section, or with the section. -/
def CodeObject.functionAt (o : CodeObject) (pc : Nat) : Option (Nat × Nat) :=
  (o.code.find? fun e => decide (e.1 ≤ pc ∧ pc < e.1 + e.2)).bind fun e =>
    let fs := (o.funcs.map BitVec.toNat).filter fun f => decide (e.1 ≤ f ∧ f < e.1 + e.2)
    ((fs.filter fun f => decide (f ≤ pc)).max?).map fun f =>
      (f, (((fs.filter fun g => decide (pc < g)).min?).getD (e.1 + e.2) - f) / 8)

/-- The routine body that holds an address (R247, R299). -/
def CodeObject.bodyAt (o : CodeObject) (pc : Nat) : Option (Nat × Nat) :=
  (o.routines.find? fun e => decide (e.body.toNat ≤ pc ∧ pc < e.body.toNat + 8 * e.ninsn)).map fun e => (e.body.toNat, e.ninsn)

/-- What the translator takes as one function: the place of its code object, its entry, its number of words, and whether
it is the body of a routine. -/
structure Func where
  object : Nat
  entry  : Nat
  words  : Nat
  body   : Bool
deriving DecidableEq, Repr

/-- The function or the routine body that holds an address. -/
def State.functionAt (s : State) (t : TileId) (pc : Word) : Option Func :=
  ((s.ctx (s.ctxOf t)).objects.zipIdx.findSome? fun ok =>
    match ok.1.functionAt pc.toNat, ok.1.bodyAt pc.toNat with
    | some (f, n), _ => some ⟨ok.2, f, n, false⟩
    | none, some (f, n) => some ⟨ok.2, f, n, true⟩
    | none, none => none).filter fun f => (pc.toNat - f.entry) % 8 == 0

/-- May the user stream of a tile fetch at an address: inside the body of the routine that it is in, else in a code
section of a code object loaded for its context (R176, R250)? -/
def State.mayRun (s : State) (t : TileId) (pc : Word) : Bool :=
  match (s.tile t).user.calls with
  | f :: _ => decide (f.body.toNat ≤ pc.toNat ∧ pc.toNat < f.body.toNat + 8 * f.ninsn)
  | [] => (s.extentOf t pc).isSome

/-- The native address at which the user stream of a tile may go on from a Juden address (R176, R300). -/
def State.nativeFor (s : State) (t : TileId) (pc : Word) : Option Word := if s.mayRun t pc then s.native? t pc else none

/-- May control reach an address from the words of a function: inside the same routine body, or in a code section (R176,
R250)? -/
def State.inReach (s : State) (t : TileId) (f : Func) (a : Word) : Bool :=
  if f.body then decide (f.entry ≤ a.toNat ∧ a.toNat < f.entry + 8 * f.words) else (s.extentOf t a).isSome

/-! ### The translation of a function (R17, R294, R311; DESIGN CHOICE, log entry 71) -/

/-- A bundle of a translation before it has its address: its one slot, its stall count, the boundary at which it ends a
region, and the Juden target of a branch-format transfer. -/
structure Draft where
  slot   : Nat
  word   : Word
  stall  : Nat
  ends   : Option Word
  target : Option Word
deriving DecidableEq, Repr

/-- A bundle that sends the stream to the replay of its region: its slot holds an unassigned Juden word (R293, R296). -/
def Draft.replay (ends : Option Word) : Draft := ⟨4, (0x3EF : BitVec 10) ++ (0 : BitVec 54), 0, ends, none⟩

/-- A bundle that does nothing. -/
def Draft.nop : Draft := ⟨4, Op.word .nop ⟨0, false⟩ 0 0 0, 0, none, none⟩

/-- The Juden vector register of a field that lives in a home slot (R311). -/
def homeReg (k : Kind) (bc : BitVec 1) (x : BitVec 6) : Option Nat :=
  let n := x.toNat % 32
  match k with
  | .v => if 12 ≤ n then some n else none
  | .vs => if bc = 0 ∧ 12 ≤ n then some n else none
  | .absent => none
  | .s => none
  | .p => none
  | .c => none
  | .cq => none
  | .port => none
  | .tl => none
  | .ctl => none

/-- A word with a register field replaced. -/
def putField (w : Word) (at_ n : Nat) : Word := (w &&& ~~~((0x3F : Word) <<< at_)) ||| (BitVec.ofNat 64 n <<< at_)

/-- A word with another IMM (R138). -/
def withImm (w : Word) (k : Int) : Word := (w >>> 37) <<< 37 ||| (BitVec.ofInt 37 k).setWidth 64

/-- The number of a slot of a kind (R285). -/
def SlotKind.index : SlotKind → Nat
  | .s => 0
  | .v => 2
  | .m => 3
  | .e => 4

/-- The stall count after an operation of a form, so that the next bundle reads its result (R286, R289). -/
def stallAfter (o : Op) : Nat :=
  match latency o with
  | .fixed n => n - 1
  | .load n => n - 1

/-- The Juden target of a branch-format transfer (R138). -/
def transferTarget (o : Op) (j : Word) (w : Word) : Option Word :=
  if o == .br || o == .call || o == .loop then some (j + 8 * (w.extractLsb' 0 37 : BitVec 37).signExtend 64) else none

/-- The bundles of a region that ends at a boundary: its last bundle is the RP bundle, behind a spill one of its own
(R311). -/
def endAt (b : Word) : List Draft → List Draft
  | [] => []
  | [d] => if opOf d.word == 0x3F6 then [d, { Draft.nop with ends := some b }] else [{ d with ends := some b }]
  | d :: ds => d :: endAt b ds

/-- The home-slot registers that a word reads and the one that it writes, each with its fields' places in the word
(R311). -/
def homeReads (x : SlotOp) : List (Nat × Nat) :=
  let r := x.operands
  let fs : List ((Kind × BitVec 6) × Nat) :=
    [(r.a, 37), (r.b, 31), (r.c, 25)] ++ (if dSource x.op || dBoth x.op then [(r.d, 43)] else [])
  fs.filterMap fun f => (homeReg f.1.1 r.bc f.1.2).map fun n => (n, f.2)

/-- The home-slot register that a word writes. -/
def homeWrite (x : SlotOp) : Option Nat :=
  let r := x.operands
  if dSource x.op then none else homeReg r.d.1 r.bc r.d.2

/-- What the staging registers hold within a region: Juden registers with native v12 .. v15, the one held longest first
(R311). -/
abbrev Stage := List (Nat × Nat)

/-- The staging register for a Juden register that none holds: the lowest that is free, else the one held longest that
the word at hand does not need. -/
def Stage.pick (st : Stage) (need : List Nat) : Nat :=
  match [12, 13, 14, 15].find? fun k => !(st.any fun e => e.2 == k) with
  | some k => k
  | none => ((st.find? fun e => !need.contains e.1).map (·.2)).getD 12

/-- The staging register that holds a Juden register. -/
def Stage.holds (st : Stage) (n : Nat) : Option Nat := (st.find? fun e => e.1 == n).map (·.2)

/-- Give a Juden register a staging register, unless one holds it. -/
def Stage.take (st : Stage) (need : List Nat) (n : Nat) : Stage :=
  if (st.holds n).isSome then st
  else
    let k := st.pick need
    st.filter (fun e => e.2 != k) ++ [(n, k)]

/-- A fill of a staging register from a home slot. -/
def fillDraft (k n : Nat) : Draft :=
  ⟨3, Op.word .nxFill ⟨0, false⟩ (BitVec.ofNat 6 k) 0 (BitVec.ofNat 37 n), stallAfter .nxFill, none, none⟩

/-- A spill of a staging register to a home slot, under the predicate of the word that wrote it. -/
def spillDraft (g : Pred) (k n : Nat) : Draft :=
  ⟨3, Op.word .nxSpill g 0 (BitVec.ofNat 6 k) (BitVec.ofNat 37 n), 0, none, none⟩

/-- The bundles of one Juden word, but for its boundary, and what the staging registers hold after it: fills of the
home-slot registers that it reads and no staging register holds, the word on staging registers, and a spill of the
home-slot register that it writes (R311). A predicated write leaves its staging register unknown where it held nothing
before. -/
def wordDrafts (st : Stage) (j : Word) (x : SlotOp) (w : Word) : List Draft × Draft × List Draft × Stage :=
  let reads := (homeReads x).map Prod.fst
  let need := reads ++ (homeWrite x).toList
  let filled := reads.foldl (fun st n => Stage.take st need n) st
  let fills := (reads.eraseDups.filter fun n => (st.holds n).isNone).map fun n => fillDraft ((filled.holds n).getD 12) n
  let full := (homeWrite x).toList.foldl (fun st n => Stage.take st need n) filled
  let fields := homeReads x ++ ((homeWrite x).toList.map fun n => (n, 43))
  let main : Draft :=
    ⟨(slotKind x.op).index, fields.foldl (fun w f => putField w f.2 ((full.holds f.1).getD 12)) w, stallAfter x.op, none,
      transferTarget x.op j w⟩
  let spills := (homeWrite x).toList.map fun n => spillDraft x.f.guard ((full.holds n).getD 12) n
  let after :=
    match homeWrite x with
    | none => full
    | some n => if x.f.guard == ⟨0, false⟩ || (filled.holds n).isSome then full else full.filter fun e => e.1 != n
  (fills, main, spills, after)

/-- How a Juden word stands in a translation. -/
inductive Stands where
  /-- Within its region. -/
  | within
  /-- As the region-ending operation of its region (R294). -/
  | ending
  /-- In the RP bundle of the boundary before it (R288). -/
  | transfer
  /-- As a region of its own behind an RP bundle for its address, which is a boundary wherever the stream comes from
  (R260, R299). -/
  | alone
  /-- As a region of its own that is left to the replay (R296). -/
  | replayed
deriving DecidableEq, Repr

/-- How a word stands in a translation: a transfer whose target has no native address is left to the replay, as are the
return of a routine and a region-ending operation that writes a home-slot register, which no spill could follow. -/
def SlotOp.stands (x : SlotOp) (known : Word → Bool) (body : Bool) (j w : Word) : Stands :=
  if endsRegion x.op && (homeWrite x).isSome then .replayed
  else if x.op == .yield then .alone
  else if endsRegion x.op then .ending
  else if !isTransfer x.op then .within
  else if body && x.op == .ret then .replayed
  else
    match transferTarget x.op j w with
    | none => .transfer
    | some a => if known a then .transfer else .replayed

/-- A region that is being translated: the Juden address at which it begins, its bundles, what the staging registers
hold, and the writes counted by R294. -/
structure DraftRegion where
  start  : Word
  drafts : List Draft
  stage  : Stage
  writes : Nat
deriving DecidableEq, Repr

/-- A region that holds nothing yet. -/
def DraftRegion.empty (start : Word) : DraftRegion := ⟨start, [], [], 0⟩

/-- A region as it stands once it ends at a boundary; an empty one is none. -/
def DraftRegion.closed (r : DraftRegion) (b : Word) : List (Word × List Draft) :=
  if r.drafts.isEmpty then [] else [(r.start, endAt b r.drafts)]

/-- The word of a slot for the translator; none where it is unassigned or could not be read. -/
def slotWord (w : Option Word) : Option (SlotOp × Word) :=
  w.bind fun w =>
    match decode w, Op.ofKey (opOf w).toNat with
    | .ok i, some o => some (⟨o, Fields.of w, i⟩, w)
    | _, _ => none

/-- The regions of a straight line of Juden words, each with the address at which it begins (R294, R311): a region ends
before a word that a transfer may reach, before the ninth write, and after a word that ends it. The last one ends at an
address. -/
def regionsOf (starts : Word → Bool) (known : Word → Bool) (body : Bool) (last : Word) :
    DraftRegion → List (Word × Option Word) → List (Word × List Draft)
  | r, [] => r.closed last
  | r, (j, w) :: rest =>
    let r' := if starts j then DraftRegion.empty j else r
    let cut := if starts j then r.closed j else []
    match slotWord w with
    | none => cut ++ r'.closed j ++ [(j, [.replay (some (j + 8))])] ++ regionsOf starts known body last (.empty (j + 8)) rest
    | some (x, w) =>
      let n := (if isRegionWrite x.op then 1 else 0) + (homeWrite x).toList.length
      let room := decide (r'.writes + n ≤ 8)
      let q := if room then r' else DraftRegion.empty j
      let cut := cut ++ (if room then [] else r'.closed j)
      let (fills, main, spills, after) := wordDrafts q.stage j x w
      match x.stands known body j w with
      | .within =>
        cut ++ regionsOf starts known body last
          ⟨q.start, q.drafts ++ fills ++ [main] ++ spills, after, q.writes + n⟩ rest
      | .ending =>
        cut ++ [(q.start, q.drafts ++ fills ++ [{ main with ends := some (j + 8) }])]
          ++ regionsOf starts known body last (.empty (j + 8)) rest
      | .transfer =>
        cut ++ [(q.start, q.drafts ++ [{ main with ends := some j }])] ++ regionsOf starts known body last (.empty (j + 8)) rest
      | .alone =>
        cut ++ q.closed j ++ [(j, [{ Draft.nop with ends := some j }, { main with ends := some (j + 8) }])]
          ++ regionsOf starts known body last (.empty (j + 8)) rest
      | .replayed =>
        cut ++ q.closed j ++ [(j, [.replay (some (j + 8))])] ++ regionsOf starts known body last (.empty (j + 8)) rest

/-- The native address of each region of a translation that begins at an address. -/
def layoutOf : Nat → List (Word × List Draft) → List (Word × Word)
  | _, [] => []
  | a, (j, ds) :: rest => (j, BitVec.ofNat 64 a) :: layoutOf (a + 48 * ds.length) rest

/-- A draft at its address: a transfer whose target has a native address counts its bundles from its own (R288); any
other branch-format transfer is left to the replay. -/
def Draft.resolve (find : Word → Option Word) (own : Word) (d : Draft) : Draft :=
  match d.target with
  | none => d
  | some j =>
    match find j with
    | none => .replay d.ends
    | some a =>
      let k := (a - own).toInt
      if k % 48 = 0 then { d with word := withImm d.word (k / 48) } else .replay d.ends

/-- The 48 bytes of a bundle (R285, R286). -/
def Draft.bytes (d : Draft) (pmi : Nat) : List Byte :=
  let rp := if d.ends.isSome then 2 ^ 9 + pmi % 2 ^ 24 * 2 ^ 16 else 0
  toBytes 8 (BitVec.ofNat 64 (d.stall + 2 ^ (4 + d.slot) + rp))
    ++ (List.range 5).flatMap fun k => toBytes 8 (if k = d.slot then d.word else 0)

/-- The bytes of drafts from an address on, their RP bundles counted from a place in the position map, and the position
entries that go there. -/
def bundlesFrom (find : Word → Option Word) : Nat → Nat → List Draft → List Byte × List (BitVec 256)
  | _, _, [] => ([], [])
  | a, pmi, d :: ds =>
    let d := d.resolve find (BitVec.ofNat 64 a)
    let (bs, es) := bundlesFrom find (a + 48) (if d.ends.isSome then pmi + 1 else pmi) ds
    (d.bytes pmi ++ bs, d.ends.toList.map placement ++ es)

/-- The last bundle of a translation leads on to the address behind it, where that has a native address. -/
def lastDraft (known : Bool) (a : Word) : Draft :=
  if known then ⟨4, Op.word .br ⟨0, false⟩ 0 0 0, 0, some a, some a⟩ else .replay none

/-- The firmware translates a run of words of a function: bundles in the translation cache, position entries behind
those of the job, and directory entries for its regions. `extra` is an address that the stream has come to. A poisoned
line of code is a machine check, and its words are left to the replay (R21). None where the cache or the map has no
room. -/
def State.translateRun (s : State) (t : TileId) (f : Func) (from_ n : Nat) (extra : Word) : Option State :=
  let cx := s.ctxOf t
  let c := s.ctx cx
  match c.objects[f.object]? with
  | none => none
  | some o =>
    let js := (List.range n).map fun i => BitVec.ofNat 64 (from_ + 8 * i)
    let s' := s.logPoisons t (js.filterMap fun j => s.poisonAt t j 8)
    let words := js.map fun j => (j, s.codeWord t j)
    let targets := words.filterMap fun e => (slotWord e.2).bind fun x => transferTarget x.1.op e.1 x.2
    let starts (j : Word) : Bool := j == extra || targets.contains j
    let base := c.cache.toNat + c.cacheUsed
    let near (a : Word) : Bool := (a - BitVec.ofNat 64 base).toInt % 48 == 0
    let known (j : Word) : Bool := s.inReach t f j && (js.contains j || (s.native? t j).any near)
    let last : Word := BitVec.ofNat 64 (from_ + 8 * n)
    let regions := regionsOf starts known f.body last (.empty (BitVec.ofNat 64 from_)) words
    let drafts := regions.flatMap Prod.snd ++ [lastDraft (known last) last]
    let lay := layoutOf base regions
    let find (j : Word) : Option Word := ((lay.find? fun e => e.1 == j).map Prod.snd).or (s.native? t j)
    let (bytes, es) := bundlesFrom find base c.pmapLen drafts
    if c.cacheSize < c.cacheUsed + bytes.length ∨ c.pmapRoom < c.pmapLen + es.length then none
    else
      let s := State.pokeBytes (bytes.length / 4096 + 2) s' c.root (BitVec.ofNat 64 base) bytes
      let s := s.store (c.pmbase.toNat + 32 * c.pmapLen) (es.flatMap (toBytes 32))
      some (s.setCtx cx
        { c with
          cacheUsed := c.cacheUsed + bytes.length, pmapLen := c.pmapLen + es.length
          objects := c.objects.set f.object { o with made := o.made ++ lay } })

/-- The trap *translation required* is taken by the firmware context: its registers show the cause, the Juden address
that needs a translation, and the boundary at which the stream stands. It writes no trap frame, and the stream shows
nothing of it (R300, R374, R376, R377). -/
def State.noteTranslation (s : State) (t : TileId) (addr : Word) : State :=
  let f := s.faultOf t 0 false Cause.translationRequired addr 0
  let x := s.tile t
  s.setTile t { x with tcause := f.header t (s.ctxOf t), taddr := addr, tpc := x.user.settle.pc }

/-- The function that holds an address is translated, so that the address has a native bundle; of a function that has
been translated already, the words from the address to the next that has one. The step is whole, so that two tiles which
reach one function translate it once (R301). None where no function of the job holds the address, or no room is left
(DESIGN CHOICE, log entry 71). -/
def State.translateAt (s : State) (t : TileId) (pc : Word) : Option State :=
  (s.functionAt t pc).bind fun f =>
    let o := (s.ctx (s.ctxOf t)).objects[f.object]?
    let listed := (o.map (·.listed ((s.tile t).user.ctxcfg.getLsbD 2))).getD []
    let has (a : Nat) : Bool := listed.any fun e => e.1.toNat == a
    if has pc.toNat then some s
    else if !has f.entry then s.translateRun t f f.entry f.words pc
    else
      let rest := f.words - (pc.toNat - f.entry) / 8
      let n := ((List.range rest).find? fun i => has (pc.toNat + 8 * i)).getD rest
      s.translateRun t f pc.toNat n pc

/-- The E slot of a call site is replaced by one aligned 64-bit store, so that it calls the translation; the word that
the loader or the translator wrote is kept, for the time when the translation is freed (R301, R302). A poisoned site
stays, with its machine check (R21). -/
def State.patchSite (s : State) (t : TileId) (site npc : Word) : State :=
  let cx := s.ctxOf t
  let c := s.ctx cx
  let k := (npc - site).toInt
  match s.poisonAt t (site + 40) 8, s.peekWord t (site + 40) with
  | some l, _ => s.logPoison t l
  | none, none => s
  | none, some w =>
    if k % 48 ≠ 0 ∨ opOf w ≠ 0x301 then s
    else
      let s := State.pokeBytes 1 s c.root (site + 40) (toBytes 8 (withImm w (k / 48)))
      s.setCtx cx { c with patched := c.patched ++ [(site + 40, w)] }

/-- The translations of a context's job are freed at its end: call sites are as the loader wrote them, the directory is
the loader's, and the cache and the position map end where the loader left them (R302). -/
def State.freeTranslations (s : State) (cx : CtxId) : State :=
  let c := s.ctx cx
  let s := c.patched.reverse.foldl (init := s) fun s e =>
    State.pokeBytes 1 s c.root e.1 (toBytes 8 e.2)
  let top := c.objects.foldl (fun m o => Nat.max m (o.bundles.1 + o.bundles.2 - c.cache.toNat)) 0
  s.setCtx cx
    { s.ctx cx with
      cacheUsed := top, pmapLen := c.objects.foldl (fun m o => Nat.max m o.pmapEnd) 0
      objects := c.objects.map fun o => { o with made := [] }
      patched := [] }

/-! ### Entering native code (R300, R307) -/

/-- The registers of a stream that a region undoes, with the native vector registers (R295). -/
def Stream.undoCopy (x : Stream) : NativeUndo := ⟨x.s, x.tags, x.p, x.nv, x.fpctl, x.dtimef⟩

/-- Write a vector at the home slot of Juden vN (R298). -/
def State.putHome (s : State) (t : TileId) (n : Nat) (v : Vec) : State :=
  let x := s.tile t
  State.pokeBytes 2 s x.user.ctxroot (canonical (x.user.cpv.setWidth 64) + x.spbase + BitVec.ofNat 64 (128 * n))
    (toBytes 128 v)

/-- A stream at a native bundle, with each Juden vector that a position entry places in a native register there. -/
def Stream.enter (x : Stream) (npc : Word) (e : BitVec 256) : Stream :=
  let nv := Vector.ofFn fun k : Fin 16 =>
    match (List.finRange 32).find? fun n => (positionLoc e n.val).toNat == k.val with
    | none => x.nv[k]
    | some n => x.v[n]
  let y := { x with nv := nv, single := false, rejoin := none }
  let n : Native :=
    { npc := npc, cycle := 0, pending := [], buffer := [], writes := 0, atStart := true, undo := y.undoCopy
      finished := none, view := y.undoCopy, opened := false, bracket := none, site := none }
  { y with native := some n }

/-- The user stream of a tile goes on at a native bundle, its vectors where a position entry places them. -/
def State.enterAt (s : State) (t : TileId) (npc : Word) (e : BitVec 256) : State :=
  let x := (s.tile t).user
  let s := (List.finRange 32).foldl (init := s) fun s n =>
    if positionLoc e n.val = 16 then s.putHome t n.val x.v[n] else s
  s.setTile t { s.tile t with user := x.enter npc e }

/-- May the user stream of a tile enter native code: it runs Juden code, outside every routine or on a routine's
definition (R299)? -/
def Stream.mayEnter (x : Stream) : Bool :=
  x.native.isNone && x.state == .running && x.calls.head?.all (·.native.isNone)

/-- The transfer of control in an RP bundle, which takes effect after its boundary (R288). -/
def State.rpTransfer (s : State) (t : TileId) (rp : Word) : Option Instr :=
  match s.codeWord t rp, s.codeWord t (rp + 40) with
  | some h, some w =>
    if h.getLsbD 8 && (Op.ofKey (opOf w).toNat).any isTransfer then (decodeSlot w).toOption else none
  | _, _ => none

/-- A replay has reached the end of its region: native issue resumes at the bundle after its RP bundle, once the
transfer of control of the RP bundle has taken effect (R288, R296). -/
def State.rejoined (s : State) (t : TileId) (rp : Word) (pmi : Nat) (e : BitVec 256) : State :=
  let s' := s.enterAt t (rp + 48) e
  match s.rpTransfer t rp with
  | none => s'
  | some i =>
    let x := s'.tile t
    let f (n : Native) : Native := { n with finished := some ⟨none, some i, pmi, 0, rp + 48⟩ }
    s'.setTile t { x with user := { x.user with native := x.user.native.map f } }

/-- A stream whose replay cannot be brought to its end in native code: a poisoned line of the RP bundle or of its
position entry is a machine check (R21), and the stream goes on as at any other Juden address. -/
def State.dropRejoin (s : State) (t : TileId) (rp : Word) (pmi : Nat) : State :=
  let s := s.logPoisons t ((s.positionPoison t pmi).toList ++ (s.poisonAt t rp 48).toList)
  s.setTile t { s.tile t with user := { (s.tile t).user with rejoin := none } }

/-- What a stream at a Juden address does next (R296, R300). -/
inductive Next where
  /-- It is in native code. -/
  | native (s : State)
  /-- Its replay has not reached the end of its region. -/
  | replays (s : State)
  /-- The directory has no bundle for the address. -/
  | misses (s : State)

/-- A stream that runs Juden instructions comes to native code: behind the region that was replayed, once the replay is
at its boundary, or where the directory names a bundle (R296, R300). -/
def State.comesTo (s : State) (t : TileId) : Next :=
  let x := (s.tile t).user
  let look (s : State) : Next :=
    match s.nativeFor t x.pc with
    | some npc => .native (s.enterAt t npc (placement x.pc))
    | none => .misses s
  match x.rejoin with
  | none => look s
  | some (rp, pmi) =>
    match s.position t pmi, s.poisonAt t rp 48 with
    | some e, none => if positionPc e = x.pc then .native (s.rejoined t rp pmi e) else .replays s
    | _, _ => look (s.dropRejoin t rp pmi)

/-- A stream of the user context comes to a Juden address: native code takes over where there is a bundle for it; a miss
raises *translation required*, and the firmware context translates the function that holds the address (R300). Where it
can translate nothing the stream runs one Juden instruction at a time (DESIGN CHOICE, log entry 35). -/
def State.land (s : State) (t : TileId) : State :=
  let x := (s.tile t).user
  if !x.mayEnter then s
  else
    match s.comesTo t with
    | .native s' => s'
    | .replays s' => s'
    | .misses s' =>
      match if s'.mayRun t x.pc then s'.translateAt t x.pc else none with
      | none => s'
      | some u =>
        let u := u.noteTranslation t x.pc
        match u.native? t x.pc with
        | none => u
        | some npc => u.enterAt t npc (placement x.pc)

/-- A stream that runs Juden instructions joins native code again where there is a bundle for its address (R296, R300). -/
def State.joinNative (s : State) (t : TileId) : State :=
  let x := (s.tile t).user
  if !x.mayEnter || x.single then s
  else
    match s.comesTo t with
    | .native s' => s'
    | .replays s' => s'
    | .misses s' => s'

end Sys2Proof.Machine
end

