-- ==== Sys2Proof/Machine/Formats.lean ====
section
/-! DEFINITION. The number formats and rounding (spec/03_number_formats.md R46 to R62): exact values, codes and their
values, and `round`, `special` and `convert` with the flags they raise. -/

namespace Sys2Proof.Machine

/-- The rounding modes without DYN (R54). -/
inductive Mode where
  | rne | rtz | rdn | rup | rna
deriving DecidableEq, Repr

/-- The mode that FRM holds; FRM holds 1 .. 5 (R63). -/
def frmMode (fpctl : BitVec 32) : Mode :=
  match (fpctl.extractLsb' 8 3).toNat with
  | 2 => .rtz
  | 3 => .rdn
  | 4 => .rup
  | 5 => .rna
  | _ => .rne

/-- The mode that a rounding field names; DYN reads FRM when the instruction executes (R54, R59). -/
def resolve (rm : Rm) (fpctl : BitVec 32) : Mode :=
  match rm with
  | .dyn => frmMode fpctl
  | .rne => .rne
  | .rtz => .rtz
  | .rdn => .rdn
  | .rup => .rup
  | .rna => .rna

/-- The flags NV, DZ, OF, UF, NX in bits 4 .. 0 (R63). -/
abbrev FpFlags := BitVec 5

def FpFlags.none : FpFlags := 0
def FpFlags.nv : FpFlags := 16
def FpFlags.dz : FpFlags := 8
def FpFlags.of : FpFlags := 4
def FpFlags.uf : FpFlags := 2
def FpFlags.nx : FpFlags := 1

/-- An exact real with a sign: magnitude man × 2^exp, or, when `more` is set, a real strictly between man × 2^exp and
(man + 1) × 2^exp. A value with man = 0 and no more is a zero of its sign. -/
structure Exact where
  neg  : Bool
  man  : Nat
  exp  : Int
  more : Bool := false
deriving DecidableEq, Repr

/-- Is it zero? -/
def Exact.isZero (v : Exact) : Bool := v.man == 0 && !v.more

/-- A zero of a sign. -/
def Exact.zero (neg : Bool) : Exact := ⟨neg, 0, 0, false⟩

/-- How a magnitude lies between two neighbours of a grid. -/
inductive Rem where
  | zero | below | half | above
deriving DecidableEq, Repr

/-- The number of whole steps of 2^q in the magnitude, and what remains of a step. A value with `more` must be finer
than the grid, as every use of it is. -/
def Exact.steps (v : Exact) (q : Int) : Nat × Rem :=
  let shift := v.exp - q
  if 0 ≤ shift then (v.man * 2 ^ shift.toNat, if v.more then .below else .zero)
  else
    let k := (-shift).toNat
    let n := v.man / 2 ^ k
    let r := v.man % 2 ^ k
    let half := 2 ^ (k - 1)
    (n, if r = 0 then (if v.more then .below else .zero)
        else if r < half then .below
        else if r = half then (if v.more then .above else .half)
        else .above)

/-- Does the mode take the neighbour away from zero (R54)? `odd` says that the neighbour towards zero has a code whose
least significant bit is 1. -/
def Mode.away (m : Mode) (neg odd : Bool) (r : Rem) : Bool :=
  match r with
  | .zero => false
  | .below =>
    match m with
    | .rne => false
    | .rtz => false
    | .rdn => neg
    | .rup => !neg
    | .rna => false
  | .half =>
    match m with
    | .rne => odd
    | .rtz => false
    | .rdn => neg
    | .rup => !neg
    | .rna => true
  | .above =>
    match m with
    | .rne => true
    | .rtz => false
    | .rdn => neg
    | .rup => !neg
    | .rna => true

/-- The binary formats' fields: exponent and fraction widths, bias, and whether infinity is a code (R46). -/
structure Bin where
  ne   : Nat
  nf   : Nat
  bias : Nat
  inf  : Bool
  /-- Significand (with its leading one, in units of the fraction's last bit) and exponent field of the largest finite. -/
  maxMan : Nat
  maxExp : Nat
deriving DecidableEq, Repr

def Bin.fp32 : Bin := ⟨8, 23, 127, true, 2 ^ 24 - 1, 254⟩
def Bin.bf16 : Bin := ⟨8, 7, 127, true, 255, 254⟩
def Bin.fp16 : Bin := ⟨5, 10, 15, true, 2047, 30⟩
def Bin.e5m2 : Bin := ⟨5, 2, 15, true, 7, 30⟩
def Bin.e4m3 : Bin := ⟨4, 3, 7, false, 14, 15⟩
def Bin.e3m2 : Bin := ⟨3, 2, 3, false, 7, 7⟩
def Bin.e2m3 : Bin := ⟨2, 3, 1, false, 15, 3⟩
def Bin.e2m1 : Bin := ⟨2, 1, 1, false, 3, 3⟩

/-- The classes of format that round alike (R47 to R50, R55). -/
inductive Shape where
  | bin (b : Bin)
  | int (n : Nat)
  | t8
  | none
deriving DecidableEq, Repr

/-- The format of a code; 0xB to 0xE are not formats and 0xF is raw bytes (R46). -/
def shapeOf (f : Fmt) : Shape :=
  match f.toNat with
  | 0 => .bin .fp32
  | 1 => .bin .bf16
  | 2 => .bin .fp16
  | 3 => .bin .e5m2
  | 4 => .bin .e4m3
  | 5 => .bin .e3m2
  | 6 => .bin .e2m3
  | 7 => .bin .e2m1
  | 8 => .int 8
  | 9 => .int 4
  | 10 => .t8
  | _ => .none

/-- Is the code a format that values are read in (R46)? -/
def isFormat (f : Fmt) : Bool := decide (f.toNat ≤ 10)

/-- Bits of a code of the format (R46). -/
def fmtBits (f : Fmt) : Nat :=
  match f.toNat with
  | 0 => 32
  | 1 => 16
  | 2 => 16
  | 3 => 8
  | 4 => 8
  | 5 => 6
  | 6 => 6
  | 7 => 4
  | 8 => 8
  | 9 => 4
  | 10 => 8
  | _ => 8

/-- Bits of the vector lane that a code occupies (R51). -/
def fmtLane (f : Fmt) : Nat :=
  match f.toNat with
  | 0 => 32
  | 1 => 16
  | 2 => 16
  | _ => 8

/-- The size in bytes of k packed codes (R51, R230). -/
def fmtBytes (k : Nat) (f : Fmt) : Nat := k * fmtBits f / 8

/-- What a code stands for: a finite value, an infinity, or a NaN as the FP32 NaN that it widens to (R58). -/
inductive Value where
  | fin (v : Exact)
  | inf (neg : Bool)
  | nan (f32 : BitVec 32)
deriving DecidableEq, Repr

/-- The sign bit of an FP32 code in place. -/
def signBit (neg : Bool) : BitVec 32 := if neg then 0x80000000 else 0

/-- An FP32 NaN with the given sign and fraction. -/
def nanOf (neg : Bool) (frac : Nat) : BitVec 32 := signBit neg ||| 0x7F800000 ||| BitVec.ofNat 32 frac

/-- The value of a code of a binary format (R47), with the NaN mapping of R58. -/
def binValue (b : Bin) (c : Nat) : Value :=
  let f := c % 2 ^ b.nf
  let e := c / 2 ^ b.nf % 2 ^ b.ne
  let neg := c / 2 ^ (b.nf + b.ne) % 2 == 1
  let top := 2 ^ b.ne - 1
  if b.inf && e = top then
    if f = 0 then .inf neg
    else
      let frac := f * 2 ^ (23 - b.nf)
      -- E5M2 NaNs widen with the quiet bit set and the fraction below it (R58)
      .nan (nanOf neg (if b.nf = 2 then 0x400000 + f * 0x100000 else frac))
  else if b = .e4m3 && e = top && f = 7 then .nan (nanOf neg 0x7C0000)
  else if e = 0 then .fin ⟨neg, f, 1 - b.bias - b.nf, false⟩
  else .fin ⟨neg, 2 ^ b.nf + f, (e : Int) - b.bias - b.nf, false⟩

/-- The run of bits equal to bit 6 of a T8 body, at most six (R49). -/
def t8Run (body : Nat) : Nat :=
  let x := body.testBit 6
  if body.testBit 5 ≠ x then 1
  else if body.testBit 4 ≠ x then 2
  else if body.testBit 3 ≠ x then 3
  else if body.testBit 2 ≠ x then 4
  else if body.testBit 1 ≠ x then 5
  else 6

/-- The magnitude of a T8 body in units of 2^-12 (R49); every finite magnitude is a whole number of them. -/
def t8Units (body : Nat) : Nat :=
  if body = 0 then 0
  else
    let r := t8Run body
    let w := 6 - r
    let e := if 1 ≤ w then (if body.testBit (5 - r) then 1 else 0) else 0
    let nf := if 1 ≤ w then w - 1 else 0
    let f := body % 2 ^ nf
    let k : Int := if body.testBit 6 then (r : Int) - 1 else -(r : Int)
    (2 ^ nf + f) * 2 ^ (2 * k + e + 12 - nf).toNat

/-- The value of a T8 code (R49). -/
def t8Value (c : Nat) : Value :=
  let body := c % 128
  let neg := c / 128 % 2 == 1
  if body = 127 then .nan (nanOf neg 0x400000) else .fin ⟨neg, t8Units body, -12, false⟩

/-- The value of an integer code (R48). -/
def intValue (n c : Nat) : Value :=
  let x := c % 2 ^ n
  if x < 2 ^ (n - 1) then .fin ⟨false, x, 0, false⟩ else .fin ⟨true, 2 ^ n - x, 0, false⟩

/-- The value of a code (R47 to R50). A code of 0xB to 0xF has none; every use refuses those formats before. -/
def valueOf (f : Fmt) (c : Nat) : Value :=
  match shapeOf f with
  | .bin b => binValue b c
  | .int n => intValue n c
  | .t8 => t8Value c
  | .none => .fin (Exact.zero false)

/-- The value of an FP32 code. -/
def f32Value (c : BitVec 32) : Value := binValue .fp32 c.toNat

/-- Round an exact real to a binary format (R55, R56, R62): the code without its sign, and the flags. -/
def binRound (b : Bin) (m : Mode) (sat : Bool) (v : Exact) : Nat × FpFlags :=
  if v.isZero then (0, 0)
  else
    let emin : Int := 1 - b.bias
    let e : Int := (Nat.log2 v.man : Int) + v.exp
    let q := max e emin - b.nf
    let (n, r) := v.steps q
    let k := if m.away v.neg (n % 2 == 1) r then n + 1 else n
    let sub := q = emin - b.nf
    -- the code of k steps of 2^q: the carry out of the fraction falls into the exponent field
    let code := if sub then k else (q + b.nf + b.bias).toNat * 2 ^ b.nf + k - 2 ^ b.nf
    let maxCode := b.maxExp * 2 ^ b.nf + b.maxMan - 2 ^ b.nf
    let inexact := r ≠ .zero
    let tiny := e < emin
    let uf : FpFlags := if tiny && inexact then FpFlags.uf else 0
    -- a real beyond the range that rounds back to M on the grid without a bound gives M (R56)
    if code ≤ maxCode then (code, uf ||| (if inexact then FpFlags.nx else 0))
    else
      let toInf := b.inf && !sat &&
        (match m with
         | .rne => true
         | .rna => true
         | .rtz => false
         | .rup => !v.neg
         | .rdn => v.neg)
      (if toInf then (2 ^ b.ne - 1) * 2 ^ b.nf else maxCode, FpFlags.of ||| FpFlags.nx)

/-- Round an exact real to T8 (R55, R56, R62): the body and the flags. -/
def t8Round (m : Mode) (v : Exact) : Nat × FpFlags :=
  if v.isZero then (0, 0)
  else
    let (n, r) := v.steps (-13)
    let exact := r == .zero
    -- beyond the largest magnitude, 2^10
    if 2 ^ 23 < n || (n = 2 ^ 23 && !exact) then (126, FpFlags.of ||| FpFlags.nx)
    else
      -- the largest body whose magnitude does not exceed the real
      let lo := (List.range 127).foldl (fun a body => if 2 * t8Units body ≤ n then body else a) 0
      if exact && 2 * t8Units lo = n then (lo, 0)
      else
        let mid := t8Units lo + t8Units (lo + 1)
        let rem_ : Rem := if n < mid then .below else if n = mid && exact then .half else .above
        let body := if m.away v.neg (lo % 2 == 1) rem_ then lo + 1 else lo
        (body, FpFlags.nx ||| (if n < 2 then FpFlags.uf else 0))

/-- Round an exact real to an integer of n bits (R55): the code and the flags. -/
def intRound (n : Nat) (m : Mode) (v : Exact) : Nat × FpFlags :=
  let (k, r) := v.steps 0
  let k := if m.away v.neg (k % 2 == 1) r then k + 1 else k
  let limit := if v.neg then 2 ^ (n - 1) else 2 ^ (n - 1) - 1
  if k ≤ limit then ((if v.neg then 2 ^ n - k else k) % 2 ^ n, if r = .zero then 0 else FpFlags.nx)
  else (if v.neg then 2 ^ (n - 1) else 2 ^ (n - 1) - 1, FpFlags.nv)

/-- `round` of R55: an exact real to a code of format F, with its flags. -/
def roundTo (f : Fmt) (m : Mode) (sat : Bool) (v : Exact) : Nat × FpFlags :=
  match shapeOf f with
  | .bin b =>
    let (c, fl) := binRound b m sat v
    (c + (if v.neg then 2 ^ (b.ne + b.nf) else 0), fl)
  | .int n => intRound n m v
  | .t8 =>
    let (c, fl) := t8Round m v
    (c + (if v.neg then 128 else 0), fl)
  | .none => (0, 0)

/-- `special` of R57 and R58 for an infinity. -/
def specialInf (f : Fmt) (neg : Bool) : Nat × FpFlags :=
  match shapeOf f with
  | .bin b =>
    let s := if neg then 2 ^ (b.ne + b.nf) else 0
    if b.inf then (s + (2 ^ b.ne - 1) * 2 ^ b.nf, 0)
    else if b = .e4m3 then (s + 127, FpFlags.nv)
    else (s + b.maxExp * 2 ^ b.nf + b.maxMan - 2 ^ b.nf, FpFlags.nv)
  | .int n => (if neg then 2 ^ (n - 1) else 2 ^ (n - 1) - 1, FpFlags.nv)
  | .t8 => (if neg then 255 else 127, FpFlags.nv)
  | .none => (0, 0)

/-- `special` of R57 and R58 for an FP32 NaN. -/
def specialNan (f : Fmt) (x : BitVec 32) : Nat × FpFlags :=
  let neg := x.getLsbD 31
  let frac := x.toNat % 2 ^ 23
  match shapeOf f with
  | .bin b =>
    let s := if neg then 2 ^ (b.ne + b.nf) else 0
    if b = .fp32 then (x.toNat, 0)
    else if b.inf then
      -- E5M2 takes fraction bits 21:20; BF16 and FP16 the upper bits (R58)
      let g := if b.nf = 2 then frac / 2 ^ 20 % 4 else frac / 2 ^ (23 - b.nf)
      (s + (2 ^ b.ne - 1) * 2 ^ b.nf + (if g = 0 then 1 else g), 0)
    else if b = .e4m3 then (s + 127, 0)
    else (0, FpFlags.nv)
  | .int _ => (0, FpFlags.nv)
  | .t8 => (if neg then 255 else 127, 0)
  | .none => (0, 0)

/-- `convert` of R59 from a value, which every code widens to exactly (R58). -/
def convertValue (f : Fmt) (m : Mode) (sat : Bool) : Value → Nat × FpFlags
  | .fin v => roundTo f m sat v
  | .inf neg => specialInf f neg
  | .nan x => specialNan f x

/-- Convert a code of format `fa` to a code of format `fb` (R59). -/
def convertCode (fa fb : Fmt) (m : Mode) (sat : Bool) (c : Nat) : Nat × FpFlags :=
  convertValue fb m sat (valueOf fa c)

/-- Widen a code to FP32 (R58): exact, with no flag. -/
def toF32 (f : Fmt) (c : Nat) : BitVec 32 := BitVec.ofNat 32 (convertCode f 0 .rne false c).1

/-- Code k of packed codes (R51), from the bytes of a row as a number. -/
def codeAt (f : Fmt) (row : Nat) (k : Nat) : Nat := row / 2 ^ (fmtBits f * k) % 2 ^ fmtBits f

/-- Packed codes as a number (R51). -/
def packCodes (f : Fmt) (cs : List Nat) : Nat :=
  cs.foldr (fun c n => n * 2 ^ fmtBits f + c % 2 ^ fmtBits f) 0

/-- A code as a vector lane holds it: unused bits zero, INT4 sign-extended to 8 (R51). -/
def laneCode (f : Fmt) (c : Nat) : Nat :=
  if f = 9 then (if c % 16 < 8 then c % 16 else 240 + c % 16) else c % 2 ^ fmtBits f

/-- The code in a vector lane: unused bits are ignored (R51). -/
def codeOfLane (f : Fmt) (x : Nat) : Nat := x % 2 ^ fmtBits f

/-- The largest finite value of a format (R46), exactly. -/
def maxFinite (f : Fmt) : Exact :=
  match shapeOf f with
  | .bin b => ⟨false, b.maxMan, (b.maxExp : Int) - b.bias - b.nf, false⟩
  | .int n => ⟨false, 2 ^ (n - 1) - 1, 0, false⟩
  | .t8 => ⟨false, 1, 10, false⟩
  | .none => Exact.zero false

end Sys2Proof.Machine
end

