-- ==== Sys2Proof/Machine/Float.lean ====
section
/-! DEFINITION. FP32 arithmetic (spec/03_number_formats.md R61, R62; spec/09_scalar_and_control.md R159 to R166): each
operation computes its exact result and rounds it once. -/

namespace Sys2Proof.Machine

/-- A result with the flags that it raises. -/
abbrev Fp := BitVec 32 × FpFlags

/-- The default NaN (R61). -/
def defaultNan : BitVec 32 := 0x7FC00000

/-- An invalid operation without a NaN operand (R61). -/
def invalidOp : Fp := (defaultNan, FpFlags.nv)

/-- Is an FP32 code a NaN? -/
def isNan32 (a : BitVec 32) : Bool := a.extractLsb' 23 8 == 255 && a.extractLsb' 0 23 != 0

/-- Is it a signalling NaN: a NaN with the quiet bit clear (R58)? -/
def isSnan32 (a : BitVec 32) : Bool := isNan32 a && !a.getLsbD 22

/-- The NaN with its quiet bit set (R61). -/
def quiet32 (a : BitVec 32) : BitVec 32 := a ||| 0x400000

/-- NV when an operand is a signalling NaN (R61). -/
def snanFlag (as : List (BitVec 32)) : FpFlags := if as.any isSnan32 then FpFlags.nv else 0

/-- The result of an operation with a NaN operand: the first in operand order, quieted (R61). -/
def nanResult (as : List (BitVec 32)) : Option Fp :=
  (as.find? isNan32).map fun a => (quiet32 a, snanFlag as)

/-- Round an exact real to FP32 with sat false (R160). -/
def round32 (m : Mode) (v : Exact) : Fp :=
  let (c, f) := roundTo 0 m false v
  (BitVec.ofNat 32 c, f)

/-- An infinity of a sign. -/
def inf32 (neg : Bool) : BitVec 32 := signBit neg ||| 0x7F800000

/-- A zero of a sign. -/
def zero32 (neg : Bool) : BitVec 32 := signBit neg

/-- The exact product of two reals without `more`. -/
def Exact.mul (a b : Exact) : Exact := ⟨xor a.neg b.neg, a.man * b.man, a.exp + b.exp, false⟩

/-- The signed value of a real in units of 2^q, for q at or below its exponent. -/
def Exact.units (a : Exact) (q : Int) : Int :=
  let n : Int := a.man * 2 ^ (a.exp - q).toNat
  if a.neg then -n else n

/-- A signed number of units of 2^q as a real; zero takes the given sign. -/
def Exact.ofUnits (n : Int) (q : Int) (zeroNeg : Bool) : Exact :=
  if n = 0 then Exact.zero zeroNeg else ⟨decide (n < 0), n.natAbs, q, false⟩

/-- The exact sum of two reals without `more`; an exact zero has the sign that R61 gives it. -/
def Exact.add (m : Mode) (a b : Exact) : Exact :=
  let q := min a.exp b.exp
  let zeroNeg := if a.man = 0 && b.man = 0 && a.neg == b.neg then a.neg else m == .rdn
  Exact.ofUnits (a.units q + b.units q) q zeroNeg

/-- Compare two reals without `more`; −0 equals +0 (R162). -/
def Exact.cmp (a b : Exact) : Ordering :=
  let q := min a.exp b.exp
  compare (a.units q) (b.units q)

/-- The integer square root, one bit at a time from bit `k` down. -/
def isqrtFrom (n : Nat) : Nat → Nat → Nat
  | 0, r => if (r + 1) * (r + 1) ≤ n then r + 1 else r
  | k + 1, r => isqrtFrom n k (if (r + 2 ^ (k + 1)) * (r + 2 ^ (k + 1)) ≤ n then r + 2 ^ (k + 1) else r)

/-- The integer square root. -/
def isqrt (n : Nat) : Nat := isqrtFrom n (Nat.log2 n / 2 + 1) 0

/-- The quotient of two nonzero reals, with at least 60 bits. -/
def Exact.div (a b : Exact) : Exact :=
  let k := 64 + Nat.log2 b.man
  let n := a.man * 2 ^ k
  ⟨xor a.neg b.neg, n / b.man, a.exp - b.exp - k, n % b.man ≠ 0⟩

/-- The square root of a positive real, with at least 60 bits. -/
def Exact.sqrt (a : Exact) : Exact :=
  let odd := a.exp % 2 ≠ 0
  let man := if odd then a.man * 2 else a.man
  let exp := if odd then a.exp - 1 else a.exp
  let n := man * 2 ^ 128
  let r := isqrt n
  ⟨false, r, exp / 2 - 64, r * r ≠ n⟩

/-- a + b (R160, R61), for operands that are not NaN. -/
def addValue (m : Mode) : Value → Value → Fp
  | .fin a, .fin b => round32 m (a.add m b)
  | .inf a, .fin _ => (inf32 a, 0)
  | .fin _, .inf b => (inf32 b, 0)
  | .inf a, .inf b => if a == b then (inf32 a, 0) else invalidOp
  | .nan x, _ => (x, 0)
  | _, .nan x => (x, 0)

/-- The negation of a value that is not NaN. -/
def Value.negate : Value → Value
  | .fin a => .fin { a with neg := !a.neg }
  | .inf n => .inf !n
  | .nan x => .nan x

/-- `fadd` (R160). -/
def fadd32 (m : Mode) (a b : BitVec 32) : Fp :=
  (nanResult [a, b]).getD (addValue m (f32Value a) (f32Value b))

/-- `fsub`: the operands of the sum are a and −b (R61, R160). -/
def fsub32 (m : Mode) (a b : BitVec 32) : Fp :=
  (nanResult [a, b]).getD (addValue m (f32Value a) (f32Value b).negate)

/-- a × b for operands that are not NaN. -/
def mulValue (m : Mode) : Value → Value → Fp
  | .fin a, .fin b => round32 m (a.mul b)
  | .inf a, .fin b => if b.isZero then invalidOp else (inf32 (xor a b.neg), 0)
  | .fin a, .inf b => if a.isZero then invalidOp else (inf32 (xor a.neg b), 0)
  | .inf a, .inf b => (inf32 (xor a b), 0)
  | .nan x, _ => (x, 0)
  | _, .nan x => (x, 0)

/-- `fmul` (R160). -/
def fmul32 (m : Mode) (a b : BitVec 32) : Fp :=
  (nanResult [a, b]).getD (mulValue m (f32Value a) (f32Value b))

/-- a / b for operands that are not NaN. -/
def divValue (m : Mode) : Value → Value → Fp
  | .fin a, .fin b =>
    if b.isZero then
      if a.isZero then invalidOp else (inf32 (xor a.neg b.neg), FpFlags.dz)
    else if a.isZero then (zero32 (xor a.neg b.neg), 0)
    else round32 m (a.div b)
  | .inf a, .fin b => (inf32 (xor a b.neg), 0)
  | .fin a, .inf b => (zero32 (xor a.neg b), 0)
  | .inf _, .inf _ => invalidOp
  | .nan x, _ => (x, 0)
  | _, .nan x => (x, 0)

/-- `fdiv` (R160). -/
def fdiv32 (m : Mode) (a b : BitVec 32) : Fp :=
  (nanResult [a, b]).getD (divValue m (f32Value a) (f32Value b))

/-- The square root of a value that is not NaN; √(−0) = −0 (R160). -/
def sqrtValue (m : Mode) : Value → Fp
  | .fin a => if a.isZero then (zero32 a.neg, 0) else if a.neg then invalidOp else round32 m a.sqrt
  | .inf neg => if neg then invalidOp else (inf32 false, 0)
  | .nan x => (x, 0)

/-- `fsqrt` (R160). -/
def fsqrt32 (m : Mode) (a : BitVec 32) : Fp := (nanResult [a]).getD (sqrtValue m (f32Value a))

/-- a × b + c for operands that are not NaN, the product not rounded. -/
def fmaValue (m : Mode) (a b c : Value) : Fp :=
  match a, b with
  | .fin x, .fin y =>
    match c with
    | .fin z => round32 m ((x.mul y).add m z)
    | .inf n => (inf32 n, 0)
    | .nan q => (q, 0)
  | .fin x, .inf n => if x.isZero then invalidOp else addInf (xor x.neg n)
  | .inf n, .fin y => if y.isZero then invalidOp else addInf (xor n y.neg)
  | .inf n, .inf k => addInf (xor n k)
  | .nan q, _ => (q, 0)
  | _, .nan q => (q, 0)
where
  /-- An infinite product plus c. -/
  addInf (neg : Bool) : Fp :=
    match c with
    | .fin _ => (inf32 neg, 0)
    | .inf n => if n == neg then (inf32 neg, 0) else invalidOp
    | .nan q => (q, 0)

/-- `fma` (R160). -/
def fma32 (m : Mode) (a b c : BitVec 32) : Fp :=
  (nanResult [a, b, c]).getD (fmaValue m (f32Value a) (f32Value b) (f32Value c))

/-- The order of two FP32 numbers that are not NaN, by value. -/
def cmpValue : Value → Value → Ordering
  | .fin a, .fin b => a.cmp b
  | .inf a, .inf b => if a == b then .eq else if a then .lt else .gt
  | .inf a, .fin _ => if a then .lt else .gt
  | .fin _, .inf b => if b then .gt else .lt
  | .nan _, _ => .eq
  | _, .nan _ => .eq

/-- The order of two FP32 codes that are not NaN, with −0 below +0 (R161). -/
def orderBelow (a b : BitVec 32) : Bool :=
  match cmpValue (f32Value a) (f32Value b) with
  | .lt => true
  | .gt => false
  | .eq => a.getLsbD 31 && !b.getLsbD 31

/-- `fmin` (R161). -/
def fmin32 (a b : BitVec 32) : Fp := (nanResult [a, b]).getD (if orderBelow b a then b else a, 0)

/-- `fmax` (R161). -/
def fmax32 (a b : BitVec 32) : Fp := (nanResult [a, b]).getD (if orderBelow a b then b else a, 0)

/-- `fcmp` (R162): the outcome and the flags. -/
def fcmp32 (cc : FCond) (a b : BitVec 32) : Bool × FpFlags :=
  let un := isNan32 a || isNan32 b
  let o := cmpValue (f32Value a) (f32Value b)
  match cc with
  | .eq => (!un && o == .eq, snanFlag [a, b])
  | .ne => (un || o != .eq, snanFlag [a, b])
  | .lt => (!un && o == .lt, if un then FpFlags.nv else 0)
  | .ge => (!un && o != .lt, if un then FpFlags.nv else 0)
  | .le => (!un && o != .gt, if un then FpFlags.nv else 0)
  | .gt => (!un && o == .gt, if un then FpFlags.nv else 0)
  | .un => (un, snanFlag [a, b])
  | .ord => (!un, snanFlag [a, b])

/-- `fclass` (R165): the bit that classifies a. -/
def fclass32 (a : BitVec 32) : Nat :=
  let neg := a.getLsbD 31
  if isNan32 a then (if a.getLsbD 22 then 9 else 8)
  else if a.extractLsb' 23 8 = 255 then (if neg then 0 else 7)
  else if a.extractLsb' 23 8 ≠ 0 then (if neg then 1 else 6)
  else if a.extractLsb' 0 23 ≠ 0 then (if neg then 2 else 5)
  else (if neg then 3 else 4)

/-- `fsgn` (R166). -/
def fsgn32 (op : SgnOp) (a b : BitVec 32) : BitVec 32 :=
  let sign :=
    match op with
    | .copy => b.getLsbD 31
    | .neg => !b.getLsbD 31
    | .xor => xor (a.getLsbD 31) (b.getLsbD 31)
  (a &&& 0x7FFFFFFF) ||| signBit sign

/-- `fcvti` to an integer of n bits (R164, R55, R57). -/
def toInt32 (n : Nat) (m : Mode) (a : BitVec 32) : Nat × FpFlags :=
  match f32Value a with
  | .fin v => intRound n m v
  | .inf neg => (if neg then 2 ^ (n - 1) else 2 ^ (n - 1) - 1, FpFlags.nv)
  | .nan _ => (0, FpFlags.nv)

/-- `icvtf` from a signed integer (R164). -/
def ofInt32 (m : Mode) (x : Int) : Fp := round32 m (Exact.ofUnits x 0 false)

/-- Raise flags in FPCTL: they stay until software clears them (R62). -/
def raise (fpctl : BitVec 32) (f : FpFlags) : BitVec 32 := fpctl ||| f.setWidth 32

/-- Raise flags in a stream. -/
def Stream.raise (x : Stream) (f : FpFlags) : Stream := { x with fpctl := Sys2Proof.Machine.raise x.fpctl f }

end Sys2Proof.Machine
end

