-- ==== Sys2Proof/Machine/Flags.lean ====
section
/-! DEFINITION. The flags of `FPCTL` (spec/03_number_formats.md R62 to R64): how an operation of a stream rounds and
raises, and what a write of the register does. -/

namespace Sys2Proof.Machine

/-- The mode that a rounding field names for a stream; DYN reads FRM when the instruction executes (R54, R181). -/
def Stream.mode (x : Stream) (rm : Rm) : Mode := resolve rm x.fpctl

/-- Write an FP32 result zero-extended, and raise its flags (R159, R64). -/
def Stream.setF (x : Stream) (d : SReg) (r : Fp) : Stream := (x.setS d (r.1.setWidth 64)).raise r.2

/-- Flags that an engine's command raises when it completes: no undone region takes them back, and no return from a trap
that the stream is in (R62, R64, R236). -/
def Stream.raiseEngine (x : Stream) (f : FpFlags) : Stream :=
  { x.raise f with late := if x.state = .trapped then x.late ||| f else x.late, native := x.native.map fun (n : Native) =>
      { n with undo := { n.undo with fpctl := n.undo.fpctl ||| f.setWidth 32 } } }

/-- The union of the flags of a list of results (R64, R181). -/
def flagsOf (rs : List Fp) : FpFlags := rs.foldl (fun f r => f ||| r.2) 0

/-- A write of `FPCTL` by `wrc` (R63, R173): a 1 in a flag bit clears the flag; FRM takes 1 .. 5 and keeps its value
otherwise; reserved bits read zero. -/
def writeFpctl (old : BitVec 32) (v : Word) : BitVec 32 :=
  let frm : BitVec 3 := v.extractLsb' 8 3
  let keep := frm = 0 || frm = 6 || frm = 7
  let flags : BitVec 5 := old.extractLsb' 0 5 &&& ~~~(v.extractLsb' 0 5)
  ((if keep then old.extractLsb' 8 3 else frm) : BitVec 3).setWidth 32 <<< 8 ||| flags.setWidth 32

end Sys2Proof.Machine
end

