-- ==== Sys2Proof/Machine/Caps.lean ====
section
/-! DEFINITION. Capabilities (spec/07_registers_and_language.md R119 to R122): their fields, the checks of an access and
the rule of narrowing. -/

namespace Sys2Proof.Machine

/-- The fields of a capability, as numbers (R120). -/
structure CapFields where
  base     : Nat
  stride   : Nat
  rows     : Nat
  rowbytes : Nat
  fmt      : Fmt
  perm     : BitVec 4
  swz      : BitVec 6
  reserved : BitVec 14
deriving DecidableEq, Repr

/-- The fields of a capability's bits (R120). -/
def capFields (c : Quad) : CapFields where
  base := (c.extractLsb' 0 48).toNat
  stride := (c.extractLsb' 48 20).toNat
  rows := (c.extractLsb' 68 16).toNat
  rowbytes := (c.extractLsb' 84 16).toNat
  fmt := c.extractLsb' 100 4
  perm := c.extractLsb' 104 4
  swz := c.extractLsb' 108 6
  reserved := c.extractLsb' 114 14

/-- The bits of a capability, every field truncated to its width (R169). -/
def CapFields.bits (f : CapFields) : Quad :=
  f.reserved ++ f.swz ++ f.perm ++ f.fmt ++ BitVec.ofNat 16 f.rowbytes ++ BitVec.ofNat 16 f.rows
    ++ BitVec.ofNat 20 f.stride ++ BitVec.ofNat 48 f.base

/-- The fields of a capability. -/
def Cap.fields (c : Cap) : CapFields := capFields c.bits

/-- Does every field fit its width (R169)? -/
def CapFields.fits (f : CapFields) : Bool :=
  decide (f.base < 2 ^ 48 ∧ f.stride < 2 ^ 20 ∧ f.rows < 2 ^ 16 ∧ f.rowbytes < 2 ^ 16)

/-- Is the capability well formed (R121)? -/
def CapFields.wellFormed (f : CapFields) : Bool :=
  f.reserved == 0 && !f.perm.getLsbD 3 && swizzleValid f.swz
    && (decide (f.rows ≤ 1) || decide (f.rowbytes ≤ f.stride))
    && (f.rows == 0 || decide (f.base + (f.rows - 1) * f.stride + f.rowbytes ≤ 2 ^ 48))

/-- `covers` of R121. Its division by STRIDE has no value for a STRIDE of 0 under several rows, which is not well
formed: it then does not hold (DESIGN CHOICE, log entry 61). -/
def CapFields.covers (f : CapFields) (off n : Nat) : Bool :=
  if f.rows = 0 || f.rowbytes = 0 then false
  else if f.rows = 1 then decide (off + n ≤ f.rowbytes)
  else if f.stride = 0 then false
  else decide (off / f.stride < f.rows) && decide (off % f.stride + n ≤ f.rowbytes)

/-- What an access needs of a capability's permissions (R120). -/
structure Need where
  rd : Bool
  wr : Bool
  at_ : Bool
deriving DecidableEq, Repr

def Need.read : Need := ⟨true, false, false⟩
def Need.write : Need := ⟨false, true, false⟩
def Need.readWrite : Need := ⟨true, true, false⟩
def Need.atomic : Need := ⟨true, true, true⟩
def Need.post : Need := ⟨false, true, true⟩

/-- Are the permissions granted? -/
def CapFields.grants (f : CapFields) (k : Need) : Bool :=
  (!k.rd || f.perm.getLsbD 0) && (!k.wr || f.perm.getLsbD 1) && (!k.at_ || f.perm.getLsbD 2)

/-- The checks of R121 on an access of n bytes at an offset: the cause of the first that fails. -/
def Cap.check (c : Cap) (k : Need) (off n : Nat) : Option (BitVec 8) :=
  let f := c.fields
  if !c.tag then some Cause.capabilityTagClear
  else if !f.wellFormed then some Cause.invalidCapabilityField
  else if !f.grants k then some Cause.capabilityPermission
  else if !f.covers off n then some Cause.capabilityBounds
  else none

/-- Is the footprint empty (R121)? -/
def CapFields.empty (f : CapFields) : Bool := f.rows == 0 || f.rowbytes == 0

/-- Is D narrower than C (R122)? -/
def narrower (d c : CapFields) : Bool :=
  d.wellFormed && (d.perm &&& ~~~c.perm) == 0 && d.swz == c.swz
    && (d.empty
        || (decide (c.base ≤ d.base)
            && (List.range d.rows).all fun j => c.covers (d.base - c.base + j * d.stride) d.rowbytes))

/-- The address that a capability check reports: BASE + offset (R413). -/
def Cap.addr (c : Cap) (off : Word) : Word := (c.bits.extractLsb' 0 48 : BitVec 48).setWidth 64 + off

/-- The mask that a well-formed capability selects (R97). -/
def Cap.mask (c : Cap) (xm : Vector Word 16) : Option Word := swizzleMask xm c.fields.swz

/-- Address of byte b of row i of a footprint (R121). -/
def CapFields.at (f : CapFields) (i b : Nat) : Nat := f.base + i * f.stride + b

/-- A capability with the given fields and tag. -/
def CapFields.cap (f : CapFields) (tag : Bool) : Cap := ⟨f.bits, tag⟩

end Sys2Proof.Machine
end

