-- ==== Sys2Proof/Machine/Operands.lean ====
section
/-! DEFINITION. The operand forms: scalar and lane operands (spec/09_scalar_and_control.md R152, spec/10_vector.md R180,
R181) and memory operands with every check of an access in its order (spec/02_address_space.md R29 to R31,
spec/05_cisterns.md R86, R87, R97, spec/08_encodings.md R139). -/

namespace Sys2Proof.Machine

/-! ### Scalar and vector operands -/

/-- A 64-bit operand at a width: its low n bits (R152). -/
def atWidth (w : Width) (x : Word) : BitVec w.n := x.setWidth w.n

/-- Write a result at a width, sign-extended to 64 bits (R152). -/
def Stream.setW {n : Nat} (x : Stream) (d : SReg) (r : BitVec n) : Stream := x.setS d (r.signExtend 64)

/-- Lane i of an operand B that is vB or sB broadcast (R137, R181). -/
def Stream.laneB (x : Stream) (n : Nat) (b : VOrS) (i : Nat) : BitVec n :=
  match b with
  | .v r => lane n (x.getV r) i
  | .s r => (x.getS r).setWidth n

/-! ### Buffered stores of a native region -/

/-- The byte that a buffered store writes at a physical address, if it writes one there (R97). -/
def BufferedWrite.byte? (w : BufferedWrite) (pa : Nat) : Option Byte :=
  match w.mask with
  | none => if w.pa ≤ pa then w.bytes[pa - w.pa]? else none
  | some m =>
    ((List.range w.bytes.length).find? fun i => swizzled (some m) w.va.toNat w.pa i == pa).bind fun i => w.bytes[i]?

/-- The byte that the stream's own accesses see: the newest buffered store of its native region, or memory (R295). -/
def bufferedByte (s : State) (buf : List BufferedWrite) (pa : Nat) : Byte :=
  buf.foldl (fun b w => (w.byte? pa).getD b) (s.readByte pa)

/-- Is the stream inside a routine: in a call, or in the bracket of a substituted one (R252, R291)? -/
def Stream.inRoutine (x : Stream) : Bool := !x.calls.isEmpty || x.native.any fun n => n.bracket.isSome

/-- The native region that the stream is inside; none once the region's writes are performed (R295). -/
def Stream.region (x : Stream) : Option Native := x.native.filter fun n => !n.opened

/-- The stores that the current stream's region holds back. -/
def State.buffer (s : State) : List BufferedWrite := ((s.str.region.map (·.buffer)).getD [])

/-! ### Memory operands -/

/-- A part of an access after its checks 3 to 5: its first address, where it lies, its bytes, its mask and the cached
translation that it used (R31, R42, R97). -/
structure Part where
  va   : Word
  pa   : Nat
  n    : Nat
  mask : Option Word
  dev  : Option DevReg
  via  : Option TlbEntry
deriving DecidableEq, Repr

/-- The offset of a memory operand [cA + sB + e] (R139, R168). -/
def Stream.offS (x : Stream) (m : MemS) : Word := x.getS m.idx + m.off.signExtend 64

/-- The offset of lane i of a memory operand [cA + vB + e] (R139, R196). -/
def Stream.offV (x : Stream) (n : Nat) (m : MemV) (i : Nat) : Word :=
  (lane n (x.getV m.idx) i).setWidth 64 + m.off.signExtend 64

/-- The translation root of the current stream (R26). -/
def State.root (s : State) : Word := s.str.ctxroot

/-- The agent that the current stream is, to a device register (R93). -/
def State.agent (s : State) : Agent :=
  match s.cur.side with
  | .user => .user s.cur.tile
  | .firmware => .firmware s.cur.tile

/-- Check 1 of R29 alone (R121). -/
def M.capCheck (c : Cap) (k : Need) (off : Word) (n : Nat) : M Unit :=
  match c.check k off.toNat n with
  | some cause => M.trap cause (c.addr off)
  | none => pure ()

/-- Check 2 of R29: an alignment that the instruction requires. -/
def M.aligned (va : Word) (align : Nat) : M Unit :=
  if va.toNat % align ≠ 0 then M.trap Cause.misalignedAtomic va else pure ()

/-- Checks 1 and 2 of R29: the capability, then an alignment that the instruction requires (`align` is 1 where it
requires none). The answer is the access's virtual address. -/
def M.locate (c : Cap) (k : Need) (off : Word) (n align : Nat) : M Word := do
  M.capCheck c k off n
  let va := canonical (c.addr off)
  M.aligned va align
  pure va

/-- A native region that meets an access through an SO page is undone and replayed (R297). -/
def M.single (p : Phys) : M Unit := do
  let s ← get
  if p.so && s.str.region.isSome then throw (.wait .running .none) else pure ()

/-- Checks 3 to 5 of R29 on a part (R24, R25, R27, R28). A device register is the one at the address as the mask maps it
(R97, R121). -/
def M.part (mask : Option Word) (va : Word) (n : Nat) (acc : Access) : M Part := do
  let s ← get
  let p ← M.translated s.cur.tile (.control s.cur.side) s.root va acc s.isUser
  let s' ← get
  let via := s'.serving s.cur.tile (.control s.cur.side) s.root va acc s.isUser
  match regionOf p.pa with
  | .device =>
    match devRegOf (swizzled mask va.toNat p.pa 0) n with
    | none => M.trap (accessFault acc) va
    | some r => do
      M.single p
      pure ⟨va, p.pa, n, mask, some r, via⟩
  | .hbm => do
    M.single p
    pure ⟨va, p.pa, n, mask, none, via⟩
  | .cistern _ _ => do
    M.single p
    pure ⟨va, p.pa, n, mask, none, via⟩
  | .hole => M.trap (accessFault acc) va

/-- The parts of an access of n bytes: two, where it covers bytes of two pages (R31). -/
def splitPages (va : Word) (n : Nat) : List (Word × Nat) :=
  let room := 4096 - va.toNat % 4096
  if n ≤ room then [(va, n)] else [(va, room), (canonical (va + BitVec.ofNat 64 room), n - room)]

/-- The bytes of a line that a part covers, as the first address. -/
def Part.lineVa (p : Part) (l : Nat) : Word :=
  if 128 * l ≤ p.pa then p.va else p.va + BitVec.ofNat 64 (128 * l - p.pa)

/-- Check 6 of R29 on the lines of a part, in ascending order: a read waits for an empty line, then meets poison (R86;
DEDUCED, log entry 11). -/
def M.lines (t : TileId) (p : Part) : M Unit :=
  match p.dev with
  | some _ => pure ()
  | none => (linesOf p.pa p.n).forM fun l => do
    let s ← get
    if s.lineEmpty l then throw (.wait .stalled (.line l))
    else if s.linePoisoned l then M.poisoned t (p.lineVa l) l
    else pure ()

/-- The line checks of an access of the current stream. -/
def M.ownLines (p : Part) : M Unit := do
  let s ← get
  M.lines s.cur.tile p

/-- Every check of a load (R29, R31): each part meets checks 3 to 6, the lower part first. -/
def M.loadParts (mask : Option Word) (va : Word) (n : Nat) : M (List Part) :=
  (splitPages va n).mapM fun (a, k) => do
    let p ← M.part mask a k .load
    M.ownLines p
    pure p

/-- Checks 3 to 5 of R29 on both parts of an access (R31). -/
def M.parts (mask : Option Word) (va : Word) (n : Nat) (acc : Access) : M (List Part) :=
  (splitPages va n).mapM fun (a, k) => M.part mask a k acc

/-- Every check of a store (R29, R31); a store never waits and never meets poison (R21, R86). -/
def M.storeParts (mask : Option Word) (va : Word) (n : Nat) : M (List Part) := M.parts mask va n .store

/-- Read the bytes of a part. -/
def M.readPart (p : Part) : M (List Byte) := do
  let s ← get
  match p.dev with
  | some r =>
    let (q, s) := s.devRead r
    set s
    pure (toBytes p.n q)
  | none =>
    let buf := s.buffer
    if buf.isEmpty then pure (s.readPart p.mask p.va.toNat p.pa p.n)
    else pure ((List.range p.n).map fun i => bufferedByte s buf (swizzled p.mask p.va.toNat p.pa i))

/-- Hold back the store of a part in the region store buffer (R295). -/
def Native.hold (x : Native) (p : Part) (bs : List Byte) : Native :=
  { x with buffer := x.buffer ++ [⟨p.va, p.pa, p.mask, bs, p.via⟩] }

/-- Perform the store of a part, or hold it back in the native region. -/
def M.writePart (p : Part) (bs : List Byte) : M Unit := do
  let s ← get
  match p.dev with
  | some r => set (s.devWrite s.agent r (ofBytes 128 bs))
  | none =>
    match s.str.region with
    | none => set (s.writePart p.mask p.va.toNat p.pa bs)
    | some x => M.mod fun y => { y with native := some (x.hold p bs) }

/-- Read the parts of an access, lower part first. -/
def M.readParts (ps : List Part) : M (List Byte) := do
  let bs ← ps.mapM M.readPart
  pure bs.flatten

/-- Write the parts of an access, lower part first. -/
def M.writeParts : List Part → List Byte → M Unit
  | [], _ => pure ()
  | p :: ps, bs => do
    M.writePart p (bs.take p.n)
    M.writeParts ps (bs.drop p.n)

/-- The mask of a capability's accesses at this moment (R97). -/
def M.mask (c : Cap) : M (Option Word) := do
  let x ← M.str
  pure (c.mask x.xm)

/-- Load n bytes at an offset through a capability, with an alignment (1 for none) (R168, R195, R203). -/
def M.load (c : Cap) (off : Word) (n align : Nat) : M (List Byte) := do
  let va ← M.locate c .read off n align
  let mask ← M.mask c
  let ps ← M.loadParts mask va n
  M.readParts ps

/-- Store bytes at an offset through a capability, with an alignment (1 for none) (R168, R195, R203). -/
def M.store (c : Cap) (off : Word) (bs : List Byte) (align : Nat) : M Unit := do
  let va ← M.locate c .write off bs.length align
  let mask ← M.mask c
  let ps ← M.storeParts mask va bs.length
  M.writeParts ps bs

/-- Load through a memory operand (R139). -/
def M.loadS (m : MemS) (n align : Nat) : M (List Byte) := do
  let x ← M.str
  M.load (x.getC m.cap) (x.offS m) n align

/-- Store through a memory operand (R139). -/
def M.storeS (m : MemS) (bs : List Byte) (align : Nat) : M Unit := do
  let x ← M.str
  M.store (x.getC m.cap) (x.offS m) bs align

/-- Checks 1 to 5 of an aligned access of n bytes within one page, by kind (R204, R207, R212). -/
def M.atomicPart (c : Cap) (k : Need) (off : Word) (n align : Nat) (acc : Access) : M Part := do
  let va ← M.locate c k off n align
  let mask ← M.mask c
  M.part mask va n acc

/-- One indivisible read-modify-write of a part: the old bytes give the new ones, or none for no write (R204). -/
def M.rmw (p : Part) (f : List Byte → Option (List Byte)) : M (List Byte) := do
  M.ownLines p
  let old ← M.readPart p
  match f old with
  | none => pure ()
  | some new => M.writePart p new
  pure old

end Sys2Proof.Machine
end

