-- ==== Sys2Proof/Machine/Streams.lean ====
section
/-! DEFINITION. The life of a stream: the rendezvous of a job (spec/09_scalar_and_control.md R177), the end of a stream
(spec/19_execution_and_scheduling.md R330, R331), where a diversion takes effect and what it does
(spec/20_deadlines.md R356 to R358, spec/14_routines.md R257, R260), and transfers of control
(spec/09_scalar_and_control.md R176). -/

namespace Sys2Proof.Machine

/-! ### Timeline counters and their numbers (R107, R234, R261) -/

/-- The largest m such that everything up to it is complete: a counter moved over the complete numbers above it. -/
def advanceCounter : Nat → Word → List Word → Word × List Word
  | 0, c, done => (c, done)
  | fuel + 1, c, done =>
    if done.contains (c + 1) then advanceCounter fuel (c + 1) (done.filter (· ≠ c + 1)) else (c, done)

/-- A number of `tlm` or `tlw` is complete (R236, R261). -/
def Matrix.finish (m : Matrix) (well : Bool) (n : Word) : Matrix :=
  if well then
    let (c, d) := advanceCounter (m.doneW.length + 1) m.tlw (n :: m.doneW)
    { m with tlw := c, doneW := d }
  else
    let (c, d) := advanceCounter (m.doneM.length + 1) m.tlm (n :: m.doneM)
    { m with tlm := c, doneM := d }

/-- A number of a pump context is complete (R107). -/
def PumpCtx.finish (p : PumpCtx) (n : Word) : PumpCtx :=
  let (c, d) := advanceCounter (p.done.length + 1) p.tlp (n :: p.done)
  { p with tlp := c, done := d }

/-- A number on a timeline counter is complete. -/
def Tile.finish (x : Tile) (a : Timeline) (n : Word) : Tile :=
  match a with
  | .tlp k => x.setPump k ((x.pump k).finish n)
  | .tlm => { x with mx := x.mx.finish false n }
  | .tlw => { x with mx := x.mx.finish true n }

/-- Change the current tile. -/
def M.modTile (f : Tile → Tile) : M Unit := do
  let s ← get
  set (s.setTile s.cur.tile (f s.here))

/-! ### Rendezvous and the end of a stream -/

/-- A stream whose wait ends runs on (R331). -/
def Stream.resume (x : Stream) : Stream := { x with state := .running, wait := .none }

/-- The rendezvous that a member's stream has arrived at so far (R177); a stream that has not started has arrived at
none. -/
def State.arrivedAt (s : State) (n : Node) (t : TileId) : Nat :=
  if n.unstarted.contains t then 0 else (s.tile t).user.arrivals

/-- The last rendezvous that every stream of the node has arrived at or counts as arrived at (R177). -/
def State.completeRdv (s : State) (n : Node) : Nat :=
  match (n.tiles.filter fun t => !n.ended.contains t).map (s.arrivedAt n) with
  | [] => n.rdv
  | k :: ks => ks.foldl Nat.min k

/-- End a member's wait at a rendezvous that is complete (R177). -/
def Tile.passRdv (x : Tile) (k : Nat) : Tile :=
  match x.user.wait with
  | .rendezvous j => if j ≤ k then { x with user := x.user.resume.advance } else x
  | _ => x

/-- Complete the rendezvous of a node that are due: their waiters go on after their `rdv` (R177). -/
def State.rendezvous (s : State) (serial : Nat) : State :=
  match s.node? serial with
  | none => s
  | some n =>
    let k := s.completeRdv n
    let s := s.mapNode serial fun n => { n with rdv := k }
    (n.tiles.filter fun t => !n.ended.contains t && !n.unstarted.contains t).foldl (init := s) fun s t =>
      s.setTile t ((s.tile t).passRdv k)

/-- A node whose stream on a tile has ended or been stopped; with its last stream it is Draining (R345). -/
def Node.leave (n : Node) (t : TileId) : Node :=
  let ended := if n.ended.contains t then n.ended else n.ended ++ [t]
  { n with
    ended := ended
    state := if n.tiles.all ended.contains then .draining else n.state }

/-- The exit address (R329). -/
def exitAddress : Word := 0xFFFFFFFFFFFFFFF8

/-- The user stream of a tile ends or is stopped (R330, R331); its registers stay for the carry of R347. -/
def State.leave (s : State) (t : TileId) (st : StreamState) : State :=
  let x := s.tile t
  let s := s.setTile t
    { x with
      callTime := none
      user := { x.user.settle with
        state := st, wait := .none, calls := [], vamoTodo := [], woken := false, single := false, rejoin := none
        went := false, late := 0 } }
  match x.node with
  | none => s
  | some k => (s.mapNode k (·.leave t)).rendezvous k

/-! ### The places of a diversion -/

/-- The pattern entries of two words (R256: entries 1, 2, 4, 5, 6). -/
def pattern2 (a b : Word) : Bool :=
  (opOf a == 0x048 && opOf b == 0x049 && fieldD a == fieldD b && fieldA b == fieldD b)
  || (opOf a == 0x01B && opOf b == 0x300 && (fieldPred b).setWidth 6 == fieldD a && !b.getLsbD 49)
  || (opOf a == 0x129 && opOf b == 0x122 && fieldA b == fieldD a && a.extractLsb' 5 4 == (0 : BitVec 4) && !b.getLsbD 24)
  || (opOf a == 0x220 && opOf b == 0x206 && fieldScope a == fieldScope b)
  || (opOf a == 0x145 && opOf b == 0x060 && fieldA b == fieldD b && fieldB b == fieldD a && fieldD b != fieldD a)

/-- The pattern entry of three words (R256: entry 3). -/
def pattern3 (a b c : Word) : Bool :=
  opOf a == 0x160 && opOf b == 0x160 && opOf c == 0x12A && fieldD a != fieldD b
    && fieldA c == fieldD a && fieldB c == fieldD b

/-- Is the address the target of a branch-format instruction of its code section (R257)? -/
def State.branchTarget (s : State) (t : TileId) (a : Word) : Bool :=
  match s.extentOf t a with
  | none => true
  | some (base, size) =>
    (List.range (size / 8)).any fun i =>
      match s.peekWord t (BitVec.ofNat 64 (base + 8 * i)) with
      | none => false
      | some w =>
        (opOf w == 0x300 || opOf w == 0x301 || opOf w == 0x302)
          && BitVec.ofNat 64 (base + 8 * i) + 8 * (w.extractLsb' 0 37).signExtend 64 == a

/-- Does a word go on in the function of the word before it: in the same code section, with no function entry and no
branch target at it (R257)? -/
def State.goesOn (s : State) (t : TileId) (a : Word) : Bool :=
  (s.extentOf t a).isSome && s.extentOf t (a - 8) == s.extentOf t a
    && !((s.ctx (s.ctxOf t)).objects.any fun o => o.funcs.contains a) && !s.branchTarget t a

/-- Does an address stand after the first word of a matched pattern (R257)? -/
def State.midPattern (s : State) (t : TileId) (pc : Word) : Bool :=
  let w (k : Word) : Word := (s.peekWord t (pc + k)).getD 0
  if pattern2 (w (-8)) (w 0) then s.goesOn t pc
  else if pattern3 (w (-8)) (w 0) (w 8) then s.goesOn t pc && s.goesOn t (pc + 8)
  else if pattern3 (w (-16)) (w (-8)) (w 0) then s.goesOn t pc && s.goesOn t (pc - 8)
  else false

/-- The number of a routine in the order of the catalogue (R256). -/
def routineList : List Routine :=
  [.mmWload, .mmWdecode, .mmSwap, .mmAct, .mmDrain, .mmZero, .tileCopy, .tileTranspose, .tileCvt, .tileGather,
    .tileScatter, .tileLdscale, .scanAdd, .scanAffine, .redSum, .redMax, .redAmax, .scaleFold, .ewExp, .ewSigmoid,
    .ewSilu, .ewGelu, .ewRsqrt, .normRms, .normLayer, .softmaxRow, .ssmChunk, .hashMul, .decodeSeg, .accAddrow,
    .quantRow, .topkRow]

/-- The word offset of the `yield` of a catalogue definition; that of `tile.ldscale` is printed (R387), the others are
not (DESIGN CHOICE, log entry 19). -/
def yieldWord (r : Routine) : Word :=
  match r with
  | .tileLdscale => 58
  | _ => (Config.yieldWord (routineList.idxOf r)).setWidth 64

/-- The Juden address of the stream's present place: in a native routine, its entry or its last yield point
(R259, R260). -/
def Stream.place (x : Stream) : Word :=
  match x.calls with
  | [] => x.pc
  | f :: _ =>
    match f.native with
    | none => x.pc
    | some r => if f.prog = 0 then f.body else f.body + 8 * yieldWord r

/-- JPC of an entry of the position map (R298). -/
def State.positionPcAt (s : State) (t : TileId) (pmi : Nat) : Option Word := (s.position t pmi).map positionPc

/-- Does a user stream go on with a replay that has not reached the end of its region (R296)? -/
def State.replaying (s : State) (t : TileId) : Bool :=
  let u := (s.tile t).user
  u.rejoin.any fun r => (s.positionPcAt t r.2).any (· != u.pc)

/-- Is the word at an address a `yield` that executes, by the predicates of the user stream (R221)? -/
def State.atYield (s : State) (t : TileId) (pc : Word) : Bool :=
  (s.peekWord t pc).any fun w => opOf w == 0x321 && (s.tile t).user.settle.holds ⟨fieldPred w, w.getLsbD 49⟩

/-- Is the stream at a point at which an interruption takes effect: outside every routine at a recovery point, inside
one at a `yield` (R260, R299, R357)? Every Juden boundary is taken for a recovery point (DEDUCED, log entry 20), but for
those inside a matched pattern, and those inside the replay of a region, which ends at its own boundary (R296, R299). -/
def State.atPoint (s : State) (t : TileId) : Bool :=
  let u := (s.tile t).user
  match u.native with
  | some n =>
    n.atStart && n.finished.isNone && (if u.calls.isEmpty then !s.midPattern t u.pc else s.atYield t u.pc || n.bracket.isSome)
  | none =>
    match u.calls with
    | [] => !s.midPattern t u.pc && !s.replaying t
    | f :: _ =>
      match f.native with
      | some _ => f.prog != 0
      | none =>
        s.atYield t u.pc && !s.replaying t

/-! ### The boundary to come -/

/-- The end of the region that a bundle lies in, along the bundles after it (R286, R294, R298): the address of its RP
bundle and the PMI. `fuel` bounds the bundles. -/
def State.regionEnd (s : State) (t : TileId) : Nat → Word → Option (Word × Nat)
  | 0, _ => none
  | fuel + 1, npc =>
    (s.peekWord t npc).bind fun h =>
      if h.getLsbD 9 then some (npc, (h.extractLsb' 16 24 : BitVec 24).toNat) else s.regionEnd t fuel (npc + 48)

/-- More bundles than the translation cache of a tile's context holds. -/
def State.bundleRoom (s : State) (t : TileId) : Nat := (s.ctx (s.ctxOf t)).cacheSize / 48 + 1

/-- JPC of the region that a native stream stands in; its own boundary where that region's end cannot be read. -/
def State.regionPc (s : State) (t : TileId) (n : Native) : Word :=
  ((s.regionEnd t (s.bundleRoom t) n.npc).bind fun e => s.positionPcAt t e.2).getD (s.tile t).user.pc

/-- The first `yield` of a routine body at or after an address, else the routine's return (R260). -/
def State.nextYield (s : State) (t : TileId) (f : CallFrame) (pc : Word) : Word :=
  let at_ (k : Nat) : Word := f.body + BitVec.ofNat 64 (8 * k)
  match (List.range f.ninsn).find? fun k =>
      decide (pc.toNat ≤ (at_ k).toNat) && (s.peekWord t (at_ k)).any fun w => opOf w == 0x321 with
  | some k => at_ k
  | none => f.ret

/-- The stream's next Juden boundary, along its code as it lies (R372, R375; DEDUCED, log entry 70): a branch on the way
is not foreseen. -/
def State.nextBoundary (s : State) (t : TileId) : Word :=
  let u := (s.tile t).user
  match u.native with
  | some n =>
    match n.finished with
    | some f => (s.positionPcAt t f.pmi).getD u.pc
    | none =>
      match u.calls with
      | f :: _ =>
        if n.bracket.isNone then s.nextYield t f u.pc else if n.atStart then u.pc else s.regionPc t n
      | [] => if n.atStart then u.pc else s.regionPc t n
  | none =>
    match u.calls with
    | f :: _ =>
      match f.native with
      | some r => f.body + 8 * yieldWord r
      | none => s.nextYield t f u.pc
    | [] =>
      if s.replaying t then (u.rejoin.bind fun r => s.positionPcAt t r.2).getD u.pc
      else if u.state = .stalled then u.pc + 8
      else if !s.midPattern t u.pc then u.pc
      else if !s.midPattern t (u.pc + 8) then u.pc + 8
      else u.pc + 16

/-- A call time that is pending as its stream enters a routine is one inside the routine from then on (R356). -/
def insideCode (code : BitVec 8) : BitVec 8 := if code = 1 then 3 else code

/-- Is the stream of the user context frozen by a tile fault (R372) or by a correctable error (R98)? -/
def Tile.held (x : Tile) : Bool := x.frozen || (x.fault.any fun f => !f.pending)

/-- The code and the program counter of a pending diversion, once its point is reached (R356). Outside every routine a
region commits first, after the call time is noted. -/
def State.diversionPoint (s : State) (t : TileId) : Option (BitVec 8 × Word) :=
  let x := s.tile t
  let u := x.user
  match x.callTime with
  | none => none
  | some code =>
    if x.held then none
    else match u.state with
    | .waiting =>
      match u.wait with
      | .rendezvous _ => some (5, u.pc + 8)
      | _ => if u.inRoutine then none else some (4, u.pc)
    | .running =>
      if u.woken then none
      else if code = 7 then some (7, u.place)
      else if !u.begun then some (6, u.pc)
      else if !s.atPoint t then none
      else if !u.calls.isEmpty then some (2, u.place)
      else if code = 3 then some (3, u.pc)
      else if u.went then some (1, u.pc)
      else none
    | _ => none

/-- `DPC` (R358). -/
def dpcWord (code : BitVec 8) (pc : Word) : Word :=
  (1 : BitVec 1) ++ (0 : BitVec 7) ++ code ++ pc.extractLsb' 3 45 ++ (0 : BitVec 3)

/-- Divert the user stream of a tile (R357). -/
def State.divert (s : State) (t : TileId) (code : BitVec 8) (pc : Word) : State :=
  let x := s.tile t
  match x.node.bind s.node? with
  | none => s
  | some n =>
    let u := x.user.settle.setC (.c 31) ⟨n.vcap, n.vcap != 0⟩
    let s := s.setTile t
      { x with
        callTime := none
        user := { u with
          dpc := dpcWord code pc, pc := n.clear, diverted := true, state := .running, wait := .none, calls := []
          begun := true, vamoTodo := [], woken := false, single := false, rejoin := none, went := false } }
    (s.mapNode n.serial fun n => { n with dv := true }).land t

/-! ### Transfers of control -/

/-- A user stream comes to the address at its program counter (R300). -/
def M.arrive : M Unit := modify fun s => if s.isUser then s.land s.cur.tile else s

/-- Move control to a target, with the region that native issue resumes behind: a user stream that transfers to the exit
address ends (R176, R330). -/
def M.jumpTo (target : Word) (rejoin : Option (Word × Nat)) : M Unit := do
  let s ← get
  let t := canonical target
  if s.isUser && t == exitAddress then set (s.leave s.cur.tile .ended)
  else do
    M.mod fun x => { x with pc := t, rejoin := rejoin }
    M.arrive

/-- Move control to a target. The transfer ends the replay of the region that it leaves (R296; DEDUCED, log entry 35). -/
def M.jump (target : Word) : M Unit := M.jumpTo target none

/-- Check 1 of R176: a register target that is not a multiple of eight. -/
def M.alignedTarget (target : Word) : M Unit :=
  let t := canonical target
  if t.toNat % 8 ≠ 0 then M.trap Cause.misalignedInstructionAddress t else pure ()

/-- The target of a branch-format instruction (R138). -/
def branchTo (pc : Word) (imm : BitVec 37) : Word := pc + 8 * imm.signExtend 64

end Sys2Proof.Machine
end

