-- ==== Sys2Proof/Machine/ControlReg.lean ====
section
/-! DEFINITION. Control registers, deadline status and validity words: spec/07_registers_and_language.md R124, R125,
spec/09_scalar_and_control.md R173, spec/11_memory_sync_system.md R222, R223, spec/22_traps_and_context.md R376. The
registers that R124 and R376 give the stream of a tile (`DPC`, `VPOS`, `CTXCFG`, the firmware registers) are one set per
tile; `FPCTL`, `DTIMEF`, `CTXROOT` and the masks belong to the hardware context that names them (DEDUCED, log entry 21). -/

namespace Sys2Proof.Machine

/-- `FEAT` of the 960 (R306). -/
def featWord : Word := 0x010101FF000000FF

/-- Is a control register number unassigned (R125)? -/
def ctlUnassigned (a : Ctl) : Bool := decide (9 ≤ a.toNat ∧ a.toNat ≤ 15)

/-- Is a control register privileged (R124)? -/
def ctlPrivileged (a : Ctl) : Bool := decide (0x20 ≤ a.toNat)

/-- A control register as it reads (R124, R376; DEDUCED, log entry 21). -/
def State.readCtl (s : State) (a : Ctl) : Word :=
  let x := s.str
  let t := s.here
  match a.toNat with
  | 0x00 => x.fpctl.setWidth 64
  | 0x01 => t.user.dpc
  | 0x02 => s.dtime
  | 0x03 => x.dtimef.setWidth 64
  | 0x04 => s.boot.subver.extractLsb' 0 64
  | 0x05 => s.boot.subver.extractLsb' 64 64
  | 0x06 => featWord
  | 0x07 => t.user.vpos
  | 0x08 => t.user.ctxcfg
  | 0x20 => x.ctxroot
  | 0x21 => t.pmbase
  | 0x22 => t.spbase
  | 0x23 => t.dlcall
  | 0x24 => t.dlhard
  | 0x25 => t.tcause
  | 0x26 => t.taddr
  | 0x27 => t.tpc
  | 0x28 => t.tsave
  | _ => if 0x10 ≤ a.toNat ∧ a.toNat < 0x20 then x.xm[a.toNat % 16]'(Nat.mod_lt _ (by decide)) else 0

/-- A write of `CTXCFG`: SCB and REF (R254). -/
def writeCtxcfg (old v : Word) : Word := (old &&& ~~~3#64) ||| (v &&& 3)

/-- A write of a control register that the writing context may write (R124, R173); every other is ignored (R8). -/
def State.writeCtl (s : State) (a : Ctl) (v : Word) : State :=
  let x := s.str
  let t := s.here
  let fw := !s.isUser
  let put (t : Tile) : State := s.setTile s.cur.tile t
  match a.toNat with
  | 0x00 => s.setStr { x with fpctl := writeFpctl x.fpctl v }
  | 0x01 => if fw then put { t with user := { t.user with dpc := v &&& 0x80FFFFFFFFFFFFF8 } } else s
  | 0x08 => if fw then put { t with user := { t.user with ctxcfg := writeCtxcfg t.user.ctxcfg v } } else s
  | 0x20 => s.setStr { x with ctxroot := writeRoot x.ctxroot v }
  | 0x21 => put { t with pmbase := v }
  | 0x22 => put { t with spbase := v }
  | 0x23 => put { t with dlcall := v }
  | 0x24 => put { t with dlhard := v }
  | 0x28 => put { t with tsave := v }
  | _ =>
    if 0x10 ≤ a.toNat ∧ a.toNat < 0x20 && maskValid v then
      s.setStr { x with xm := x.xm.set (a.toNat % 16) (maskValue v) (Nat.mod_lt _ (by decide)) }
    else s

/-- Number and privilege checks of `rdc` and `wrc` (R125, R150). -/
def M.ctlCheck (a : Ctl) : M Unit := do
  let s ← get
  if ctlUnassigned a then M.trap Cause.illegalInstruction s.str.pc
  if s.isUser && ctlPrivileged a then M.trap Cause.privilegedRegisterAccess 0

/-- `rdc` (R173): a read of `DTIME` latches the fraction of the same instant. -/
def execRdc (g : Pred) (d : SReg) (a : Ctl) (s : State) : Host.Outcome State Fault Refusal :=
  perform g (do
    M.ctlCheck a
    let s ← get
    let v := s.readCtl a
    M.mod fun x => (if a = 2 then { x with dtimef := s.dfrac } else x).setS d v
    M.next) s

/-- `wrc` (R173). -/
def execWrc (g : Pred) (d : Ctl) (a : SReg) (s : State) : Host.Outcome State Fault Refusal :=
  perform g (do
    M.ctlCheck d
    let s ← get
    set (s.writeCtl d (s.str.getS a))
    M.next) s

/-- REMAIN: the time left until an instant, 0 when negative (R222); a time that its 62 bits cannot hold has no stated
value (DESIGN CHOICE, log entry 5). -/
def remain (at_ now : Nat) : BitVec 62 :=
  if at_ - now < 2 ^ 62 then BitVec.ofNat 62 (at_ - now) else Config.farRemain (BitVec.ofNat 64 (at_ - now))

/-- The deadline status word (R222). -/
def State.deadlineStatus (s : State) : Word :=
  let t := s.here
  let left (at_ : Word) : BitVec 62 := remain at_.toNat s.dtime.toNat
  if t.dlhard = BitVec.allOnes 64 then (0 : BitVec 2) ++ BitVec.allOnes 62
  else if t.user.diverted then (2 : BitVec 2) ++ left t.dlhard
  else if s.dtime.ult t.dlcall then (1 : BitVec 2) ++ left t.dlcall
  else (3 : BitVec 2) ++ left t.dlhard

/-- `dl.read` (R222). -/
def execDlRead (g : Pred) (d : SReg) (s : State) : Host.Outcome State Fault Refusal :=
  perform g (do
    let s ← get
    M.mod fun x => x.setS d s.deadlineStatus
    M.next) s

/-- `vflag.set` (R223). -/
def execVflagSet (g : Pred) (a : CapReg) (b : SReg) (s : State) : Host.Outcome State Fault Refusal :=
  perform g (do
    let x ← M.str
    let v := x.getS b
    if (v.extractLsb' 0 2 : BitVec 2) = 3 then M.trap Cause.validityStateReserved 0
    M.store (x.getC a) 0 (toBytes 8 v) 8
    M.next) s

end Sys2Proof.Machine
end

