-- ==== Sys2Proof/Machine/Shake.lean ====
section
/-! DEFINITION. SHAKE256, the hash of routine records, the substitution table, firmware images and the configuration
record (spec/14_routines.md R248, R255; spec/25_edges.md R396 to R400), as FIPS 202 defines it (PRESUMED, log entry 23),
and the two cyclic redundancy checks of the links and the Ethernet ports (R402, R407; PRESUMED, log entry 24). -/

namespace Sys2Proof.Machine

/-- The 1,600 bits of SHAKE256 as five planes of five lanes: plane y, lane x. -/
abbrev Planes := List (List Word)

/-- A list turned left by k places. -/
def turned {α : Type} (k : Nat) (xs : List α) : List α := xs.drop k ++ xs.take k

/-- Exclusive or, lane by lane. -/
def xorLanes (a b : List Word) : List Word := List.zipWith (· ^^^ ·) a b

/-- What step θ adds to every plane: for each column the parity of the column before it and, one bit on, of the one
after it. -/
def columnMix (p : Planes) : List Word :=
  let parity := p.foldl xorLanes (List.replicate 5 0)
  xorLanes (turned 4 parity) ((turned 1 parity).map (·.rotateLeft 1))

/-- One stretch of the walk that steps ρ and π share: from (x, y) the walk goes on to (y, 2x + 3y), carrying there the
lane that it leaves, turned by the t-th triangular number. -/
def walkLane (p : Planes) (st : Planes × Nat × Nat) (t : Nat) : Planes × Nat × Nat :=
  let (q, x, y) := st
  let moved := ((p.getD y []).getD x 0).rotateLeft ((t + 1) * (t + 2) / 2)
  let to_ := (2 * x + 3 * y) % 5
  (q.set to_ ((q.getD to_ []).set y moved), y, to_)

/-- Steps ρ and π: the walk of twenty-four lanes from (1, 0); lane (0, 0) stays. -/
def walkLanes (p : Planes) : Planes := ((List.range 24).foldl (walkLane p) (p, 1, 0)).1

/-- Step χ on a plane. -/
def mixPlane (r : List Word) : List Word :=
  xorLanes r (List.zipWith (fun a b => b &&& ~~~a) (turned 1 r) (turned 2 r))

/-- The shift register of the round constants: x⁸ + x⁶ + x⁵ + x⁴ + 1. -/
def registerStep (r : BitVec 8) : BitVec 8 := if r.msb then (r <<< 1) ^^^ 0x71 else r <<< 1

/-- The constant of step ι that the register gives, and the register seven steps on. -/
def roundConstant (r : BitVec 8) : Word × BitVec 8 :=
  (List.range 7).foldl (init := (0, r)) fun c j =>
    (if c.2.getLsbD 0 then c.1 ||| (1 : Word) <<< (2 ^ j - 1) else c.1, registerStep c.2)

/-- One round, with the register of its constant. -/
def keccakRound (st : Planes × BitVec 8) : Planes × BitVec 8 :=
  let (p, r) := st
  let (rc, next) := roundConstant r
  let q := (walkLanes (p.map (xorLanes (columnMix p)))).map mixPlane
  (q.set 0 (xorLanes (q.headD []) [rc, 0, 0, 0, 0]), next)

/-- The permutation of twenty-four rounds. -/
def keccak (p : Planes) : Planes := ((List.range 24).foldl (fun st _ => keccakRound st) (p, 1)).1

/-- The rate of SHAKE256 in bytes. -/
def shakeRate : Nat := 136

/-- A block of 136 bytes as planes: seventeen lanes, then the capacity's eight of zero. -/
def blockPlanes (block : List Byte) : Planes :=
  (List.range 5).map fun y => (List.range 5).map fun x => ofBytes 64 ((block.drop (8 * (5 * y + x))).take 8)

/-- The message with its padding, and the number of blocks that it fills. -/
def shakePadded (m : List Byte) : List Byte × Nat :=
  let blocks := m.length / shakeRate + 1
  let fill := blocks * shakeRate - m.length
  (m ++ (List.range fill).map fun k => (if k = 0 then 0x1F else 0) ||| (if k + 1 = fill then 0x80 else 0), blocks)

/-- The first n bytes of SHAKE256 over a message, n at most 136 (PRESUMED, log entry 23). -/
def shake256 (m : List Byte) (n : Nat) : List Byte :=
  let (bytes, blocks) := shakePadded m
  let out := (List.range blocks).foldl (init := List.replicate 5 (List.replicate 5 0)) fun p k =>
    keccak (List.zipWith xorLanes p (blockPlanes ((bytes.drop (shakeRate * k)).take shakeRate)))
  (out.flatten.flatMap (toBytes 8)).take n

/-- A hash of 128 bits, output byte 0 least significant (R248). -/
def hash128 (m : List Byte) : BitVec 128 := ofBytes 128 (shake256 m 16)

/-- One bit of a check with the polynomial's bits, most significant bit first. -/
def crcStep {n : Nat} (poly : BitVec n) (r : BitVec n) (b : Bool) : BitVec n :=
  let top := xor r.msb b
  if top then (r <<< 1) ^^^ poly else r <<< 1

/-- The bits of a byte, most significant first. -/
def msbFirst (b : Byte) : List Bool := (List.range 8).map fun k => b.getLsbD (7 - k)

/-- CRC-64 of bytes with the ECMA-182 polynomial (R407; PRESUMED, log entry 24). -/
def crc64 (bs : List Byte) : Word := (bs.flatMap msbFirst).foldl (crcStep 0x42F0E1EBA9EA3693) 0

/-- The frame check sequence of Ethernet (R402): bits least significant first, complemented. -/
def crc32 (bs : List Byte) : BitVec 32 :=
  let bits := bs.flatMap fun b => (List.range 8).map fun k => b.getLsbD k
  ~~~((bits.foldl (crcStep 0x04C11DB7) (BitVec.allOnes 32)).reverse)

end Sys2Proof.Machine
end

