-- ==== Sys2Proof/Machine/Links.lean ====
section
/-! DEFINITION. Scale-up links: training, flits, the retry buffer and its negative acknowledgements (spec/25_edges.md
R406 to R408, R410), and the sending of packets (spec/05_cisterns.md R94). -/

namespace Sys2Proof.Machine

/-- A link of the state. -/
def State.link (s : State) (p : BitVec 5) : Link := s.links[p.toNat]'p.isLt

/-- Replace a link. -/
def State.setLink (s : State) (p : BitVec 5) (l : Link) : State := { s with links := s.links.set p.toNat l p.isLt }

/-- The links, in order. -/
def linkIds : List (BitVec 5) := (List.range 32).map (BitVec.ofNat 5)

/-! ### Flits (R407) -/

/-- The bytes of a packet: a 16-byte header and a line, or 32 bytes. The content of the header is not given. -/
def packetBytes (dest : BitVec 8) (p : PeerPacket) : List Byte :=
  let who := [dest.toNat, p.chip.toNat, p.job.toNat, p.seq.toNat, p.tile.toNat]
  match p.body with
  | .line l d => (Config.dataHeader (who ++ [0, l.toNat])).toList ++ toBytes 128 d
  | .decrement k => (Config.signalPacket (who ++ [1, k.toNat])).toList
  | .signal o a => (Config.signalPacket (who ++ [2, o.toNat, a.toNat])).toList

/-- A flit: sequence number, acknowledged number, negative acknowledgement, payload and CRC-64 (DESIGN CHOICE, log
entry 57). -/
def flitBytes (seq ack : BitVec 16) (nack : Bool) (payload : List Byte) : List Byte :=
  let body := toBytes 2 seq ++ toBytes 2 ack ++ [(bit nack).setWidth 8] ++ List.replicate 11 (0 : Byte)
    ++ (payload ++ List.replicate 232 (0 : Byte)).take 232
  body ++ toBytes 8 (crc64 body)

/-- Fields of a flit. -/
def flitSeq (f : List Byte) : BitVec 16 := ofBytes 16 (f.take 2)
def flitAck (f : List Byte) : BitVec 16 := ofBytes 16 ((f.drop 2).take 2)
def flitGood (f : List Byte) : Bool := f.length == 256 && (f.drop 248) == toBytes 8 (crc64 (f.take 248))

/-- The negative-acknowledgement bit of a flit. -/
def flitNack (f : List Byte) : Bool := (f.getD 4 0).getLsbD 0

/-- Up to `room` bytes of a packet stream whose first packet is cut: the bytes, the packets that end in them, and the
stream that is left with its cut (R407). -/
def takeStream (room : Nat) (cut : Nat) : List (List Byte) → List Byte × List (List Byte) × List (List Byte) × Nat
  | [] => ([], [], [], 0)
  | p :: ps =>
    let rest := p.drop cut
    if rest.length ≤ room then
      let (bs, ended, left, c) := takeStream (room - rest.length) 0 ps
      (rest ++ bs, p :: ended, left, c)
    else (rest.take room, [], p :: ps, cut + room)

/-- The bytes of the stream that no flit holds yet. -/
def Link.waiting (l : Link) : Nat := l.stream.flatten.length - l.cut

/-- Send a flit with the next 232 bytes of the stream: it is kept until it is acknowledged (R407, R408). -/
def Link.sendFlit (l : Link) (nack : Bool) : Link :=
  let (bs, ended, left, c) := takeStream 232 l.cut l.stream
  let f := flitBytes l.next (if nack then l.expect else l.expect - 1) nack bs
  { l with
    next := l.next + 1, retry := l.retry ++ [(l.next, f)], stream := left, cut := c
    flying := l.flying ++ ended.map fun p => (l.next, p) }

/-- Send every flit that the stream fills, while the retry buffer has room among its 128 flits (R408). -/
def Link.sendFull : Nat → Link → Link
  | 0, l => l
  | fuel + 1, l => if 232 ≤ l.waiting && decide (l.retry.length < 128) then Link.sendFull fuel (l.sendFlit false) else l

/-- Send what is left of the stream in a flit of its own, when no packet follows in time (DESIGN CHOICE, log entry 57). -/
def Link.flush (l : Link) : Link :=
  if 0 < l.waiting && decide (l.retry.length < 128) then l.sendFlit false else l

/-- A packet joins a link's stream, right behind the packet before it (R407). -/
def Link.send (l : Link) (packet : List Byte) : Link :=
  let l := { l with stream := l.stream ++ [packet] }
  l.sendFull (l.waiting / 232 + 1)

/-- The link that takes a packet: the first that is up and has room among its 128 flits, else the first that is up
(R406: the choice affects timing only). -/
def State.freeLink (s : State) : Option (BitVec 5) :=
  (linkIds.find? fun p => (s.link p).up && decide ((s.link p).retry.length < 128)).orElse fun _ =>
    linkIds.find? fun p => (s.link p).up

/-- Put a packet's bytes on a link. -/
def State.sendBytes (s : State) (payload : List Byte) : State :=
  match s.freeLink with
  | none => s
  | some p => s.setLink p ((s.link p).send payload)

/-- Every link sends what it still holds of its stream. -/
def State.flushLinks (s : State) : State := { s with links := s.links.map fun l => if l.up then l.flush else l }

/-- The packets that a link has not got through: those in flits that are not acknowledged, and those still to be sent
(R408). -/
def Link.unsent (l : Link) : List (List Byte) := l.flying.map (·.2) ++ l.stream

/-- Send a packet to a peer chip under the next number of the pair of chips (R94, R408). -/
def State.sendPeer (s : State) (t : TileId) (chip : BitVec 8) (tile : TileId) (jobtag : BitVec 16)
    (pump : Option (BitVec 2 × Bool)) (addr : Word) (count : Bool) (body : PeerBody) : State :=
  let seq := s.seqNext[chip.toNat]'chip.isLt
  let out : PeerOut := { seq := seq, chip := chip, tile := t, pump := pump, addr := addr, count := count }
  let packet : PeerPacket := { chip := s.domainNum, job := jobtag, seq := seq, tile := tile, body := body }
  let s : State := { s with seqNext := s.seqNext.set chip.toNat (seq + 1) chip.isLt, peerOut := s.peerOut ++ [out] }
  (s.emit (.packet chip packet)).sendBytes (packetBytes chip packet)

/-! ### Training (R410) -/

/-- A link trains with a switch port: the first to do so gives the chip its domain number, and a link whose switch
reports another port is not brought up (R410). What an up link that trains anew had not got through is sent again (R408;
DEDUCED, log entry 57). -/
def execLinkTraining (p : BitVec 5) (switchPort : BitVec 8) (s : State) : Host.Outcome State Fault Refusal :=
  .next (if s.domainV && s.domainNum != switchPort then s
    else
      let l := s.link p
      let s := { s with domainV := true, domainNum := switchPort }
      let s := s.setLink p { Link.reset with up := true }
      if l.up then l.unsent.foldl State.sendBytes s else s)

/-! ### Receiving and resending (R408) -/

/-- An entry for an event that is logged and to which R383 gives no KIND: which of its kinds 0x01 to 0x0A it shows is
free (DESIGN CHOICE, log entry 36). -/
def State.logEvent (s : State) (src : Nat) : State :=
  { s with fresh := s.fresh + 1 }.logError (BitVec.ofNat 8 (1 + (Config.freeWord s.fresh).toNat % 10)) 0 src 0 0 0

/-- A link goes down: the event is logged, and the packets that it had not got through are resent on other planes. -/
def State.linkDown (s : State) (p : BitVec 5) : State :=
  let l := s.link p
  let s := (s.setLink p Link.reset).logEvent (272 + p.toNat)
  l.unsent.foldl State.sendBytes s

/-- The receiver lacks the flit that it expects: it sends a negative acknowledgement that names it, in a flit of its own
or with the stream's next bytes; after the eighth in a row for one flit the link goes down. -/
def State.sendNack (s : State) (p : BitVec 5) : State :=
  let l := s.link p
  let n := if l.nackSeq = l.expect then l.nacks + 1 else 1
  let l := { l with lost := true, nackSeq := l.expect, nacks := n }
  let s := (s.setLink p (if l.retry.length < 128 then l.sendFlit true else l)).emit (.nack p l.expect)
  if 8 ≤ n then s.linkDown p else s

/-- Flits up to an acknowledged number leave the retry buffer, and their packets are got through; the stream goes on.
The count of negative acknowledgements in a row ends with its flit. -/
def Link.acknowledge (l : Link) (ack : BitVec 16) : Link :=
  match l.retry.findIdx? fun f => f.1 == ack with
  | none => l
  | some i =>
    let got := (l.retry.take (i + 1)).map (·.1)
    let l := { l with
      retry := l.retry.drop (i + 1), flying := l.flying.filter fun x => !got.contains x.1
      backs := if got.contains l.backSeq then 0 else l.backs }
    l.sendFull (l.waiting / 232 + 1)

/-- The sender resends the named flit and every later one, each as it was stored (R408). -/
def State.resendFrom (s : State) (p : BitVec 5) (seq : BitVec 16) : State :=
  let l := s.link p
  match l.retry.findIdx? fun f => f.1 == seq with
  | none => s
  | some i =>
    let n := if l.backSeq = seq && l.backs != 0 then l.backs + 1 else 1
    let got := (l.retry.take i).map (·.1)
    let s := s.setLink p { l with
      retry := l.retry.drop i, flying := l.flying.filter (fun x => !got.contains x.1), backSeq := seq, backs := n }
    if 8 ≤ n then s.linkDown p else s.emit (.resend p ((l.retry.drop i).map (·.2)))

/-- What a flit says of the reverse direction: an acknowledgement, or a negative one that names the first flit which the
other end lacks (R407). -/
def State.hearFlit (s : State) (p : BitVec 5) (f : List Byte) : State :=
  if flitNack f then s.resendFrom p (flitAck f) else s.setLink p ((s.link p).acknowledge (flitAck f))

/-- The packet at the beginning of a stream of bytes, with the bytes after it; none where no whole packet is there yet
(R407; DESIGN CHOICE, log entry 57). -/
def readPacket (bs : List Byte) : Option (PeerPacket × List Byte) :=
  let word (x : Nat) : Word := BitVec.ofNat 64 x
  if bs.length < 32 then none
  else
    let h := Config.headerSays (Vector.ofFn fun k : Fin 16 => bs.getD k.val 0)
    let packet (body : PeerBody) : PeerPacket :=
      ⟨BitVec.ofNat 8 h[0], BitVec.ofNat 16 h[1], word h[2], BitVec.ofNat 8 h[3], body⟩
    if h[4] = 0 then
      if bs.length < 144 then none
      else some (packet (.line (BitVec.ofNat 16 h[5]) (ofBytes 1024 ((bs.drop 16).take 128))), bs.drop 144)
    else
      let g := Config.signalSays (Vector.ofFn fun k : Fin 32 => bs.getD k.val 0)
      some (packet (if h[4] = 1 then .decrement (BitVec.ofNat 19 g[5]) else .signal (BitVec.ofNat 23 g[5]) (word g[6])),
        bs.drop 32)

/-- The whole packets of a stream of bytes, oldest first, and the bytes that are left: a run of zeros where a packet
would begin fills a flit up (R407; DESIGN CHOICE, log entry 57). -/
def readPackets : Nat → List Byte → List PeerPacket × List Byte
  | 0, bs => ([], bs)
  | fuel + 1, bs =>
    if bs.all (· == 0) then ([], [])
    else
      match readPacket bs with
      | none => ([], bs)
      | some (p, rest) =>
        let (ps, left) := readPackets fuel rest
        (p :: ps, left)

/-- The payload of a flit (R407). -/
def flitPayload (f : List Byte) : List Byte := (f.drop 16).take 232

/-- A flit in order brings its payload: the packets that are whole now wait to be performed, each as a step of its own
(R94, R407). -/
def State.takePayload (s : State) (p : BitVec 5) (f : List Byte) : State :=
  let l := s.link p
  let bs := l.part ++ flitPayload f
  let (ps, left) := readPackets (bs.length / 32 + 1) bs
  { s.setLink p { l with part := left } with inbox := s.inbox ++ ps }

/-- A flit is received: a CRC error or a gap discards it and every later flit, with all that they hold, until the one
that is lacking has come (R408; DESIGN CHOICE, log entry 57). -/
def State.receiveFlit (s : State) (p : BitVec 5) (f : List Byte) : State :=
  let l := s.link p
  if !l.up then s
  else if !flitGood f then s.sendNack p
  else if flitSeq f = l.expect then
    ((s.setLink p { l with expect := l.expect + 1, lost := false, nacks := 0 }).takePayload p f).hearFlit p f
  else if l.lost then s
  else if (flitSeq f - l.expect).toNat < 32768 then s.sendNack p
  else s

/-- A link flit is received. -/
def execFlitReceive (p : BitVec 5) (flit : List Byte) (s : State) : Host.Outcome State Fault Refusal :=
  .next (s.receiveFlit p flit)

/-- A negative acknowledgement arrives. -/
def execNegativeAcknowledgement (p : BitVec 5) (seq : BitVec 16) (s : State) : Host.Outcome State Fault Refusal :=
  .next (if (s.link p).up then s.resendFrom p seq else s)

end Sys2Proof.Machine
end

