-- ==== Sys2Proof/Machine/Boot.lean ====
section
/-! DEFINITION. Device reset, boot and attestation (spec/25_edges.md R396 to R400), power (R409). -/

namespace Sys2Proof.Machine

/-! ### The configuration record (R396, R397) -/

/-- Bytes of a record. -/
def recBytes (r : List Byte) (off n : Nat) : List Byte := (r.drop off).take n

/-- The length of the record without its signature. -/
def recordBody (r : List Byte) : Nat := 0x550 + natOfBytes (recBytes r 0x54C 4)

/-- The compute die of a logical tile (R91). -/
def dieOf (t : Nat) : Nat := (if t / 16 < 8 then 0 else 2) + (if t % 16 < 8 then 0 else 1)

/-- Are the DISABLED entries of a die distinct? -/
def disabledGood (r : List Byte) (d : Nat) : Bool := distinct (recBytes r (0x18 + 4 * d) 4)

/-- Does LMAP name every tile of a die that is not disabled exactly once, and no other? -/
def lmapGood (r : List Byte) (d : Nat) : Bool :=
  let off := recBytes r (0x18 + 4 * d) 4
  let named := ((List.range 256).filter fun t => dieOf t = d).map fun t => (recBytes r (0x28 + t) 1).headD 0
  (List.range 68).all fun p =>
    let b : Byte := BitVec.ofNat 8 p
    decide ((named.filter (· == b)).length = if off.contains b then 0 else 1)

/-- Does the PUF key that the helper data gives match PUFBIND? -/
def pufGood (r : List Byte) : Bool :=
  recBytes r 0x128 32 == shake256 (Config.pufKey (recBytes r 0x148 0x400)).toList 32

/-- The checks of a record, in the order of the causes of R399: the cause of the first that fails. -/
def recordCheckBoot (r : List Byte) : Option (BitVec 8) :=
  let n := recordBody r
  if r.length != n + 114 || !Config.recordSignatureGood (r.take n) (r.drop n) then some 0x01
  else if natOfBytes (recBytes r 0 4) != 0x43524701 || natOfBytes (recBytes r 4 4) != 0x3C0
      || !([0, 1, 2, 3].all fun d => disabledGood r d && lmapGood r d) then some 0x02
  else if !pufGood r then some 0x03
  else none

/-- FAILS counts, saturating (R399). -/
def satInc (x : BitVec 8) : BitVec 8 := if x = 255 then 255 else x + 1

/-! ### Device reset and boot (R398, R399) -/

/-- The machine after device reset: every register, cistern and queue at its reset value. `TCAUSE`, whose header reset
does not alter (R8, R374), stays with its address and its JPC, and so do the scalar and capability registers and the
frequencies of the decoder slots (R69, R120; DEDUCED, log entry 45). What high-bandwidth memory holds, and which of its
lines are poisoned, stays (DEDUCED, log entry 25), as do the model's own fields. -/
def State.deviceReset (s : State) : State :=
  let hbm (pa : Nat) : Bool := decide (pa < 0xC000000000)
  { State.reset with
    tiles := s.tiles.map fun x => { Tile.reset with
      user := { Stream.reset with s := x.user.s, cpv := x.user.cpv }
      fw := { Stream.reset with s := x.fw.s, cpv := x.fw.cpv }
      mx := { Matrix.reset with slots := x.mx.slots }
      tcause := x.tcause, taddr := x.taddr, tpc := x.tpc }
    mem := s.mem.filter fun c => hbm c.1
    poison := s.poison.filter fun l => hbm (128 * l)
    outputs := s.outputs, fresh := s.fresh, agenda := s.agenda, cur := s.cur }

/-- The boot unit's first step: it checks the configuration record. A record that fails halts the boot. -/
def State.bootRecord (s : State) (r : List Byte) : State :=
  match recordCheckBoot r with
  | none =>
    { s with boot := { s.boot with stage := 1, record := r, minsvn := ofBytes 32 (recBytes r 0x548 4) } }
  | some c => { s with boot := { s.boot with stage := 0xF, record := r, cause := c, fails := satInc s.boot.fails } }

/-- Device reset, with the configuration record that flash holds (R398). -/
def execDeviceReset (record : List Byte) (s : State) : Host.Outcome State Fault Refusal :=
  .next (s.deviceReset.bootRecord record)

/-- The bytes of an image's header before its signature: the fields in the order in which R398 lists them (DESIGN
CHOICE, log entry 56). -/
def imageHeader (i : Image) : List Byte :=
  toBytes 4 i.ident ++ toBytes 2 i.imgver ++ toBytes 4 i.svn ++ toBytes 8 i.length ++ i.bodyHash.toList

/-- The checks of an image: the cause of the first that fails (R398, R399). A wrong IDENT is reported with the
signature, a wrong body length with the body hash (DEDUCED, log entry 56). -/
def imageCheck (b : Boot) (i : Image) : Option (BitVec 8) :=
  if i.ident ≠ 0x46494D01 || i.signature.length ≠ 114 || !Config.imageSignatureGood (imageHeader i) i.signature then
    some 0x04
  else if i.length.toNat ≠ i.body.length || i.bodyHash.toList != shake256 i.body 32 then some 0x05
  else if i.svn.toNat < b.minsvn.toNat then some 0x06
  else none

/-- The serialised substitution table (R255): the hashes in ascending order, and the pattern entries of R256 with their
template words. -/
def substitutionBytes (hashes : List (BitVec 128)) : List Byte :=
  let sorted := hashes.mergeSort fun a b => decide (a.toNat ≤ b.toNat)
  let op (x : Nat) : Word := BitVec.ofNat 64 x <<< 54
  let patterns : List (List Word) :=
    [[op 0x048, op 0x049], [op 0x01B, op 0x300], [op 0x160, op 0x160, op 0x12A], [op 0x129, op 0x122],
      [op 0x220, op 0x206], [op 0x145, op 0x060]]
  toBytes 8 (BitVec.ofNat 64 hashes.length) ++ sorted.flatMap (toBytes 16)
    ++ toBytes 8 (6 : Word)
    ++ (patterns.zipIdx.flatMap fun (ws, i) =>
      toBytes 8 (BitVec.ofNat 64 ws.length) ++ ws.flatMap (toBytes 8) ++ toBytes 8 (BitVec.ofNat 64 (i + 1)))

/-- An accepted image runs: its body is loaded, every tile is released, and the firmware and the host cores start (R349,
R398). -/
def State.runImage (s : State) (i : Image) : State :=
  let s := s.store i.place.toNat i.body
  { s with
    tiles := s.tiles.map fun x => { x with rst := false }
    hosts := s.hosts.map fun h => { h with running := true }
    boot := { s.boot with
      stage := 4, imgver := i.imgver, svn := i.svn, bodyHash := i.bodyHash, table := i.table, image := none
      subver := hash128 (substitutionBytes i.table), fwEntry := i.fwEntry } }

/-- Two seconds of device time (R352, R398). -/
def retryTime : Nat := 2 * 1000000000 * 65536

/-- A fetch or a check of an image fails at an instant; the boot unit tries again two seconds later (R398, R399). -/
def Boot.failed (b : Boot) (now : Nat) (cause : BitVec 8) : Boot :=
  { b with cause := cause, fails := satInc b.fails, image := none, retryAt := some (now + retryTime) }

/-- The boot unit goes on with an image that it has fetched: it checks it, and then loads and starts it (R398). -/
def State.bootNext (s : State) (i : Image) : State :=
  if s.boot.stage = 2 then
    match imageCheck s.boot i with
    | some c => { s with boot := s.boot.failed s.timing.now c }
    | none => { s with boot := { s.boot with stage := 3 } }
  else if s.boot.stage = 3 then s.runImage i
  else s

/-- The boot unit's next step with a firmware image: one has been fetched, or the one fetched before is checked, and an
accepted one loaded and started (R398, R399). -/
def execBootImageFetch (image : Option Image) (s : State) : Host.Outcome State Fault Refusal :=
  .next (match image, s.boot.image with
    | some i, _ =>
      if s.boot.stage = 1 && s.boot.retryAt.isNone then { s with boot := { s.boot with stage := 2, image := some i } }
      else s
    | none, some i => s.bootNext i
    | none, none => s)

/-- The fetch of an image times out (R399). -/
def execNetworkTimeout (s : State) : Host.Outcome State Fault Refusal :=
  .next (if s.boot.stage == 1 && s.boot.retryAt.isNone then { s with boot := s.boot.failed s.timing.now 0x07 } else s)

/-- Two seconds after a failure the boot unit fetches again (R398). -/
def execBootRetry (s : State) : Host.Outcome State Fault Refusal :=
  .next (match s.boot.retryAt with
    | some t => if t ≤ s.timing.now then { s with boot := { s.boot with stage := 1, retryAt := none } } else s
    | none => s)

/-! ### Attestation (R400) -/

/-- A write to `ATTREQ`. -/
def execAttreq (v : Word) (s : State) : Host.Outcome State Fault Refusal := .next (s.writeAttreq v)

/-- The attestation private key: the first 57 bytes of SHAKE256 over the PUF key and the label. -/
def attestKey (r : List Byte) : List Byte :=
  let label := [0x6D, 0x65, 0x72, 0x75, 0x73, 0x6B, 0x2D, 0x61, 0x74, 0x74, 0x65, 0x73, 0x74, 0x2D, 0x31]
  shake256 ((Config.pufKey (recBytes r 0x148 0x400)).toList ++ label) 57

/-- The first 256 bytes of a report. -/
def State.reportBody (s : State) : List Byte :=
  let b := s.boot
  toBytes 8 (0x41545401 : Word) ++ b.nonce.toList.flatMap (toBytes 8) ++ recBytes b.record 8 16
    ++ toBytes 16 b.subver ++ toBytes 8 featWord ++ b.bodyHash.toList ++ shake256 b.record 32 ++ toBytes 8 s.dtime
    ++ toBytes 8 ((0 : BitVec 16) ++ b.svn ++ b.imgver : Word)
    ++ (Config.attestationPublic (attestKey b.record)).toList ++ List.replicate 7 (0 : Byte)

/-- The report. -/
def State.report (s : State) : List Byte :=
  let body := s.reportBody
  body ++ (Config.attestationSign (attestKey s.boot.record) body).toList ++ List.replicate 14 (0 : Byte)

/-- The boot unit writes the report that was asked for; a request that names no memory is dropped. -/
def execAttestationReport (s : State) : Host.Outcome State Fault Refusal :=
  match s.boot.attreq with
  | none => .next s
  | some a =>
    let s := { s with boot := { s.boot with attreq := none } }
    .next (if regionOf a.toNat = .hbm || inCistern a.toNat then s.store a.toNat s.report else s)

/-! ### Power (R409) -/

/-- The firmware lowers the arithmetic clock: timing only. -/
def execThermalThrottle (step : Nat) (s : State) : Host.Outcome State Fault Refusal := .next { s with clock := step }

/-- Every entry of the error log reaches the ring at once. -/
def State.drainErrors (s : State) : State :=
  s.rings.elPend.foldl State.flushError { s with rings := { s.rings with elPend := [] } }

/-- At 110 °C the module logs the event, which reaches the ring, and enters device reset, with the record that flash
holds (R409). -/
def execOverheat (s : State) : Host.Outcome State Fault Refusal :=
  .next ((s.logEvent 259).drainErrors.deviceReset.bootRecord s.boot.record)

/-- The firmware power-gates an idle tile; its cistern keeps its content (R385, R409). -/
def execPowerGate (t : TileId) (s : State) : Host.Outcome State Fault Refusal :=
  let x := s.tile t
  .next (if x.rbusy || x.node.isSome || x.shadow.isSome || !x.queuesEmpty then s
    else s.setTile t { x with gated := true })

end Sys2Proof.Machine
end

