-- ==== Sys2Proof/Machine/Coded.lean ====
section
/-! DEFINITION. Coded tensors (spec/04_coded_weights.md R65 to R77): the header, table records, index entries and the
decoding of a segment, over any way of reading bytes at an offset of the header. -/

namespace Sys2Proof.Machine

/-- The coded tensor header (R67). -/
structure CodedHeader where
  ident : BitVec 32
  fmt   : Fmt
  ntab  : Nat
  trows : Nat
  tcols : Nat
  toff  : Nat
  ioff  : Nat
  soff  : Nat
  ssize : Nat
  reserved : Bool
deriving DecidableEq, Repr

/-- The fields of a header; `reserved` says that a reserved field is nonzero (R67). -/
def codedHeader (h : BitVec 512) : CodedHeader where
  ident := h.extractLsb' 0 32
  fmt := h.extractLsb' 32 4
  ntab := (h.extractLsb' 40 8).toNat
  trows := (h.extractLsb' 64 32).toNat
  tcols := (h.extractLsb' 96 32).toNat
  toff := (h.extractLsb' 128 64).toNat
  ioff := (h.extractLsb' 192 64).toNat
  soff := (h.extractLsb' 256 64).toNat
  ssize := (h.extractLsb' 320 64).toNat
  reserved := h.extractLsb' 36 4 != 0 || h.extractLsb' 48 16 != 0 || h.extractLsb' 384 128 != 0

/-- Checks 1 and 2 of a header: the cause of the first that fails (R68). -/
def CodedHeader.check (h : CodedHeader) : Option (BitVec 8) :=
  if 11 ≤ h.fmt.toNat then some Cause.unsupportedFormat
  else if h.ident != 0x4D435701 || h.fmt.toNat ≤ 2 || decide (8 < h.ntab) || h.reserved || h.trows == 0
      || h.tcols == 0 || decide (2 ^ 24 < h.trows * h.tcols) || h.toff % 8 != 0 || h.ioff % 8 != 0 then
    some Cause.badCodedTensorHeader
  else none

/-- Check 3: the tile is one of the tensor's (R68). -/
def CodedHeader.hasTile (h : CodedHeader) (t : Nat) : Bool := decide (t < h.trows * h.tcols)

/-- The symbol alphabet and the bytes of a decoded row (R65). -/
def codedAlphabet (f : Fmt) : Nat := if fmtBits f = 6 then 64 else 256
def codedRowBytes (f : Fmt) : Nat := if fmtBits f = 6 then 96 else 128

/-- The frequencies of a table record (R69). -/
def tableFreqs (r : BitVec 4096) : List Nat := (List.range 256).map fun s => (r.extractLsb' (16 * s) 12).toNat

/-- Is a table record one that a load accepts (R70)? -/
def tableGood (r : BitVec 4096) : Bool :=
  ((List.range 256).all fun s => r.extractLsb' (16 * s + 12) 4 == 0) && (tableFreqs r).foldl (· + ·) 0 == 4096

/-- The symbol of a slot value, with its cumulative and own frequency (R69). -/
def symbolOf (slot : Nat) : Nat → Nat → List Nat → Nat × Nat × Nat
  | s, cum, [] => (s, cum, 0)
  | s, cum, f :: fs => if slot < cum + f then (s, cum, f) else symbolOf slot (s + 1) (cum + f) fs

/-- LEN and TSEL of segment q of an index entry, and OFFSET (R72). -/
def entryLen (e : BitVec 256) (q : Nat) : Nat := (e.extractLsb' (64 + 16 * q) 16).toNat
def entrySlot (e : BitVec 256) (q : Nat) : BitVec 3 := e.extractLsb' (192 + 3 * q) 3
def entryOffset (e : BitVec 256) : Nat := (e.extractLsb' 0 64).toNat

/-- The bytes of segments 0 .. q − 1. -/
def entryBefore (e : BitVec 256) (q : Nat) : Nat := ((List.range q).map (entryLen e)).foldl (· + ·) 0

/-- Is the index entry consistent (R73)? -/
def entryGood (h : CodedHeader) (e : BitVec 256) : Bool :=
  e.extractLsb' 220 36 == 0 && e.extractLsb' 216 4 == h.fmt
    && ((List.range 8).all fun q => decide (36 ≤ entryLen e q) && (entryLen e q - 36) % 2 == 0)
    && decide (entryOffset e + entryBefore e 8 ≤ h.ssize)

/-- How a decoder reads: bytes at an offset of the header, the address of an offset, and a note of the symbol and the
table slot that it is at (R78). -/
structure Coder where
  read : Nat → Nat → M (List Byte)
  addr : Nat → Word
  note : Nat → BitVec 3 → M Unit

/-- Read a little-endian number of n bytes. -/
def Coder.num (c : Coder) (off n : Nat) : M Nat := do
  let bs ← c.read off n
  pure (natOfBytes bs)

/-- Read and check a header (R68, checks 1 and 2). -/
def Coder.header (c : Coder) : M (BitVec 512) := do
  let bs ← c.read 0 64
  let h : BitVec 512 := ofBytes 512 bs
  match (codedHeader h).check with
  | some cause => M.trap cause (c.addr 0)
  | none => pure h

/-- Check 3 of R68. -/
def Coder.tile (c : Coder) (h : BitVec 512) (t : Nat) : M Unit :=
  if (codedHeader h).hasTile t then pure () else M.trap Cause.badCodedTensorHeader (c.addr 0)

/-- Read and check the index entry of a tile (R72, R73). -/
def Coder.entry (c : Coder) (h : BitVec 512) (t : Nat) : M (BitVec 256) := do
  let off := (codedHeader h).ioff + 32 * t
  let bs ← c.read off 32
  let e : BitVec 256 := ofBytes 256 bs
  if entryGood (codedHeader h) e then pure e else M.trap Cause.inconsistentIndexEntry (c.addr off)

/-- The progress of the eight states of a segment (R75). -/
structure SegState where
  x   : List Nat
  ptr : Nat
  sym : List Nat

/-- One symbol of a segment (R75). -/
def Coder.symbol (c : Coder) (freqs : List Nat) (k : BitVec 3) (a end_ : Nat) (st : SegState) (i : Nat) :
    M SegState := do
  let x := st.x.getD (i % 8) 0
  let slot := x % 4096
  let (s, cum, f) := symbolOf slot 0 0 freqs
  c.note i k
  if a ≤ s then M.trap Cause.slotBeyondTable (c.addr st.ptr)
  let y := f * (x / 4096) + slot - cum
  if y < 65536 then do
    if end_ < st.ptr + 2 then M.trap Cause.readPastSegment (c.addr end_)
    let w ← c.num st.ptr 2
    pure ⟨st.x.set (i % 8) (y * 65536 + w), st.ptr + 2, s :: st.sym⟩
  else pure ⟨st.x.set (i % 8) y, st.ptr, s :: st.sym⟩

/-- Decode a segment that starts at an offset of the header; the answer is its 2,048 symbols (R74, R75). Both halves of
the marker are read before either is compared (DESIGN CHOICE, log entry 67), and TSLOT is the segment's slot from its
start on (DEDUCED, log entry 37). -/
def Coder.segment (c : Coder) (slots : Vector (BitVec 4096) 8) (mask : BitVec 8) (f : Fmt) (e : BitVec 256) (q p : Nat) :
    M (List Nat) := do
  let end_ := p + entryLen e q
  let k := entrySlot e q
  c.note 0 k
  let mark ← c.num p 2
  let rsvd ← c.num (p + 2) 2
  if mark ≠ 0xD1C0 + q || rsvd ≠ 0 then M.trap Cause.badRestartMarker (c.addr p)
  let xs ← (List.range 8).mapM fun j => do
    let x ← c.num (p + 4 + 4 * j) 4
    if x < 65536 then M.trap Cause.badRestartMarker (c.addr p)
    pure x
  if !mask.getLsbD k.toNat then M.trap Cause.decoderTableAbsent (c.addr p)
  let freqs := tableFreqs (slots[k.toNat]'k.isLt)
  let st ← (List.range 2048).foldlM (c.symbol freqs k (codedAlphabet f) end_) ⟨xs, p + 36, []⟩
  c.note 2047 k
  if st.ptr ≠ end_ || st.x.any (· ≠ 65536) then M.trap Cause.finalStateMismatch (c.addr end_)
  pure st.sym.reverse

/-- The offset of segment q of a tile (R72). -/
def segmentAt (h : BitVec 512) (e : BitVec 256) (q : Nat) : Nat :=
  (codedHeader h).soff + entryOffset e + entryBefore e q

/-- Row r of the 16 rows of a segment, packed (R66, R51). -/
def segmentRow (f : Fmt) (sym : List Nat) (r : Nat) : List Byte :=
  let cs := (sym.drop (128 * r)).take 128
  if fmtBits f = 6 then
    toBytes 96 (BitVec.ofNat 768 (packCodes f cs))
  else cs.map (BitVec.ofNat 8)

end Sys2Proof.Machine
end

