-- ==== Sys2Proof/Machine/PredCap.lean ====
section
/-! DEFINITION. Class 0b00, predicates and capabilities: spec/09_scalar_and_control.md R167, R169 to R172. -/

namespace Sys2Proof.Machine

/-- `pand` (R167). -/
def execPand (g : Pred) (d a b : PReg) (s : State) : Host.Outcome State Fault Refusal :=
  register g (fun x => x.setP d (x.getP a && x.getP b)) s

/-- `por` (R167). -/
def execPor (g : Pred) (d a b : PReg) (s : State) : Host.Outcome State Fault Refusal :=
  register g (fun x => x.setP d (x.getP a || x.getP b)) s

/-- `pxor` (R167). -/
def execPxor (g : Pred) (d a b : PReg) (s : State) : Host.Outcome State Fault Refusal :=
  register g (fun x => x.setP d (xor (x.getP a) (x.getP b))) s

/-- `pandn` (R167). -/
def execPandn (g : Pred) (d a b : PReg) (s : State) : Host.Outcome State Fault Refusal :=
  register g (fun x => x.setP d (x.getP a && !x.getP b)) s

/-- `ptest` (R167). -/
def execPtest (g : Pred) (d : PReg) (a : SReg) (s : State) : Host.Outcome State Fault Refusal :=
  register g (fun x => x.setP d (x.getS a != 0)) s

/-- `pget` (R167). -/
def execPget (g : Pred) (d : SReg) (a : PReg) (s : State) : Host.Outcome State Fault Refusal :=
  register g (fun x => x.setS d ((bit (x.getP a)).setWidth 64)) s

/-- The common end of the capability forms (R169): an untagged source gives an untagged result without a check; the
result of a tagged one must fit its fields and be narrower (R122), in the firmware context too (DEDUCED, log entry 17):
`part` is the form's own condition for that (R170). *Capability widening* reports address 0, as the table of R413 has it
(DESIGN CHOICE, log entry 73). -/
def M.derive (d : CapReg) (c : Cap) (f : CapFields) (part : Bool) : M Unit := do
  let s ← get
  if s.isUser && d == .cpv then M.trap Cause.capabilityWidening 0
  if !c.tag then M.mod fun x => x.setC d (f.cap false)
  else if !f.fits then M.trap Cause.capabilityWidening 0
  else if !(part && narrower f c.fields) then M.trap Cause.capabilityWidening 0
  else M.mod fun x => x.setC d (f.cap true)
  M.next

/-- A form that computes the fields of its result from those of its source (R169, R170). -/
def capForm (g : Pred) (d a : CapReg) (f : Stream → CapFields → CapFields) (part : Stream → CapFields → Bool) (s : State) :
    Host.Outcome State Fault Refusal :=
  perform g (do
    let x ← M.str
    let c := x.getC a
    M.derive d c (f x c.fields) (part x c.fields)) s

/-- Do rows or bytes from a first one on lie within a number (R170)? -/
def within (start count : Word) (total : Nat) : Bool :=
  count == 0 || decide (start.toNat + count.toNat ≤ total)

/-- `cmov` (R170). -/
def execCmov (g : Pred) (d a : CapReg) (s : State) : Host.Outcome State Fault Refusal :=
  capForm g d a (fun _ f => f) (fun _ _ => true) s

/-- `cnrow` (R170). -/
def execCnrow (g : Pred) (d a : CapReg) (b c : SReg) (s : State) : Host.Outcome State Fault Refusal :=
  capForm g d a (fun x f =>
    { f with base := f.base + (x.getS b).toNat * f.stride, rows := (x.getS c).toNat })
    (fun x f => within (x.getS b) (x.getS c) f.rows) s

/-- `cnbyte` (R170). -/
def execCnbyte (g : Pred) (d a : CapReg) (b c : SReg) (s : State) : Host.Outcome State Fault Refusal :=
  capForm g d a (fun x f => { f with base := f.base + (x.getS b).toNat, rowbytes := (x.getS c).toNat })
    (fun x f => within (x.getS b) (x.getS c) f.rowbytes) s

/-- `cnstride` (R170). -/
def execCnstride (g : Pred) (d a : CapReg) (b : SReg) (s : State) : Host.Outcome State Fault Refusal :=
  capForm g d a (fun x f =>
    let k := (x.getS b).toNat
    if k = 0 then { f with stride := 0, rows := 0 }
    else { f with stride := f.stride * k, rows := (f.rows + k - 1) / k }) (fun _ _ => true) s

/-- `cnperm` (R170). -/
def execCnperm (g : Pred) (d a : CapReg) (perm : BitVec 3) (s : State) : Host.Outcome State Fault Refusal :=
  capForm g d a (fun _ f => { f with perm := f.perm &&& ((1 : BitVec 1) ++ perm) }) (fun _ _ => true) s

/-- `cfmt` (R170, R144). -/
def execCfmt (g : Pred) (d a : CapReg) (fa : Fmt) (s : State) : Host.Outcome State Fault Refusal :=
  perform g (do
    if !isFormat fa then M.trap Cause.unsupportedFormat 0
    let x ← M.str
    let c := x.getC a
    M.derive d c { c.fields with fmt := fa } true) s

/-- A field of a capability as `cget` writes it (R171). -/
def Cap.field (c : Cap) : CapField → Word
  | .base => BitVec.ofNat 64 c.fields.base
  | .stride => BitVec.ofNat 64 c.fields.stride
  | .rows => BitVec.ofNat 64 c.fields.rows
  | .rowbytes => BitVec.ofNat 64 c.fields.rowbytes
  | .fmt => c.fields.fmt.setWidth 64
  | .perm => c.fields.perm.setWidth 64
  | .swz => c.fields.swz.setWidth 64
  | .tag => (bit c.tag).setWidth 64

/-- `cget` (R171). -/
def execCget (g : Pred) (f : CapField) (d : SReg) (a : CapReg) (s : State) : Host.Outcome State Fault Refusal :=
  register g (fun x => x.setS d ((x.getC a).field f)) s

/-- Does an address lie in one of a list of extents? -/
def inExtent (es : List (Nat × Nat)) (a : Word) : Bool :=
  es.any fun e => decide (e.1 ≤ a.toNat ∧ a.toNat < e.1 + e.2)

/-- The code object of the current context whose code or routine section holds an address (R172, R220). -/
def State.objectAt (s : State) (a : Word) : Option (Nat × CodeObject) :=
  ((s.ctx s.ctxId).objects.zipIdx.find? fun o => inExtent o.1.code a || inExtent o.1.routine a).map
    fun o => (o.2, o.1)

/-- `ctab` (R172): the table is that of the code object that holds the instruction. An instruction that lies in no code
object of the context, as in the firmware context, finds no entry. -/
def execCtab (g : Pred) (d : CapReg) (imm : BitVec 37) (s : State) : Host.Outcome State Fault Refusal :=
  perform g (do
    let s ← get
    if s.isUser && d == .cpv then M.trap Cause.capabilityWidening 0
    let table := ((s.objectAt s.str.pc).map (·.2.caps)).getD []
    match table[imm.toNat]? with
    | none => M.trap Cause.capabilityTableIndex 0
    | some q =>
      M.mod fun x => x.setC d ⟨q, true⟩
      M.next) s

end Sys2Proof.Machine
end

