-- ==== Sys2Proof/Machine/Control.lean ====
section
/-! DEFINITION. Class 0b11, control flow, routines and system instructions: spec/09_scalar_and_control.md R175 to R178,
spec/11_memory_sync_system.md R220 to R226, spec/14_routines.md R252, R253, R261, R268. -/

namespace Sys2Proof.Machine

/-! ### Branches, calls and returns (R175, R176) -/

/-- `br` (R175). -/
def execBr (g : Pred) (imm : BitVec 37) (s : State) : Host.Outcome State Fault Refusal :=
  perform g (do
    let x ← M.str
    M.jump (branchTo x.pc imm)) s

/-- `call` (R175). -/
def execCall (g : Pred) (imm : BitVec 37) (s : State) : Host.Outcome State Fault Refusal :=
  perform g (do
    let x ← M.str
    M.mod fun y => y.setS 1 (x.pc + 8)
    M.jump (branchTo x.pc imm)) s

/-- `loop` (R175). -/
def execLoop (g : Pred) (a : SReg) (imm : BitVec 37) (s : State) : Host.Outcome State Fault Refusal :=
  perform g (do
    let x ← M.str
    let n := x.getS a - 1
    M.mod fun y => y.setS a n
    if n ≠ 0 then M.jump (branchTo x.pc imm) else M.next) s

/-- `jr` (R175). -/
def execJr (g : Pred) (a : SReg) (s : State) : Host.Outcome State Fault Refusal :=
  perform g (do
    let x ← M.str
    M.alignedTarget (x.getS a)
    M.jump (x.getS a)) s

/-- `callr` (R175). -/
def execCallr (g : Pred) (a : SReg) (s : State) : Host.Outcome State Fault Refusal :=
  perform g (do
    let x ← M.str
    M.alignedTarget (x.getS a)
    M.mod fun y => y.setS 1 (x.pc + 8)
    M.jump (x.getS a)) s

/-- Leave the innermost routine call; an asynchronous call on its definition path reaches its number (R252, R261). -/
def M.leaveRoutine : M Unit := do
  let x ← M.str
  match x.calls with
  | [] => pure ()
  | f :: rest =>
    M.mod fun y => { y with calls := rest }
    match f.number with
    | none => pure ()
    | some (a, n) => M.modTile fun t => t.finish a n

/-- Where native issue resumes at a return to an address: behind the `rcall` of the innermost routine, where the return
goes to the word after it (R296). -/
def Stream.returnPoint (x : Stream) (target : Word) : Option (Word × Nat) :=
  match x.calls with
  | [] => none
  | f :: _ => if f.ret = canonical target then f.rejoin else none

/-- `ret` (R175): inside a routine it is the routine's return (R220). -/
def execRet (g : Pred) (s : State) : Host.Outcome State Fault Refusal :=
  perform g (do
    let x ← M.str
    M.alignedTarget (x.getS 1)
    M.leaveRoutine
    M.jumpTo (x.getS 1) (x.returnPoint (x.getS 1))) s

/-! ### Routine calls (R220, R252, R253, R261) -/

/-- The rounding mode of `mm.drain`, DYN resolved from FRM (R234, R268). -/
def drainMode (x : Stream) (f : BitVec 3) : Rm :=
  if f = 0 then Rm.ofBits (x.fpctl.extractLsb' 8 3) else Rm.ofBits f

/-- The command of a matrix routine with the arguments in the stream's registers, or the cause of the check that fails
at the `rcall` (R268); none for a routine that pushes no command. -/
def matrixCommand (r : Routine) (x : Stream) : Option (Except (BitVec 8) MatCmd) :=
  let bad : Option (Except (BitVec 8) MatCmd) := some (.error Cause.routineOperandInvalid)
  let c2 := x.getC (.c 2)
  let c3 := x.getC (.c 3)
  let s8 := x.getS 8
  let s9 := x.getS 9
  match r with
  | .mmWload =>
    if s8 &&& 0x7FFF000000000000 ≠ 0 then bad
    else if s8.getLsbD 63 then some (.ok (.wloadc c2 (s8.extractLsb' 0 24) (s8.extractLsb' 24 24) c3))
    else some (.ok (.wload c2 c3))
  | .mmWdecode =>
    if s8 = 0 then some (.ok (.table c2))
    else if s8 = 1 then some (.ok (.decode c2 s9 c3))
    else bad
  | .mmSwap => some (.ok .swap)
  | .mmAct => some (.ok (.act c2 c3 s8))
  | .mmDrain =>
    let rm : BitVec 3 := s9.extractLsb' 0 3
    if rm = 6 || rm = 7 || s9.extractLsb' 5 59 ≠ 0 then bad
    else some (.ok (.drain c2 c3 s8 (drainMode x rm) (s9.getLsbD 3) (s9.getLsbD 4)))
  | .mmZero => some (.ok (.zero (x.getS 4) (x.getS 5)))
  | _ => none

/-- Place a command in the compute queue under the next number of its counter (R234). -/
def Matrix.push (m : Matrix) (c : MatCmd) : Matrix :=
  if c.well then
    { m with queue := m.queue ++ [⟨c, m.issueW + 1⟩], issueW := m.issueW + 1, stopped := false }
  else { m with queue := m.queue ++ [⟨c, m.issueM + 1⟩], issueM := m.issueM + 1, stopped := false }

/-- The counter of a command (R234). -/
def MatCmd.counter (c : MatCmd) : Timeline := if c.well then .tlw else .tlm

/-- The routine that an `rcall` names: its code object, its place in the routine table and its entry (R220, R249). -/
def State.callee (s : State) (imm : BitVec 37) : Option (Nat × Nat × RoutineEntry) :=
  match s.str.calls with
  | f :: _ =>
    let table := ((s.ctx s.ctxId).objects[f.object]?.map (·.routines)).getD []
    (table[f.entry]?.bind fun e => e.callees[imm.toNat]?).bind fun i => table[i]?.map fun e => (f.object, i, e)
  | [] => (s.objectAt s.str.pc).bind fun (k, o) => o.routines[imm.toNat]?.map fun e => (k, imm.toNat, e)

/-- The catalogue routine of a hash, by the substitution table of the accepted firmware image (R253, R256). -/
def State.catalogue (s : State) (hash : BitVec 128) : Option Routine :=
  (s.boot.table.idxOf? hash).bind fun i => routineList[i]?

/-- The number that an asynchronous call takes on its definition path: that of its command for a matrix routine whose
checks pass, else the next of `tlm` (R261). -/
def asyncNumber (x : Tile) (u : Stream) (asy : Bool) (r : Option Routine) : Option (Timeline × Word) :=
  if !asy then none
  else
    match r.bind (matrixCommand · u) with
    | none => some (.tlm, x.mx.issueM + 1)
    | some (.error _) => none
    | some (.ok c) => some (c.counter, (if c.well then x.mx.issueW else x.mx.issueM) + 1)

/-- Take a number. -/
def Matrix.take (m : Matrix) : Option (Timeline × Word) → Matrix
  | some (.tlm, n) => { m with issueM := n }
  | some (.tlw, n) => { m with issueW := n }
  | _ => m

/-- A word of a routine's definition, which lies in its body. -/
def CallFrame.word (f : CallFrame) (k : Nat) : Word := f.body + 8 * BitVec.ofNat 64 (k % f.ninsn)

/-- The stream as the definition of its innermost routine holds it before a word of the body (R259): the word by the
routine's number, the registers by what the definition has changed in them. -/
def Stream.onDefinition (x : Stream) (k : Nat → Nat) (regs : Stream → Stream) : Stream :=
  match x.calls with
  | [] => x
  | f :: rest =>
    match f.native with
    | none => x
    | some r =>
      { regs x with
        pc := f.word (k (routineList.idxOf r))
        calls := { f with native := none, cmd := (matrixCommand r x).bind Except.toOption } :: rest }

/-- A check of the innermost routine that fails is raised as its definition raises it, through `sys 0x10`: every
register at its entry value but for s10, the cause, and s11, the address (R264, R265; DESIGN CHOICE, log entry 19 for
the word). -/
def M.raiseCheck (k : Nat) (cause : BitVec 8) (addr : Word) : M Unit := do
  M.mod fun x => x.onDefinition (fun r => (Config.checkWord r k).toNat)
    fun y => (y.setS 10 (cause.setWidth 64)).setS 11 addr
  M.trap cause addr

/-- The entry checks of a routine, each with its cause and the address that it reports, in the order of its rule: the
first that fails is raised (R265). -/
def M.entry (checks : List (Bool × BitVec 8 × Word)) : M Unit :=
  match checks.zipIdx.find? fun e => !e.1.1 with
  | none => pure ()
  | some ((_, cause, addr), k) => M.raiseCheck k cause addr

/-- An access that the definition makes at a word of its body, with the registers that it holds there: a fault is
reported at that word with those registers (R259). -/
def M.atWord {α : Type} (k : Nat → Nat) (regs : Stream → Stream) (m : M α) : M α :=
  tryCatch m fun e => do
    match e with
    | .trap _ _ _ => M.mod fun x => x.onDefinition k regs
    | .wait _ _ => pure ()
    throw e

/-- The scratch header: PROG and AUXS at cpv offset s2 − 4,096 (R263, R265). -/
def M.scratchHeader (prog : Nat) (aux : Word) : M Unit := do
  let x ← M.str
  M.store (x.getC .cpv) (x.getS 2 - 4096) (toBytes 8 (BitVec.ofNat 64 prog) ++ toBytes 8 aux) 1

/-- The header store at entry: at its fault s10 holds its offset, and the tag of c5 is clear (R265). -/
def M.entryHeader : M Unit :=
  M.atWord (fun r => (Config.headerWord r).toNat) (fun y => y.setS 10 (y.getS 2 - 4096)) (M.scratchHeader 0 0)

/-- The innermost routine call, now on its definition, takes the number that the definition signals (R261). -/
def State.takeNumber (s : State) (r : Routine) (asy : Bool) : State :=
  match s.str.calls with
  | [] => s
  | f :: rest =>
    let number := asyncNumber s.here s.str asy (some r)
    let s := s.setStr { s.str with calls := { f with number := number } :: rest }
    s.setTile s.cur.tile { s.here with mx := s.here.mx.take number }

/-- The entry checks of `acc.addrow` (R281). -/
def addrowOk (x : Stream) : Bool :=
  (x.getC (.c 2)).fields.rowbytes == 512 && decide ((x.getS 8).toNat + (x.getC (.c 2)).fields.rows ≤ 1024)

/-- The checks of a native matrix routine at its `rcall`, and its wait for room in the compute queue (R261, R268); the
wait of `acc.addrow` for the matrix commands before it (R281). -/
def M.matrixReady (r : Routine) : M Unit := do
  let s ← get
  match matrixCommand r s.str with
  | none =>
    if r = .accAddrow && addrowOk s.str && s.here.mx.tlm != s.here.mx.issueM then
      throw (.wait .waiting .matrixCatchUp)
  | some (.error c) => M.trap c 0
  | some (.ok _) => if s.here.mx.queue.length ≥ 16 then throw (.wait .waiting .computeQueue)

/-- `rcall` (R220, R252, R253): on the native path the routine's own step follows at the same program counter; on the
other the stream comes to its definition (R299). -/
def execRcall (g : Pred) (imm : BitVec 37) (s : State) : Host.Outcome State Fault Refusal :=
  perform g (do
    let s ← get
    let x := s.str
    match s.callee imm with
    | none => M.trap Cause.routineIndex 0
    | some (k, i, e) =>
      let r := s.catalogue e.hash
      let native := if x.ctxcfg.getLsbD 2 then none else r
      match native with
      | some r => M.matrixReady r
      | none => pure ()
      let number := if native.isSome then none else asyncNumber s.here x e.asy r
      M.modTile fun t => { t with
        mx := t.mx.take number, callTime := if s.isUser then t.callTime.map insideCode else t.callTime }
      M.mod fun y =>
        let f : CallFrame :=
          { native := native, body := e.body, ninsn := e.ninsn, ret := x.pc + 8, link := x.getS 1, asy := e.asy
            number := number, scratch := e.scratch, object := k, entry := i, prog := 0, aux := 0
            cmd := if native.isSome then none else (r.bind (matrixCommand · x)).bind Except.toOption
            rejoin := x.rejoin }
        { y.setS 1 (x.pc + 8) with calls := f :: y.calls, rejoin := none, pc := if native.isSome then y.pc else e.body }
      M.arrive) s

/-- `yield` (R221): it has no effect of its own; a diversion or interruption that waits for the stream takes effect
before it. -/
def execYield (g : Pred) (s : State) : Host.Outcome State Fault Refusal := register g id s

/-- `rdv` (R177). -/
def execRdv (g : Pred) (s : State) : Host.Outcome State Fault Refusal :=
  perform g (do
    let s ← get
    let x := s.str
    if !s.isUser then M.next
    else if x.inRoutine then M.trap Cause.rendezvousInsideRoutine 0
    else
      match s.here.node with
      | none => M.next
      | some k =>
        set ((s.setStr { x with
          arrivals := x.arrivals + 1, state := .waiting, wait := .rendezvous (x.arrivals + 1) }).rendezvous k)) s

/-! ### System instructions (R224, R225, R178) -/

/-- The calls that version 1 of the firmware call layer holds (R309). -/
def firmwareCalls : List (BitVec 16) := [0x00, 0x10, 0x11]

/-- The firmware context returns from a firmware call: results in the frame's s4 and s5, the program counter past the
`sys`, and `eret` (R224, R378; DEDUCED, log entry 51). -/
def State.serveCall (s : State) (t : TileId) (s4 : Option Word) (s5 : Option Word) : State :=
  let area := (s.tile t).tsave.toNat
  let s := (s4.map fun v => s.store (area + 0x20) (toBytes 8 v)).getD s
  let s := (s5.map fun v => s.store (area + 0x28) (toBytes 8 v)).getD s
  (s.store (area + 0x210) (toBytes 8 ((s.tile t).tpc + 8))).returnFromTrap t

/-- `sys` (R224): a call that the layer implements waits for the firmware context; any other returns at once with s4 all
ones. From the firmware context it is delivered to the resident operating system. -/
def execSys (g : Pred) (imm : BitVec 16) (s : State) : Host.Outcome State Fault Refusal :=
  perform g (do
    let s ← get
    if s.isUser then
      let s := s.takeTrap s.cur.tile Cause.firmwareCall 0 imm
      set (if firmwareCalls.contains imm then s else s.serveCall s.cur.tile (some (BitVec.allOnes 64)) none)
    else
      set (s.emit (.interrupt s.cur.tile.toNat Cause.firmwareCall))
      M.next) s

/-- `trap` (R225). -/
def execTrap (g : Pred) (imm : BitVec 16) (s : State) : Host.Outcome State Fault Refusal :=
  perform g (throw (.trap Cause.softwareTrap 0 imm)) s

/-- `nop` (R178). -/
def execNop (g : Pred) (s : State) : Host.Outcome State Fault Refusal := register g id s

/-- `bkpt` (R178). -/
def execBkpt (g : Pred) (s : State) : Host.Outcome State Fault Refusal :=
  perform g (do
    let x ← M.str
    M.trap Cause.breakpoint x.pc) s

/-- The stream reaches an unassigned encoding (R150): it traps whatever its predicate. -/
def execIllegalInstruction (s : State) : Host.Outcome State Fault Refusal :=
  finish ((do
    let x ← M.str
    M.trap Cause.illegalInstruction x.pc : M Unit) s)

end Sys2Proof.Machine
end

