-- ==== Sys2Proof/Machine/Elem.lean ====
section
/-! DEFINITION. The element functions of `ew.*` and `nx.vfn` (spec/14_routines.md R275): e^x, the logistic function, x
times it, the Gaussian error linear unit and the reciprocal square root, each correctly rounded. A function's value is
enclosed between two rationals that round alike. -/

namespace Sys2Proof.Machine

/-! ### Enclosures, as natural numbers in units of 2^-p -/

/-- The terms r^i / i! from term `t` on, rounded down, and their sum; `k` counts the terms still to be added. -/
def expTerms (p r : Nat) : Nat → Nat → Nat → Nat → Nat
  | 0, _, _, sum => sum
  | k + 1, i, t, sum =>
    let t' := t * r / (2 ^ p * (i + 1))
    expTerms p r k (i + 1) t' (sum + t')

/-- Square an enclosure k times. -/
def squareTimes (p : Nat) : Nat → Nat × Nat → Nat × Nat
  | 0, x => x
  | k + 1, x => squareTimes p k (x.1 * x.1 / 2 ^ p, x.2 * x.2 / 2 ^ p + 1)

/-- m × 2^e in units of 2^-p, rounded down. -/
def fixed (p m : Nat) (e : Int) : Nat :=
  if 0 ≤ e + p then m * 2 ^ (e + p).toNat else m / 2 ^ (-(e + p)).toNat

/-- An enclosure of e^x for x = m × 2^e, 0 ≤ x < 128: the series at x / 256, squared eight times. -/
def expEnclosure (p m : Nat) (e : Int) : Nat × Nat :=
  let n := p / 4 + 8
  let low := expTerms p (fixed p m (e - 8)) n 0 (2 ^ p) (2 ^ p)
  squareTimes p 8 (low, low + 4 * n + 8)

/-- The series of arctan(1 / q) in units of 2^-p, to within 2k units; `k` counts the terms still to be added. -/
def atanTerms (q : Nat) : Nat → Nat → Nat → Int → Int
  | 0, _, _, sum => sum
  | k + 1, i, t, sum =>
    let a : Int := (t / (2 * i + 1) : Nat)
    atanTerms q k (i + 1) (t / (q * q)) (if i % 2 = 0 then sum + a else sum - a)

/-- An enclosure of π, by Machin's formula. -/
def piEnclosure (p : Nat) : Nat × Nat :=
  let n := p / 4 + 4
  let x := (16 * atanTerms 5 n 0 (2 ^ p / 5) 0 - 4 * atanTerms 239 n 0 (2 ^ p / 239) 0).toNat
  (x - 48 * n, x + 48 * n)

/-- The sum of t^(2n+1) / (2n+1)!! from term `a` on; `up` rounds every term up. -/
def tailTerms (p t2 up : Nat) : Nat → Nat → Nat → Nat → Nat × Nat
  | 0, _, a, sum => (sum, a)
  | k + 1, n, a, sum => tailTerms p t2 up k (n + 1) (a * t2 / (2 ^ p * (2 * n + 3)) + up) (sum + a)

/-- An enclosure of the normal distribution's integral from 0 to t = m × 2^e, 0 ≤ t < 16: the density times the series. -/
def normalEnclosure (p m : Nat) (e : Int) : Nat × Nat :=
  let (a, b) := expEnclosure p (m * m) (2 * e - 1)
  let (pl, ph) := piEnclosure p
  let rl := isqrt (2 * pl * 2 ^ p)
  let rh := isqrt (2 * ph * 2 ^ p) + 1
  let dl := 2 ^ (3 * p) / (b * rh)
  let dh := 2 ^ (3 * p) / (a * rl) + 1
  let t := fixed p m e
  let t2 := fixed p (m * m) (2 * e)
  let sl := (tailTerms p t2 0 (2 * p) 0 t 0).1
  let (sh, last) := tailTerms p (t2 + 1) 1 (2 * p) 0 (t + 1) 0
  (dl * sl / 2 ^ p, dh * (sh + 2 * last + 2) / 2 ^ p + 1)

/-! ### From an enclosure to a rounded result -/

/-- A real just above num / den, times 2^e. -/
def Exact.ratio (neg : Bool) (num den : Nat) (e : Int) : Exact :=
  let k := Nat.log2 den + 256
  ⟨neg, num * 2 ^ k / den, e - k, true⟩

/-- The rounded result of an enclosure, when its ends round alike. -/
def roundEnds (neg : Bool) (e : Int) (lo hi : Nat × Nat) : Option Fp :=
  let a := round32 .rne (Exact.ratio neg lo.1 lo.2 e)
  let b := round32 .rne (Exact.ratio neg hi.1 hi.2 e)
  if a = b then some a else none

/-- The rounded result at the first of three precisions whose enclosure decides it. -/
def decideRound (neg : Bool) (e : Int) (f : Nat → (Nat × Nat) × (Nat × Nat)) : Fp :=
  let at_ (p : Nat) : Option Fp := roundEnds neg e (f p).1 (f p).2
  match at_ 512 with
  | some r => r
  | none =>
    match at_ 1024 with
    | some r => r
    | none => round32 .rne (Exact.ratio neg (f 2048).1.1 (f 2048).1.2 e)

/-- A nonzero real below every FP32 number, and one just below another real. -/
def tiny32 (neg : Bool) : Fp := round32 .rne ⟨neg, 1, -400, true⟩
def justBelow (v : Exact) : Fp := round32 .rne ⟨v.neg, v.man * 2 ^ 400 - 1, v.exp - 400, true⟩

/-- Is the magnitude of a real at least 2^k? -/
def Exact.atLeast (v : Exact) (k : Int) : Bool := decide (k ≤ (Nat.log2 v.man : Int) + v.exp)

/-! ### The functions -/

/-- e^x for a nonzero real. -/
def expReal (v : Exact) : Fp :=
  if v.atLeast 7 then (if v.neg then tiny32 false else round32 .rne ⟨false, 1, 400, true⟩)
  else decideRound false 0 fun p =>
    let (a, b) := expEnclosure p v.man v.exp
    if v.neg then ((2 ^ p, b), (2 ^ p, a)) else ((a, 2 ^ p), (b, 2 ^ p))

/-- 1 / (1 + e^−x) as an enclosure in quotients. -/
def sigmoidEnds (neg : Bool) (m : Nat) (e : Int) (p : Nat) : (Nat × Nat) × (Nat × Nat) :=
  let (a, b) := expEnclosure p m e
  if neg then ((2 ^ p, 2 ^ p + b), (2 ^ p, 2 ^ p + a)) else ((a, a + 2 ^ p), (b, b + 2 ^ p))

/-- 1 / (1 + e^−x) for a nonzero real. -/
def sigmoidReal (v : Exact) : Fp :=
  if v.atLeast 7 then (if v.neg then tiny32 false else justBelow ⟨false, 1, 0, false⟩)
  else decideRound false 0 (sigmoidEnds v.neg v.man v.exp)

/-- x / (1 + e^−x) for a nonzero real. -/
def siluReal (v : Exact) : Fp :=
  if v.atLeast 7 then (if v.neg then tiny32 true else justBelow v)
  else decideRound v.neg v.exp fun p =>
    let (lo, hi) := sigmoidEnds v.neg v.man v.exp p
    ((v.man * lo.1, lo.2), (v.man * hi.1, hi.2))

/-- x · (1 + erf(x / √2)) / 2 for a nonzero real. -/
def geluReal (v : Exact) : Fp :=
  if v.atLeast 4 then (if v.neg then tiny32 true else justBelow v)
  else decideRound v.neg v.exp fun p =>
    let (a, b) := normalEnclosure p v.man v.exp
    let half := 2 ^ (p - 1)
    if v.neg then ((v.man * (half - b), 2 ^ p), (v.man * (half - a), 2 ^ p))
    else ((v.man * (half + a), 2 ^ p), (v.man * (half + b), 2 ^ p))

/-- 1 / √x for a positive real: the integer square root of 2^n / m. -/
def rsqrtReal (v : Exact) : Fp :=
  let odd := v.exp % 2 ≠ 0
  let m := if odd then 2 * v.man else v.man
  let e := if odd then v.exp - 1 else v.exp
  let k := Nat.log2 m + 128
  let r := isqrt (2 ^ (2 * k) / m)
  round32 .rne ⟨false, r, -(e / 2) - k, r * r * m ≠ 2 ^ (2 * k)⟩

/-- FP32 one, and one half. -/
def one32 : BitVec 32 := 0x3F800000
def half32 : BitVec 32 := 0x3F000000

/-- An element function of R275, with its special values; a NaN gives itself quieted, with NV when it is signalling. -/
def elemFn (f : ElemFn) (x : BitVec 32) : Fp :=
  match f32Value x with
  | .nan _ => (quiet32 x, snanFlag [x])
  | .inf neg =>
    match f with
    | .exp => (if neg then zero32 false else inf32 false, 0)
    | .sigmoid => (if neg then zero32 false else one32, 0)
    | .silu => (if neg then zero32 true else inf32 false, 0)
    | .gelu => (if neg then zero32 true else inf32 false, 0)
    | .rsqrt => if neg then invalidOp else (zero32 false, 0)
  | .fin v =>
    if v.isZero then
      match f with
      | .exp => (one32, 0)
      | .sigmoid => (half32, 0)
      | .silu => (zero32 v.neg, 0)
      | .gelu => (zero32 v.neg, 0)
      | .rsqrt => (inf32 v.neg, FpFlags.dz)
    else
      match f with
      | .exp => expReal v
      | .sigmoid => sigmoidReal v
      | .silu => siluReal v
      | .gelu => geluReal v
      | .rsqrt => if v.neg then invalidOp else rsqrtReal v

end Sys2Proof.Machine
end

