-- ==== Sys2Proof/Machine/LoadStore.lean ====
section
/-! DEFINITION. Loads, stores, gathers, scatters and atomics: spec/09_scalar_and_control.md R168, spec/10_vector.md
R195, R196, spec/11_memory_sync_system.md R203 to R206. The model performs the accesses of a stream one after another,
in program order, on the one copy that every location has (R14), so that an acquire, a release and a fence add no order
(DESIGN CHOICE, log entry 18). -/

namespace Sys2Proof.Machine

/-- Load n bytes and give them to the stream (R168). -/
def loadForm (g : Pred) (m : MemS) (n align : Nat) (f : Stream → List Byte → Stream) (s : State) :
    Host.Outcome State Fault Refusal :=
  perform g (do
    let bs ← M.loadS m n align
    M.mod fun x => f x bs
    M.next) s

/-- Store bytes of the stream (R168). -/
def storeForm (g : Pred) (m : MemS) (align : Nat) (f : Stream → List Byte) (s : State) :
    Host.Outcome State Fault Refusal :=
  perform g (do
    let x ← M.str
    M.storeS m (f x) align
    M.next) s

/-- A loaded value sign-extended (R168). -/
def signedBytes (w : Width) (bs : List Byte) : Word := (ofBytes w.n bs).signExtend 64

/-- `ld` (R168). -/
def execLd (g : Pred) (w : Width) (d : SReg) (m : MemS) (s : State) : Host.Outcome State Fault Refusal :=
  loadForm g m w.bytes 1 (fun x bs => x.setS d (signedBytes w bs)) s

/-- `ldu` (R168). -/
def execLdu (g : Pred) (w : Width) (d : SReg) (m : MemS) (s : State) : Host.Outcome State Fault Refusal :=
  loadForm g m w.bytes 1 (fun x bs => x.setS d (ofBytes 64 bs)) s

/-- `st` (R168). -/
def execSt (g : Pred) (w : Width) (m : MemS) (d : SReg) (s : State) : Host.Outcome State Fault Refusal :=
  storeForm g m 1 (fun x => toBytes w.bytes (x.getS d)) s

/-- Write a register pair without a tag; the pair of number 0 discards (R119, R168). -/
def Stream.setPair (x : Stream) (d : BitVec 5) (q : Quad) : Stream :=
  if d = 0 then x else (x.setS (loReg d) (q.extractLsb' 0 64)).setS (hiReg d) (q.extractLsb' 64 64)

/-- A register pair; the pair of number 0 reads as zero (R168). -/
def Stream.getPair (x : Stream) (d : BitVec 5) : Quad :=
  if d = 0 then 0 else x.getS (hiReg d) ++ x.getS (loReg d)

/-- `ldq` (R168). -/
def execLdq (g : Pred) (d : BitVec 5) (m : MemS) (s : State) : Host.Outcome State Fault Refusal :=
  loadForm g m 16 1 (fun x bs => x.setPair d (ofBytes 128 bs)) s

/-- `stq` (R168). -/
def execStq (g : Pred) (m : MemS) (d : BitVec 5) (s : State) : Host.Outcome State Fault Refusal :=
  storeForm g m 1 (fun x => toBytes 16 (x.getPair d)) s

/-- `ldacq` (R203). -/
def execLdacq (g : Pred) (w : Width) (_scope : Scope) (d : SReg) (m : MemS) (s : State) :
    Host.Outcome State Fault Refusal :=
  loadForm g m w.bytes w.bytes (fun x bs => x.setS d (signedBytes w bs)) s

/-- `strel` (R203). -/
def execStrel (g : Pred) (w : Width) (_scope : Scope) (m : MemS) (d : SReg) (s : State) :
    Host.Outcome State Fault Refusal :=
  storeForm g m w.bytes (fun x => toBytes w.bytes (x.getS d)) s

/-- `vld` (R195). -/
def execVld (g : Pred) (d : VReg) (m : MemS) (s : State) : Host.Outcome State Fault Refusal :=
  loadForm g m 128 1 (fun x bs => x.setV d (ofBytes 1024 bs)) s

/-- `vst` (R195). -/
def execVst (g : Pred) (m : MemS) (d : VReg) (s : State) : Host.Outcome State Fault Refusal :=
  storeForm g m 1 (fun x => toBytes 128 (x.getV d)) s

/-- Checks 1 to 5 of every lane of a gather or scatter, in ascending order (R196). -/
def M.laneParts (w : Width) (m : MemV) (k : Need) (acc : Access) : M (List (List Part)) := do
  let x ← M.str
  let c := x.getC m.cap
  (List.range w.count).mapM fun i => do
    let va ← M.locate c k (x.offV w.n m i) w.bytes 1
    M.parts (c.mask x.xm) va w.bytes acc

/-- `vgather` (R196). -/
def execVgather (g : Pred) (w : Width) (d : VReg) (m : MemV) (s : State) : Host.Outcome State Fault Refusal :=
  perform g (do
    let lanes ← M.laneParts w m .read .load
    let vals ← lanes.mapM fun ps => do
      ps.forM M.ownLines
      let bs ← M.readParts ps
      pure (ofBytes w.n bs)
    M.mod fun x => x.setV d (ofLanes w.n vals)
    M.next) s

/-- `vscatter` (R196). -/
def execVscatter (g : Pred) (w : Width) (m : MemV) (d : VReg) (s : State) : Host.Outcome State Fault Refusal :=
  perform g (do
    let lanes ← M.laneParts w m .write .store
    let x ← M.str
    lanes.zipIdx.forM fun (ps, i) => M.writeParts ps (toBytes w.bytes (lane w.n (x.getV d) i))
    M.next) s

/-- The new value of an atomic (R204). -/
def amoValue {n : Nat} (op : AmoOp) (old b : BitVec n) : BitVec n :=
  match op with
  | .swap => b
  | .add => old + b
  | .and => old &&& b
  | .or => old ||| b
  | .xor => old ^^^ b
  | .min => if b.slt old then b else old
  | .max => if old.slt b then b else old
  | .minu => if b.ult old then b else old
  | .maxu => if old.ult b then b else old

/-- A scalar read-modify-write (R204): `f` gives the new value, or none where nothing is written. -/
def atomicForm (g : Pred) (w : Width) (d : SReg) (m : MemS) (f : Stream → BitVec w.n → Option (BitVec w.n))
    (s : State) : Host.Outcome State Fault Refusal :=
  perform g (do
    let x ← M.str
    let p ← M.atomicPart (x.getC m.cap) .atomic (x.offS m) w.bytes w.bytes .atomic
    let old ← M.rmw p fun bs => (f x (ofBytes w.n bs)).map (toBytes w.bytes)
    M.mod fun x => x.setS d (signedBytes w old)
    M.next) s

/-- `amo` (R204). -/
def execAmo (g : Pred) (w : Width) (op : AmoOp) (_scope : Scope) (d : SReg) (m : MemS) (c : SReg) (s : State) :
    Host.Outcome State Fault Refusal :=
  atomicForm g w d m (fun x old => some (amoValue op old (atWidth w (x.getS c)))) s

/-- `amo.cas` (R204). -/
def execAmoCas (g : Pred) (w : Width) (_scope : Scope) (d : SReg) (m : MemS) (c : SReg) (s : State) :
    Host.Outcome State Fault Refusal :=
  atomicForm g w d m
    (fun x old => if old = atWidth w (x.getS d) then some (atWidth w (x.getS c)) else none) s

/-- A lane of `vamo` (R205). -/
def vamoValue {n : Nat} (op : VAmoOp) (old b : BitVec n) : BitVec n :=
  match op with
  | .or => old ||| b
  | .add => old + b

/-- The checks of every lane of a `vamo`, before any lane is performed (R205). -/
def M.vamoChecks (w : Width) (m : MemV) : M Unit := do
  let x ← M.str
  let todo ← (List.range w.count).mapM fun i => do
    let p ← M.atomicPart (x.getC m.cap) .atomic (x.offV w.n m i) w.bytes w.bytes .atomic
    pure ⟨i, p.va, p.pa, p.mask, p.via⟩
  M.mod fun y => { y with vamoTodo := todo }

/-- Perform a lane of a `vamo`; it then no longer waits for its turn (R205). -/
def M.vamoLane (w : Width) (op : VAmoOp) (v : Vec) (l : LanePart) : M Unit := do
  let _ ← M.rmw ⟨l.va, l.pa, w.bytes, l.mask, none, l.via⟩ fun bs =>
    some (toBytes w.bytes (vamoValue op (ofBytes w.n bs) (lane w.n v l.lane)))
  M.mod fun y => { y with vamoTodo := y.vamoTodo.drop 1 }

/-- `vamo` (R205): every lane's checks, then the lanes in ascending order; a lane that waits keeps its place, and no
check is made again after its wait (R198). -/
def execVamo (g : Pred) (w : Width) (op : VAmoOp) (_scope : Scope) (m : MemV) (d : VReg) (s : State) :
    Host.Outcome State Fault Refusal :=
  perform g (do
    let x ← M.str
    if x.vamoTodo.isEmpty then M.vamoChecks w m
    let y ← M.str
    y.vamoTodo.forM (M.vamoLane w op (x.getV d))
    M.next) s

/-- `fence` (R206): it orders accesses that the model already performs in program order (DESIGN CHOICE, log entry 18). -/
def execFence (g : Pred) (_scope : Scope) (_hint : Hint) (s : State) : Host.Outcome State Fault Refusal :=
  register g id s

end Sys2Proof.Machine
end

