-- ==== Sys2Proof/Machine/Dot.lean ====
section
/-! DEFINITION. Expanded elements and the dot-product group, shared by `vfdot` and the matrix engine
(spec/03_number_formats.md R52, R53; spec/10_vector.md R187 to R189). -/

namespace Sys2Proof.Machine

/-- `expand` of R53: an element with its row and column scale codes. -/
def expandElem (f : Fmt) (c rs cs : Nat) : Value :=
  match valueOf f c with
  | .nan x => .nan x
  | .inf n => if rs = 255 || cs = 255 then .nan defaultNan else .inf n
  | .fin v =>
    if rs = 255 || cs = 255 then .nan defaultNan
    else .fin { v with exp := v.exp + (rs : Int) + cs - 254 }

/-- The FP32 NaN that an expanded element stands for, if any. -/
def Value.nan? : Value → Option (BitVec 32)
  | .nan x => some x
  | .fin _ => none
  | .inf _ => none

/-- A product of two expanded elements that are not NaN: 0 × ∞ is invalid (R61). -/
inductive Product where
  | fin (v : Exact)
  | inf (neg : Bool)
  | invalid
deriving DecidableEq, Repr

/-- The product of two expanded elements that are not NaN (R189). -/
def product : Value → Value → Product
  | .fin a, .fin b => .fin (a.mul b)
  | .fin a, .inf n => if a.isZero then .invalid else .inf (xor a.neg n)
  | .inf n, .fin b => if b.isZero then .invalid else .inf (xor n b.neg)
  | .inf n, .inf k => .inf (xor n k)
  | .nan _, _ => .invalid
  | _, .nan _ => .invalid

/-- The finite products of a group. -/
def Product.fin? : Product → Option Exact
  | .fin v => some v
  | .inf _ => none
  | .invalid => none

/-- The weight of the leading bit of a nonzero real. -/
def Exact.top (v : Exact) : Int := (Nat.log2 v.man : Int) + v.exp

/-- A product truncated toward zero to whole steps of 2^q. -/
def Exact.truncated (v : Exact) (q : Int) : Int :=
  let n : Int := ((v.steps q).1 : Nat)
  if v.neg then -n else n

/-- `group_sum` of R189 with a window of `wn` bits. -/
def groupSum (wn : Nat) (ps : List Product) : Fp :=
  if ps.any (· == .invalid) then invalidOp
  else if ps.any (· == .inf false) && ps.any (· == .inf true) then invalidOp
  else if ps.any (· == .inf false) then (inf32 false, 0)
  else if ps.any (· == .inf true) then (inf32 true, 0)
  else
    let vs := ps.filterMap Product.fin?
    match vs.filter (!·.isZero) with
    | [] => (zero32 (vs.all (·.neg)), 0)
    | v :: rest =>
      let e := rest.foldl (fun a x => max a x.top) v.top
      let q := e - wn + 1
      let t := (v :: rest).foldl (fun a x => a + x.truncated q) 0
      if t = 0 then (zero32 false, 0) else round32 .rne (Exact.ofUnits t q false)

/-- Products per group, window bits and lane width of an operand format (R187). -/
def groupShape (f : Fmt) : Nat × Nat × Nat := if fmtLane f = 16 then (8, 40, 16) else (16, 25, 8)

/-- One group of expanded pairs added into an accumulator; its flags (R189). -/
def addGroup (wn : Nat) (acc : BitVec 32) (pairs : List (Value × Value)) : Fp :=
  let g := groupSum wn (pairs.map fun p => product p.1 p.2)
  let r := fadd32 .rne acc g.1
  (r.1, g.2 ||| r.2)

/-- Split a list into chunks of k; `fuel` bounds their number. -/
def chunks {α : Type} (k : Nat) : Nat → List α → List (List α)
  | 0, _ => []
  | fuel + 1, xs => if xs.isEmpty then [] else xs.take k :: chunks k fuel (xs.drop k)

/-- The groups of a dot product, in ascending order, each added once into the accumulator (R189). The NaN operands are
the accumulator and then the elements in ascending order, A before B. -/
def dotGroups (f : Fmt) (acc : BitVec 32) (pairs : List (Value × Value)) : Fp :=
  let (g, wn, _) := groupShape f
  let operands := acc :: pairs.flatMap fun p => p.1.nan?.toList ++ p.2.nan?.toList
  match nanResult operands with
  | some r => r
  | none =>
    (chunks g pairs.length pairs).foldl (init := (acc, 0)) fun a ps =>
      let r := addGroup wn a.1 ps
      (r.1, a.2 ||| r.2)

end Sys2Proof.Machine
end

