-- ==== Sys2Proof/Machine/Engine.lean ====
section
/-! DEFINITION. What every engine does: its accesses (spec/02_address_space.md R29, R32, R33), its halts and their
report (spec/06_pumps.md R111, spec/13_matrix_engine.md R244, spec/22_traps_and_context.md R381, R411). -/

namespace Sys2Proof.Machine

/-- Checks 3 to 5 of R29 on a part of an access of an engine of a tile. A device register is no operand of an engine
(R106; DEDUCED, log entry 22), but for a side that the locality rule refuses in any case. -/
def M.enginePart (t : TileId) (who : Walker) (mask : Option Word) (va : Word) (n : Nat) (acc : Access) (bound : Bool) :
    M Part := do
  let s ← get
  let p ← M.translated t who (s.tile t).user.ctxroot va acc true
  match regionOf p.pa with
  | .hbm => pure ⟨va, p.pa, n, mask, none, none⟩
  | .cistern _ _ => pure ⟨va, p.pa, n, mask, none, none⟩
  | .device => if bound then pure ⟨va, p.pa, n, mask, none, none⟩ else M.trap (accessFault acc) va
  | .hole => M.trap (accessFault acc) va

/-- The mask of an engine's access at this moment: that of the tile's user context (R97). -/
def M.engineMask (t : TileId) (c : Cap) : M (Option Word) := do
  let s ← get
  pure (c.mask (s.tile t).user.xm)

/-- Read bytes of a part, after its line check; memory only. -/
def M.engineRead (t : TileId) (p : Part) : M (List Byte) := do
  M.lines t p
  let s ← get
  pure (s.readPart p.mask p.va.toNat p.pa p.n)

/-- Write the bytes of a part; memory only. -/
def M.engineWrite (p : Part) (bs : List Byte) : M Unit := do
  let s ← get
  set (s.writePart p.mask p.va.toNat p.pa bs)

/-- The last address of a capability's extent. -/
def CapFields.last (f : CapFields) : Nat := f.base + (f.rows - 1) * f.stride + f.rowbytes - 1

/-- Does the extent of a capability continue from a page into the next higher one (R35)? -/
def CapFields.continuesPast (f : CapFields) (page : Nat) : Bool :=
  !f.empty && decide (f.base / 4096 ≤ page ∧ page < f.last / 4096)

/-- The capabilities through which a command makes accesses: its extent (R35, R234). -/
def MatCmd.caps : MatCmd → List Cap
  | .wload w sc => [w, sc]
  | .wloadc hdr _ _ sc => [hdr, sc]
  | .table hdr => [hdr]
  | .decode hdr _ dst => [hdr, dst]
  | .swap => []
  | .act a sc _ => [a, sc]
  | .zero _ _ => []
  | .drain dst q _ _ _ _ => [dst, q]

/-- Request a prefetch walk of the page after one that a command's access enters for the first time, where the extent of
the command goes on into it: that of any of its capabilities (R35). -/
def State.prefetch (s : State) (t : TileId) (who : Walker) (caps : List Cap) (page : Nat) : State :=
  if caps.any fun c => c.fields.continuesPast page then
    s.requestWalk t ⟨who, (s.tile t).walkRoot who, BitVec.ofNat 48 ((page + 1) * 4096), .load, true⟩
  else s

/-- An access of the head command of the matrix engine or the wellhead has translated: where it is the command's first
in its page, it may request a prefetch walk (R35). -/
def M.enterPage (t : TileId) (va : Word) : M Unit := modify fun s =>
  let x := s.tile t
  let page := (va.setWidth 48 : BitVec 48).toNat / 4096
  if x.mx.pages.contains page then s
  else
    (s.setTile t { x with mx := { x.mx with pages := page :: x.mx.pages } }).prefetch t .matrix
      ((x.mx.queue.head?.map (·.cmd.caps)).getD []) page

/-- Where an engine access of n bytes is cut: at the ends of lines, which the pages respect (R32, R86). -/
def cutLines : Nat → Word → Nat → List (Word × Nat)
  | 0, _, _ => []
  | fuel + 1, va, n =>
    let room := 128 - va.toNat % 128
    if n = 0 then []
    else if n ≤ room then [(va, n)]
    else (va, room) :: cutLines fuel (canonical (va + BitVec.ofNat 64 room)) (n - room)

/-- The checks of an access of the matrix engine or the wellhead to bytes that lie in one line (R29, R32, R35). -/
def M.matrixPart (t : TileId) (mask : Option Word) (va : Word) (n : Nat) (acc : Access) : M Part := do
  let p ← M.enginePart t .matrix mask va n acc false
  M.enterPage t va
  pure p

/-- Read n bytes at an offset of a capability, line by line in ascending order, each line with its checks (R29, R32,
R238). An offset is a 64-bit number: one that a header's fields make larger wraps (DESIGN CHOICE, log entry 64). -/
def M.engineLoad (t : TileId) (c : Cap) (off : Nat) (n : Nat) : M (List Byte) := do
  M.capCheck c .read (BitVec.ofNat 64 off) n
  let mask ← M.engineMask t c
  let bs ← (cutLines (n + 1) (canonical (c.addr (BitVec.ofNat 64 off))) n).mapM fun (va, k) => do
    let p ← M.matrixPart t mask va k .load
    M.engineRead t p
  pure bs.flatten

/-- Read a row of a capability (R238, R231). -/
def M.engineRow (t : TileId) (c : Cap) (row : Nat) : M (List Byte) :=
  M.engineLoad t c (row * c.fields.stride) c.fields.rowbytes

/-- The parts of a store of n bytes at an offset of a capability, with their checks (R29, R32). -/
def M.engineParts (t : TileId) (c : Cap) (off n : Nat) : M (List Part) := do
  M.capCheck c .write (BitVec.ofNat 64 off) n
  let mask ← M.engineMask t c
  (cutLines (n + 1) (canonical (c.addr (BitVec.ofNat 64 off))) n).mapM fun (va, k) => M.matrixPart t mask va k .store

/-! ### The last write of a command to a line (R85) -/

/-- Does an access of n bytes at a virtual address touch a line? Two virtual lines may be one physical line (DEDUCED,
log entry 52). -/
def State.touches (s : State) (root : Word) (line addr n : Nat) : Bool :=
  n != 0 && (List.range ((addr + n - 1) / 128 - addr / 128 + 1)).any fun k =>
    (s.peek root (canonical (BitVec.ofNat 64 (128 * (addr / 128 + k))))).any fun pa => lineOf pa == line

/-- Does a row of a capability from number i up to n touch a line? -/
def State.rowsTouch (s : State) (root : Word) (f : CapFields) (i n line : Nat) : Bool :=
  (List.range (n - i)).any fun k => s.touches root line (f.base + (i + k) * f.stride) f.rowbytes

/-- Set a line full, unless the command still writes to it. -/
def State.fillLine (s : State) (t : TileId) (line : Nat) (later : State → Word → Nat → Bool) : State :=
  if later s (s.tile t).user.ctxroot line then s else s.setFull line

/-- Write parts in ascending order. -/
def M.engineWrites : List Part → List Byte → M Unit
  | [], _ => pure ()
  | p :: ps, bs => do
    M.engineWrite p (bs.take p.n)
    M.engineWrites ps (bs.drop p.n)

/-- Is the tile's engine work held: in tile reset, frozen by a correctable error (R98), or by a tile fault (R372)? -/
def Tile.enginesHeld (x : Tile) : Bool := x.rbusy || x.frozen || x.fault.isSome

/-- Is the cause a page fault, which an engine refers to the operating system (R411)? -/
def isPageFault (cause : BitVec 8) : Bool :=
  cause == Cause.loadPageFault || cause == Cause.storePageFault || cause == Cause.fetchPageFault

/-- A page fault of an engine is referred to the resident operating system without a freeze: a composite record with
ESC = 1 and REF = 1, and an interrupt (R411; DEDUCED, log entry 50). -/
def State.refer (s : State) (t : TileId) (src : BitVec 4) (cause : BitVec 8) (addr : Word) : State :=
  if isPageFault cause then
    let h := fhdr cause src true t (s.ctxOf t) true true 0 0
    let rec_ := composite s t h addr (s.nextBoundary t) s.timing.now
    (s.logComposite t cause (s.ctxOf t) addr s.timing.now rec_).emit (.interrupt t.toNat cause)
  else s

end Sys2Proof.Machine
end

