-- ==== Sys2Proof/Machine/Quant.lean ====
section
/-! DEFINITION. Quantising a row of FP32 values with one scale, shared by DRAIN and `quant.row`
(spec/13_matrix_engine.md R241, spec/14_routines.md R282). -/

namespace Sys2Proof.Machine

/-- Is a magnitude at most another one times 2^k? -/
def Exact.leScaled (a b : Exact) (k : Int) : Bool :=
  let q := min a.exp (b.exp + k)
  decide (a.man * 2 ^ (a.exp - q).toNat ≤ b.man * 2 ^ (b.exp + k - q).toNat)

/-- The least E with a ≤ b × 2^E, for nonzero magnitudes: the leading bits differ by E or by one less. -/
def leastScale (a b : Exact) : Int :=
  let e : Int := (Nat.log2 a.man : Int) + a.exp - ((Nat.log2 b.man : Int) + b.exp)
  if a.leScaled b e then e else e + 1

/-- The finite values of a row. -/
def Value.fin? : Value → Option Exact
  | .fin v => some v
  | .inf _ => none
  | .nan _ => none

/-- E of a row: 0 for formats of more than 8 bits and for a row without a nonzero finite value (R241). -/
def rowScale (f : Fmt) (xs : List (BitVec 32)) : Int :=
  if 8 < fmtBits f then 0
  else
    match (xs.filterMap fun x => (f32Value x).fin?).filter (!·.isZero) with
    | [] => 0
    | v :: vs =>
      let m := vs.foldl (fun a b => if b.leScaled a 0 then a else b) v
      max (-127) (leastScale m (maxFinite f))

/-- The code of one value of a row with scale E, and its flags (R241). -/
def quantCode (f : Fmt) (m : Mode) (sat : Bool) (e : Int) (x : BitVec 32) : Nat × FpFlags :=
  if f = 0 then (x.toNat, 0)
  else
    match f32Value x with
    | .fin v => roundTo f m sat { v with exp := v.exp - e }
    | .inf n => specialInf f n
    | .nan y => specialNan f y

/-- The scale code E + 127, the codes and the flags of a row (R241). -/
def quantRow (f : Fmt) (m : Mode) (sat : Bool) (xs : List (BitVec 32)) : Nat × List Nat × FpFlags :=
  let e := rowScale f xs
  let cs := xs.map (quantCode f m sat e)
  ((e + 127).toNat, cs.map (·.1), cs.foldl (fun fl c => fl ||| c.2) 0)

end Sys2Proof.Machine
end

