-- ==== Sys2Proof/Machine/Matrix.lean ====
section
/-! DEFINITION. The matrix engine and the wellhead: each step performs one unit of the command at the head of the
compute queue (spec/13_matrix_engine.md R230 to R246, spec/04_coded_weights.md R65 to R81, spec/14_routines.md R268),
and the routines that push the commands. -/

namespace Sys2Proof.Machine

/-! ### Banks, scales and operands -/

/-- K_B of a weight format (R230). -/
def bankCodes (f : Fmt) : Nat :=
  match fmtBits f with
  | 16 => 128
  | 4 => 512
  | _ => 256

/-- Codes of a K block: GW of a weight format, GA of an activation format (R230, R233). -/
def blockCodes (f : Fmt) : Nat := if fmtBits f = 16 then 8 else 16

/-- The active bank, and the shadow bank (R232). -/
def Matrix.active (m : Matrix) : Bank := if m.ab then m.bank1 else m.bank0
def Matrix.shadow (m : Matrix) : Bank := if m.ab then m.bank0 else m.bank1

/-- Replace the shadow bank. -/
def Matrix.setShadow (m : Matrix) (b : Bank) : Matrix := if m.ab then { m with bank0 := b } else { m with bank1 := b }

/-- An accumulator row; a row beyond 1,023 does not exist and is never asked for. -/
def Matrix.row (m : Matrix) (r : Nat) : BitVec 4096 := m.acc.toList.getD r 0

/-- Replace an accumulator row. -/
def Matrix.setRow (m : Matrix) (r : Nat) (v : BitVec 4096) : Matrix := { m with acc := m.acc.setIfInBounds r v }

/-- The FP32 values of a row (R232). -/
def rowValues (v : BitVec 4096) : List (BitVec 32) := (List.range 128).map (rowLane 32 v)

/-- The null value that stands for an absent capability argument (R233, R263). -/
def Cap.isNull (c : Cap) : Bool := !c.tag && c.bits == 0

/-- The matrix state of a tile, within a computation. -/
def M.mx (t : TileId) : M Matrix := do
  let s ← get
  pure (s.tile t).mx

/-- Change the matrix state of a tile. -/
def M.modMx (t : TileId) (f : Matrix → Matrix) : M Unit :=
  modify fun s => s.setTile t { s.tile t with mx := f (s.tile t).mx }

/-- Mark the operand of a failing access or check for `OPND` (R243). -/
def M.operand {α : Type} (k : BitVec 3) (m : M α) : M α := fun s =>
  match m s with
  | .error (.trap cause addr _) s' => .error (.trap cause addr (k.setWidth 16)) s'
  | r => r

/-- A start check of a command (R413). -/
def M.check (ok : Bool) (cause : BitVec 8) (addr : Word) : M Unit := if ok then pure () else M.trap cause addr

/-- The address that a failing check on a capability reports: its BASE (R265). -/
def Cap.base (c : Cap) : Word := c.addr 0

/-- n scale codes from an offset of a scale capability, one access each; a null capability supplies 0x7F (R233). -/
def M.scaleBytes (t : TileId) (c : Cap) (off n : Nat) : M (List Nat) :=
  if c.isNull then pure (List.replicate n 0x7F)
  else (List.range n).mapM fun k => do
    let bs ← M.engineLoad t c (off + k) 1
    pure (natOfBytes bs)

/-- The weight scale codes WK and WN of a load of format F, into the staged bank (R231, R233). -/
def M.weightScales (t : TileId) (f : Fmt) (sc : Cap) : M Unit := do
  let nk := bankCodes f / blockCodes f
  let wk ← M.operand 3 (M.scaleBytes t sc 0 nk)
  let wn ← M.operand 3 (M.scaleBytes t sc nk 128)
  M.modMx t fun m =>
    { m with stage :=
      { w := Vector.replicate 128 0, fmt := f, wk := ofLanes 8 (wk.map (BitVec.ofNat 8))
        wn := ofLanes 8 (wn.map (BitVec.ofNat 8)), valid := true } }

/-- A load starts: the shadow bank is invalid until it completes (R232). -/
def M.startLoad (t : TileId) : M Unit := M.modMx t fun m => m.setShadow { m.shadow with valid := false }

/-- A load completes: weights, format, scales and the valid bit together (R232). -/
def M.finishLoad (t : TileId) : M Unit := M.modMx t fun m => m.setShadow m.stage

/-- Stage a row of weights as part of column n (R231). -/
def Matrix.stageColumn (m : Matrix) (n shift : Nat) (bs : List Byte) : Matrix :=
  let old := m.stage.w.toList.getD n 0
  { m with stage := { m.stage with w := m.stage.w.setIfInBounds n (old ||| (ofBytes 2048 bs <<< shift)) } }

/-- The head command has passed its start checks, at row or segment zero. -/
def M.beginCmd (t : TileId) : M Unit := M.modMx t fun m => { m with begun := true }

/-- A row is done; the answer says whether it was the last of n. -/
def M.rowDone (t : TileId) (n : Nat) : M Bool := do
  M.modMx t fun m => { m with rowp := m.rowp + 1 }
  let m ← M.mx t
  pure (decide (n ≤ m.rowp))

/-! ### Completion and halts (R236, R244) -/

/-- The command at the head of the queue is complete. -/
def State.matrixDone (s : State) (t : TileId) (e : MatEntry) : State :=
  let x := s.tile t
  let m := x.mx.finish e.cmd.well e.number
  s.setTile t
    { x with
      mx := { m with
        queue := m.queue.drop 1, begun := false, rowp := 0, flags := 0, entry := none, whSecond := false, pages := []
        whState := if e.cmd.well then 0 else m.whState }
      user := x.user.raiseEngine m.flags }

/-- The command at the head of the queue halts at a failing check or access, and the engine reports it (R244). -/
def State.haltMatrix (s : State) (t : TileId) (well : Bool) (cause : BitVec 8) (opnd : BitVec 3) (addr : Word) : State :=
  let x := s.tile t
  let m := { x.mx with halt := some ⟨cause, opnd, addr, well⟩ }
  let m := if well then { m with whCause := cause, whState := 2 } else m
  let src : BitVec 4 := if well then 6 else 5
  ((s.setTile t { x with mx := m }).countFault t src).refer t src cause addr

/-- Perform a unit of the head command; the unit answers whether the command is complete. A wait for an empty line
leaves the unit to be performed again (R86). -/
def State.matrixUnit (s : State) (t : TileId) (e : MatEntry) (u : M Bool) : State :=
  match u s with
  | .ok true s' => s'.matrixDone t e
  | .ok false s' => s'
  | .error (.trap cause addr opnd) s' => s'.haltMatrix t e.cmd.well cause (opnd.setWidth 3) addr
  | .error (.wait _ _) s' => s'

/-- The command that the engine may work on: the head of the queue, unless the engine is halted or held (R235, R372). -/
def Tile.matrixHead (x : Tile) : Option MatEntry :=
  if x.enginesHeld || x.mx.halt.isSome then none else x.mx.queue.head?

/-! ### WLOAD (R231, R232, R268) -/

/-- One unit of a WLOAD: its start with the scales, or one column (DEDUCED, log entry 53). -/
def M.wload (t : TileId) (w sc : Cap) : M Bool := do
  let m ← M.mx t
  let f := w.fields
  if !m.begun then do
    M.startLoad t
    M.operand 2 do
      M.check (f.fmt != 0 && isFormat f.fmt) Cause.unsupportedFormat w.base
      M.check (f.rows == 128 && f.rowbytes == fmtBytes (bankCodes f.fmt) f.fmt) Cause.matrixShapeMismatch w.base
    M.weightScales t f.fmt sc
    M.beginCmd t
    pure false
  else do
    let bs ← M.operand 2 (M.engineRow t w m.rowp)
    M.modMx t fun m => m.stageColumn m.rowp 0 bs
    let last ← M.rowDone t 128
    if last then M.finishLoad t
    pure last

/-- The engine performs a unit of a WLOAD. -/
def execWload (t : TileId) (s : State) : Host.Outcome State Fault Refusal :=
  match (s.tile t).matrixHead with
  | none => .next s
  | some e =>
    match e.cmd with
    | .wload w sc => .next (s.matrixUnit t e (M.wload t w sc))
    | _ => .next s

/-! ### The wellhead (R67 to R80) -/

/-- The wellhead reads through the header's capability and notes where it is (R78, R79). -/
def wellCoder (t : TileId) (hdr : Cap) : Coder where
  read off n := M.engineLoad t hdr off n
  addr off := canonical (hdr.addr (BitVec.ofNat 64 off))
  note i k := M.modMx t fun m => { m with whSym := BitVec.ofNat 11 i, whSlot := k }

/-- `WHSTAT` as a wellhead command starts: TILE is the first tile of a WLOADC, the tile of a DECODE, and 0 for a TABLE,
also where the header turns out bad (DEDUCED, log entry 37). -/
def M.wellStart (t : TileId) (tile : BitVec 24) : M Unit :=
  M.modMx t fun m =>
    { m with whTile := tile, whSeg := 0, whSym := 0, whSlot := 0, whCause := 0, whState := 1, whSecond := false
             entry := none }

/-- A WLOADC or DECODE takes the tables that its segments decode with as it starts (R81). -/
def M.holdTables (t : TileId) : M Unit := M.modMx t fun m => { m with heldSlots := m.slots, heldMask := m.mask }

/-- Check and keep the header of the command. -/
def M.wellHeader (t : TileId) (hdr : Cap) (tiles : List Nat) : M (BitVec 512) := do
  let c := wellCoder t hdr
  let h ← c.header
  tiles.forM (c.tile h)
  M.modMx t fun m => { m with header := h }
  pure h

/-- Decode one segment of a tile: the index entry first, before segment 0; the answer is the segment's number and rows
(R73, R75). SYM is then 0, also at a fault of the delivery that follows (DEDUCED, log entry 37). The segment decodes
with the tables that the slots held when the command started (R81; DEDUCED, log entry 65). -/
def M.wellSegment (t : TileId) (hdr : Cap) (tile : Nat) : M (Nat × List (List Byte)) := do
  let c := wellCoder t hdr
  let m ← M.mx t
  let e ← match m.entry with
    | some e => pure e
    | none => do
      M.modMx t fun m => { m with whTile := BitVec.ofNat 24 tile, whSeg := 0, whSym := 0, whSlot := 0 }
      let e ← c.entry m.header tile
      M.modMx t fun m => { m with entry := some e }
      pure e
  let m ← M.mx t
  let f := (codedHeader m.header).fmt
  let q := m.whSeg.toNat
  let sym ← c.segment m.heldSlots m.heldMask f e q (segmentAt m.header e q)
  M.modMx t fun m => { m with whSym := 0 }
  pure (q, (List.range 16).map (segmentRow f sym))

/-- Move to the next segment; the answer says whether the tile is decoded, and SEG then keeps its last segment (DEDUCED,
log entry 37). -/
def M.nextSegment (t : TileId) (q : Nat) : M Bool := do
  if q = 7 then do
    M.modMx t fun m => { m with entry := none }
    pure true
  else do
    M.modMx t fun m => { m with whSeg := m.whSeg + 1 }
    pure false

/-- One unit of a WLOADC: its start, or one segment of one of its tiles (R231). A header that fails its checks leaves
the shadow bank as it is (R68). -/
def M.wloadc (t : TileId) (hdr : Cap) (t0 t1 : BitVec 24) (sc : Cap) : M Bool := do
  let m ← M.mx t
  if !m.begun then do
    M.wellStart t t0
    let h ← M.operand 2 (M.wellHeader t hdr [t0.toNat, t1.toNat])
    M.startLoad t
    M.weightScales t (codedHeader h).fmt sc
    M.holdTables t
    M.beginCmd t
    pure false
  else do
    let tile := if m.whSecond then t1 else t0
    let (q, rows) ← M.operand 2 (M.wellSegment t hdr tile.toNat)
    let shift := if m.whSecond then 8 * codedRowBytes (codedHeader m.header).fmt else 0
    (List.range 16).forM fun r => M.modMx t fun m => m.stageColumn (16 * q + r) shift (rows.getD r [])
    let last ← M.nextSegment t q
    if !last then pure false
    else if m.whSecond then do
      M.finishLoad t
      pure true
    else do
      M.modMx t fun m => { m with whSecond := true, whTile := t1, whSeg := 0 }
      pure false

/-- The wellhead performs a unit of a WLOADC. -/
def execWloadc (t : TileId) (s : State) : Host.Outcome State Fault Refusal :=
  match (s.tile t).matrixHead with
  | none => .next s
  | some e =>
    match e.cmd with
    | .wloadc hdr t0 t1 sc => .next (s.matrixUnit t e (M.wloadc t hdr t0 t1 sc))
    | _ => .next s

/-- Load one table record, checked before it is copied (R70). -/
def M.loadTable (t : TileId) (hdr : Cap) (h : CodedHeader) (k : Nat) : M Unit := do
  let c := wellCoder t hdr
  c.note 0 (BitVec.ofNat 3 k)
  let off := h.toff + 512 * k
  let bs ← c.read off 512
  let r : BitVec 4096 := ofBytes 4096 bs
  if !tableGood r then M.trap Cause.badTableSum (c.addr off)
  M.modMx t fun m =>
    { m with slots := m.slots.setIfInBounds k r, mask := m.mask ||| BitVec.ofNat 8 (2 ^ k) }

/-- A TABLE command, whole: the header's checks and then its records in ascending order (R68, R70). -/
def M.table (t : TileId) (hdr : Cap) : M Bool := do
  M.wellStart t 0
  let h ← M.operand 2 (M.wellHeader t hdr [])
  M.operand 2 ((List.range (codedHeader h).ntab).forM (M.loadTable t hdr (codedHeader h)))
  pure true

/-- The wellhead performs a TABLE command. -/
def execTable (t : TileId) (s : State) : Host.Outcome State Fault Refusal :=
  match (s.tile t).matrixHead with
  | none => .next s
  | some e =>
    match e.cmd with
    | .table hdr => .next (s.matrixUnit t e (M.table t hdr))
    | _ => .next s

/-- Deliver the rows of a segment into the destination of a DECODE: every check first (R77). -/
def M.deliverRows (t : TileId) (dst : Cap) (q : Nat) (rows : List (List Byte)) : M Unit := do
  let f := dst.fields
  let ps ← (List.range 16).mapM fun r => M.engineParts t dst ((16 * q + r) * f.stride) f.rowbytes
  (List.range 16).forM fun r => do
    let parts := ps.getD r []
    M.engineWrites parts (rows.getD r [])
    parts.forM fun p => modify fun s =>
      s.fillLine t (lineOf p.pa) fun s root l => s.rowsTouch root f (16 * q + r + 1) 128 l

/-- One unit of a DECODE: its start, or one segment (R77, R268). -/
def M.decode (t : TileId) (hdr : Cap) (tile : Word) (dst : Cap) : M Bool := do
  let m ← M.mx t
  if !m.begun then do
    M.wellStart t (tile.setWidth 24)
    let h ← M.operand 2 (M.wellHeader t hdr [tile.toNat])
    let f := dst.fields
    M.operand 4 (M.check (f.rows == 128 && f.rowbytes == codedRowBytes (codedHeader h).fmt)
      Cause.matrixShapeMismatch dst.base)
    M.holdTables t
    M.beginCmd t
    pure false
  else do
    let (q, rows) ← M.operand 2 (M.wellSegment t hdr tile.toNat)
    M.operand 4 (M.deliverRows t dst q rows)
    M.nextSegment t q

/-- The wellhead performs a unit of a DECODE. -/
def execDecode (t : TileId) (s : State) : Host.Outcome State Fault Refusal :=
  match (s.tile t).matrixHead with
  | none => .next s
  | some e =>
    match e.cmd with
    | .decode hdr tile dst => .next (s.matrixUnit t e (M.decode t hdr tile dst))
    | _ => .next s

/-! ### SWAP (R239) -/

/-- SWAP. -/
def M.swap (t : TileId) : M Bool := do
  let m ← M.mx t
  M.check m.shadow.valid Cause.matrixBankNotLoaded 0
  M.modMx t fun m => { m with ab := !m.ab }
  pure true

/-- The engine performs a SWAP. -/
def execSwap (t : TileId) (s : State) : Host.Outcome State Fault Refusal :=
  match (s.tile t).matrixHead with
  | none => .next s
  | some e =>
    match e.cmd with
    | .swap => .next (s.matrixUnit t e (M.swap t))
    | _ => .next s

/-! ### ACT (R237, R238) -/

/-- The common format of a pair of activation and weight formats, if the pair is permitted (R237). -/
def pairFormat (fa fw : Fmt) : Option Fmt :=
  if fa = fw then some fa
  else if fa = 2 || fw = 2 then (if fa = 1 || fw = 1 then none else some 2)
  else some 1

/-- Check that rows abase .. abase + n − 1 exist: the address is the first that does not (R238, R240, R241, R265). -/
def M.rowRange (abase : Word) (n : Nat) : M Unit :=
  M.check (decide (abase.toNat + n ≤ 1024)) Cause.accumulatorRange (BitVec.ofNat 64 (Nat.max abase.toNat 1024))

/-- The start checks of an ACT, and its AK codes (R238). -/
def M.actStart (t : TileId) (a sc : Cap) (abase : Word) : M Unit := do
  let m ← M.mx t
  let b := m.active
  let f := a.fields
  M.check b.valid Cause.matrixBankNotLoaded 0
  M.check (f.fmt != 0 && isFormat f.fmt) Cause.unsupportedFormat a.base
  M.check (pairFormat f.fmt b.fmt).isSome Cause.matrixFormatPair 0
  M.check (f.rowbytes == fmtBytes (bankCodes b.fmt) f.fmt) Cause.matrixShapeMismatch a.base
  M.rowRange abase f.rows
  let ak ← M.operand 1 (M.scaleBytes t sc 0 (bankCodes b.fmt / blockCodes f.fmt))
  M.modMx t fun m => { m with ak := ofLanes 8 (ak.map (BitVec.ofNat 8)) }
  M.beginCmd t

/-- A byte of a packed list of scale codes. -/
def codeByte {n : Nat} (x : BitVec n) (k : Nat) : Nat := (x.extractLsb' (8 * k) 8).toNat

/-- The codes of an operand as expanded elements of the common format (R53, R237). -/
def expandRow (f c : Fmt) (row : Nat) (n rs : Nat) (cs : Nat → Nat) : List Value :=
  (List.range n).map fun k => expandElem c (convertCode f c .rne false (codeAt f row k)).1 rs (cs k)

/-- The sum of one column: each group added once, in ascending K, as `vfdot` adds it (R238, R189). -/
def columnSum (c : Fmt) (acc : BitVec 32) (a w : List Value) : Fp :=
  let (g, _, _) := groupShape c
  (chunks g a.length (a.zip w)).foldl (init := (acc, 0)) fun r ps =>
    let x := dotGroups c r.1 ps
    (x.1, r.2 ||| x.2)

/-- The 128 sums of a row: the new accumulator row and its flags (R238). -/
def actRow (b : Bank) (fa : Fmt) (ak : BitVec 512) (am : Nat) (row : Nat) (acc : BitVec 4096) :
    BitVec 4096 × FpFlags :=
  let c := (pairFormat fa b.fmt).getD fa
  let n := bankCodes b.fmt
  let a := expandRow fa c row n am fun k => codeByte ak (k / blockCodes fa)
  let rs := (List.range 128).map fun i =>
    let w := expandRow b.fmt c (b.w.toList.getD i 0).toNat n (codeByte b.wn i) fun k =>
      codeByte b.wk (k / blockCodes b.fmt)
    columnSum c (rowLane 32 acc i) a w
  (ofLanes 32 (rs.map (·.1)), flagsOf rs)

/-- One unit of an ACT: its start, or one row. -/
def M.act (t : TileId) (a sc : Cap) (abase : Word) : M Bool := do
  let m ← M.mx t
  let f := a.fields
  if f.rows = 0 then pure true
  else if !m.begun then do
    M.actStart t a sc abase
    pure false
  else do
    let b := m.active
    let i := m.rowp
    let bs ← M.operand 0 (M.engineRow t a i)
    let am ← M.operand 1 (M.scaleBytes t sc (bankCodes b.fmt / blockCodes f.fmt + i) 1)
    let r := actRow b f.fmt m.ak (am.headD 0x7F) (natOfBytes bs) (m.row (abase.toNat + i))
    M.modMx t fun m => { m.setRow (abase.toNat + i) r.1 with flags := m.flags ||| r.2 }
    M.rowDone t f.rows

/-- The engine performs a unit of an ACT. -/
def execAct (t : TileId) (s : State) : Host.Outcome State Fault Refusal :=
  match (s.tile t).matrixHead with
  | none => .next s
  | some e =>
    match e.cmd with
    | .act a sc abase => .next (s.matrixUnit t e (M.act t a sc abase))
    | _ => .next s

/-! ### ZERO and DRAIN (R240, R241) -/

/-- ZERO. -/
def M.zero (t : TileId) (abase count : Word) : M Bool := do
  if count ≠ 0 then M.rowRange abase count.toNat
  M.modMx t fun m => (List.range (Nat.min count.toNat 1024)).foldl (fun m k => m.setRow (abase.toNat + k) 0) m
  pure true

/-- The engine performs a ZERO. -/
def execZero (t : TileId) (s : State) : Host.Outcome State Fault Refusal :=
  match (s.tile t).matrixHead with
  | none => .next s
  | some e =>
    match e.cmd with
    | .zero abase count => .next (s.matrixUnit t e (M.zero t abase count))
    | _ => .next s

/-- The start checks of a DRAIN (R241). -/
def M.drainStart (t : TileId) (dst : Cap) (abase : Word) : M Unit := do
  let f := dst.fields
  M.operand 4 do
    M.check (isFormat f.fmt) Cause.unsupportedFormat dst.base
    M.check (f.rowbytes == fmtBytes 128 f.fmt) Cause.matrixShapeMismatch dst.base
  M.rowRange abase f.rows
  M.beginCmd t

/-- Write bytes line by line, each line with its checks; the answer is the lines written (R32). -/
def M.drainWrite (t : TileId) (c : Cap) (off : Nat) (bs : List Byte) : M (List Nat) := do
  M.capCheck c .write (BitVec.ofNat 64 off) bs.length
  let mask ← M.engineMask t c
  let r ← (cutLines (bs.length + 1) (canonical (c.addr (BitVec.ofNat 64 off))) bs.length).foldlM (init := (bs, []))
    fun r (va, k) => do
      let p ← M.matrixPart t mask va k .store
      M.engineWrite p (r.1.take k)
      pure (r.1.drop k, r.2 ++ [lineOf p.pa])
  pure r.2

/-- Does a scale byte of rows i .. n − 1 lie in a line? -/
def State.scalesTouch (s : State) (root : Word) (q : Cap) (i n line : Nat) : Bool :=
  !q.isNull && s.touches root line (q.fields.base + i) (n - i)

/-- One unit of a DRAIN: its start, or one row. A row's writes are all made before the lines that the command is done
with are set full, so that a row which is begun again writes no full line (R85, R320). -/
def M.drain (t : TileId) (dst q : Cap) (abase : Word) (rm : Rm) (sat za : Bool) : M Bool := do
  let m ← M.mx t
  let f := dst.fields
  if f.rows = 0 then pure true
  else if !m.begun then do
    M.drainStart t dst abase
    pure false
  else do
    let i := m.rowp
    let (scale, codes, flags) := quantRow f.fmt (resolve rm 0) sat (rowValues (m.row (abase.toNat + i)))
    let data : List Byte := toBytes (fmtBytes 128 f.fmt) (BitVec.ofNat 4096 (packCodes f.fmt codes))
    let rowLines ← M.operand 4 (M.drainWrite t dst (i * f.stride) data)
    let scaleLine ← if q.isNull then pure [] else M.operand 5 (M.drainWrite t q i [BitVec.ofNat 8 scale])
    (rowLines ++ scaleLine).forM fun l => modify fun s =>
      s.fillLine t l fun s root l => s.rowsTouch root f (i + 1) f.rows l || s.scalesTouch root q (i + 1) f.rows l
    M.modMx t fun m =>
      let m := { m with flags := m.flags ||| flags }
      if za then m.setRow (abase.toNat + i) 0 else m
    M.rowDone t f.rows

/-- The engine performs a unit of a DRAIN. -/
def execDrain (t : TileId) (s : State) : Host.Outcome State Fault Refusal :=
  match (s.tile t).matrixHead with
  | none => .next s
  | some e =>
    match e.cmd with
    | .drain dst q abase rm sat za => .next (s.matrixUnit t e (M.drain t dst q abase rm sat za))
    | _ => .next s

/-! ### Resuming (R80, R244) -/

/-- The engine goes on: an ACT or DRAIN at its row with its start checks made again, a WLOAD from column 0 (R244). -/
def Matrix.restart (m : Matrix) : Matrix :=
  let plain :=
    match m.queue.head?.map (·.cmd) with
    | some (.wload _ _) => true
    | _ => false
  { m with halt := none, begun := false, rowp := if plain then 0 else m.rowp }

/-- The firmware context resumes a halted matrix command, once no freeze covers the engine (R98). -/
def execMatrixResume (t : TileId) (s : State) : Host.Outcome State Fault Refusal :=
  let x := s.tile t
  match x.mx.halt with
  | none => .next s
  | some h => .next (if h.well || x.frozen then s else s.setTile t { x with mx := x.mx.restart })

/-- The firmware context resumes a stopped decode at the restart marker of its segment (R80). -/
def execDecodeResume (t : TileId) (s : State) : Host.Outcome State Fault Refusal :=
  let x := s.tile t
  match x.mx.halt with
  | none => .next s
  | some h =>
    .next (if h.well && !x.frozen then
        s.setTile t { x with mx := { x.mx with halt := none, whCause := 0, whState := 1 } }
      else s)

/-! ### The matrix routines on the native path (R261, R268) -/

/-- Leave the routine call with s1 as the `rcall` found it, for a check or a wait at the `rcall` itself (R261). -/
def Stream.backOut (x : Stream) : Stream :=
  match x.calls with
  | [] => x
  | f :: rest => { x with s := x.s.set 1 f.link, calls := rest, rejoin := f.rejoin }

/-- The native step of a matrix routine: push its command and return; a full queue holds the stream at the `rcall`. It
makes the header store of its definition, whose fault it takes at the definition's word, with the command's number taken
by the definition (R259, R261, R265). -/
def mmRoutine (r : Routine) (s : State) : Host.Outcome State Fault Refusal :=
  match s.str.calls with
  | [] => .next s
  | f :: rest =>
    if f.native ≠ some r then .next s
    else
      match matrixCommand r s.str with
      | none => .next s
      | some (.error c) => finish ((M.trap c 0 : M Unit) (s.setStr s.str.backOut))
      | some (.ok c) =>
        if s.here.mx.queue.length ≥ 16 then
          finish ((throw (.wait .waiting .computeQueue) : M Unit) (s.setStr s.str.backOut))
        else
          match M.entryHeader s with
          | .ok _ s' =>
            let s' := s'.setStr { s'.str with calls := rest, pc := f.ret, woken := false, rejoin := f.rejoin }
            .next (s'.setTile s'.cur.tile { s'.here with mx := s'.here.mx.push c })
          | .error (.wait st w) _ => .next (s.setStr { s.str with state := st, wait := w, woken := false })
          | .error e s' => finish (.error e (s'.takeNumber r f.asy))

/-- `mm.wload` (R268). -/
def execMmWload (s : State) : Host.Outcome State Fault Refusal := mmRoutine .mmWload s
/-- `mm.wdecode` (R268). -/
def execMmWdecode (s : State) : Host.Outcome State Fault Refusal := mmRoutine .mmWdecode s
/-- `mm.swap` (R268). -/
def execMmSwap (s : State) : Host.Outcome State Fault Refusal := mmRoutine .mmSwap s
/-- `mm.act` (R268). -/
def execMmAct (s : State) : Host.Outcome State Fault Refusal := mmRoutine .mmAct s
/-- `mm.drain` (R268). -/
def execMmDrain (s : State) : Host.Outcome State Fault Refusal := mmRoutine .mmDrain s
/-- `mm.zero` (R268). -/
def execMmZero (s : State) : Host.Outcome State Fault Refusal := mmRoutine .mmZero s

end Sys2Proof.Machine
end

