-- ==== Sys2Proof/Machine/Scalar.lean ====
section
/-! DEFINITION. Class 0b00, integers: spec/09_scalar_and_control.md R152 to R158. -/

namespace Sys2Proof.Machine

/-! ### Shared operations -/

/-- A form with two scalar operands at a width (R152). -/
def scalar2 (g : Pred) (w : Width) (d a b : SReg) (f : BitVec w.n → BitVec w.n → BitVec w.n) (s : State) :
    Host.Outcome State Fault Refusal :=
  register g (fun x => x.setW d (f (atWidth w (x.getS a)) (atWidth w (x.getS b)))) s

/-- A form with one scalar operand at a width (R155). -/
def scalar1 (g : Pred) (w : Width) (d a : SReg) (f : BitVec w.n → BitVec w.n) (s : State) :
    Host.Outcome State Fault Refusal :=
  register g (fun x => x.setW d (f (atWidth w (x.getS a)))) s

/-- A form with a sign-extended immediate (R158). -/
def scalarImm (g : Pred) (d a : SReg) (imm : BitVec 37) (f : Word → Word → Word) (s : State) :
    Host.Outcome State Fault Refusal :=
  register g (fun x => x.setS d (f (x.getS a) (imm.signExtend 64))) s

/-- Bits 2n−1 : n of the signed product (R153). -/
def mulHigh {n : Nat} (a b : BitVec n) : BitVec n := BitVec.ofInt n ((a.toInt * b.toInt) >>> n)

/-- Bits 2n−1 : n of the unsigned product (R153). -/
def mulHighU {n : Nat} (a b : BitVec n) : BitVec n := BitVec.ofNat n ((a.toNat * b.toNat) >>> n)

/-- Signed division (R154). -/
def divS {n : Nat} (a b : BitVec n) : BitVec n :=
  if b = 0 then BitVec.allOnes n else BitVec.ofInt n (Int.tdiv a.toInt b.toInt)

/-- Unsigned division (R154). -/
def divU {n : Nat} (a b : BitVec n) : BitVec n :=
  if b = 0 then BitVec.allOnes n else BitVec.ofNat n (a.toNat / b.toNat)

/-- Signed remainder (R154). -/
def remS {n : Nat} (a b : BitVec n) : BitVec n :=
  if b = 0 then a else BitVec.ofInt n (Int.tmod a.toInt b.toInt)

/-- Unsigned remainder (R154). -/
def remU {n : Nat} (a b : BitVec n) : BitVec n :=
  if b = 0 then a else BitVec.ofNat n (a.toNat % b.toNat)

/-- Shifts by b mod n (R153). -/
def shiftL {n : Nat} (a b : BitVec n) : BitVec n := a <<< (b.toNat % n)
def shiftR {n : Nat} (a b : BitVec n) : BitVec n := a >>> (b.toNat % n)
def shiftA {n : Nat} (a b : BitVec n) : BitVec n := a.sshiftRight (b.toNat % n)

/-- The smaller and the larger, as signed or as unsigned integers (R153). -/
def minS {n : Nat} (a b : BitVec n) : BitVec n := if b.slt a then b else a
def maxS {n : Nat} (a b : BitVec n) : BitVec n := if a.slt b then b else a
def minU {n : Nat} (a b : BitVec n) : BitVec n := if b.ult a then b else a
def maxU {n : Nat} (a b : BitVec n) : BitVec n := if a.ult b then b else a

/-- The number of leading zero bits (R155). -/
def countLeading {n : Nat} (a : BitVec n) : BitVec n :=
  BitVec.ofNat n (if a = 0 then n else n - 1 - Nat.log2 a.toNat)

/-- The number of trailing zero bits (R155). -/
def countTrailing {n : Nat} (a : BitVec n) : BitVec n :=
  BitVec.ofNat n (((List.range n).find? a.getLsbD).getD n)

/-- The number of one bits (R155). -/
def popCount {n : Nat} (a : BitVec n) : BitVec n := BitVec.ofNat n (countTrue a.getLsbD n)

/-- Bit i moved to bit n−1−i (R155). -/
def bitReverse {n : Nat} (a : BitVec n) : BitVec n :=
  (List.range n).foldl (fun r i => if a.getLsbD i then r ||| BitVec.twoPow n (n - 1 - i) else r) 0

/-- Byte i moved to byte n/8−1−i (R155). -/
def byteSwap {n : Nat} (a : BitVec n) : BitVec n := ofBytes n (toBytes (n / 8) a).reverse

/-- The position and length of a bit field (R156). -/
def fieldOf (n : Nat) (b c : Word) : Nat × Nat :=
  let pos := (b.toNat % 2 ^ n) % n
  (pos, Nat.min c.toNat (n - pos))

/-- The field as a number (R156). -/
def fieldBits {n : Nat} (a : BitVec n) (pos len : Nat) : Nat := a.toNat / 2 ^ pos % 2 ^ len

/-- `bfx` (R156). -/
def fieldSigned {n : Nat} (a : BitVec n) (pos len : Nat) : BitVec n :=
  let f := fieldBits a pos len
  if len = 0 then 0
  else if f < 2 ^ (len - 1) then BitVec.ofNat n f else BitVec.ofNat n (2 ^ n - 2 ^ len + f)

/-- `bfi` (R156): bits pos+len−1 : pos of d replaced by bits len−1 : 0 of a. -/
def fieldInsert {n : Nat} (d a : BitVec n) (pos len : Nat) : BitVec n :=
  let mask : BitVec n := BitVec.ofNat n ((2 ^ len - 1) * 2 ^ pos)
  (d &&& ~~~mask) ||| ((a <<< pos) &&& mask)

/-- An integer condition (R144, R157). -/
def condHolds {n : Nat} (cc : Cond) (a b : BitVec n) : Bool :=
  match cc with
  | .eq => a == b
  | .ne => a != b
  | .lt => a.slt b
  | .ge => !a.slt b
  | .le => !b.slt a
  | .gt => b.slt a
  | .ltu => a.ult b
  | .geu => !a.ult b
  | .leu => !b.ult a
  | .gtu => b.ult a

/-! ### Meanings -/

/-- `add` (R153). -/
def execAdd (g : Pred) (w : Width) (d a b : SReg) (s : State) : Host.Outcome State Fault Refusal :=
  scalar2 g w d a b (· + ·) s

/-- `sub` (R153). -/
def execSub (g : Pred) (w : Width) (d a b : SReg) (s : State) : Host.Outcome State Fault Refusal :=
  scalar2 g w d a b (· - ·) s

/-- `mul` (R153). -/
def execMul (g : Pred) (w : Width) (d a b : SReg) (s : State) : Host.Outcome State Fault Refusal :=
  scalar2 g w d a b (· * ·) s

/-- `mulh` (R153). -/
def execMulh (g : Pred) (w : Width) (d a b : SReg) (s : State) : Host.Outcome State Fault Refusal :=
  scalar2 g w d a b mulHigh s

/-- `mulhu` (R153). -/
def execMulhu (g : Pred) (w : Width) (d a b : SReg) (s : State) : Host.Outcome State Fault Refusal :=
  scalar2 g w d a b mulHighU s

/-- `div` (R154). -/
def execDiv (g : Pred) (w : Width) (d a b : SReg) (s : State) : Host.Outcome State Fault Refusal :=
  scalar2 g w d a b divS s

/-- `divu` (R154). -/
def execDivu (g : Pred) (w : Width) (d a b : SReg) (s : State) : Host.Outcome State Fault Refusal :=
  scalar2 g w d a b divU s

/-- `rem` (R154). -/
def execRem (g : Pred) (w : Width) (d a b : SReg) (s : State) : Host.Outcome State Fault Refusal :=
  scalar2 g w d a b remS s

/-- `remu` (R154). -/
def execRemu (g : Pred) (w : Width) (d a b : SReg) (s : State) : Host.Outcome State Fault Refusal :=
  scalar2 g w d a b remU s

/-- `and` (R153). -/
def execAnd (g : Pred) (w : Width) (d a b : SReg) (s : State) : Host.Outcome State Fault Refusal :=
  scalar2 g w d a b (· &&& ·) s

/-- `or` (R153). -/
def execOr (g : Pred) (w : Width) (d a b : SReg) (s : State) : Host.Outcome State Fault Refusal :=
  scalar2 g w d a b (· ||| ·) s

/-- `xor` (R153). -/
def execXor (g : Pred) (w : Width) (d a b : SReg) (s : State) : Host.Outcome State Fault Refusal :=
  scalar2 g w d a b (· ^^^ ·) s

/-- `sll` (R153). -/
def execSll (g : Pred) (w : Width) (d a b : SReg) (s : State) : Host.Outcome State Fault Refusal :=
  scalar2 g w d a b shiftL s

/-- `srl` (R153). -/
def execSrl (g : Pred) (w : Width) (d a b : SReg) (s : State) : Host.Outcome State Fault Refusal :=
  scalar2 g w d a b shiftR s

/-- `sra` (R153). -/
def execSra (g : Pred) (w : Width) (d a b : SReg) (s : State) : Host.Outcome State Fault Refusal :=
  scalar2 g w d a b shiftA s

/-- `min` (R153). -/
def execMin (g : Pred) (w : Width) (d a b : SReg) (s : State) : Host.Outcome State Fault Refusal :=
  scalar2 g w d a b minS s

/-- `max` (R153). -/
def execMax (g : Pred) (w : Width) (d a b : SReg) (s : State) : Host.Outcome State Fault Refusal :=
  scalar2 g w d a b maxS s

/-- `minu` (R153). -/
def execMinu (g : Pred) (w : Width) (d a b : SReg) (s : State) : Host.Outcome State Fault Refusal :=
  scalar2 g w d a b minU s

/-- `maxu` (R153). -/
def execMaxu (g : Pred) (w : Width) (d a b : SReg) (s : State) : Host.Outcome State Fault Refusal :=
  scalar2 g w d a b maxU s

/-- `clz` (R155). -/
def execClz (g : Pred) (w : Width) (d a : SReg) (s : State) : Host.Outcome State Fault Refusal :=
  scalar1 g w d a countLeading s

/-- `ctz` (R155). -/
def execCtz (g : Pred) (w : Width) (d a : SReg) (s : State) : Host.Outcome State Fault Refusal :=
  scalar1 g w d a countTrailing s

/-- `popc` (R155). -/
def execPopc (g : Pred) (w : Width) (d a : SReg) (s : State) : Host.Outcome State Fault Refusal :=
  scalar1 g w d a popCount s

/-- `brev` (R155). -/
def execBrev (g : Pred) (w : Width) (d a : SReg) (s : State) : Host.Outcome State Fault Refusal :=
  scalar1 g w d a bitReverse s

/-- `bswap` (R155). -/
def execBswap (g : Pred) (w : Width) (d a : SReg) (s : State) : Host.Outcome State Fault Refusal :=
  scalar1 g w d a byteSwap s

/-- A form that takes a bit field of sA at a position in sB and of a length in sC (R156); `f` is given sD too. -/
def bitField (g : Pred) (w : Width) (d a b c : SReg) (f : BitVec w.n → BitVec w.n → Nat → Nat → BitVec w.n)
    (s : State) : Host.Outcome State Fault Refusal :=
  register g (fun x =>
    let p := fieldOf w.n (x.getS b) (x.getS c)
    x.setW d (f (atWidth w (x.getS d)) (atWidth w (x.getS a)) p.1 p.2)) s

/-- `bfx` (R156). -/
def execBfx (g : Pred) (w : Width) (d a b c : SReg) (s : State) : Host.Outcome State Fault Refusal :=
  bitField g w d a b c (fun _ x pos len => fieldSigned x pos len) s

/-- `bfxu` (R156). -/
def execBfxu (g : Pred) (w : Width) (d a b c : SReg) (s : State) : Host.Outcome State Fault Refusal :=
  bitField g w d a b c (fun _ x pos len => BitVec.ofNat _ (fieldBits x pos len)) s

/-- `bfi` (R156). -/
def execBfi (g : Pred) (w : Width) (d a b c : SReg) (s : State) : Host.Outcome State Fault Refusal :=
  bitField g w d a b c fieldInsert s

/-- `cmp` (R157). -/
def execCmp (g : Pred) (w : Width) (cc : Cond) (d : PReg) (a b : SReg) (s : State) :
    Host.Outcome State Fault Refusal :=
  register g (fun x => x.setP d (condHolds cc (atWidth w (x.getS a)) (atWidth w (x.getS b)))) s

/-- `sel` (R157). -/
def execSel (g : Pred) (d a b : SReg) (c : PReg) (s : State) : Host.Outcome State Fault Refusal :=
  register g (fun x => x.setS d (if x.getP c then x.getS a else x.getS b)) s

/-- `addi` (R158). -/
def execAddi (g : Pred) (d a : SReg) (imm : BitVec 37) (s : State) : Host.Outcome State Fault Refusal :=
  scalarImm g d a imm (· + ·) s

/-- `andi` (R158). -/
def execAndi (g : Pred) (d a : SReg) (imm : BitVec 37) (s : State) : Host.Outcome State Fault Refusal :=
  scalarImm g d a imm (· &&& ·) s

/-- `ori` (R158). -/
def execOri (g : Pred) (d a : SReg) (imm : BitVec 37) (s : State) : Host.Outcome State Fault Refusal :=
  scalarImm g d a imm (· ||| ·) s

/-- `xori` (R158). -/
def execXori (g : Pred) (d a : SReg) (imm : BitVec 37) (s : State) : Host.Outcome State Fault Refusal :=
  scalarImm g d a imm (· ^^^ ·) s

/-- `slli` (R158). -/
def execSlli (g : Pred) (d a : SReg) (imm : BitVec 6) (s : State) : Host.Outcome State Fault Refusal :=
  register g (fun x => x.setS d (x.getS a <<< imm.toNat)) s

/-- `srli` (R158). -/
def execSrli (g : Pred) (d a : SReg) (imm : BitVec 6) (s : State) : Host.Outcome State Fault Refusal :=
  register g (fun x => x.setS d (x.getS a >>> imm.toNat)) s

/-- `srai` (R158). -/
def execSrai (g : Pred) (d a : SReg) (imm : BitVec 6) (s : State) : Host.Outcome State Fault Refusal :=
  register g (fun x => x.setS d ((x.getS a).sshiftRight imm.toNat)) s

/-- `muli` (R158). -/
def execMuli (g : Pred) (d a : SReg) (imm : BitVec 37) (s : State) : Host.Outcome State Fault Refusal :=
  scalarImm g d a imm (· * ·) s

/-- `li` (R158). -/
def execLi (g : Pred) (d : SReg) (imm : BitVec 37) (s : State) : Host.Outcome State Fault Refusal :=
  register g (fun x => x.setS d (imm.signExtend 64)) s

/-- `lhi` (R158). -/
def execLhi (g : Pred) (d a : SReg) (imm : BitVec 27) (s : State) : Host.Outcome State Fault Refusal :=
  register g (fun x => x.setS d (imm ++ (x.getS a).extractLsb' 0 37)) s

end Sys2Proof.Machine
end

