-- ==== Sys2Proof/Machine/Vector.lean ====
section
/-! DEFINITION. Class 0b01 but for its memory forms: spec/10_vector.md R180 to R194. -/

namespace Sys2Proof.Machine

/-! ### Shared operations -/

/-- A form that writes every lane of width n of vD (R181). -/
def lanesForm (g : Pred) (n : Nat) (d : VReg) (f : Stream → Nat → BitVec n) (s : State) :
    Host.Outcome State Fault Refusal :=
  register g (fun x => x.setV d (mkLanes n (f x))) s

/-- A form with two integer lane operands (R182). -/
def vector2 (g : Pred) (w : Width) (d a : VReg) (b : VOrS) (f : BitVec w.n → BitVec w.n → BitVec w.n)
    (s : State) : Host.Outcome State Fault Refusal :=
  lanesForm g w.n d (fun x i => f (lane w.n (x.getV a) i) (x.laneB w.n b i)) s

/-- A sum clamped to the signed range (R183). -/
def clampInt (n : Nat) (x : Int) : BitVec n :=
  BitVec.ofInt n (max (-(2 ^ (n - 1) : Int)) (min ((2 ^ (n - 1) : Int) - 1) x))

/-- Write 32 FP32 lanes and raise the union of their flags (R181, R185). -/
def Stream.setFLanes (x : Stream) (d : VReg) (rs : List Fp) : Stream :=
  (x.setV d (ofLanes 32 (rs.map (·.1)))).raise (flagsOf rs)

/-- An FP32 lane of a vector register. -/
def Stream.laneF (x : Stream) (a : VReg) (i : Nat) : BitVec 32 := lane 32 (x.getV a) i

/-- A form on 32 FP32 lanes (R185). -/
def vectorF (g : Pred) (d : VReg) (f : Stream → Nat → Fp) (s : State) : Host.Outcome State Fault Refusal :=
  register g (fun x => x.setFLanes d ((List.range 32).map (f x))) s

/-- A form with two FP32 lane operands (R185). -/
def vectorF2 (g : Pred) (d a : VReg) (b : VOrS) (f : Stream → BitVec 32 → BitVec 32 → Fp) (s : State) :
    Host.Outcome State Fault Refusal :=
  vectorF g d (fun x i => f x (x.laneF a i) (x.laneB 32 b i)) s

/-! ### Integer lanes -/

/-- `vadd` (R182, R183). -/
def execVadd (g : Pred) (w : Width) (sat : Bool) (d a : VReg) (b : VOrS) (s : State) :
    Host.Outcome State Fault Refusal :=
  vector2 g w d a b (fun x y => if sat then clampInt w.n (x.toInt + y.toInt) else x + y) s

/-- `vsub` (R182, R183). -/
def execVsub (g : Pred) (w : Width) (sat : Bool) (d a : VReg) (b : VOrS) (s : State) :
    Host.Outcome State Fault Refusal :=
  vector2 g w d a b (fun x y => if sat then clampInt w.n (x.toInt - y.toInt) else x - y) s

/-- `vmul` (R182). -/
def execVmul (g : Pred) (w : Width) (d a : VReg) (b : VOrS) (s : State) : Host.Outcome State Fault Refusal :=
  vector2 g w d a b (· * ·) s

/-- `vmulh` (R182). -/
def execVmulh (g : Pred) (w : Width) (d a : VReg) (b : VOrS) (s : State) : Host.Outcome State Fault Refusal :=
  vector2 g w d a b mulHigh s

/-- `vmin` (R182). -/
def execVmin (g : Pred) (w : Width) (d a : VReg) (b : VOrS) (s : State) : Host.Outcome State Fault Refusal :=
  vector2 g w d a b minS s

/-- `vmax` (R182). -/
def execVmax (g : Pred) (w : Width) (d a : VReg) (b : VOrS) (s : State) : Host.Outcome State Fault Refusal :=
  vector2 g w d a b maxS s

/-- `vminu` (R182). -/
def execVminu (g : Pred) (w : Width) (d a : VReg) (b : VOrS) (s : State) : Host.Outcome State Fault Refusal :=
  vector2 g w d a b minU s

/-- `vmaxu` (R182). -/
def execVmaxu (g : Pred) (w : Width) (d a : VReg) (b : VOrS) (s : State) : Host.Outcome State Fault Refusal :=
  vector2 g w d a b maxU s

/-- `vand` (R182). -/
def execVand (g : Pred) (w : Width) (d a : VReg) (b : VOrS) (s : State) : Host.Outcome State Fault Refusal :=
  vector2 g w d a b (· &&& ·) s

/-- `vor` (R182). -/
def execVor (g : Pred) (w : Width) (d a : VReg) (b : VOrS) (s : State) : Host.Outcome State Fault Refusal :=
  vector2 g w d a b (· ||| ·) s

/-- `vxor` (R182). -/
def execVxor (g : Pred) (w : Width) (d a : VReg) (b : VOrS) (s : State) : Host.Outcome State Fault Refusal :=
  vector2 g w d a b (· ^^^ ·) s

/-- `vsll` (R182). -/
def execVsll (g : Pred) (w : Width) (d a : VReg) (b : VOrS) (s : State) : Host.Outcome State Fault Refusal :=
  vector2 g w d a b shiftL s

/-- `vsrl` (R182). -/
def execVsrl (g : Pred) (w : Width) (d a : VReg) (b : VOrS) (s : State) : Host.Outcome State Fault Refusal :=
  vector2 g w d a b shiftR s

/-- `vsra` (R182). -/
def execVsra (g : Pred) (w : Width) (d a : VReg) (b : VOrS) (s : State) : Host.Outcome State Fault Refusal :=
  vector2 g w d a b shiftA s

/-- `vabs` (R184). -/
def execVabs (g : Pred) (w : Width) (d a : VReg) (s : State) : Host.Outcome State Fault Refusal :=
  lanesForm g w.n d (fun x i =>
    let y := lane w.n (x.getV a) i
    if y.msb then -y else y) s

/-- `vcmp` (R184). -/
def execVcmp (g : Pred) (w : Width) (cc : Cond) (d a : VReg) (b : VOrS) (s : State) :
    Host.Outcome State Fault Refusal :=
  vector2 g w d a b (fun x y => if condHolds cc x y then BitVec.allOnes w.n else 0) s

/-- `vsel` (R184). -/
def execVsel (g : Pred) (w : Width) (d a : VReg) (b : VOrS) (c : VReg) (s : State) :
    Host.Outcome State Fault Refusal :=
  lanesForm g w.n d (fun x i =>
    if lane w.n (x.getV c) i ≠ 0 then lane w.n (x.getV a) i else x.laneB w.n b i) s

/-! ### FP32 lanes -/

/-- `vfadd` (R185). -/
def execVfadd (g : Pred) (rm : Rm) (d a : VReg) (b : VOrS) (s : State) : Host.Outcome State Fault Refusal :=
  vectorF2 g d a b (fun x => fadd32 (x.mode rm)) s

/-- `vfsub` (R185). -/
def execVfsub (g : Pred) (rm : Rm) (d a : VReg) (b : VOrS) (s : State) : Host.Outcome State Fault Refusal :=
  vectorF2 g d a b (fun x => fsub32 (x.mode rm)) s

/-- `vfmul` (R185). -/
def execVfmul (g : Pred) (rm : Rm) (d a : VReg) (b : VOrS) (s : State) : Host.Outcome State Fault Refusal :=
  vectorF2 g d a b (fun x => fmul32 (x.mode rm)) s

/-- `vfdiv` (R185). -/
def execVfdiv (g : Pred) (rm : Rm) (d a : VReg) (b : VOrS) (s : State) : Host.Outcome State Fault Refusal :=
  vectorF2 g d a b (fun x => fdiv32 (x.mode rm)) s

/-- `vfma` (R185). -/
def execVfma (g : Pred) (rm : Rm) (d a : VReg) (b : VOrS) (c : VReg) (s : State) :
    Host.Outcome State Fault Refusal :=
  vectorF g d (fun x i => fma32 (x.mode rm) (x.laneF a i) (x.laneB 32 b i) (x.laneF c i)) s

/-- `vfsqrt` (R185). -/
def execVfsqrt (g : Pred) (rm : Rm) (d a : VReg) (s : State) : Host.Outcome State Fault Refusal :=
  vectorF g d (fun x i => fsqrt32 (x.mode rm) (x.laneF a i)) s

/-- `vfmin` (R185). -/
def execVfmin (g : Pred) (d a : VReg) (b : VOrS) (s : State) : Host.Outcome State Fault Refusal :=
  vectorF2 g d a b (fun _ => fmin32) s

/-- `vfmax` (R185). -/
def execVfmax (g : Pred) (d a : VReg) (b : VOrS) (s : State) : Host.Outcome State Fault Refusal :=
  vectorF2 g d a b (fun _ => fmax32) s

/-- `vfcmp` (R185). -/
def execVfcmp (g : Pred) (cc : FCond) (d a : VReg) (b : VOrS) (s : State) : Host.Outcome State Fault Refusal :=
  vectorF2 g d a b (fun _ x y =>
    let r := fcmp32 cc x y
    (if r.1 then 0xFFFFFFFF else 0, r.2)) s

/-- `vfsgn` (R185). -/
def execVfsgn (g : Pred) (op : SgnOp) (d a : VReg) (b : VOrS) (s : State) : Host.Outcome State Fault Refusal :=
  vectorF2 g d a b (fun _ x y => (fsgn32 op x y, 0)) s

/-! ### Conversion and the dot-product group -/

/-- The converted lanes of `vcvt`, as lane values, and their flags (R186). -/
def convertLanes (fa fb : Fmt) (m : Mode) (sat : Bool) (v : Vec) : List (Nat × FpFlags) :=
  let la := fmtLane fa
  let n := 1024 / Nat.max la (fmtLane fb)
  (List.range n).map fun i =>
    let r := convertCode fa fb m sat (codeOfLane fa (v.extractLsb' (la * i) la).toNat)
    (laneCode fb r.1, r.2)

/-- `vcvt` (R186). -/
def execVcvt (g : Pred) (rm : Rm) (sat : Bool) (fa fb : Fmt) (d a : VReg) (s : State) :
    Host.Outcome State Fault Refusal :=
  perform g (do
    if !isFormat fa || !isFormat fb then M.trap Cause.unsupportedFormat 0
    M.mod fun x =>
      let rs := convertLanes fa fb (x.mode rm) sat (x.getV a)
      let lb := fmtLane fb
      (x.setV d (ofLanes lb (rs.map fun r => BitVec.ofNat lb r.1))).raise (rs.foldl (fun f r => f ||| r.2) 0)
    M.next) s

/-- The result of `vfdot` in lane 0 (R188, R189), for c ≠ 0 groups. -/
def dotLanes (f : Fmt) (acc : BitVec 32) (a b : Vec) (c : Word) (groups : Nat) : Fp :=
  let (g, _, lw) := groupShape f
  let sc (k : Nat) : Nat := (c.extractLsb' k 8).toNat
  dotGroups f acc ((List.range (groups * g)).map fun j =>
    (expandElem f (codeOfLane f (a.extractLsb' (lw * j) lw).toNat) (sc 0) (sc 8),
      expandElem f (codeOfLane f (b.extractLsb' (lw * j) lw).toNat) (sc 16) (sc 24)))

/-- Replace lane 0 of width 32. -/
def setLane0 (v : Vec) (x : BitVec 32) : Vec := v.extractLsb' 32 992 ++ x

/-- `vfdot` (R187 to R189). -/
def execVfdot (g : Pred) (fa : Fmt) (d a b : VReg) (c : SReg) (s : State) : Host.Outcome State Fault Refusal :=
  perform g (do
    if fa = 0 || !isFormat fa then M.trap Cause.unsupportedFormat 0
    M.mod fun x =>
      let k := x.getS c
      let m := Nat.min (k.extractLsb' 32 4).toNat 8
      if m = 0 then x
      else
        let r := dotLanes fa (x.laneF d 0) (x.getV a) (x.getV b) k m
        (x.setV d (setLane0 (x.getV d) r.1)).raise r.2
    M.next) s

/-! ### Moving lanes -/

/-- `vperm` (R190). -/
def execVperm (g : Pred) (w : Width) (d a b : VReg) (s : State) : Host.Outcome State Fault Refusal :=
  lanesForm g w.n d (fun x i => lane w.n (x.getV a) ((lane w.n (x.getV b) i).toNat % w.count)) s

/-- `vzip` (R190). -/
def execVzip (g : Pred) (w : Width) (d a b : VReg) (s : State) : Host.Outcome State Fault Refusal :=
  lanesForm g w.n d (fun x i => lane w.n (x.getV (if i % 2 = 0 then a else b)) (i / 2)) s

/-- `vunzip` (R190). -/
def execVunzip (g : Pred) (w : Width) (d a b : VReg) (s : State) : Host.Outcome State Fault Refusal :=
  lanesForm g w.n d (fun x i =>
    if i < w.count / 2 then lane w.n (x.getV a) (2 * i) else lane w.n (x.getV b) (2 * (i - w.count / 2))) s

/-- `vslide` (R190). -/
def execVslide (g : Pred) (w : Width) (d a : VReg) (b : SReg) (s : State) : Host.Outcome State Fault Refusal :=
  lanesForm g w.n d (fun x i =>
    let k := (i : Int) + (x.getS b).toInt
    if 0 ≤ k ∧ k < w.count then lane w.n (x.getV a) k.toNat else 0) s

/-- `vbcast` (R190). -/
def execVbcast (g : Pred) (w : Width) (d a : VReg) (b : SReg) (s : State) : Host.Outcome State Fault Refusal :=
  lanesForm g w.n d (fun x _ => lane w.n (x.getV a) ((x.getS b).toNat % w.count)) s

/-- `vext` (R190). -/
def execVext (g : Pred) (w : Width) (d : SReg) (a : VReg) (b : SReg) (s : State) :
    Host.Outcome State Fault Refusal :=
  register g (fun x => x.setW d (lane w.n (x.getV a) ((x.getS b).toNat % w.count))) s

/-- `vins` (R190). -/
def execVins (g : Pred) (w : Width) (d : VReg) (a b : SReg) (s : State) : Host.Outcome State Fault Refusal :=
  lanesForm g w.n d (fun x i =>
    if i = (x.getS b).toNat % w.count then atWidth w (x.getS a) else lane w.n (x.getV d) i) s

/-- `viota` (R190). -/
def execViota (g : Pred) (w : Width) (d : VReg) (s : State) : Host.Outcome State Fault Refusal :=
  lanesForm g w.n d (fun _ i => BitVec.ofNat w.n i) s

/-- `vmov` (R190). -/
def execVmov (g : Pred) (w : Width) (d : VReg) (b : VOrS) (s : State) : Host.Outcome State Fault Refusal :=
  lanesForm g w.n d (fun x i => x.laneB w.n b i) s

/-! ### Reductions and scans -/

/-- One level of the halving tree: lane i with lane i + h (R191). -/
def halve {α : Type} (op : α → α → α) (xs : List α) : List α :=
  let h := xs.length / 2
  List.zipWith op (xs.take h) (xs.drop h)

/-- The halving tree over `2 ^ k` lanes (R191). -/
def treeReduce {α : Type} (op : α → α → α) : Nat → List α → List α
  | 0, xs => xs
  | k + 1, xs => treeReduce op k (halve op xs)

/-- An integer reduction step (R191). -/
def redStep {n : Nat} (op : RedOp) (a b : BitVec n) : BitVec n :=
  match op with
  | .add => a + b
  | .min => minS a b
  | .max => maxS a b
  | .minu => minU a b
  | .maxu => maxU a b
  | .and => a &&& b
  | .or => a ||| b
  | .xor => a ^^^ b

/-- Does the reduction write its value zero-extended (R191)? -/
def redUnsigned : RedOp → Bool
  | .add => false
  | .min => false
  | .max => false
  | .minu => true
  | .maxu => true
  | .and => false
  | .or => false
  | .xor => false

/-- `vred` (R191). -/
def execVred (g : Pred) (w : Width) (op : RedOp) (d : SReg) (a : VReg) (s : State) :
    Host.Outcome State Fault Refusal :=
  register g (fun x =>
    let r := (treeReduce (redStep op) (Nat.log2 w.count)
      ((List.range w.count).map (lane w.n (x.getV a)))).headD 0
    x.setS d (if redUnsigned op then r.setWidth 64 else r.signExtend 64)) s

/-- The magnitude of an FP32 code; a NaN stays as it is (R192). -/
def fabs32 (a : BitVec 32) : BitVec 32 := if isNan32 a then a else a &&& 0x7FFFFFFF

/-- A step of an FP32 reduction (R192). -/
def fredStep (op : FRedOp) (m : Mode) (a b : BitVec 32) : Fp :=
  match op with
  | .add => fadd32 m a b
  | .min => fmin32 a b
  | .max => fmax32 a b
  | .amax => fmax32 (fabs32 a) (fabs32 b)

/-- A step on values that carry the flags raised so far. -/
def withFlags (f : BitVec 32 → BitVec 32 → Fp) (a b : Fp) : Fp :=
  let r := f a.1 b.1
  (r.1, a.2 ||| b.2 ||| r.2)

/-- The FP32 tree over 32 lanes (R192). -/
def fredTree (op : FRedOp) (m : Mode) (xs : List (BitVec 32)) : Fp :=
  (treeReduce (withFlags (fredStep op m)) 5 (xs.map fun x => (x, 0))).headD (0, 0)

/-- `vfred` (R192). -/
def execVfred (g : Pred) (rm : Rm) (op : FRedOp) (d : SReg) (a : VReg) (s : State) :
    Host.Outcome State Fault Refusal :=
  register g (fun x => x.setF d (fredTree op (x.mode rm) ((List.range 32).map (x.laneF a)))) s

/-- One step of the stride-doubling scan with stride d; the older partial is the left operand (R193). -/
def scanStep {α : Type} (op : α → α → α) (d : Nat) (xs : List α) : List α :=
  xs.take d ++ List.zipWith op xs (xs.drop d)

/-- The scan: strides 1, 2, 4 .. 2^(k−1) (R193). -/
def scanFrom {α : Type} (op : α → α → α) : Nat → Nat → List α → List α
  | 0, _, xs => xs
  | k + 1, d, xs => scanFrom op k (2 * d) (scanStep op d xs)

/-- `vscan` (R193). -/
def execVscan (g : Pred) (w : Width) (op : ScanOp) (d a : VReg) (s : State) : Host.Outcome State Fault Refusal :=
  register g (fun x =>
    let f : BitVec w.n → BitVec w.n → BitVec w.n :=
      match op with
      | .add => (· + ·)
      | .min => minS
      | .max => maxS
    x.setV d (ofLanes w.n (scanFrom f (Nat.log2 w.count) 1 ((List.range w.count).map (lane w.n (x.getV a)))))) s

/-- The FP32 scan over 32 lanes (R193). -/
def fscanLanes (f : BitVec 32 → BitVec 32 → Fp) (xs : List (BitVec 32)) : List Fp :=
  scanFrom (withFlags f) 5 1 (xs.map fun x => (x, 0))

/-- `vfscan` (R193). -/
def execVfscan (g : Pred) (rm : Rm) (op : FScanOp) (d a : VReg) (s : State) : Host.Outcome State Fault Refusal :=
  register g (fun x =>
    let m := x.mode rm
    let f : BitVec 32 → BitVec 32 → Fp :=
      match op with
      | .add => fadd32 m
      | .max => fmax32
    x.setFLanes d (fscanLanes f ((List.range 32).map (x.laneF a)))) s

/-- The affine combine: the newer pair (a2, b2) after the older (a1, b1) (R194), with the flags raised so far. -/
def affine (m : Mode) (old new : BitVec 32 × BitVec 32 × FpFlags) : BitVec 32 × BitVec 32 × FpFlags :=
  let a := fmul32 m new.1 old.1
  let b := fma32 m new.1 old.2.1 new.2.1
  (a.1, b.1, old.2.2 ||| new.2.2 ||| a.2 ||| b.2)

/-- The scan of pairs (R194). -/
def affineScan (m : Mode) (ps : List (BitVec 32 × BitVec 32)) : List (BitVec 32 × BitVec 32 × FpFlags) :=
  scanFrom (affine m) 5 1 (ps.map fun p => (p.1, p.2, 0))

/-- `vfaffine` (R194). -/
def execVfaffine (g : Pred) (rm : Rm) (d a b : VReg) (s : State) : Host.Outcome State Fault Refusal :=
  register g (fun x =>
    let ps := (List.range 32).map fun i => (x.laneF a i, x.laneF b i)
    x.setFLanes d ((affineScan (x.mode rm) ps).map fun r => (r.2.1, r.2.2))) s

end Sys2Proof.Machine
end

