-- ==== Sys2Proof/Machine/Catalogue.lean ====
section
/-! DEFINITION. The synchronous routines of the catalogue on the native path (spec/14_routines.md R252 to R265, R270 to
R283). One step of a routine is one unit: from its entry or its last yield point to the next, or to its return. A check
that fails, a header store that faults and an access of `tile.ldscale` that faults are reported at their word of the
routine's definition (R264, R265, R386). Any other unit that meets a fault has no effect: the stream goes on from there
on the definition, which meets the fault at its own instruction (R259). A unit that has to wait starts again. -/

namespace Sys2Proof.Machine

/-! ### Units -/

/-- How a unit ends: at a yield point with PROG and AUXS, or with the return. -/
inductive UnitEnd where
  | yielded (prog : Nat) (aux : Word)
  | done
deriving DecidableEq, Repr

/-- The stream goes on with the routine's definition, from its entry or its last yield point (R259). -/
def Stream.toDefinition (x : Stream) : Stream :=
  match x.calls with
  | [] => x
  | f :: rest => { x with pc := x.place, calls := { f with native := none } :: rest }

/-- Perform a unit of a routine whose call is the innermost (DESIGN CHOICE, log entry 10). A trap with the stream
already on a word of the definition is taken there. -/
def routineUnit (r : Routine) (body : CallFrame → M UnitEnd) (s : State) : Host.Outcome State Fault Refusal :=
  match s.str.calls with
  | [] => .next s
  | f :: rest =>
    if f.native ≠ some r then .next s
    else
      match body f s with
      | .ok (.yielded prog aux) s' =>
        .next (s'.setStr
          { s'.str with woken := false, calls := { f with prog := prog, aux := aux.setWidth 128 } :: rest })
      | .ok .done s' => .next (s'.setStr { s'.str with woken := false, calls := rest, pc := f.ret, rejoin := f.rejoin })
      | .error (.wait st w) _ => .next (s.setStr { s.str with state := st, wait := w, woken := false })
      | .error (.trap cause addr imm) s' =>
        if s'.str.calls.head?.any (·.native.isNone) then finish (.error (.trap cause addr imm) s')
        else .next (s.setStr { s.str.toDefinition with woken := false })

/-- A check that raises *routine operand invalid*, with no capability of its own: the address is 0 (R265). -/
def scalarCheck (ok : Bool) : Bool × BitVec 8 × Word := (ok, Cause.routineOperandInvalid, 0)

/-- A check that raises *routine operand invalid* with the BASE of a capability (R265). -/
def capCheck (c : Cap) (ok : Bool) : Bool × BitVec 8 × Word := (ok, Cause.routineOperandInvalid, c.addr 0)

/-- The check that a capability's FMT is one of R46 or marks raw bytes, as copies, gathers and scatters take it: the
address is its BASE (R46, R265; DEDUCED, log entry 68). -/
def rawCheck (c : Cap) : Bool × BitVec 8 × Word :=
  (isFormat c.fields.fmt || c.fields.fmt == 0xF, Cause.unsupportedFormat, c.addr 0)

/-- The check of a scalar with RM in its bits 2:0 and SAT in bit 3 (R270, R282). -/
def roundingCheck (v : Word) : Bool × BitVec 8 × Word :=
  scalarCheck (v.extractLsb' 0 3 != (6 : BitVec 3) && v.extractLsb' 0 3 != (7 : BitVec 3) && v.extractLsb' 4 60 == 0)

/-- The checks that ROWS and that ROWBYTES of two capabilities are equal: the address is the BASE of the first (R265). -/
def shapeChecks (a b : Cap) : List (Bool × BitVec 8 × Word) :=
  [capCheck a (a.fields.rows == b.fields.rows), capCheck a (a.fields.rowbytes == b.fields.rowbytes)]

/-- A row routine (R265): the entry checks and the header at entry, then rows up to the next yield point. -/
def M.rowUnit (y : Nat) (f : CallFrame) (checks : Stream → List (Bool × BitVec 8 × Word)) (rows : Stream → Nat)
    (start : M Unit) (step : Nat → Word → M Word) (finish : Word → M Unit) : M UnitEnd := do
  let x ← M.str
  if f.prog = 0 then do
    M.entry (checks x)
    M.entryHeader
  let n := rows x
  let last := Nat.min n ((f.prog / y + 1) * y)
  start
  let aux ← (List.range (last - f.prog)).foldlM (fun a k => step (f.prog + k) a) (f.aux.setWidth 64)
  if last < n then do
    M.scratchHeader last aux
    pure (.yielded last aux)
  else do
    finish aux
    pure .done

/-- A row routine without carried state. -/
def rowRoutine (r : Routine) (y : Nat) (checks : Stream → List (Bool × BitVec 8 × Word)) (rows : Stream → Nat)
    (step : Nat → M Unit) (s : State) : Host.Outcome State Fault Refusal :=
  routineUnit r (fun f => M.rowUnit y f checks rows (pure ()) (fun i a => do
    step i
    pure a) (fun _ => pure ())) s

/-! ### Accesses and operands -/

/-- Read n bytes at an offset, line by line in ascending order (R265; DESIGN CHOICE, log entry 29). -/
def M.readAt (c : Cap) (off n : Nat) : M (List Byte) :=
  if n = 0 then pure []
  else do
    M.capCheck c .read (BitVec.ofNat 64 off) n
    let mask ← M.mask c
    let bs ← (cutLines (n + 1) (canonical (c.addr (BitVec.ofNat 64 off))) n).mapM fun (va, k) => do
      let ps ← M.loadParts mask va k
      M.readParts ps
    pure bs.flatten

/-- Write bytes at an offset, line by line in ascending order. -/
def M.writeAt (c : Cap) (off : Nat) (bs : List Byte) : M Unit :=
  if bs.isEmpty then pure ()
  else do
    M.capCheck c .write (BitVec.ofNat 64 off) bs.length
    let mask ← M.mask c
    let _ ← (cutLines (bs.length + 1) (canonical (c.addr (BitVec.ofNat 64 off))) bs.length).foldlM (init := bs)
      fun bs (va, k) => do
        let ps ← M.storeParts mask va k
        M.writeParts ps (bs.take k)
        pure (bs.drop k)
    pure ()

/-- A row that the capability has (R263). -/
def M.hasRow (c : Cap) (i : Nat) : M Unit :=
  if i < c.fields.rows then pure () else M.trap Cause.capabilityBounds (c.addr (BitVec.ofNat 64 (i * c.fields.stride)))

/-- Read n bytes of row i from byte b on. -/
def M.readRow (c : Cap) (i b n : Nat) : M (List Byte) := do
  if n ≠ 0 then M.hasRow c i
  M.readAt c (i * c.fields.stride + b) n

/-- Write bytes of row i from byte b on. -/
def M.writeRow (c : Cap) (i b : Nat) (bs : List Byte) : M Unit := do
  if !bs.isEmpty then M.hasRow c i
  M.writeAt c (i * c.fields.stride + b) bs

/-- The capability cn of the stream. -/
def Stream.cap (x : Stream) (n : BitVec 5) : Cap := x.getC (.c n)

/-- The 32-bit words of bytes. -/
def words32 : List Byte → List (BitVec 32)
  | a :: b :: c :: d :: rest => (d ++ c ++ b ++ a) :: words32 rest
  | _ => []

/-- The bytes of 32-bit words. -/
def bytes32 (xs : List (BitVec 32)) : List Byte := xs.flatMap (toBytes 4)

/-- The FP32 values of row i. -/
def M.readWords (c : Cap) (i : Nat) : M (List (BitVec 32)) := do
  let bs ← M.readRow c i 0 c.fields.rowbytes
  pure (words32 bs)

/-- Word i of a capability with one word per row (R263). -/
def M.readWord (c : Cap) (i : Nat) : M (BitVec 32) := do
  let bs ← M.readRow c i 0 4
  pure (ofBytes 32 bs)

/-- Raise flags in the stream. -/
def M.raise (f : FpFlags) : M Unit := M.mod (·.raise f)

/-- The chunks of 32 lanes of a row. -/
def rowChunks {α : Type} (xs : List α) : List (List α) :=
  (List.range (xs.length / 32)).map fun c => (xs.drop (32 * c)).take 32

/-- Results without their flags. -/
def values (rs : List Fp) : List (BitVec 32) := rs.map (·.1)

/-- An operation lane by lane on values that carry their flags. -/
def lanes2 (f : BitVec 32 → BitVec 32 → Fp) (as bs : List Fp) : List Fp := List.zipWith (withFlags f) as bs

/-- Values without flags. -/
def pure32 (xs : List (BitVec 32)) : List Fp := xs.map fun x => (x, 0)

/-- FRM at the moment (R265: `.dyn` reads it once). -/
def M.frm : M Mode := do
  let x ← M.str
  pure (x.mode .dyn)

/-- The codes of a row of n bytes in a format, when it holds a whole number of them (R51). -/
def codesIn (f : Fmt) (n : Nat) : Nat := n * 8 / fmtBits f

/-- Are n bytes exactly the packed codes of a whole number N of codes (R51)? -/
def packs (f : Fmt) (n k : Nat) : Bool := n * 8 == k * fmtBits f

/-! ### Tile routines (R270, R271) -/

/-- `tile.copy` (DEDUCED, log entry 68). -/
def execTileCopy (s : State) : Host.Outcome State Fault Refusal :=
  rowRoutine .tileCopy 16 (fun x => [rawCheck (x.cap 2), rawCheck (x.cap 3)] ++ shapeChecks (x.cap 2) (x.cap 3))
    (fun x => (x.cap 3).fields.rows)
    (fun i => do
      let x ← M.str
      let bs ← M.readRow (x.cap 3) i 0 (x.cap 3).fields.rowbytes
      M.writeRow (x.cap 2) i 0 bs) s

/-- `tile.transpose`. -/
def execTileTranspose (s : State) : Host.Outcome State Fault Refusal :=
  rowRoutine .tileTranspose 16 (fun x =>
      let d := (x.cap 2).fields
      let c := (x.cap 3).fields
      let e := (x.getS 8).toNat
      [rawCheck (x.cap 2), rawCheck (x.cap 3), scalarCheck ([1, 2, 4, 8].contains e), capCheck (x.cap 3) (c.rowbytes % e == 0),
        capCheck (x.cap 2) (d.rows == c.rowbytes / e), capCheck (x.cap 2) (d.rowbytes == c.rows * e)])
    (fun x => (x.cap 2).fields.rows)
    (fun i => do
      let x ← M.str
      let e := (x.getS 8).toNat
      let bs ← (List.range (x.cap 3).fields.rows).mapM fun j => M.readRow (x.cap 3) j (i * e) e
      M.writeRow (x.cap 2) i 0 bs.flatten) s

/-- Convert the codes of a row (R59): the bytes and the flags. -/
def convertRow (fa fb : Fmt) (m : Mode) (sat : Bool) (n : Nat) (bs : List Byte) : List Byte × FpFlags :=
  let row := natOfBytes bs
  let rs := (List.range n).map fun k => convertCode fa fb m sat (codeAt fa row k)
  (toBytes (fmtBytes n fb) (BitVec.ofNat (n * fmtBits fb) (packCodes fb (rs.map (·.1)))),
    rs.foldl (fun fl r => fl ||| r.2) 0)

/-- `tile.cvt`. Its check of both FMTs is one that takes in two capabilities (DESIGN CHOICE, log entry 19). -/
def execTileCvt (s : State) : Host.Outcome State Fault Refusal :=
  rowRoutine .tileCvt 16 (fun x =>
      let d := (x.cap 2).fields
      let c := (x.cap 3).fields
      let n := codesIn c.fmt c.rowbytes
      [(isFormat d.fmt && isFormat c.fmt, Cause.unsupportedFormat, (x.cap 2).addr 0), roundingCheck (x.getS 8),
        capCheck (x.cap 2) (d.rows == c.rows),
        capCheck (x.cap 2) (packs c.fmt c.rowbytes n && packs d.fmt d.rowbytes n)])
    (fun x => (x.cap 3).fields.rows)
    (fun i => do
      let x ← M.str
      let d := (x.cap 2).fields
      let c := (x.cap 3).fields
      let v := x.getS 8
      let bs ← M.readRow (x.cap 3) i 0 c.rowbytes
      let (out, fl) := convertRow c.fmt d.fmt (x.mode (Rm.ofBits (v.extractLsb' 0 3))) (v.getLsbD 3)
        (codesIn c.fmt c.rowbytes) bs
      M.writeRow (x.cap 2) i 0 out
      M.raise fl) s

/-- `tile.gather`. -/
def execTileGather (s : State) : Host.Outcome State Fault Refusal :=
  rowRoutine .tileGather 16 (fun x =>
      [rawCheck (x.cap 2), rawCheck (x.cap 3),
        capCheck (x.cap 2) ((x.cap 2).fields.rowbytes == (x.cap 3).fields.rowbytes)])
    (fun x => (x.cap 2).fields.rows)
    (fun i => do
      let x ← M.str
      let k ← M.readWord (x.cap 4) i
      let bs ← M.readRow (x.cap 3) k.toNat 0 (x.cap 3).fields.rowbytes
      M.writeRow (x.cap 2) i 0 bs) s

/-- `tile.scatter`. -/
def execTileScatter (s : State) : Host.Outcome State Fault Refusal :=
  rowRoutine .tileScatter 16 (fun x =>
      [rawCheck (x.cap 2), rawCheck (x.cap 3),
        capCheck (x.cap 2) ((x.cap 2).fields.rowbytes == (x.cap 3).fields.rowbytes)])
    (fun x => (x.cap 3).fields.rows)
    (fun i => do
      let x ← M.str
      let k ← M.readWord (x.cap 4) i
      let bs ← M.readRow (x.cap 3) i 0 (x.cap 3).fields.rowbytes
      M.writeRow (x.cap 2) k.toNat 0 bs) s

/-- The bytes that hold code j of a row: the first, their number and the bit at which the code starts (R51). -/
def codePlace (f : Fmt) (j : Nat) : Nat × Nat × Nat :=
  let lo := fmtBits f * j
  (lo / 8, (lo + fmtBits f - 1) / 8 - lo / 8 + 1, lo % 8)

/-- The FP32 value of an expanded element, with its flags (R271). -/
def expanded (m : Mode) : Value → Fp
  | .nan x => (x, 0)
  | .inf n => (inf32 n, 0)
  | .fin v => round32 m v

/-- The registers that the definition of `tile.ldscale` holds at an access of element (i, j): s15 keeps its value at the
`rcall` where none is given (R386). -/
def ldscaleRegs (i j off : Nat) (s15 : Option Word) (x : Stream) : Stream :=
  let y := ((x.setS 12 (BitVec.ofNat 64 i)).setS 13 (BitVec.ofNat 64 j)).setS 14 (BitVec.ofNat 64 off)
  match s15 with
  | none => y
  | some w => y.setS 15 w

/-- One element of `tile.ldscale`, by the four accesses of its definition at words 41, 44, 47 and 55; `last` is the code
before it in the row, and the answer its own; the flags of the result stand before its write (R271, R386). A code that
does not lie in one byte is read by its bytes (DEDUCED, log entry 29). -/
def M.ldscaleElem (x : Stream) (i j : Nat) (last : Option Word) : M Word := do
  let f := (x.cap 3).fields.fmt
  let (b, n, sh) := codePlace f j
  let at_ {α : Type} (w off : Nat) (s15 : Option Word) (m : M α) : M α := M.atWord (fun _ => w) (ldscaleRegs i j off s15) m
  let bs ← at_ 41 (i * (x.cap 3).fields.stride + b) last (M.readRow (x.cap 3) i b n)
  let code := natOfBytes bs / 2 ^ sh % 2 ^ fmtBits f
  let mine : Word := BitVec.ofNat 64 code
  let rs ← at_ 44 i (some mine) (M.readAt (x.cap 4) i 1)
  let cs ← at_ 47 j (some mine) (M.readAt (x.cap 5) j 1)
  let r := expanded (x.mode .dyn) (expandElem f code (natOfBytes rs) (natOfBytes cs))
  let off := i * (x.cap 2).fields.stride + 4 * j
  at_ 55 off (some (r.1.setWidth 64)) (do
    M.raise r.2
    M.hasRow (x.cap 2) i
    M.store (x.cap 2) (BitVec.ofNat 64 off) (toBytes 4 r.1) 1)
  pure mine

/-- `tile.ldscale`. Each unit saves s12 to s15 at scratch offsets 16 to 47 (R386). -/
def execTileLdscale (s : State) : Host.Outcome State Fault Refusal :=
  routineUnit .tileLdscale (fun f => M.rowUnit 1 f (fun x =>
      let d := (x.cap 2).fields
      let c := (x.cap 3).fields
      [(isFormat c.fmt, Cause.unsupportedFormat, (x.cap 3).addr 0), capCheck (x.cap 2) (d.rows == c.rows),
        capCheck (x.cap 2) (d.rowbytes % 4 == 0 && packs c.fmt c.rowbytes (d.rowbytes / 4))])
    (fun x => (x.cap 3).fields.rows)
    (do
      let x ← M.str
      M.store (x.getC .cpv) (x.getS 2 - 4080) ([x.getS 12, x.getS 13, x.getS 14, x.getS 15].flatMap (toBytes 8)) 1)
    (fun i a => do
      let x ← M.str
      let _ ← (List.range ((x.cap 2).fields.rowbytes / 4)).foldlM (init := none) fun last j => do
        let code ← M.ldscaleElem x i j last
        pure (some code)
      pure a)
    (fun _ => pure ())) s

/-! ### Scans and reductions (R272 to R274) -/

/-- Is the row length a multiple of 32 FP32 values (R272)? -/
def wholeChunks (c : Cap) : Bool := c.fields.rowbytes % 128 == 0

/-- One chunk of `scan.add` after the carry (R272). -/
def scanAddChunk (m : Mode) (first : Bool) (carry : BitVec 32) (xs : List (BitVec 32)) : List Fp :=
  let y := fscanLanes (fadd32 m) xs
  if first then y else y.map fun r => withFlags (fadd32 m) (carry, 0) r

/-- The chunks of a row, each with the carry of the one before. -/
def scanRow (f : Bool → BitVec 32 → List (BitVec 32) → List Fp) : Bool → BitVec 32 → List (List (BitVec 32)) → List Fp
  | _, _, [] => []
  | first, carry, xs :: rest =>
    let y := f first carry xs
    y ++ scanRow f false (y.getLastD (0, 0)).1 rest

/-- `scan.add`. -/
def execScanAdd (s : State) : Host.Outcome State Fault Refusal :=
  rowRoutine .scanAdd 16 (fun x => shapeChecks (x.cap 2) (x.cap 3) ++ [capCheck (x.cap 2) (wholeChunks (x.cap 3))])
    (fun x => (x.cap 3).fields.rows)
    (fun i => do
      let x ← M.str
      let xs ← M.readWords (x.cap 3) i
      let y := scanRow (scanAddChunk (x.mode .dyn)) true 0 (rowChunks xs)
      M.writeRow (x.cap 2) i 0 (bytes32 (values y))
      M.raise (flagsOf y)) s

/-- One chunk of `scan.affine` (R272): `use` says that the carry enters lane 0. -/
def affineChunk (m : Mode) (use : Bool) (carry : BitVec 32) (ps : List (BitVec 32 × BitVec 32)) : List Fp :=
  match ps with
  | [] => []
  | (a, b) :: rest =>
    let r : Fp := if use then fma32 m a carry b else (b, 0)
    let y := (affineScan m ((a, r.1) :: rest)).map fun t => (t.2.1, t.2.2)
    match y with
    | [] => []
    | z :: zs => (z.1, z.2 ||| r.2) :: zs

/-- The chunks of a row of `scan.affine`. -/
def affineRow (m : Mode) : Bool → BitVec 32 → List (List (BitVec 32 × BitVec 32)) → List Fp
  | _, _, [] => []
  | use, carry, ps :: rest =>
    let y := affineChunk m use carry ps
    y ++ affineRow m true (y.getLastD (0, 0)).1 rest

/-- `scan.affine`. -/
def execScanAffine (s : State) : Host.Outcome State Fault Refusal :=
  rowRoutine .scanAffine 16 (fun x => shapeChecks (x.cap 2) (x.cap 3) ++ shapeChecks (x.cap 2) (x.cap 4)
      ++ [capCheck (x.cap 2) (wholeChunks (x.cap 3))])
    (fun x => (x.cap 3).fields.rows)
    (fun i => do
      let x ← M.str
      let as ← M.readWords (x.cap 3) i
      let bs ← M.readWords (x.cap 4) i
      let absent := (x.cap 5).isNull
      let carry ← if absent then pure 0 else M.readWord (x.cap 5) i
      let y := affineRow (x.mode .dyn) (!absent) carry (List.zipWith List.zip (rowChunks as) (rowChunks bs))
      M.writeRow (x.cap 2) i 0 (bytes32 (values y))
      M.raise (flagsOf y)) s

/-- The reduction of a row (R273): the chunks lane by lane, the accumulator on the left, then the tree of R192
(DEDUCED, log entry 38). -/
def reduceRow (op : FRedOp) (m : Mode) (xs : List (BitVec 32)) : Fp :=
  match rowChunks xs with
  | [] => (0, 0)
  | c :: cs =>
    let first := if op = .amax then c.map fabs32 else c
    let acc := cs.foldl (fun a c => lanes2 (fredStep op m) a (pure32 c)) (pure32 first)
    (treeReduce (withFlags (fredStep op m)) 5 acc).headD (0, 0)

/-- The reductions of R273. -/
def reduction (r : Routine) (op : FRedOp) (s : State) : Host.Outcome State Fault Refusal :=
  rowRoutine r 16 (fun x =>
      let d := (x.cap 2).fields
      let c := (x.cap 3).fields
      [capCheck (x.cap 2) (d.rows == c.rows), capCheck (x.cap 2) (decide (4 ≤ d.rowbytes)),
        capCheck (x.cap 3) (c.rowbytes != 0 && c.rowbytes % 128 == 0)])
    (fun x => (x.cap 3).fields.rows)
    (fun i => do
      let x ← M.str
      let xs ← M.readWords (x.cap 3) i
      let y := reduceRow op (x.mode .dyn) xs
      M.writeRow (x.cap 2) i 0 (toBytes 4 y.1)
      M.raise y.2) s

/-- `red.sum`. -/
def execRedSum (s : State) : Host.Outcome State Fault Refusal := reduction .redSum .add s
/-- `red.max`. -/
def execRedMax (s : State) : Host.Outcome State Fault Refusal := reduction .redMax .max s
/-- `red.amax`. -/
def execRedAmax (s : State) : Host.Outcome State Fault Refusal := reduction .redAmax .amax s

/-- `scale.fold` (R274): the running maximum, and at the end one atomic on the scale word. -/
def execScaleFold (s : State) : Host.Outcome State Fault Refusal :=
  routineUnit .scaleFold (fun f => M.rowUnit 16 f (fun x =>
      let c := (x.cap 2).fields
      [capCheck (x.cap 2) (c.rowbytes != 0 && c.rowbytes % 128 == 0)])
    (fun x => (x.cap 2).fields.rows) (pure ())
    (fun i a => do
      let x ← M.str
      let xs ← M.readWords (x.cap 2) i
      let y := reduceRow .amax .rne xs
      M.raise y.2
      pure (BitVec.ofNat 64 (Nat.max a.toNat y.1.toNat)))
    (fun a => do
      let x ← M.str
      let p ← M.atomicPart (x.cap 3) .atomic 0 4 4 .atomic
      let _ ← M.rmw p fun bs => some (toBytes 4 (amoValue .maxu (ofBytes 32 bs) (a.setWidth 32)))
      pure ())) s

/-! ### Elementwise and row routines (R275 to R277) -/

/-- The routines of R275. -/
def elementwise (r : Routine) (fn : ElemFn) (s : State) : Host.Outcome State Fault Refusal :=
  rowRoutine r 16 (fun x => shapeChecks (x.cap 2) (x.cap 3) ++ [capCheck (x.cap 2) ((x.cap 3).fields.rowbytes % 4 == 0)])
    (fun x => (x.cap 3).fields.rows)
    (fun i => do
      let x ← M.str
      let xs ← M.readWords (x.cap 3) i
      let y := xs.map (elemFn fn)
      M.writeRow (x.cap 2) i 0 (bytes32 (values y))
      M.raise (flagsOf y)) s

/-- `ew.exp`. -/
def execEwExp (s : State) : Host.Outcome State Fault Refusal := elementwise .ewExp .exp s
/-- `ew.sigmoid`. -/
def execEwSigmoid (s : State) : Host.Outcome State Fault Refusal := elementwise .ewSigmoid .sigmoid s
/-- `ew.silu`. -/
def execEwSilu (s : State) : Host.Outcome State Fault Refusal := elementwise .ewSilu .silu s
/-- `ew.gelu`. -/
def execEwGelu (s : State) : Host.Outcome State Fault Refusal := elementwise .ewGelu .gelu s
/-- `ew.rsqrt`. -/
def execEwRsqrt (s : State) : Host.Outcome State Fault Refusal := elementwise .ewRsqrt .rsqrt s

/-- Apply an operation of one operand to a value that carries its flags. -/
def thenFp (f : BitVec 32 → Fp) (a : Fp) : Fp := ((f a.1).1, a.2 ||| (f a.1).2)

/-- The sum of squares over the chunks, lane by lane, then its tree (R276). -/
def squareSum (xs : List (List Fp)) : Fp :=
  let step (acc c : List Fp) : List Fp :=
    List.zipWith (fun (a x : Fp) => let r := fma32 .rne x.1 x.1 a.1; (r.1, a.2 ||| x.2 ||| r.2)) acc c
  let acc := xs.foldl step (List.replicate 32 (0, 0))
  (treeReduce (withFlags (fredStep .add .rne)) 5 acc).headD (0, 0)

/-- 1 / √(sum / W + ε) (R276). -/
def normFactor (w : Nat) (eps : BitVec 32) (sum : Fp) : Fp :=
  let wide := (ofInt32 .rne w).1
  thenFp (elemFn .rsqrt) (thenFp (fun q => fadd32 .rne q eps) (thenFp (fun t => fdiv32 .rne t wide) sum))

/-- The entry checks of R276 on the destination and the source. W is below 2^24 by the width of ROWBYTES (R120). -/
def normChecks (x : Stream) : List (Bool × BitVec 8 × Word) :=
  shapeChecks (x.cap 2) (x.cap 3) ++ [capCheck (x.cap 2) (wholeChunks (x.cap 3))]

/-- The entry checks of R276 on the parameters: enough bytes and enough rows. -/
def gainChecks (x : Stream) (rows : Nat) : List (Bool × BitVec 8 × Word) :=
  [capCheck (x.cap 4) (decide ((x.cap 3).fields.rowbytes ≤ (x.cap 4).fields.rowbytes)),
    capCheck (x.cap 4) (decide (rows ≤ (x.cap 4).fields.rows))]

/-- The sum over the chunks of a row, lane by lane from chunk 0, then its tree (R276, R277). -/
def chunkSum (xs : List (List Fp)) : Fp :=
  match xs with
  | [] => (0, 0)
  | c :: cs =>
    (treeReduce (withFlags (fredStep .add .rne)) 5 (cs.foldl (lanes2 (fadd32 .rne)) c)).headD (0, 0)

/-- `norm.rms`. -/
def execNormRms (s : State) : Host.Outcome State Fault Refusal :=
  rowRoutine .normRms 16 (fun x => normChecks x ++ gainChecks x 1)
    (fun x => (x.cap 3).fields.rows)
    (fun i => do
      let x ← M.str
      let n := (x.cap 3).fields.rowbytes
      let xs ← M.readWords (x.cap 3) i
      let gs ← M.readRow (x.cap 4) 0 0 n
      let r := normFactor (n / 4) ((x.getS 10).setWidth 32) (squareSum ((rowChunks xs).map pure32))
      let y := List.zipWith (fun v g => thenFp (fun t => fmul32 .rne t g) (fmul32 .rne v r.1)) xs (words32 gs)
      M.writeRow (x.cap 2) i 0 (bytes32 (values y))
      M.raise (r.2 ||| flagsOf y)) s

/-- `norm.layer`. -/
def execNormLayer (s : State) : Host.Outcome State Fault Refusal :=
  rowRoutine .normLayer 16 (fun x => normChecks x ++ gainChecks x 2)
    (fun x => (x.cap 3).fields.rows)
    (fun i => do
      let x ← M.str
      let n := (x.cap 3).fields.rowbytes
      let xs ← M.readWords (x.cap 3) i
      let gs ← M.readRow (x.cap 4) 0 0 n
      let bs ← M.readRow (x.cap 4) 1 0 n
      let wide := (ofInt32 .rne (n / 4 : Nat)).1
      let mu := thenFp (fun t => fdiv32 .rne t wide) (chunkSum (rowChunks (pure32 xs)))
      let ds := xs.map fun v => fsub32 .rne v mu.1
      let r := normFactor (n / 4) ((x.getS 10).setWidth 32) (squareSum (rowChunks ds))
      let y := List.zipWith (fun (d : Fp) (p : BitVec 32 × BitVec 32) =>
          thenFp (fun t => fma32 .rne t p.1 p.2) (fmul32 .rne d.1 r.1)) ds (List.zip (words32 gs) (words32 bs))
      M.writeRow (x.cap 2) i 0 (bytes32 (values y))
      M.raise (mu.2 ||| r.2 ||| flagsOf ds ||| flagsOf y)) s

/-- `softmax.row`. -/
def execSoftmaxRow (s : State) : Host.Outcome State Fault Refusal :=
  rowRoutine .softmaxRow 16 normChecks
    (fun x => (x.cap 3).fields.rows)
    (fun i => do
      let x ← M.str
      let xs ← M.readWords (x.cap 3) i
      let m := reduceRow .max .rne xs
      let es := xs.map fun v => thenFp (elemFn .exp) (fsub32 .rne v m.1)
      let sum := chunkSum (rowChunks es)
      let y := es.map fun (e : Fp) => fdiv32 .rne e.1 sum.1
      M.writeRow (x.cap 2) i 0 (bytes32 (values y))
      M.raise (m.2 ||| sum.2 ||| flagsOf es ||| flagsOf y)) s

/-! ### Other routines (R278 to R283) -/

/-- The steps of `ssm.chunk` over rows: each row of states from the one before (R278). -/
def M.ssmRows (x : Stream) : Nat → Nat → List (BitVec 32) → M (List (BitVec 32))
  | 0, _, h => pure h
  | k + 1, t, h => do
    let as ← M.readWords (x.cap 3) t
    let bs ← M.readWords (x.cap 4) t
    let y := List.zipWith (fun (p : BitVec 32 × BitVec 32) b => fma32 .rne p.1 p.2 b) (List.zip as h) bs
    M.writeRow (x.cap 2) t 0 (bytes32 (values y))
    M.raise (flagsOf y)
    M.ssmRows x k (t + 1) (values y)

/-- `ssm.chunk`. -/
def execSsmChunk (s : State) : Host.Outcome State Fault Refusal :=
  routineUnit .ssmChunk (fun f => do
    let x ← M.str
    let n := (x.cap 2).fields.rowbytes
    if f.prog = 0 then do
      M.entry (shapeChecks (x.cap 2) (x.cap 3) ++ shapeChecks (x.cap 2) (x.cap 4)
        ++ [capCheck (x.cap 2) (n % 4 == 0), capCheck (x.cap 5) (decide (n ≤ (x.cap 5).fields.rowbytes))])
      M.entryHeader
    let rows := (x.cap 2).fields.rows
    let last := Nat.min rows ((f.prog / 16 + 1) * 16)
    let hs ← if f.prog = 0 then M.readRow (x.cap 5) 0 0 n else M.readRow (x.cap 2) (f.prog - 1) 0 n
    let h ← M.ssmRows x (last - f.prog) f.prog (words32 hs)
    if last < rows then do
      M.scratchHeader last 0
      pure (.yielded last 0)
    else do
      if 1 ≤ rows then M.writeRow (x.cap 5) 0 0 (bytes32 h)
      pure .done) s

/-- The 64-bit words of bytes. -/
def words64 (bs : List Byte) : List Word := (List.range (bs.length / 8)).map fun k => ofBytes 64 ((bs.drop (8 * k)).take 8)

/-- The hash of a key (R279). -/
def hashKey (m : Word) (k : Nat) (key : Word) : Word := (key * m) ^^^ ((key * m) >>> k)

/-- `hash.mul`. -/
def execHashMul (s : State) : Host.Outcome State Fault Refusal :=
  rowRoutine .hashMul 16 (fun x => scalarCheck (decide ((x.getS 9).toNat ≤ 63)) :: shapeChecks (x.cap 2) (x.cap 3)
      ++ [capCheck (x.cap 2) ((x.cap 3).fields.rowbytes % 8 == 0)])
    (fun x => (x.cap 3).fields.rows)
    (fun i => do
      let x ← M.str
      let bs ← M.readRow (x.cap 3) i 0 (x.cap 3).fields.rowbytes
      M.writeRow (x.cap 2) i 0 (((words64 bs).map (hashKey (x.getS 8) (x.getS 9).toNat)).flatMap (toBytes 8))) s

/-- The decoder's view of a header capability of the stream. Its coded-stream causes report BASE + offset as it is
summed (DESIGN CHOICE, log entry 14). -/
def streamCoder (c : Cap) : Coder where
  read := fun off n => M.load c (BitVec.ofNat 64 off) n 1
  addr := fun off => c.addr (BitVec.ofNat 64 off)
  note := fun _ _ => pure ()

/-- Is a cause one that `decode.seg` raises through `sys 0x10` after its entry check: of the header, the tile, the
shape, the index entry or the segment (R76, R280, R284)? -/
def isCodedCause (cause : BitVec 8) : Bool :=
  cause == Cause.unsupportedFormat || cause == Cause.matrixShapeMismatch || cause.extractLsb' 3 5 == (0x0E : BitVec 5)

/-- A later check of `decode.seg` that fails is raised as an entry check is (R280, R284; DESIGN CHOICE, log entry 19). -/
def M.decodeChecks {α : Type} (m : M α) : M α :=
  tryCatch m fun e =>
    match e with
    | .trap cause addr _ => if isCodedCause cause then do
        M.raiseCheck (1 + (cause - Cause.unsupportedFormat).toNat) cause addr
        throw e
      else throw e
    | .wait _ _ => throw e

/-- `decode.seg` (R280): the decoder slots as they stand when it starts. -/
def execDecodeSeg (s : State) : Host.Outcome State Fault Refusal :=
  routineUnit .decodeSeg (fun _ => do
    let x ← M.str
    let q := (x.getS 9).toNat
    M.entry [scalarCheck (decide (q ≤ 7))]
    M.entryHeader
    let s ← get
    let m := s.here.mx
    let c := streamCoder (x.cap 2)
    let d := (x.cap 3).fields
    let (f, sym) ← M.decodeChecks (do
      let h ← c.header
      c.tile h (x.getS 8).toNat
      let f := (codedHeader h).fmt
      if d.rows ≠ 16 ∨ d.rowbytes ≠ codedRowBytes f then M.trap Cause.matrixShapeMismatch ((x.cap 3).addr 0)
      let e ← c.entry h (x.getS 8).toNat
      let sym ← c.segment m.slots m.mask f e q (segmentAt h e q)
      pure (f, sym))
    (List.range 16).forM fun r => M.writeRow (x.cap 3) r 0 (segmentRow f sym r)
    pure .done) s

/-- `acc.addrow` (R281): it has waited for `tlm` at the `rcall`. -/
def execAccAddrow (s : State) : Host.Outcome State Fault Refusal :=
  rowRoutine .accAddrow 16 (fun x =>
      let first := Nat.max (x.getS 8).toNat 1024
      [((x.cap 2).fields.rowbytes == 512, Cause.matrixShapeMismatch, (x.cap 2).addr 0),
        (addrowOk x, Cause.accumulatorRange, BitVec.ofNat 64 first)])
    (fun x => (x.cap 2).fields.rows)
    (fun i => do
      let x ← M.str
      let xs ← M.readWords (x.cap 2) i
      let s ← get
      let r := (x.getS 8).toNat + i
      let y := List.zipWith (fadd32 .rne) (rowValues (s.here.mx.row r)) xs
      M.modTile fun t => { t with mx := t.mx.setRow r (ofLanes 32 (values y)) }
      M.raise (flagsOf y)) s

/-- `quant.row` (R282): the codes of a row, then its scale code. -/
def execQuantRow (s : State) : Host.Outcome State Fault Refusal :=
  rowRoutine .quantRow 16 (fun x =>
      let d := (x.cap 2).fields
      let c := (x.cap 4).fields
      [(isFormat d.fmt, Cause.unsupportedFormat, (x.cap 2).addr 0), roundingCheck (x.getS 10),
        capCheck (x.cap 2) (d.rows == c.rows), capCheck (x.cap 2) (packs d.fmt d.rowbytes (c.rowbytes / 4))])
    (fun x => (x.cap 4).fields.rows)
    (fun i => do
      let x ← M.str
      let f := (x.cap 2).fields.fmt
      let v := x.getS 10
      let xs ← M.readWords (x.cap 4) i
      let (scale, codes, fl) := quantRow f (x.mode (Rm.ofBits (v.extractLsb' 0 3))) (v.getLsbD 3) xs
      let n := xs.length
      M.writeRow (x.cap 2) i 0 (toBytes (fmtBytes n f) (BitVec.ofNat (n * fmtBits f) (packCodes f codes)))
      if !(x.cap 3).isNull then M.writeAt (x.cap 3) i [BitVec.ofNat 8 scale]
      M.raise fl) s

/-- The rank of an FP32 code (R283): every NaN highest, then by value with +0 above −0. -/
def rank32 (a : BitVec 32) : Nat :=
  if isNan32 a then 2 ^ 33 else if a.getLsbD 31 then 2 ^ 32 - 1 - a.toNat else 2 ^ 32 + a.toNat

/-- Insert an element with its index into a list of falling rank; an equal rank stands after the earlier ones. -/
def insertRank (e : BitVec 32 × Nat) : List (BitVec 32 × Nat) → List (BitVec 32 × Nat)
  | [] => [e]
  | x :: xs => if rank32 x.1 < rank32 e.1 then e :: x :: xs else x :: insertRank e xs

/-- The k elements of highest rank of a row with their indices (R283). -/
def topRanks (k : Nat) (xs : List (BitVec 32)) : List (BitVec 32 × Nat) :=
  (xs.zipIdx.foldl (fun l e => insertRank e l) []).take k

/-- `topk.row`. -/
def execTopkRow (s : State) : Host.Outcome State Fault Refusal :=
  rowRoutine .topkRow 16 (fun x =>
      let k := (x.getS 10).toNat
      let d := (x.cap 2).fields
      let e := (x.cap 3).fields
      let c := (x.cap 4).fields
      [scalarCheck (decide (1 ≤ k ∧ k ≤ c.rowbytes / 4)), capCheck (x.cap 2) (d.rows == c.rows && e.rows == c.rows),
        capCheck (x.cap 2) (d.rowbytes == 4 * k && e.rowbytes == 4 * k)])
    (fun x => (x.cap 4).fields.rows)
    (fun i => do
      let x ← M.str
      let xs ← M.readWords (x.cap 4) i
      let top := topRanks (x.getS 10).toNat xs
      M.writeRow (x.cap 2) i 0 (bytes32 (top.map (·.1)))
      M.writeRow (x.cap 3) i 0 (bytes32 (top.map fun e => BitVec.ofNat 32 e.2))) s

end Sys2Proof.Machine
end

