-- ==== Sys2Proof/Machine/Deadlines.lean ====
section
/-! DEFINITION. Deadlines: call time, diversion and hard stop (spec/20_deadlines.md R355 to R364), and what the hard
stop abandons (spec/06_pumps.md R114, spec/13_matrix_engine.md R245). -/

namespace Sys2Proof.Machine

/-- May a call time still act on the tile's stream (R356, R357)? -/
def Tile.divertible (x : Tile) : Bool :=
  x.callTime.isNone && !x.user.diverted &&
    match x.user.state with
    | .running => true
    | .waiting => true
    | .stalled => true
    | .trapped => true
    | .idle => false
    | .loaded => false
    | .ended => false
    | .stopped => false

/-- The tiles of a node whose present stream is the node's. -/
def State.nodeTiles (s : State) (n : Node) : List TileId := n.tiles.filter fun t => (s.tile t).node == some n.serial

/-- Has an instant in `DTIME` nanoseconds been reached; all ones is none (R355, R376)? -/
def State.reached (s : State) (at_ : Word) : Bool := at_ != BitVec.allOnes 64 && !(s.dtime.ult at_)

/-- Has the node reached its hard stop, and has not been stopped yet (R355, R361)? -/
def State.hardStopDue (s : State) (n : Node) : Bool :=
  !n.hs && (n.state == .running || n.state == .draining)
    && (s.nodeTiles n).any fun t => s.reached (s.tile t).dlhard

/-- Has the node reached its call time, with a stream that it has not yet been raised on (R355 to R357)? -/
def State.callTimeDue (s : State) (n : Node) : Bool :=
  n.clear != 0 && n.state == .running
    && (s.nodeTiles n).any fun t => (s.tile t).divertible && s.reached (s.tile t).dlcall

/-! ### Call time and diversion -/

/-- The code of R356 under which a call time is noted: inside a routine, whether trapped there or not (R389), trapped
outside every routine, not begun, or elsewhere. A wait gives its own code when the diversion leaves it. -/
def Stream.callCode (x : Stream) : BitVec 8 :=
  if x.inRoutine then 3
  else if x.state = .trapped then 7
  else if !x.begun then 6
  else 1

/-- Note a call time on a tile whose instant is reached: a region that the stream goes on to has to commit first (R356). -/
def State.noteCallTime (s : State) (t : TileId) : State :=
  let x := s.tile t
  if x.divertible && s.reached x.dlcall then
    s.setTile t { x with callTime := some x.user.callCode, user := { x.user with went := false } }
  else s

/-- Device time reaches a node's call time: a diversion is pending for each of its streams, unless the node has no
clearing entry (R355 to R357). -/
def execCallTime (serial : Nat) (s : State) : Host.Outcome State Fault Refusal :=
  match s.node? serial with
  | none => .next s
  | some n => .next (if s.callTimeDue n then (s.nodeTiles n).foldl State.noteCallTime s else s)

/-- A stream is diverted at its diversion point (R356, R357); with its arrival made, a rendezvous may complete. -/
def execDiversion (t : TileId) (s : State) : Host.Outcome State Fault Refusal :=
  match s.diversionPoint t with
  | none => .next s
  | some (code, pc) => .next (s.divert t code pc)

/-! ### The hard stop -/

/-- The pump abandons every command of a context: the commands leave the queues, the issue number returns to the counter
and the status is idle (R114). -/
def PumpCtx.abandon (p : PumpCtx) : PumpCtx := { p with issue := p.tlp, done := [], halt := none }

/-- The engines of a tile abandon their work: the pumps (R114), the matrix engine and the wellhead, whose queue empties,
whose shadow load leaves its bank invalid and whose issue numbers return to their counters (R245), and the signal queue,
whose posts are discarded whole (R361; DEDUCED, log entry 49). A wellhead command that has started has stopped at a
yield point, between two segments (R78, R80; DEDUCED, log entry 37). `WHSTAT` shows it as abandoned with no cause, also
where a fault had stopped it before and where it is a TABLE (DESIGN CHOICE, log entry 37). -/
def Tile.abandon (x : Tile) : Tile :=
  { x with
    loadQ := [], storeQ := [], pumps := x.pumps.map PumpCtx.abandon
    mx := { x.mx with
      queue := [], issueM := x.mx.tlm, issueW := x.mx.tlw, doneM := [], doneW := [], begun := false, rowp := 0
      halt := none, stopped := true, flags := 0, whState := if x.mx.whState = 0 then 0 else 3, whCause := 0
      whSecond := false, pages := [] }
    sigQ := [], sigFault := none }

/-- The record of an engine fault passed on while no stream is on the tile, or with no stream any more. -/
def State.recordPassed (s : State) (t : TileId) (f : TileFault) : State :=
  let f := { f with pending := false }
  let jpc := (s.tile t).user.place
  (s.setTile t { s.tile t with
    fault := some f, tcause := f.header t (s.ctxOf t), taddr := f.addr, tpc := jpc }).reportFault t f jpc

/-- The report of a tile fault whose stream is stopped: one that waits for the stream's boundary is recorded, and after
a hard stop the header says that the stream cannot resume (R374; DEDUCED, log entry 70). -/
def State.reportStopped (hard : Bool) (s : State) (t : TileId) : State :=
  match (s.tile t).fault with
  | none => s
  | some f =>
    if f.pending then s.recordPassed t { f with res := false }
    else if hard then s.amend t { f with res := false }
    else s

/-- Is the node's stream on the tile one that a hard stop or a fault end still stops (R331)? -/
def StreamState.active : StreamState → Bool
  | .idle => false
  | .loaded => false
  | .running => true
  | .stalled => true
  | .waiting => true
  | .trapped => true
  | .ended => false
  | .stopped => false

/-- The engine finishes the head ACT up to its next row that is a multiple of 16, or to its end (R245); the head DRAIN
stands between rows already, since a row is one step. A resumed ACT makes its start checks again on the way. One that
cannot go on, halted, held or at an empty line, is left where it is. -/
def State.finishRows : Nat → State → TileId → State
  | 0, s, _ => s
  | fuel + 1, s, t =>
    match (s.tile t).matrixHead with
    | none => s
    | some e =>
      match e.cmd with
      | .act a sc abase =>
        let m := (s.tile t).mx
        if m.rowp % 16 != 0 then
          let s' := s.matrixUnit t e (M.act t a sc abase)
          if m.begun && (s'.tile t).mx.rowp = m.rowp then s' else State.finishRows fuel s' t
        else s
      | _ => s

/-- A node's stream on a tile is stopped and its engine work abandoned (R361). A region that has not committed is undone
and its buffered writes are discarded (R296); a waiting instruction stays unperformed. Answers to the tile's packets
find no command any more. A freeze ends with the node (R372). -/
def State.stopTile (s : State) (t : TileId) : State :=
  let s := s.finishRows 17 t
  let x := (s.tile t).abandon
  let s := { s with peerOut := s.peerOut.filter (·.tile != t) }
  if x.user.state.active then
    (s.setTile t { x with fault := none }).leave t .stopped
  else s.setTile t { x with fault := none, callTime := none }

/-- Stop a node on every tile that holds its stream, at its hard stop or its end by fault. -/
def State.stopNode (s : State) (hard : Bool) (n : Node) : State :=
  (s.nodeTiles n).foldl State.stopTile ((s.nodeTiles n).foldl (State.reportStopped hard) s)

/-- The hard stop of a node (R361): its streams are stopped, HS is set, and it is Draining once every stream has ended
or been stopped. -/
def State.hardStop (s : State) (n : Node) : State :=
  (s.stopNode true n).mapNode n.serial fun x => { x with hs := true }

/-- A member tile reaches the hard stop (R355, R361). -/
def execHardStop (serial : Nat) (s : State) : Host.Outcome State Fault Refusal :=
  match s.node? serial with
  | none => .next s
  | some n => .next (if s.hardStopDue n then s.hardStop n else s)

end Sys2Proof.Machine
end

