-- ==== Sys2Proof/Machine/Nodes.lean ====
section
/-! DEFINITION. Nodes: accesses of the well-house through a context's root, the completion word, the end by fault
(spec/19_execution_and_scheduling.md R335, R345, R412), admission (R334, R337, R338, R344), dispatch with its staging
(R329, R342, R343, R346), the overlay swap (R347, R363) and completion (R321, R345). -/

namespace Sys2Proof.Machine

/-! ### Accesses of an agent outside the tiles through page tables (R27, R28, R337, R395) -/

/-- The physical conditions on a part of n bytes for an agent outside the tiles (R24, R25, R349). -/
def State.agentCheck (s : State) (pa n : Nat) (so : Bool) (acc : Access) : Option (BitVec 8) :=
  match regionOf pa with
  | .hbm => none
  | .cistern t _ => if (s.tile t).rbusy then some (accessFault acc) else none
  | .device => if so && acc ≠ .atomic && acc ≠ .post && (devRegOf pa n).isSome then none else some (accessFault acc)
  | .hole => some (accessFault acc)

/-- The walk of an agent without translation caches of its own, with the permissions of the user context: the address,
the page kind and the state with A and D set (R27, R28, R38). -/
def State.agentWalk (s : State) (root : Word) (va : Word) (acc : Access) : Except (BitVec 8) (Phys × State) :=
  if root.extractLsb' 60 4 = 0 then .error (accessFault acc)
  else
    let v48 : BitVec 48 := va.setWidth 48
    match walkFrom s (root.extractLsb' 44 16) v48 acc 4 ((root.extractLsb' 0 44).toNat * 4096) false [] with
    | .error c => .error c
    | .ok k =>
      let b (n : Nat) : Bool := k.pte.getLsbD n
      if !leafGrants (b 4) (b 3) (b 2) (b 1) acc true then .error (pageFault acc)
      else
        let (s, pte) := setAccessed s k acc
        .ok (⟨k.ppn.toNat * 4096 + v48.toNat % 2 ^ (12 + k.span), pte.extractLsb' 61 2 == 2⟩, s)

/-- Translate the address of a part of n bytes for such an agent, with the physical conditions (R24, R25). -/
def State.agentPart (s : State) (root : Word) (va : Word) (n : Nat) (acc : Access) : Except (BitVec 8) (Nat × State) :=
  match s.agentWalk root va acc with
  | .error c => .error c
  | .ok (p, s) =>
    match s.agentCheck p.pa n p.so acc with
    | some c => .error c
    | none => .ok (p.pa, s)

/-- What the parts of an agent's access leave of their translations where one of them fails: A and D of the walks that
reached a leaf, up to the failing part's (R38). -/
def State.agentTried (s : State) (root : Word) (acc : Access) : List (Word × Nat) → State
  | [] => s
  | p :: ps =>
    match s.agentWalk root p.1 acc with
    | .error _ => s
    | .ok (_, s') =>
      match s.agentPart root p.1 p.2 acc with
      | .error _ => s'
      | .ok _ => State.agentTried s' root acc ps

/-- Translate the page parts of an access, lower first. -/
def State.agentParts (s : State) (root : Word) (va : Word) (n : Nat) (acc : Access) :
    Except (BitVec 8) (List (Nat × Nat) × State) :=
  (splitPages va n).foldlM (init := ([], s)) fun r p =>
    match r.2.agentPart root p.1 p.2 acc with
    | .error c => .error c
    | .ok (pa, s) => .ok (r.1 ++ [(pa, p.2)], s)

/-- Read a part: bytes of memory or of a cistern, or a device register (R25). -/
def State.agentLoad (s : State) (pa n : Nat) : List Byte × State :=
  match regionOf pa with
  | .device =>
    match devRegOf pa n with
    | none => ([], s)
    | some r => (toBytes n (s.devRead r).1, (s.devRead r).2)
  | .hbm => (s.readBytes pa n, s)
  | .cistern _ _ => (s.readBytes pa n, s)
  | .hole => ([], s)

/-- Write a part for an agent that is no tile (R25, R93). -/
def State.agentStore (s : State) (agent : Agent) (pa : Nat) (bs : List Byte) : State :=
  match regionOf pa with
  | .device =>
    match devRegOf pa bs.length with
    | none => s
    | some r => s.devWrite agent r (ofBytes 128 bs)
  | .hbm => s.store pa bs
  | .cistern _ _ => s.store pa bs
  | .hole => s

/-- Read the parts of an access. -/
def State.agentLoads (s : State) (ps : List (Nat × Nat)) : List Byte × State :=
  ps.foldl (init := ([], s)) fun r p => let x := r.2.agentLoad p.1 p.2; (r.1 ++ x.1, x.2)

/-- Write the parts of an access. -/
def State.agentStores (s : State) (agent : Agent) (ps : List (Nat × Nat)) (bs : List Byte) : State :=
  (ps.foldl (init := (s, bs)) fun r p => (r.1.agentStore agent p.1 (r.2.take p.2), r.2.drop p.2)).1

/-- Read bytes through a context's root. -/
def State.agentRead (s : State) (ctx : CtxId) (va : Word) (n : Nat) : Except (BitVec 8) (List Byte × State) :=
  match s.agentParts (s.ctx ctx).root va n .load with
  | .error c => .error c
  | .ok (ps, s) =>
    if ps.any fun p => (s.poisonedLine p.1 p.2).isSome then .error Cause.poisonedRead
    else .ok (s.agentLoads ps)

/-- The first poisoned line that a read through a context's root meets (R381). -/
def State.agentPoison (s : State) (ctx : CtxId) (va : Word) (n : Nat) : Nat :=
  let root := (s.ctx ctx).root
  ((splitPages va n).findSome? fun p =>
    match s.agentPart root p.1 p.2 .load with
    | .error _ => some (poisonedPte s (p.1.setWidth 48) 4 ((root.extractLsb' 0 44).toNat * 4096))
    | .ok (pa, s') => s'.poisonedLine pa p.2).getD 0

/-! ### The completion word (R335) -/

/-- The completion word. -/
def complWord (state : BitVec 2) (hs dv : Bool) (cause : BitVec 8) (nstr : Nat) : Word :=
  (0 : BitVec 39) ++ BitVec.ofNat 9 nstr ++ cause ++ (0 : BitVec 4) ++ bit dv ++ bit hs ++ state

/-- A completion word could not be written: an entry of KIND 0x0A of the well-house (R335, R383). -/
def State.complLost (s : State) (ctx : CtxId) (va : Word) : State := s.logError 0x0A 0 256 ctx va 0

/-- Write COMPL and CTIME of a record, or log that they could not be written (R335). -/
def State.writeCompl (s : State) (ctx : CtxId) (va : Word) (w : Word) : State :=
  match s.agentParts (s.ctx ctx).root (va + 256) 16 .store with
  | .error _ => (s.agentTried (s.ctx ctx).root .store (splitPages (va + 256) 16)).complLost ctx va
  | .ok (ps, s') =>
    if ps.any fun p => (s'.poisonedLine p.1 p.2).isSome then s'.complLost ctx va
    else s'.agentStores .host ps (toBytes 8 w ++ toBytes 8 s'.dtime)

/-! ### The end of a node -/

/-- The tile holds the stream of a node that is over: with no successor staged its user context is Idle (R331). -/
def Tile.endNode (x : Tile) (serial : Nat) : Tile :=
  if x.node = some serial then
    { x with
      node := none, fault := none, callTime := none
      user := if x.shadow.isNone then { x.user with state := .idle } else x.user }
  else x

/-- A node leaves the well-house. With the last node of its context the job ends, and its translations are freed (R302,
R328; DESIGN CHOICE, log entry 71). -/
def State.dropNode (s : State) (serial : Nat) : State :=
  let left : State :=
    { s with nodes := s.nodes.filter (·.serial != serial), tiles := s.tiles.map fun x => x.endNode serial }
  match s.node? serial with
  | none => left
  | some n => if left.nodes.any fun m => m.ctx == n.ctx then left else left.freeTranslations n.ctx

/-- A node's end by fault or withdrawal on its tiles: as at a hard stop, but HS is not set (R345, R412). -/
def State.killNode (s : State) (n : Node) : State := ((s.stopNode false n).unstage n.serial).dropNode n.serial

/-- Withdraw the chain successors of a faulted node, each with the cause of the fault (R412); a successor that is
Draining runs to its end (R345). -/
def State.withdraw : Nat → State → Nat → BitVec 8 → State
  | 0, s, _, _ => s
  | fuel + 1, s, serial, cause =>
    match s.nodes.find? fun n => n.pred == some serial && n.state != .draining with
    | none => s
    | some n =>
      let nstr := if n.state = .admitted then 0 else n.tiles.length
      let s := (s.killNode n).writeCompl n.ctx n.va (complWord 3 false false cause nstr)
      State.withdraw fuel s n.serial cause

/-- A node ends by fault: its streams are stopped, its COMPL is written, SET is not posted and its successors are
withdrawn (R345, R412). -/
def State.faultEnd (s : State) (serial : Nat) (cause : BitVec 8) : State :=
  match s.node? serial with
  | none => s
  | some n =>
    let s := (s.killNode n).writeCompl n.ctx n.va (complWord 3 n.hs n.dv cause n.tiles.length)
    State.withdraw s.nodes.length s serial cause

/-! ### Admission (R334, R337, R338) -/

/-- A field of a record. -/
def recField (r : BitVec 2560) (lo w : Nat) : BitVec w := r.extractLsb' lo w

/-- Fields of FLAGS. -/
def flagNcarg (f : Word) : Nat := (f.extractLsb' 48 3).toNat
def flagNsarg (f : Word) : Nat := (f.extractLsb' 51 4).toNat
def flagXarg (f : Word) : Nat := (f.extractLsb' 55 4).toNat
def flagGroup (f : Word) : BitVec 8 := f.extractLsb' 32 8
def flagPrio (f : Word) : Nat := (f.extractLsb' 40 2).toNat
def flagCont (f : Word) : Bool := f.getLsbD 42

/-- Check 2 of R338. -/
def recordShape (r : BitVec 2560) : Bool :=
  let f : Word := recField r 0 64
  f.extractLsb' 0 32 == 0x4E4F4401 && f.extractLsb' 59 5 == 0 && !f.getLsbD 47 && !f.getLsbD 43
    && recField r 2176 384 == 0 && decide (flagNcarg f ≤ 4) && decide (flagNsarg f + 2 * flagNcarg f ≤ 8)
    && decide (flagXarg f ≤ flagNsarg f)

/-- Is an address a multiple of eight in a code section of a code object loaded for the context? -/
def State.inCode (s : State) (c : CtxId) (a : Word) : Bool :=
  a.toNat % 8 == 0 && (s.ctx c).objects.any fun o => inExtent o.code a

/-- The group entry of a node, when it is valid and owned by the context (R339). -/
def State.groupFor (s : State) (c : CtxId) (g : BitVec 8) : Option Group :=
  let e := s.groups[g.toNat]'g.isLt
  if e.valid && e.ctx == c then some e else none

/-- Checks 2 to 6 of R338 on a record's content. -/
def State.recordCheck (s : State) (c : CtxId) (r : BitVec 2560) : Option (BitVec 8) :=
  let f : Word := recField r 0 64
  let clear : Word := recField r 320 64
  let vcap : Quad := recField r 384 128
  let deadline : Word := recField r 192 64
  let budget : BitVec 32 := recField r 256 32
  let cargs := (List.range (flagNcarg f)).map fun k => capFields (recField r (1024 + 128 * k) 128)
  if !recordShape r then some Cause.nodeRecordInvalid
  else if (s.groupFor c (flagGroup f)).isNone then some Cause.nodeGroupInvalid
  else if !s.inCode c (recField r 64 64) || (clear != 0 && !s.inCode c clear) then some Cause.nodeRecordInvalid
  else if !(cargs.all CapFields.wellFormed) || (vcap != 0 && !(capFields vcap).wellFormed) then
    some Cause.invalidCapabilityField
  else if deadline != 0 && decide (deadline.toNat < budget.toNat) then some Cause.nodeRecordInvalid
  else none

/-- Check 1 of R338 and the reading of the record: each page is checked for reading and then for writing. -/
def State.readRecord (s : State) (c : CtxId) (va : Word) : Except (BitVec 8) (BitVec 2560 × State) :=
  if va.toNat % 64 ≠ 0 then .error Cause.nodeRecordInvalid
  else
    let root := (s.ctx c).root
    let checked := (splitPages va 320).foldlM (init := s) fun s p =>
      match s.agentPart root p.1 p.2 .load with
      | .error e => Except.error e
      | .ok (_, s) =>
        match s.agentPart root p.1 p.2 .store with
        | .error e => .error e
        | .ok (_, s) => .ok s
    match checked with
    | .error e => .error e
    | .ok s =>
      match s.agentRead c va 320 with
      | .error e => .error e
      | .ok (bs, s) => .ok (ofBytes 2560 bs, s)

/-- A node as admitted from its record. -/
def nodeOf (serial : Nat) (c : CtxId) (va : Word) (pred : Option Nat) (r : BitVec 2560) : Node where
  serial := serial
  ctx := c
  va := va
  state := .admitted
  flags := recField r 0 64
  entry := recField r 64 64
  next := recField r 128 64
  deadline := recField r 192 64
  budget := recField r 256 32
  estim := recField r 288 32
  clear := recField r 320 64
  vcap := recField r 384 128
  wait := recField r 512 256
  set := recField r 768 256
  cargs := Vector.ofFn fun k : Fin 4 => recField r (1024 + 128 * k.val) 128
  sargs := Vector.ofFn fun k : Fin 8 => recField r (1536 + 64 * k.val) 64
  pred := pred
  tiles := []
  gwm1 := 0
  ghm1 := 0
  unstarted := []
  ended := []
  rdv := 0
  hs := false
  dv := false
  broken := []

/-- What the reading of a record that fails has left of its translations: each page is tried for reading and then for
writing (R38). -/
def State.recordTried (s : State) (root : Word) : List (Word × Nat) → State
  | [] => s
  | p :: ps =>
    let r := s.agentTried root .load [p]
    match s.agentPart root p.1 p.2 .load with
    | .error _ => r
    | .ok _ =>
      let w := r.agentTried root .store [p]
      match r.agentPart root p.1 p.2 .store with
      | .error _ => w
      | .ok _ => State.recordTried w root ps

/-- Refuse a record (R338). A read of a poisoned line is logged (R381). -/
def State.refuseRecord (s : State) (c : CtxId) (va : Word) (cause : BitVec 8) : State :=
  let s :=
    if cause = Cause.poisonedRead then s.logError 0x09 cause 256 c (BitVec.ofNat 64 (128 * s.agentPoison c va 320)) 0
    else s
  s.writeCompl c va (complWord 2 false false cause 0)

/-- Admit a record, or refuse it (R337, R338). -/
def State.admitRecord (s : State) (c : CtxId) (va : Word) (pred : Option Nat) : State :=
  match s.readRecord c va with
  | .error e =>
    (if va.toNat % 64 ≠ 0 then s else s.recordTried (s.ctx c).root (splitPages va 320)).refuseRecord c va e
  | .ok (r, s) =>
    match s.recordCheck c r with
    | some e => s.refuseRecord c va e
    | none => { s with nodes := s.nodes ++ [nodeOf s.serial c va pred r], serial := s.serial + 1 }

/-- Does a record lie in the cistern of a frozen tile, so that what the well-house does with it waits (R98)? -/
def State.recordFrozen (s : State) (c : CtxId) (va : Word) : Bool :=
  (splitPages va 320).any fun p => ((s.peek (s.ctx c).root p.1).bind s.frozenAt).isSome

/-- Has the ready pool a free entry among its 4,096 (R337)? -/
def State.poolRoom (s : State) : Bool := decide ((s.nodes.filter (·.state == .admitted)).length < 4096)

/-- The well-house takes the first record of a context's submit queue (R337). -/
def execNodeAdmission (cx : CtxId) (s : State) : Host.Outcome State Fault Refusal :=
  match (s.ctx cx).subQ with
  | [] => .next s
  | va :: rest =>
    .next (if s.poolRoom && !s.recordFrozen cx va then
      (s.setCtx cx { s.ctx cx with subQ := rest }).admitRecord cx va none else s)

/-! ### Dispatch (R342 to R344) and staging (R329, R346) -/

/-- Is a chain predecessor dispatched (R342)? One that has left the well-house was. -/
def State.predDone (s : State) (n : Node) : Bool :=
  match n.pred.bind s.node? with
  | none => true
  | some p => p.state != .admitted

/-- Is the context held at this moment: the slot in force or the present slot excludes it, or its `HOLD` is 1? -/
def State.heldNow (s : State) (c : CtxId) : Bool :=
  s.ctxHeld c || (s.gsperiod != 0 && !(s.ctx c).gsmask.getLsbD s.slotNow)

/-- Is a node eligible (R342)? -/
def State.eligible (s : State) (n : Node) : Bool :=
  n.state == .admitted && n.wait &&& ~~~(s.ctx n.ctx).events == 0 && !s.heldNow n.ctx && s.predDone n
    && (s.groupFor n.ctx (flagGroup n.flags)).isSome

/-- The slack of a node, as a signed value (R342). -/
def State.slack (s : State) (n : Node) : Int :=
  (n.deadline.toNat : Int) - n.budget.toNat - s.dtime.toNat - n.estim.toNat

/-- Does node a rank ahead of node b (R342)? -/
def State.ahead (s : State) (a b : Node) : Bool :=
  let pa := flagPrio a.flags
  let pb := flagPrio b.flags
  if pa ≠ pb then decide (pa < pb)
  else if a.deadline = 0 then b.deadline = 0 && decide (a.serial < b.serial)
  else if b.deadline = 0 then true
  else if s.slack a = s.slack b then decide (a.serial < b.serial)
  else decide (s.slack a < s.slack b)

/-- The members that a node would run on now. -/
def State.membersOf (s : State) (n : Node) : List TileId :=
  match s.groupFor n.ctx (flagGroup n.flags) with
  | none => []
  | some g => g.members

/-- May the node be dispatched: it is eligible, its member tiles are free, and no eligible node that ranks ahead of it
reserves one of them (R342, R343, R349)? -/
def State.dispatchable (s : State) (n : Node) : Bool :=
  let ms := s.membersOf n
  s.eligible n
    && ms.all (fun t => (s.tile t).shadow.isNone && !(s.tile t).rbusy)
    && s.nodes.all fun m =>
      !(s.eligible m && s.ahead m n) || !((s.membersOf m).any ms.contains)

/-- The scalar registers that the capability arguments leave free among s4 .. s11 (R127, R329). -/
def scalarArgs (ncarg : Nat) : List SReg :=
  ((List.range 8).filter fun k => decide (2 * ncarg ≤ k)).map fun k => BitVec.ofNat 6 (4 + k)

/-- The capability of a private area of P bytes (R329). -/
def privateCap (base : BitVec 48) (p : Nat) : Quad :=
  let f : CapFields :=
    if p ≤ 0xFFF0 then ⟨base.toNat, 0, 1, p, 0xF, 3, 0, 0⟩ else ⟨base.toNat, 0x8000, p / 0x8000, 0x8000, 0xF, 3, 0, 0⟩
  f.bits

/-- `VPOS` (R341). -/
def vposWord (gid gwm1 ghm1 : BitVec 8) (i : Nat) : Word :=
  let w := gwm1.toNat + 1
  (0 : BitVec 16) ++ gid ++ BitVec.ofNat 8 i ++ ghm1 ++ gwm1 ++ BitVec.ofNat 8 (i / w) ++ BitVec.ofNat 8 (i % w)

/-- The registers of a stream at its start (R329), as a stream whose other fields are at reset. -/
def startStream (n : Node) (i p : Nat) : Stream :=
  let nc := flagNcarg n.flags
  let x := ((Stream.reset.setS 1 exitAddress).setS 2 (BitVec.ofNat 64 p)).setS 3 (BitVec.ofNat 64 p)
  let x := (List.range nc).foldl (init := x) fun x k =>
    x.setC (.c (BitVec.ofNat 5 (2 + k))) ⟨n.cargs.toList.getD k 0, true⟩
  let arg (k : Nat) : Word := if flagXarg n.flags = k + 1 then BitVec.ofNat 64 i else n.sargs.toList.getD k 0
  (((scalarArgs nc).take (flagNsarg n.flags)).zipIdx).foldl (init := x) fun x r => x.setS r.1 (arg r.2)

/-- Call time and hard stop of a node as the deadline registers hold them (R355, R376). -/
def Node.dlcall (n : Node) : Word := if n.deadline = 0 then BitVec.allOnes 64 else n.deadline - n.budget.setWidth 64
def Node.dlhard (n : Node) : Word := if n.deadline = 0 then BitVec.allOnes 64 else n.deadline

/-- The area that the loader gave a context on a tile. -/
def Ctx.area (c : Ctx) (t : TileId) : TileArea := (c.areas.find? (·.tile == t)).getD ⟨t, 0, 0⟩

/-- What the firmware stages for a node on one of its tiles (R329, R346). -/
def stageOf (c : Ctx) (n : Node) (t : TileId) (i : Nat) : Shadow :=
  let x := startStream n i c.priv
  { serial := n.serial, vidx := BitVec.ofNat 8 i, s := x.s, tags := x.tags
    cpv := privateCap (c.area t).base c.priv, vpos := vposWord (flagGroup n.flags) n.gwm1 n.ghm1 i
    ctxroot := c.root, entry := n.entry, dlcall := n.dlcall, dlhard := n.dlhard, spbase := c.spbase
    pmbase := c.pmbase, ports := Vector.replicate 4 [] }

/-- Stage a node on its tiles (R342, R346): an Idle user context is Loaded (R331; DEDUCED, log entry 58). -/
def State.stage (s : State) (n : Node) : State :=
  n.tiles.zipIdx.foldl (init := s) fun s (t, i) =>
    let x := s.tile t
    s.setTile t
      { x with
        shadow := some (stageOf (s.ctx n.ctx) n t i), gated := false
        user := if x.user.state = .idle then { x.user with state := .loaded } else x.user }

/-- Admit the chain successor of a node that is dispatched (R344). -/
def State.admitNext (s : State) (n : Node) : State :=
  if n.next = 0 then s
  else (s.mapNode n.serial fun x => { x with next := 0 }).admitRecord n.ctx n.next (some n.serial)

/-- Dispatch a node: its wait bits are consumed, its group entry is copied, each member's firmware stages it, and its
chain successor is admitted (R333, R339, R342, R344). -/
def State.dispatch (s : State) (n : Node) (g : Group) : State :=
  let c := s.ctx n.ctx
  let s := s.setCtx n.ctx { c with events := c.events &&& ~~~n.wait }
  let d (x : Node) : Node :=
    { x with state := .dispatched, tiles := g.members, unstarted := g.members, gwm1 := g.gwm1, ghm1 := g.ghm1 }
  ((s.mapNode n.serial d).stage (d n)).admitNext n

/-- The well-house dispatches a node (DESIGN CHOICE, log entry 46). -/
def execNodeDispatch (serial : Nat) (s : State) : Host.Outcome State Fault Refusal :=
  match s.node? serial with
  | none => .next s
  | some n =>
    match s.groupFor n.ctx (flagGroup n.flags) with
    | none => .next s
    | some g => .next (if s.dispatchable n && !(n.next != 0 && s.recordFrozen n.ctx n.next) then s.dispatch n g else s)

/-! ### The overlay swap (R347, R363) -/

/-- Has a queue of the tile that a trailer mask names drained (R321, R334)? -/
def Tile.trailDrained (x : Tile) (flags : Word) : Bool :=
  (!flags.getLsbD 44 || x.loadQ.isEmpty) && (!flags.getLsbD 45 || x.storeQ.isEmpty)
    && (!flags.getLsbD 46 || x.mx.queue.isEmpty)

/-- Does the node start on the tile without context initialisation (R346, R381)? -/
def Tile.continues (x : Tile) (t : TileId) (n : Node) : Bool :=
  flagCont n.flags && x.lastCtx == some n.ctx && n.pred.isSome && x.lastNode == n.pred && !n.broken.contains t && !x.lost

/-- Have the queues drained that the swap waits for (R347)? -/
def State.swapDrained (s : State) (t : TileId) (cont : Bool) : Bool :=
  let x := s.tile t
  if cont then
    match x.node.bind s.node? with
    | none => true
    | some o => x.trailDrained o.flags
  else x.queuesEmpty

/-- The active stream of a tile has ended or been stopped, or there is none. -/
def StreamState.over : StreamState → Bool
  | .idle => true
  | .loaded => true
  | .running => false
  | .stalled => false
  | .waiting => false
  | .trapped => false
  | .ended => true
  | .stopped => true

/-- Context initialisation of a tile (R346): every piece of context state at its value of job start. The content of the
decoder slots stays behind their cleared valid bits (R71). -/
def Tile.initContext (x : Tile) : Tile :=
  { x with
    mx := { Matrix.reset with slots := x.mx.slots }
    pumps := Vector.replicate 4 PumpCtx.reset
    sigFault := none
    lost := false
    user := { x.user with
      ports := Vector.replicate 4 [], xm := Vector.replicate 16 0, fpctl := Stream.reset.fpctl
      ctxcfg := (x.user.ctxcfg &&& 3) ||| (if x.user.ctxcfg.getLsbD 0 then 4 else 0) } }

/-- Bytes of memory become zero. -/
def State.zeroRange (s : State) (pa n : Nat) : State :=
  { s.snoop pa n with
    mem := s.mem.filter fun c => !decide (pa ≤ c.1 ∧ c.1 < pa + n)
    poison := s.poison.filter fun l => !decide (pa ≤ 128 * l ∧ 128 * l + 128 ≤ pa + n) }

/-- A range of virtual addresses becomes zero, page by page, where a page is mapped. -/
def State.zeroImage (s : State) (root va : Word) (n : Nat) : State :=
  (cutPages (n / 4096 + 2) va n).foldl (init := s) fun s p => ((s.peek root p.1).map fun pa => s.zeroRange pa p.2).getD s

/-- The firmware writes the engine image of a job that starts with REFA = 1, where the private area holds one: both
valid bits, AB and the decoder mask clear, every accumulator value +0, and the bytes that R266 gives as zero. What the
formats, the weights, the scale codes and the slots hold means nothing yet (R71, R243, R267). -/
def State.initImage (s : State) (t : TileId) : State :=
  let u := (s.tile t).user
  if u.ctxcfg.getLsbD 2 && decide (0x92000 ≤ (s.ctx (s.ctxOf t)).priv) then
    let zero (s : State) (off n : Nat) : State := s.zeroImage u.ctxroot (u.image off) n
    zero (zero (zero s 0 0x80000) 0x90140 3) 0x90145 0xEBB
  else s

/-- s56 .. s63 and the tags of c28 .. c31 across the swap (R347, R350). -/
def carried (x : Tile) (cont : Bool) (saved : Option (Vector Word 8)) : Vector Word 8 × BitVec 32 :=
  if cont then (Vector.ofFn fun k : Fin 8 => x.user.s[56 + k.val], x.user.tags &&& 0xF0000000)
  else (saved.getD (Vector.replicate 8 0), 0)

/-- The user stream that the swap starts: the shadow bank's registers, and the state that stays on the tile (R329,
R347). -/
def Tile.startUser (x : Tile) (sh : Shadow) (carry : Vector Word 8 × BitVec 32) : Stream :=
  let s : Vector Word 64 :=
    Vector.ofFn fun n : Fin 64 => if h : 56 ≤ n.val then carry.1[n.val - 56] else sh.s[n.val]
  { Stream.reset with
    state := .running, pc := sh.entry, s := s, tags := sh.tags ||| carry.2, cpv := sh.cpv, cpvTag := true
    xm := x.user.xm, ports := Vector.zipWith (· ++ ·) x.user.ports sh.ports, fpctl := x.user.fpctl, vpos := sh.vpos
    ctxcfg := x.user.ctxcfg
    ctxroot := writeRoot x.user.ctxroot sh.ctxroot }

/-- Perform the overlay swap of a staged node on a tile (R347). No pre-emption has intervened yet between it and its
chain successor (R346). -/
def State.swap (s : State) (t : TileId) (sh : Shadow) (n : Node) : State :=
  let x := s.tile t
  let cont := x.continues t n
  let c := s.ctx n.ctx
  let place : BitVec 16 := sh.vpos.extractLsb' 32 16
  let saved := (c.carry.find? (·.1 == place)).map (·.2)
  let carry := carried x cont saved
  let s := s.setCtx n.ctx { c with carry := c.carry.filter (·.1 != place) }
  let x := if cont then x else x.initContext
  let s := s.setTile t
    { x with
      user := x.startUser sh carry, shadow := none, node := some n.serial, lastNode := some n.serial
      lastCtx := some n.ctx, vidx := sh.vidx, callTime := none, fault := none, dlcall := sh.dlcall
      dlhard := sh.dlhard, spbase := sh.spbase, pmbase := sh.pmbase, tsave := (c.area t).save }
  let s := s.mapNode n.serial fun y =>
    { y with
      unstarted := y.unstarted.filter (· != t)
      state := if y.state = .dispatched then .running else y.state }
  let next (y : Node) : Node :=
    if y.pred == some n.serial then { y with broken := y.broken.filter (· != t) } else y
  let s : State := { s with nodes := s.nodes.map next }
  (if cont then s else s.initImage t).land t

/-- Is the save of a held context still to be made on the tile, before another context's node takes it (R95, R350)? -/
def State.savePending (s : State) (t : TileId) (next : CtxId) : Bool :=
  match (s.tile t).lastCtx with
  | none => false
  | some c => c != next && s.ctxHeld c && !(s.ctx c).quiet.contains t

/-- A stream that starts on a tile after its node's hard stop is stopped at once (R363); STATE of `MSTAT` says so, and a
predecessor's engine work is left alone (R245; DEDUCED, log entry 49). -/
def State.stopAtStart (s : State) (t : TileId) : State :=
  let x := s.tile t
  (s.setTile t { x with mx := { x.mx with stopped := true } }).leave t .stopped

/-- The staged node takes the tile once its active stream is over and the queues have drained; a node past its hard stop
is stopped at once (R347, R363). -/
def execOverlaySwap (t : TileId) (s : State) : Host.Outcome State Fault Refusal :=
  let x := s.tile t
  match x.shadow with
  | none => .next s
  | some sh =>
    match s.node? sh.serial with
    | none => .next s
    | some n =>
      if x.rbusy || x.frozen || s.recordHeld t || !x.user.state.over || !s.swapDrained t (x.continues t n)
          || s.savePending t n.ctx then
        .next s
      else
        let s := s.swap t sh n
        .next (if n.hs then s.stopAtStart t else s)

/-! ### Completion (R321, R345) -/

/-- Has a draining node drained: on each member tile that still holds its stream, the queues of TRAIL? On a tile that
has gone on to a successor they had drained before (R347). -/
def State.nodeDrained (s : State) (n : Node) : Bool := (s.nodeTiles n).all fun t => (s.tile t).trailDrained n.flags

/-- A node completes: COMPL and CTIME are written, and then SET is posted (R335, R345). -/
def State.complete (s : State) (n : Node) : State :=
  let s := s.writeCompl n.ctx n.va (complWord 1 n.hs n.dv 0 n.tiles.length)
  let s := s.setCtx n.ctx { s.ctx n.ctx with events := (s.ctx n.ctx).events ||| n.set }
  s.dropNode n.serial

/-- A draining node completes once its queues have drained. -/
def execNodeCompletion (serial : Nat) (s : State) : Host.Outcome State Fault Refusal :=
  match s.node? serial with
  | none => .next s
  | some n =>
    .next (if n.state == .draining && s.nodeDrained n && !s.recordFrozen n.ctx n.va then s.complete n else s)

end Sys2Proof.Machine
end

