-- ==== Sys2Proof/Machine/Errors.lean ====
section
/-! DEFINITION. Errors that the SRAMs and the memory detect (spec/02_address_space.md R20, R21, spec/05_cisterns.md R98,
R99, spec/22_traps_and_context.md R381, R383). -/

namespace Sys2Proof.Machine

/-- The source number of the memory stack that holds an address (R20, R384). -/
def stackSource (pa : Nat) : Nat :=
  let a : Word := BitVec.ofNat 64 pa
  let c : BitVec 8 := a.extractLsb' 9 8 ^^^ a.extractLsb' 17 8 ^^^ a.extractLsb' 25 8 ^^^ (a.extractLsb' 33 7).setWidth 8
  264 + c.toNat / 32

/-- The address of a line, as a log entry names it. -/
def lineWord (l : Nat) : Word := BitVec.ofNat 64 (128 * l)

/-- Drop the entry at a place of a translation cache (R34, R381). -/
def Mmu.discard (m : Mmu) (c : CacheSite) (i : Nat) : Mmu :=
  match c with
  | .first => { m with l1 := m.l1.eraseIdx i }
  | .second => { m with l2 := m.l2.eraseIdx i }
  | .stream k =>
    if h : k.toNat < 5 then { m with streams := m.streams.set k.toNat ((m.streams[k.toNat]'h).eraseIdx i) h } else m
  | .walk => { m with walks := m.walks.eraseIdx i }

/-- The line of a cistern. -/
def cisternLineOf (t : TileId) (line : BitVec 16) : Nat := lineOf (cisternAddr t (128 * line.toNat))

/-- A correctable error: in tile SRAM the tile freezes, the datum is repaired and the event logged (R98); in memory the
datum is corrected and the event logged (R21). -/
def execCorrectableError (t : TileId) (site : SramSite) (s : State) : Host.Outcome State Fault Refusal :=
  match site with
  | .cisternLine line =>
    .next ((s.setTile t { s.tile t with frozen := true }).logError 0x01 0 t.toNat (s.ctxOf t)
      (lineWord (cisternLineOf t line)) 0)
  | .tileState => .next ((s.setTile t { s.tile t with frozen := true }).logError 0x01 0 t.toNat (s.ctxOf t) 0 0)
  | .translation _ _ => .next ((s.setTile t { s.tile t with frozen := true }).logError 0x01 0 t.toNat (s.ctxOf t) 0 0)
  | .hbmLine l => .next (s.logError 0x02 0 (stackSource (128 * l)) 0 (lineWord l) 0)

/-- Twenty-four cycles after the last detection the freeze ends (R98). -/
def execFreezeEnd (t : TileId) (s : State) : Host.Outcome State Fault Refusal :=
  .next (s.setTile t { s.tile t with frozen := false })

/-- A line is lost: it is poisoned and the operating system is told; no stream is interrupted (R381). -/
def State.loseLine (s : State) (l : Nat) (kind : BitVec 8) (src : Nat) (ctx : CtxId) : State :=
  ((s.setPoison l).logError kind Cause.linePoisoned src ctx (lineWord l) 0).emit (.interrupt src Cause.linePoisoned)

/-- Tile state is lost: a tile fault with SRC 8 and RES = 0. The first tile fault stays the reported one (R373, R374). -/
def State.loseTile (s : State) (t : TileId) : State :=
  let s := s.logError 0x04 Cause.tileStateLost t.toNat (s.ctxOf t) 0 0
  let s := s.setTile t { s.tile t with lost := true }
  match (s.tile t).node with
  | none => s
  | some n =>
    let g := s.faultOf t 8 false Cause.tileStateLost 0 0
    let s :=
      match (s.tile t).fault with
      | some f => s.amend t (f.join g)
      | none =>
        if (s.tile t).user.state.active then (s.setTile t { s.tile t with fault := some g }).deliver t g
        else s.recordPassed t g
    s.faultEnd n Cause.tileStateLost

/-- An uncorrectable error: it poisons a line of a cistern or of memory, loses tile state, or discards an entry of a
translation cache, so that the access walks again (R34, R99, R381). -/
def execUncorrectableError (t : TileId) (site : SramSite) (s : State) : Host.Outcome State Fault Refusal :=
  match site with
  | .cisternLine line => .next (s.loseLine (cisternLineOf t line) 0x04 t.toNat (s.ctxOf t))
  | .tileState => .next (s.loseTile t)
  | .translation c i =>
    let x := s.tile t
    .next ((s.setTile t { x with mmu := x.mmu.discard c i }).logError 0x04 0 t.toNat (s.ctxOf t) 0 0)
  | .hbmLine l => .next (s.loseLine l 0x03 (stackSource (128 * l)) 0)

end Sys2Proof.Machine
end

