-- ==== Sys2Proof/Machine/Time.lean ====
section
/-! DEFINITION. Device time and its discipline (spec/20_deadlines.md R352 to R354, spec/25_edges.md R403). -/

namespace Sys2Proof.Machine

/-- Device time goes on by a number of 2^-16 nanoseconds: log entries whose instant has passed reach their rings, and
the links send what they hold (R352, R384, R407; DESIGN CHOICE, log entries 4 and 57). -/
def State.pass (s : State) (d : Nat) : State :=
  ({ s with timing := { s.timing with now := s.timing.now + d } }).flushLogs.flushLinks

/-- A number saturated at the ends of a range (R354). -/
def saturate (lo hi x : Int) : Int := if x < lo then lo else if hi < x then hi else x

/-- OFFSET as the register holds it. -/
def offsetField (offset : Int) : BitVec 32 := BitVec.ofInt 32 (saturate (-(2 ^ 31)) (2 ^ 31 - 1) offset)

/-- The timing unit takes a message: `offset` is device time less the master's, in nanoseconds, and `rate` the
correction in units of 10 ppb. Before the first lock device time steps forward to the master's; afterwards the
correction is a rate alone (R353, R354; DEDUCED, log entry 55). -/
def State.discipline (s : State) (offset rate : Int) : State :=
  let s := if s.timing.mode = 0 && decide (offset < 0) then s.pass ((-offset).toNat * 65536) else s
  { s with timing := { s.timing with
      mode := 1, freq := BitVec.ofInt 16 (saturate (-20000) 20000 rate), offset := offsetField offset } }

/-- A master's place in the comparison of masters, as heard on a port: its grandmaster, then the steps from it, the port
that announces it and the port that hears it; the lower is the better (R403; PRESUMED, log entry 55). -/
def masterRank (x : BitVec 2 × PtpMaster) : BitVec 210 :=
  let m := x.2
  m.priority1 ++ m.clockClass ++ m.accuracy ++ m.variance ++ m.priority2 ++ m.identity ++ m.steps ++ m.sender ++ x.1

/-- The better of two masters. -/
def betterMaster (a b : BitVec 2 × PtpMaster) : BitVec 2 × PtpMaster :=
  if (masterRank b).ult (masterRank a) then b else a

/-- The master that device time follows: the best of those that are usable (R403). -/
def Timing.master (x : Timing) : Option (BitVec 2 × PtpMaster) :=
  match x.masters with
  | [] => none
  | a :: rest => some (rest.foldl betterMaster a)

/-- A port hears a master: its last announcement replaces the ones before it from the same sender (R403). -/
def Timing.hear (x : Timing) (port : BitVec 2) (m : PtpMaster) : Timing :=
  { x with masters := (port, m) :: x.masters.filter fun e => !(e.1 == port && e.2.sender == m.sender) }

/-- The timing unit takes a Precision Time Protocol message from a port: that of the best master disciplines device time
(R353, R403). -/
def State.takePtp (s : State) (port : BitVec 2) (m : PtpMessage) : State :=
  let s := { s with timing := s.timing.hear port m.master }
  if s.timing.master = some (port, m.master) then s.discipline m.offset m.rate else s

/-- A Precision Time Protocol message (R353). -/
def execPtpMessage (port : BitVec 2) (m : PtpMessage) (s : State) : Host.Outcome State Fault Refusal :=
  .next (s.takePtp port m)

/-- The master that device time follows is usable no more: the best of the others is followed. With none left, after a
lock the timing unit is in holdover and keeps its rate (R353, R354, R403; DEDUCED, log entry 55). -/
def execHoldover (s : State) : Host.Outcome State Fault Refusal :=
  let left := s.timing.masters.filter fun e => some e != s.timing.master
  .next { s with timing := { s.timing with
    masters := left, mode := if s.timing.mode = 0 then 0 else if left.isEmpty then 2 else s.timing.mode } }

/-- The pulse-per-second output rises at each whole second of device time (R403). -/
def execPulsePerSecondOutput (s : State) : Host.Outcome State Fault Refusal :=
  let second := s.timing.now / (65536 * 1000000000)
  .next (if s.timing.pulsed < second then
    ({ s with timing := { s.timing with pulsed := second } }).emit (.pulse second) else s)

/-- A rate correction as the register holds it (R354). -/
def freqField (rate : Int) : BitVec 16 := BitVec.ofInt 16 (saturate (-20000) 20000 rate)

/-- A timing input in holdover, in place of a master: an edge of the pulse-per-second input gives the offset, the 10 MHz
reference the rate. Neither steps device time (R403; DEDUCED, log entry 55). -/
def execPulsePerSecondInput (x : TimingInput) (s : State) : Host.Outcome State Fault Refusal :=
  .next (if s.timing.mode = 2 then
      match x with
      | .pulse offset => { s with timing := { s.timing with offset := offsetField offset } }
      | .reference rate => { s with timing := { s.timing with freq := freqField rate } }
    else s)

end Sys2Proof.Machine
end

