-- ==== Sys2Proof/Machine/Ethernet.lean ====
section
/-! DEFINITION. The Ethernet ports: their descriptor rings, transmit and receive (spec/25_edges.md R401, R402). -/

namespace Sys2Proof.Machine

/-! ### Register writes that hand over descriptors or start a ring -/

/-- A write to `ETTXTAIL` (R402). -/
def execEttxtail (p : BitVec 2) (v : Word) (s : State) : Host.Outcome State Fault Refusal := .next (s.writeEth p .txtail v)

/-- A write to `ETRXTAIL` (R402). -/
def execEtrxtail (p : BitVec 2) (v : Word) (s : State) : Host.Outcome State Fault Refusal := .next (s.writeEth p .rxtail v)

/-- A write to `ETCTL` (R402). -/
def execEtctl (p : BitVec 2) (v : Word) (s : State) : Host.Outcome State Fault Refusal := .next (s.writeEth p .ctl v)

/-! ### Descriptors -/

/-- The index after a ring index (R402). -/
def nextIndex (size : Nat) (i : Word) : Word := BitVec.ofNat 64 ((i.toNat + 1) % size)

/-- The physical address of a descriptor. -/
def descAt (base : Word) (size : Nat) (i : Word) : Nat := base.toNat + 32 * (i.toNat % size)

/-- Does a range of physical addresses lie in high-bandwidth memory? -/
def inHbm (pa n : Nat) : Bool := decide (pa + n ≤ 0xC000000000)

/-- Does a ring hold a descriptor for the port: (TAIL − HEAD) mod S entries (R402)? -/
def ringHolds (size : Nat) (head tail : Word) : Bool := (tail - head).toNat % size != 0

/-- The source number of a port (R384). -/
def ethSource (p : BitVec 2) : Nat := 304 + p.toNat

/-- DONE, ERR and TRUNC of a descriptor. -/
def descStatus (err trunc : Bool) : Word := (0 : BitVec 61) ++ bit trunc ++ bit err ++ (1 : BitVec 1)

/-- The interrupt of a head advance (R402). -/
def State.ethIrq (s : State) (p : BitVec 2) : State :=
  if (s.port p).ctl.getLsbD 3 then s.emit (.interrupt (ethSource p) 0) else s

/-! ### Transmit -/

/-- Send the frame that a descriptor names: the state after, and whether it was in error. A poisoned line of the frame
is not sent (R21, R381; DEDUCED, log entry 26). -/
def State.sendFrame (s : State) (p : BitVec 2) (addr len : Nat) : State × Bool :=
  if len < 60 || 9216 < len || !inHbm addr len then (s, true)
  else
    match s.poisonedLine addr len with
    | some l => (s.logError 0x09 Cause.poisonedRead (ethSource p) 0 (BitVec.ofNat 64 (128 * l)) 0, true)
    | none =>
      let bs := s.readBytes addr len
      (s.emit (.frame p (bs ++ toBytes 4 (crc32 bs))), false)

/-- A port reads the first half of a descriptor: none of it where its line is poisoned, a read that is logged (R21,
R381; DEDUCED, log entry 26). -/
def State.descriptor (s : State) (p : BitVec 2) (d : Nat) : Option (List Byte) × State :=
  match s.poisonedLine d 16 with
  | some l => (none, s.logError 0x09 Cause.poisonedRead (ethSource p) 0 (BitVec.ofNat 64 (128 * l)) 0)
  | none => (some (s.readBytes d 16), s)

/-- A field of a descriptor's first half. -/
def descField (bs : List Byte) (off n : Nat) : Nat := natOfBytes ((bs.drop off).take n)

/-- The port takes the transmit descriptor at HEAD; one that it cannot read sends nothing. -/
def State.transmit (s : State) (p : BitVec 2) : State :=
  let e := s.port p
  let size := 2 ^ (e.txsize.toNat + 4)
  let d := descAt e.txbase size e.txhead
  let now := s.dtime
  let (stamp, s, err) : Word × State × Bool :=
    match s.descriptor p d with
    | (none, s) => (0, s, true)
    | (some bs, s) =>
      (if (descField bs 10 2).testBit 0 then now else 0, s.sendFrame p (descField bs 0 8) (descField bs 8 2))
  let s := s.store (d + 16) (toBytes 8 stamp ++ toBytes 8 (descStatus err false))
  (s.setPort p { s.port p with txhead := nextIndex size e.txhead }).ethIrq p

/-- The port takes a transmit descriptor while its ring runs and holds one (R402). A ring outside memory moves no frame
(DEDUCED, log entry 26). -/
def execEthernetTransmit (p : BitVec 2) (s : State) : Host.Outcome State Fault Refusal :=
  let e := s.port p
  .next (if e.ctl.getLsbD 0 && e.ctl.getLsbD 1 && ringHolds (2 ^ (e.txsize.toNat + 4)) e.txhead e.txtail
      && inHbm (descAt e.txbase (2 ^ (e.txsize.toNat + 4)) e.txhead) 32 then s.transmit p else s)

/-! ### Receive -/

/-- Does the port accept a destination address (R402)? Broadcast is a multicast address; bit 0 of an address's first
byte marks multicast. -/
def EthPort.accepts (e : EthPort) (dest : BitVec 48) : Bool :=
  e.mac.getLsbD 63 || dest == e.mac.setWidth 48 || dest.getLsbD 40

/-- The port writes an accepted frame into the buffer of the descriptor at HEAD. -/
def State.receive (s : State) (p : BitVec 2) (f : Frame) : State :=
  let e := s.port p
  let size := 2 ^ (e.rxsize.toNat + 4)
  let d := descAt e.rxbase size e.rxhead
  let now := s.dtime
  let (room, outside, s) : Nat × Bool × State :=
    match s.descriptor p d with
    | (none, s) => (0, true, s)
    | (some bs, s) =>
      let at_ := descField bs 0 8
      let room := descField bs 8 2
      if inHbm at_ room then (room, false, s.store at_ (f.bytes.take room)) else (room, true, s)
  let s := s.store (d + 12)
    (toBytes 4 (BitVec.ofNat 32 f.bytes.length) ++ toBytes 8 now
      ++ toBytes 8 (descStatus (!f.fcsGood || outside) (decide (room < f.bytes.length))))
  (s.setPort p { s.port p with rxhead := nextIndex size e.rxhead }).ethIrq p

/-- An arriving frame goes to the receive ring: an accepted one is written to the next receive buffer, or dropped with
RXOVF where the port owns none (R402). -/
def State.toRing (s : State) (p : BitVec 2) (f : Frame) : State :=
  let e := s.port p
  if !(e.ctl.getLsbD 0 && e.ctl.getLsbD 2 && e.accepts f.dest) then s
  else if !ringHolds (2 ^ (e.rxsize.toNat + 4)) e.rxhead e.rxtail then s.setPort p { e with rxovf := true }
  else if inHbm (descAt e.rxbase (2 ^ (e.rxsize.toNat + 4)) e.rxhead) 32 then s.receive p f
  else s

/-- The timing unit receives the Precision Time Protocol message that an intact frame carries (R402, R403). -/
def State.toTiming (s : State) (p : BitVec 2) (f : Frame) : State :=
  match f.ptp with
  | some m => if f.fcsGood then s.takePtp p m else s
  | none => s

/-- A frame arrives at a port. The timing unit takes its timing message whatever the rings do, and the ring its bytes,
with the arrival time before any correction; a frame beyond 9,216 bytes is no frame of the port (R401, R402; DEDUCED,
log entry 26). -/
def execEthernetReceive (p : BitVec 2) (f : Frame) (s : State) : Host.Outcome State Fault Refusal :=
  .next (if 9216 < f.bytes.length then s else (s.toRing p f).toTiming p f)

/-- A port's link comes up or goes down (R402). -/
def execEthernetLinkChange (p : BitVec 2) (up : Bool) (s : State) : Host.Outcome State Fault Refusal :=
  .next (s.setPort p { s.port p with link := up })

end Sys2Proof.Machine
end

