-- ==== Sys2Proof/Machine/HostCore.lean ====
section
/-! DEFINITION. The sixteen cores of the host complex (spec/25_edges.md R395, spec/02_address_space.md R24, R25, R27,
R39, R44): what a core's accesses do, its translation and its translation cache. The spec names the published RISC-V
standard and prints none of it, so that what an instruction does to the core's own registers comes with the step (DESIGN
CHOICE, log entry 27). -/

namespace Sys2Proof.Machine

/-- A host core of the state. -/
def State.core (s : State) (h : BitVec 4) : HostCore := s.hosts[h.toNat]'h.isLt

/-- Replace a host core. -/
def State.setCore (s : State) (h : BitVec 4) (x : HostCore) : State := { s with hosts := s.hosts.set h.toNat x h.isLt }

/-- Write an integer register; x0 discards (PRESUMED, log entry 27). -/
def HostCore.setX (h : HostCore) (rd : BitVec 5) (v : Word) : HostCore :=
  if rd = 0 then h else { h with x := h.x.set rd.toNat v rd.isLt }

/-! ### Translation (R27, R395) -/

/-- The level that MPP of `mstatus` names. -/
def mppLevel (mstatus : Word) : HostPriv :=
  match (mstatus.extractLsb' 11 2 : BitVec 2).toNat with
  | 0 => .user
  | 1 => .supervisor
  | _ => .machine

/-- The level at which a core's data accesses are made: at machine level with MPRV set, that of MPP (PRESUMED, log entry
27). -/
def HostCore.level (h : HostCore) : HostPriv :=
  if h.priv = .machine && h.mstatus.getLsbD 17 then
    mppLevel h.mstatus
  else h.priv

/-- Does a core translate its data addresses? -/
def HostCore.translates (h : HostCore) : Bool := h.level != .machine && h.satp.extractLsb' 60 4 == 9

/-- Does a leaf grant a core's access: U for the level, SUM and MXR of `mstatus` (PRESUMED, log entry 27)? -/
def HostCore.grants (h : HostCore) (u x w r : Bool) (acc : Access) : Bool :=
  (if h.level = .user then u else !u || h.mstatus.getLsbD 18)
    && leafGrants true x w (r || (x && h.mstatus.getLsbD 19)) acc true

/-- The entry of a core's translation cache that serves an access. -/
def HostCore.hit (h : HostCore) (va : BitVec 48) (acc : Access) : Option TlbEntry :=
  h.tlb.find? fun e =>
    e.matches (h.satp.extractLsb' 44 16) va && h.grants e.u e.x e.w e.r acc && (!acc.writes || e.d)

/-- The core's translation of an address: from its cache, or by a walk that sets A and D and fills the cache (R27, R38). -/
def State.hostEntry (s : State) (k : BitVec 4) (va : BitVec 48) (acc : Access) : Except (BitVec 8) (TlbEntry × State) :=
  let h := s.core k
  let asid : BitVec 16 := h.satp.extractLsb' 44 16
  match h.hit va acc with
  | some e => .ok (e, s)
  | none =>
    match walkFrom s asid va acc 4 ((h.satp.extractLsb' 0 44).toNat * 4096) false [] with
    | .error c => .error c
    | .ok w =>
      let b (n : Nat) : Bool := w.pte.getLsbD n
      if !h.grants (b 4) (b 3) (b 2) (b 1) acc then .error (pageFault acc)
      else
        let (s, pte) := setAccessed s w acc
        let e := leafEntry w pte asid va
        .ok (e, s.setCore k { s.core k with tlb := e :: (s.core k).tlb })

/-- Translate a part of n bytes, with the physical conditions (R24, R25); a physical access is an SO access (R395). -/
def State.hostPart (s : State) (k : BitVec 4) (va : Word) (n : Nat) (acc : Access) : Except (BitVec 8) (Nat × State) :=
  if !(s.core k).translates then
    match s.agentCheck va.toNat n true acc with
    | some c => .error c
    | none => .ok (va.toNat, s)
  else if canonical va ≠ va then .error (pageFault acc)
  else
    match s.hostEntry k (va.setWidth 48) acc with
    | .error c => .error c
    | .ok (e, s) =>
      let pa := e.phys (va.setWidth 48)
      match s.agentCheck pa n (e.pbmt == 2) acc with
      | some c => .error c
      | none => .ok (pa, s)

/-- What the parts of a core's access leave of their translations where one of them fails: A, D and cached entries of
the walks that reached a leaf, up to the failing part's (R38). -/
def State.hostTried (s : State) (k : BitVec 4) (acc : Access) : List (Word × Nat) → State
  | [] => s
  | p :: ps =>
    if !(s.core k).translates || canonical p.1 ≠ p.1 then s
    else
      match s.hostEntry k (p.1.setWidth 48) acc with
      | .error _ => s
      | .ok (_, s') =>
        match s.hostPart k p.1 p.2 acc with
        | .error _ => s'
        | .ok _ => State.hostTried s' k acc ps

/-- Translate the page parts of a core's access, lower first; each part meets the physical conditions (R24, R25). -/
def State.hostParts (s : State) (k : BitVec 4) (va : Word) (n : Nat) (acc : Access) :
    Except (BitVec 8) (List (Nat × Nat) × State) :=
  (splitPages va n).foldlM (init := ([], s)) fun r p =>
    match r.2.hostPart k p.1 p.2 acc with
    | .error c => .error c
    | .ok (pa, s) => .ok (r.1 ++ [(pa, p.2)], s)

/-- Entries that SFENCE.VMA removes: those for the address and the address space that it names, global ones only with no
address space named (R395; PRESUMED, log entry 27). -/
def HostCore.flush (h : HostCore) (va : Option Word) (asid : Option (BitVec 16)) : HostCore :=
  { h with tlb := h.tlb.filter fun e =>
      !((va.all fun a => e.vpn.toNat >>> e.span == ((a.setWidth 48 : BitVec 48).toNat >>> 12) >>> e.span)
        && (asid.all fun i => !e.g && e.asid == i)) }

/-! ### Accesses -/

/-- The width of an operation's access. -/
def hostWidth : HostOp → Option Width
  | .load w _ _ => some w
  | .store w _ => some w
  | .amo _ w _ _ => some w
  | .cas w _ _ _ => some w
  | .loadReserved w _ => some w
  | .storeConditional w _ _ => some w
  | .fence => none
  | .sfenceVma _ _ => none
  | .own _ => none

/-- The kind of access that an operation makes. A load-reserved is a load and a store-conditional a store, also at a
device register, where R24 names atomics and says nothing of these two (DESIGN CHOICE, log entry 27). -/
def hostAccess : HostOp → Access
  | .load _ _ _ => .load
  | .store _ _ => .store
  | .amo _ _ _ _ => .atomic
  | .cas _ _ _ _ => .atomic
  | .loadReserved _ _ => .load
  | .storeConditional _ _ _ => .store
  | .fence => .load
  | .sfenceVma _ _ => .load
  | .own _ => .load

/-- Must an operation's address be a multiple of its width: an atomic, a load-reserved, a store-conditional? -/
def hostAligned : HostOp → Bool
  | .load _ _ _ => false
  | .store _ _ => false
  | .amo _ _ _ _ => true
  | .cas _ _ _ _ => true
  | .loadReserved _ _ => true
  | .storeConditional _ _ _ => true
  | .fence => false
  | .sfenceVma _ _ => false
  | .own _ => false

/-- Bit n of a register set or cleared. -/
def putBit (v : Word) (n : Nat) (b : Bool) : Word :=
  if b then v ||| BitVec.twoPow 64 n else v &&& ~~~(BitVec.twoPow 64 n)

/-- A core takes a trap with a code and a value: at supervisor level where `medeleg` names the code and the core is
below machine level, else at machine level. The program counter, the level and the interrupt enable are saved (R395;
PRESUMED, log entry 27). -/
def HostCore.trap (h : HostCore) (code : BitVec 6) (value : Word) : HostCore :=
  if h.priv != .machine && h.medeleg.getLsbD code.toNat then
    let m := putBit (putBit (putBit h.mstatus 5 (h.mstatus.getLsbD 1)) 1 false) 8 (h.priv == .supervisor)
    { h with
      sepc := h.pc, scause := code.setWidth 64, stval := value, mstatus := m, priv := .supervisor
      pc := h.stvec &&& ~~~3#64 }
  else
    let m := putBit (putBit h.mstatus 7 (h.mstatus.getLsbD 3)) 3 false
    let m := putBit (putBit m 11 (h.priv != .user)) 12 (h.priv == .machine)
    { h with
      mepc := h.pc, mcause := code.setWidth 64, mtval := value, mstatus := m, priv := .machine
      pc := h.mtvec &&& ~~~3#64 }

/-- The return from a trap at machine level (R395; PRESUMED, log entry 27). -/
def HostCore.mret (h : HostCore) : HostCore :=
  let p := mppLevel h.mstatus
  let m := putBit (putBit h.mstatus 3 (h.mstatus.getLsbD 7)) 7 true
  let m := putBit (putBit m 11 false) 12 false
  { h with mstatus := if p = .machine then m else putBit m 17 false, priv := p, pc := h.mepc }

/-- The return from a trap at supervisor level (R395; PRESUMED, log entry 27). -/
def HostCore.sret (h : HostCore) : HostCore :=
  let m := putBit (putBit h.mstatus 1 (h.mstatus.getLsbD 5)) 5 true
  { h with
    mstatus := putBit (putBit m 8 false) 17 false
    priv := if h.mstatus.getLsbD 8 then .supervisor else .user, pc := h.sepc }

/-- The code of a fault in `mcause` or `scause` (R395; PRESUMED, log entry 27). -/
def hostCode (acc : Access) (c : BitVec 8) : BitVec 6 :=
  if c = Cause.loadPageFault then 13
  else if c = Cause.storePageFault then 15
  else if c = Cause.loadAccessFault then 5
  else if c = Cause.storeAccessFault then 7
  else if c = Cause.misalignedAtomic then (if acc = .load then 4 else 6)
  else 19

/-- A host core takes a fault of an access at an address: its cause goes to the outside, and the core traps (R395). -/
def State.hostFault (s : State) (k : BitVec 4) (acc : Access) (c : BitVec 8) (va : Word) : State :=
  (s.setCore k ((s.core k).trap (hostCode acc c) va)).emit (.hostFault c)

/-- A host core takes a fault at a poisoned line (R381). -/
def State.hostPoison (s : State) (k : BitVec 4) (acc : Access) (va : Word) (l : Nat) : State :=
  (s.logError 0x09 Cause.poisonedRead 258 0 (BitVec.ofNat 64 (128 * l)) 0).hostFault k acc Cause.poisonedRead va

/-- A core's load writes its destination register. -/
def State.hostLoaded (s : State) (k : BitVec 4) (rd : BitVec 5) (v : Word) : State :=
  (s.setCore k ((s.core k).setX rd v)).emit (.hostLoad v)

/-- An access whose parts have passed their checks, on memory, cisterns and device registers. A load of an empty line
returns the line's content as it stands (R395); an atomic is indivisible (R39); a store-conditional writes only while
the core's reservation on the bytes stands (PRESUMED, log entry 27). -/
def State.hostPerform (s : State) (k : BitVec 4) (op : HostOp) (va : Word) (ps : List (Nat × Nat)) : State :=
  let (old, sr) := s.agentLoads ps
  let reads (f : State → State) : State :=
    match ps.findSome? fun p => s.poisonedLine p.1 p.2 with
    | some l => s.hostPoison k (hostAccess op) va l
    | none => f sr
  let pa := (ps.headD (0, 0)).1
  match op with
  | .load w signed rd =>
    reads fun s => s.hostLoaded k rd (if signed then (ofBytes w.n old).signExtend 64 else (ofBytes w.n old).setWidth 64)
  | .store w v => s.agentStores .host ps (toBytes w.bytes v)
  | .amo o w rd v =>
    reads fun s => (s.agentStores .host ps (toBytes w.bytes (amoValue o (ofBytes w.n old) (atWidth w v)))).hostLoaded k rd
      ((ofBytes w.n old).signExtend 64)
  | .cas w rd x v =>
    reads fun s =>
      (if ofBytes w.n old = atWidth w x then s.agentStores .host ps (toBytes w.bytes v) else s).hostLoaded k rd
        ((ofBytes w.n old).signExtend 64)
  | .loadReserved w rd =>
    reads fun s =>
      (s.setCore k { s.core k with reserved := some (pa, w.bytes) }).hostLoaded k rd ((ofBytes w.n old).signExtend 64)
  | .storeConditional w rd v =>
    if (s.core k).reserved = some (pa, w.bytes) then
      let s := s.agentStores .host ps (toBytes w.bytes v)
      (s.setCore k { (s.core k).setX rd 0 with reserved := none })
    else s.setCore k { (s.core k).setX rd 1 with reserved := none }
  | .fence => s
  | .sfenceVma _ _ => s
  | .own _ => s

/-- May a core at its level write a control and status register? -/
def HostCore.mayWrite (h : HostCore) (c : HostCsr) : Bool :=
  match c with
  | .satp | .mstatus | .stvec | .sepc | .scause | .stval => h.priv != .user
  | .medeleg | .mtvec | .mepc | .mcause | .mtval => h.priv == .machine

/-- The bits of `mstatus` that supervisor level sees: SIE, SPIE, SPP, FS, SUM and MXR (PRESUMED, log entry 27). -/
def sstatusMask : Word := 0xC6122

/-- Write a control and status register; an unsupported MODE of `satp` changes nothing (PRESUMED, log entry 27). -/
def HostCore.setCsr (h : HostCore) (v : Word) : HostCsr → HostCore
  | .satp => if v.extractLsb' 60 4 = 0 || v.extractLsb' 60 4 = 9 then { h with satp := v } else h
  | .mstatus =>
    { h with mstatus := if h.priv = .machine then v else (h.mstatus &&& ~~~sstatusMask) ||| (v &&& sstatusMask) }
  | .medeleg => { h with medeleg := v }
  | .mtvec => { h with mtvec := v }
  | .mepc => { h with mepc := v }
  | .mcause => { h with mcause := v }
  | .mtval => { h with mtval := v }
  | .stvec => { h with stvec := v }
  | .sepc => { h with sepc := v }
  | .scause => { h with scause := v }
  | .stval => { h with stval := v }

/-- The code of an illegal instruction (PRESUMED, log entry 27). -/
def hostIllegal : BitVec 6 := 2

/-- What an instruction does to its core; one that the core's level may not perform traps (R395; PRESUMED, log entry
27). -/
def HostCore.change (h : HostCore) : HostEffect → HostCore
  | .x rd v => h.setX rd v
  | .f rd v => { h with f := h.f.set rd.toNat v rd.isLt }
  | .fcsr v => { h with fcsr := v }
  | .pc v => { h with pc := v }
  | .csr c v => if h.mayWrite c then h.setCsr v c else h.trap hostIllegal 0
  | .raise code value => h.trap code value
  | .mret => if h.priv = .machine then h.mret else h.trap hostIllegal 0
  | .sret => if h.priv = .user then h.trap hostIllegal 0 else h.sret

/-- A running host core loads, stores, performs an atomic, fences, or works on its own registers (R395). Its fence
orders accesses that are already made in order (DESIGN CHOICE, log entry 18), and a misaligned atomic faults (DESIGN
CHOICE, log entry 27). A cistern whose tile is frozen makes the access wait (R98). -/
def execHostCoreAccess (p : HostPort) (op : HostOp) (s : State) : Host.Outcome State Fault Refusal :=
  let k := p.core
  let a := p.addr
  if !(s.core k).running then .next s
  else
    match hostWidth op with
    | none =>
      match op with
      | .sfenceVma va asid => .next (s.setCore k ((s.core k).flush va asid))
      | .own e => .next (s.setCore k ((s.core k).change e))
      | _ => .next s
    | some w =>
      if hostAligned op && a.toNat % w.bytes ≠ 0 then
        .next (s.hostFault k (hostAccess op) Cause.misalignedAtomic a)
      else
        match s.hostParts k a w.bytes (hostAccess op) with
        | .error c =>
          .next ((s.hostTried k (hostAccess op) (splitPages a w.bytes)).hostFault k (hostAccess op) c a)
        | .ok (ps, s') =>
          if ps.any fun p => (s.frozenAt p.1).isSome then .next s else .next (s'.hostPerform k op a ps)

end Sys2Proof.Machine
end

