-- ==== Sys2Proof/Machine/Loader.lean ====
section
/-! DEFINITION. The loader: the code object, its judgement in the order of R305, and what a context holds of an object
that is loaded (spec/15_native_form.md R302 to R307, spec/14_routines.md R247 to R250,
spec/19_execution_and_scheduling.md R336, spec/07_registers_and_language.md R134). Its sections are loaded one behind
the other, each on pages of its own (DESIGN CHOICE, log entry 28). -/

namespace Sys2Proof.Machine

/-- A field of n bytes at an offset of a list of bytes. -/
def fieldAt (bs : List Byte) (off n : Nat) : Nat := natOfBytes ((bs.drop off).take n)

/-- Bits lo .. lo + w − 1 of a number. -/
def bitsAt (x lo w : Nat) : Nat := x / 2 ^ lo % 2 ^ w

/-- A section of a code object (R304). -/
structure Section where
  type : Nat
  mand : Bool
  off  : Nat
  size : Nat
deriving DecidableEq, Repr

/-- The bytes of a section. -/
def Section.bytes (x : Section) (obj : List Byte) : List Byte := (obj.drop x.off).take x.size

/-- A section table entry; none where a reserved field is nonzero (R304). -/
def sectionOf (bs : List Byte) : Option Section :=
  let x := natOfBytes (bs.take 32)
  if bitsAt x 17 47 = 0 ∧ bitsAt x 192 64 = 0 then
    some ⟨bitsAt x 0 16, bitsAt x 16 1 = 1, bitsAt x 64 64, bitsAt x 128 64⟩
  else none

/-- Do two sections share a byte? -/
def Section.meets (a b : Section) : Bool := decide (a.off < b.off + b.size ∧ b.off < a.off + a.size ∧ a.size ≠ 0 ∧ b.size ≠ 0)

/-- No two sections of a list share a byte. -/
def sectionsApart : List Section → Bool
  | [] => true
  | x :: xs => xs.all (fun y => !x.meets y) && sectionsApart xs

/-- Step 1 of R305: the sections, when the structure stands. -/
def objectSections (obj : List Byte) : Option (List Section) :=
  let h := natOfBytes (obj.take 32)
  let n := bitsAt h 48 16
  let off := bitsAt h 64 64
  if obj.length < 32 ∨ bitsAt h 0 32 ≠ 0x4A434F01 ∨ bitsAt h 168 88 ≠ 0 ∨ off % 8 ≠ 0 ∨ obj.length < off + 32 * n then none
  else
    match (List.range n).mapM fun k => sectionOf (obj.drop (off + 32 * k)) with
    | none => none
    | some ss =>
      if ss.all (fun x => decide (x.off + x.size ≤ obj.length)) && sectionsApart ss && ss.any (·.type == 1) then some ss
      else none

/-- The sections of a type. -/
def sectionsOf (ss : List Section) (type : Nat) : List Section := ss.filter (·.type == type)

/-- The bytes of the first section of a type; none of them where it is absent. -/
def sectionBytes (obj : List Byte) (ss : List Section) (type : Nat) : List Byte :=
  (((sectionsOf ss type).head?).map (·.bytes obj)).getD []

/-- The bytes of all sections of a type, one behind the other. -/
def allBytes (obj : List Byte) (ss : List Section) (type : Nat) : List Byte :=
  (sectionsOf ss type).flatMap (·.bytes obj)

/-! ### Where the loader places an object (DESIGN CHOICE, log entry 28) -/

/-- The first page boundary at or above an address. -/
def pageUp (a : Nat) : Nat := (a + 4095) / 4096 * 4096

/-- Sections with the virtual addresses at which they are loaded: one behind the other from a base on, each on pages of
its own. -/
abbrev Placing := List (Section × Nat)

/-- Place sections from an address on. -/
def placingOf : Nat → List Section → Placing
  | _, [] => []
  | a, x :: xs => (x, pageUp a) :: placingOf (pageUp a + x.size) xs

/-- The virtual address of an offset of the object. -/
def Placing.addr (p : Placing) (base off : Nat) : Nat :=
  match p.find? fun e => decide (e.1.off ≤ off ∧ off < e.1.off + e.1.size) with
  | some e => e.2 + (off - e.1.off)
  | none => base + off

/-- The virtual address of the first section of a type. -/
def Placing.first (p : Placing) (type : Nat) : Nat := ((p.find? fun e => e.1.type == type).map (·.2)).getD 0

/-! ### Routines (R247 to R250) -/

/-- The words of a routine record's body. -/
def bodyWords (sec : List Byte) (off n : Nat) : List Word :=
  (List.range n).map fun k => BitVec.ofNat 64 (fieldAt sec (off + 8 * k) 8)

/-- Is word k of a body one that the loader refuses (R250)? -/
def badBodyWord (ncallee ninsn k : Nat) (w : Word) : Bool :=
  match decode w with
  | .error _ => false
  | .ok _ =>
    let op := opOf w
    let imm : BitVec 37 := w.extractLsb' 0 37
    let target := (k : Int) + imm.toInt
    op == 0x301 || op == 0x309 || op == 0x308 || op == 0x0A7 || op == 0x325
      || (op == 0x320 && decide (ncallee ≤ imm.toNat))
      || ((op == 0x300 || op == 0x302) && decide (target < 0 ∨ (ninsn : Int) ≤ target))

/-- The routine-table entry at a place of the table, bound to its record in the routine section; none where it is
refused (R249, R250). -/
def routineOf (sec table : List Byte) (base : Nat) (hashes : List Nat) (k : Nat) : Option RoutineEntry :=
  let e := natOfBytes ((table.drop (32 * k)).take 32)
  let off := bitsAt e 128 64
  let h := natOfBytes ((sec.drop off).take 24)
  let ncallee := bitsAt h 128 32
  let ninsn := bitsAt h 96 32
  let scratch := bitsAt h 64 32
  let body := off + 24 + 16 * ncallee
  let callees := (List.range ncallee).map fun i => fieldAt sec (off + 24 + 16 * i) 16
  if bitsAt e 192 64 ≠ 0 ∨ off % 8 ≠ 0 ∨ sec.length < off + 24 ∨ bitsAt h 0 32 ≠ 0x4A525401 ∨ bitsAt h 33 31 ≠ 0
      ∨ bitsAt h 160 32 ≠ 0 ∨ 255 < ncallee ∨ ninsn = 0 ∨ 65536 < ninsn ∨ scratch % 16 ≠ 0 ∨ 65536 < scratch
      ∨ sec.length < body + 8 * ninsn then none
  else if hash128 ((sec.drop off).take (24 + 16 * ncallee + 8 * ninsn)) ≠ BitVec.ofNat 128 e then none
  else if !callees.all hashes.contains then none
  else if (bodyWords sec body ninsn).zipIdx.any (fun w => badBodyWord ncallee ninsn w.2 w.1) then none
  else
    some
      { hash := BitVec.ofNat 128 e, body := BitVec.ofNat 64 (base + body), ninsn := ninsn, asy := bitsAt h 32 1 = 1
        scratch := scratch, callees := callees.map hashes.idxOf }

/-- The routine table of an object (R249): the entries of every section of the type, with their records in the first
routine section. -/
def objectRoutines (p : Placing) (obj : List Byte) (ss : List Section) : Option (List RoutineEntry) :=
  let sec := sectionBytes obj ss 2
  let table := allBytes obj ss 3
  let n := table.length / 32
  let hashes := (List.range n).map fun k => fieldAt table (32 * k) 16
  if (sectionsOf ss 3).any fun x => x.size % 32 != 0 then none
  else (List.range n).mapM fun k => routineOf sec table (p.first 2) hashes k

/-! ### Capabilities and node records (R134, R304, R336) -/

/-- A capability with its BASE moved from the data section to its virtual address. -/
def relocateCap (base : Nat) (q : Quad) : Quad :=
  let f := capFields q
  CapFields.bits { f with base := f.base + base }

/-- The capability table of an object, of every section of the type: each entry well formed, with its footprint in the
data section (R134, R304). -/
def objectCaps (p : Placing) (obj : List Byte) (ss : List Section) : Option (List Quad) :=
  let table := allBytes obj ss 5
  let data := (sectionBytes obj ss 4).length
  if (sectionsOf ss 5).any fun x => x.size % 32 != 0 then none
  else
    (List.range (table.length / 32)).mapM fun k =>
      let q := BitVec.ofNat 128 (fieldAt table (32 * k) 16)
      let f := capFields q
      let r := capFields (relocateCap (p.first 4) q)
      if fieldAt table (32 * k + 16) 16 ≠ 0 ∨ f.base + p.first 4 ≥ 2 ^ 48 then none
      else if !r.wellFormed || !(f.empty || decide (f.base + (f.rows - 1) * f.stride + f.rowbytes ≤ data)) then none
      else some (relocateCap (p.first 4) q)

/-- A node record with its addresses as the loader writes them: ENTRY, CLEAR and NEXT from offsets in the object, CARG
and VCAP with BASE relocated; a zero field but ENTRY stays zero (R336; DESIGN CHOICE, log entry 28). -/
def relocateNode (place : Nat → Nat) (data : Nat) (r : BitVec 2560) : BitVec 2560 :=
  let word (lo : Nat) : Word := r.extractLsb' lo 64
  let put {w : Nat} (lo : Nat) (x : BitVec w) (r : BitVec 2560) : BitVec 2560 :=
    (r &&& ~~~((BitVec.allOnes w).setWidth 2560 <<< lo)) ||| (x.setWidth 2560 <<< lo)
  let addr (lo : Nat) (r : BitVec 2560) : BitVec 2560 :=
    if word lo = 0 then r else put lo (BitVec.ofNat 64 (place (word lo).toNat)) r
  let cap (lo : Nat) (r : BitVec 2560) : BitVec 2560 :=
    let q : Quad := r.extractLsb' lo 128
    if q = 0 then r else put lo (relocateCap data q) r
  let r := addr 320 (addr 128 (put 64 (BitVec.ofNat 64 (place (word 64).toNat)) r))
  [384, 1024, 1152, 1280, 1408].foldl (fun r lo => cap lo r) r

/-! ### Notes (R304, R305) -/

/-- A note: mandatory, its name and its text. -/
abbrev Note := Bool × List Byte × List Byte

/-- The notes of a section; none where they break the layout. `fuel` bounds their number. -/
def notesOf : Nat → List Byte → Option (List Note)
  | 0, bs => if bs.isEmpty then some [] else none
  | fuel + 1, bs =>
    if bs.isEmpty then some []
    else
      let nn := fieldAt bs 0 2
      let nt := fieldAt bs 2 2
      let flag := fieldAt bs 4 4
      let n := (8 + nn + nt + 7) / 8 * 8
      if bs.length < 8 + nn + nt ∨ 1 < flag then none
      else (notesOf fuel (bs.drop n)).map fun xs => (flag == 1, (bs.drop 8).take nn, (bs.drop (8 + nn)).take nt) :: xs

/-- The name `merusk.lib`. -/
def libName : List Byte := [0x6D, 0x65, 0x72, 0x75, 0x73, 0x6B, 0x2E, 0x6C, 0x69, 0x62]

/-- Does a note let the object load (step 6 of R305)? -/
def noteOk (x : Note) : Bool := !x.1 || (x.2.1 == libName && x.2.2 == [0x31])

/-! ### The native section (R307) -/

/-- What the loader takes from a native section: the bundle block; the directory, by Juden address, offset in the block
and FENT; and the position map with every JPC relocated. -/
structure NativeSection where
  block : List Byte
  dir   : List (Word × Nat × Bool)
  pmap  : List (BitVec 256)
deriving DecidableEq, Repr

/-- The subheader's NFID. -/
def nativeId (sec : List Byte) : Nat := fieldAt sec 4 1

/-- A position map entry with its JPC relocated; none where it breaks a limit (R298, R307). -/
def mapEntry (place : Nat → Nat) (e : Nat) : Option (BitVec 256) :=
  let jpc := bitsAt e 0 64
  if bitsAt e 224 32 ≠ 0 ∨ jpc % 8 ≠ 0 ∨ (List.range 32).any fun n => decide (16 < bitsAt e (64 + 5 * n) 5) then none
  else some (BitVec.ofNat 256 (e - jpc + place jpc % 2 ^ 64))

/-- Does an offset of the object lie in a code section? -/
def inCodeSection (ss : List Section) (off : Nat) : Bool :=
  ss.any fun x => x.type == 1 && decide (x.off ≤ off ∧ off < x.off + x.size)

/-- A directory entry as the loader enters it; none where it breaks a limit (R307). -/
def dirEntry (place : Nat → Nat) (size : Nat) (ss : List Section) (e : Nat) : Option (Word × Nat × Bool) :=
  let joff := bitsAt e 0 64
  let boff := bitsAt e 64 32
  if joff % 8 ≠ 0 ∨ boff % 16 ≠ 0 ∨ size ≤ boff ∨ bitsAt e 97 31 ≠ 0 then none
  else if !inCodeSection ss joff then none
  else some (BitVec.ofNat 64 (place joff), boff, bitsAt e 96 1 = 1)

/-- The bundles that may follow a bundle of a block: the one after it, unless a transfer without a predicate or a stub
stands there, and the target of a branch-format transfer (R285, R288). -/
def bundlesAfter (block : List Byte) (a : Nat) : List Nat :=
  let w : Word := BitVec.ofNat 64 (fieldAt block (a + 40) 8)
  let g := fieldPred w == 0 && !w.getLsbD 49
  match (if bitsAt (fieldAt block a 8) 8 1 = 1 then Op.ofKey (opOf w).toNat else none) with
  | none => [a + 48]
  | some o =>
    let targets : List Nat :=
      if o == .br || o == .call || o == .loop then
        [((a : Int) + 48 * ((w.setWidth 37 : BitVec 37).signExtend 64 : Word).toInt).toNat]
      else []
    if g && (o == .br || o == .jr || o == .ret || o == .nxStub) then targets else (a + 48) :: targets

/-- The bundles of a block that native code may reach from a list of places: each lies in the block, at a multiple of
16. `fuel` bounds the search. -/
def bundlesFromPlaces (block : List Byte) : Nat → List Nat → List Nat → List Nat
  | 0, _, seen => seen
  | _ + 1, [], seen => seen
  | fuel + 1, a :: todo, seen =>
    if a % 16 ≠ 0 ∨ block.length < a + 48 ∨ seen.contains a then bundlesFromPlaces block fuel todo seen
    else bundlesFromPlaces block fuel (bundlesAfter block a ++ todo) (a :: seen)

/-- The bundles of a block: those that native code may reach from its start and from the places that its directory names
(R285, R307; DEDUCED, log entry 28). -/
def bundlesOf (block : List Byte) (dir : List (Word × Nat × Bool)) : List Nat :=
  bundlesFromPlaces block (block.length + dir.length + 1) (dir.map (·.2.1) ++ [0]) []

/-- Has every bundle with RP = 1 a position in the map (R307)? -/
def bundlesOk (block : List Byte) (dir : List (Word × Nat × Bool)) (entries : Nat) : Bool :=
  (bundlesOf block dir).all fun a =>
    let h := fieldAt block a 8
    bitsAt h 9 1 == 0 || decide (bitsAt h 16 24 < entries)

/-- A native section of the 960's form; none where it breaks a rule (R307). -/
def nativeOf (place : Nat → Nat) (ss : List Section) (sec : List Byte) : Option NativeSection :=
  let h := natOfBytes (sec.take 32)
  let block := bitsAt h 56 32
  let size := bitsAt h 88 32
  let dirAt := bitsAt h 120 32
  let dirN := bitsAt h 152 32
  let mapAt := bitsAt h 184 32
  let mapN := bitsAt h 216 32
  if sec.length < 32 ∨ bitsAt h 0 32 ≠ 0x4E424401 ∨ bitsAt h 248 8 ≠ 0 ∨ sec.length < block + size
      ∨ sec.length < dirAt + 16 * dirN ∨ sec.length < mapAt + 32 * mapN then none
  else
    match (List.range dirN).mapM fun k => dirEntry place size ss (fieldAt sec (dirAt + 16 * k) 16) with
    | none => none
    | some dir =>
      if !bundlesOk ((sec.drop block).take size) dir mapN then none
      else
      match (List.range mapN).mapM fun k => mapEntry place (fieldAt sec (mapAt + 32 * k) 32) with
      | none => none
      | some pmap => some ⟨(sec.drop block).take size, dir, pmap⟩

/-- A block with b added to the PMI of the bundle at a place, where that is an RP bundle (R307). -/
def relocateBundle (b : Nat) (block : List Byte) (a : Nat) : List Byte :=
  let h := fieldAt block a 8
  if bitsAt h 9 1 = 1 then block.take a ++ toBytes 8 (BitVec.ofNat 64 (h + b * 2 ^ 16)) ++ block.drop (a + 8) else block

/-- The bundle block of a native section with b added to the PMI of every RP bundle (R307). -/
def NativeSection.relocated (n : NativeSection) (b : Nat) : List Byte :=
  (bundlesOf n.block n.dir).foldl (relocateBundle b) n.block

/-- The first multiple of 48 at or above a number. -/
def bundleUp (n : Nat) : Nat := (n + 47) / 48 * 48

/-- A native section behind others in the job's translation cache, whose position map entries are behind b of the job
(R307). -/
def NativeSection.behind (b : Nat) (a n : NativeSection) : NativeSection where
  block := a.block ++ n.relocated (b + a.pmap.length) ++ List.replicate (bundleUp n.block.length - n.block.length) 0
  dir := a.dir ++ n.dir.map fun e => (e.1, a.block.length + e.2.1, e.2.2)
  pmap := a.pmap ++ n.pmap

/-- Every native section of an object, one behind the other, behind b position map entries of the job (R307). -/
def joinSections (b : Nat) (ns : List NativeSection) : NativeSection := ns.foldl (NativeSection.behind b) ⟨[], [], []⟩

/-! ### The judgement (R305) -/

/-- The types of R304. -/
def knownType (t : Nat) : Bool := decide (1 ≤ t ∧ t ≤ 8)

/-- FEATURES of `FEAT` (R306). -/
def featureBits : Nat := 0xFF

/-- The highest version of the firmware call layer (R306). -/
def fclMax : Nat := 1

/-- The native sections of the 960's form, each judged; none where the rules of one fail (R305, R307). -/
def objectNatives (place : Nat → Nat) (obj : List Byte) (ss : List Section) : Option (List NativeSection) :=
  ((sectionsOf ss 8).filter fun x => nativeId (x.bytes obj) = 1).mapM fun x => nativeOf place ss (x.bytes obj)

/-- The notes of every notes section (R304). -/
def objectNotes (obj : List Byte) (ss : List Section) : Option (List Note) :=
  ((sectionsOf ss 7).mapM fun x => notesOf (obj.length + 1) (x.bytes obj)).map List.flatten

/-- An object that the loader accepts: its sections where they are placed, its tables, and the native sections of the
960's form, which it uses. -/
structure Judged where
  placing  : Placing
  fclv     : BitVec 8
  routines : List RoutineEntry
  caps     : List Quad
  natives  : List NativeSection
deriving DecidableEq, Repr

/-- Judge an object: the step of R305 at which it is refused, or what the loader takes from it. The rules of a type are
those of every section of that type (DESIGN CHOICE, log entry 28). -/
def judge (base : Nat) (obj : List Byte) : Except Nat Judged :=
  match objectSections obj with
  | none => .error 1
  | some ss =>
    let h := natOfBytes (obj.take 32)
    let fuse := bitsAt h 128 32
    let fclv := bitsAt h 160 8
    let p := placingOf base ss
    if fuse / (featureBits + 1) ≠ 0 then .error 2
    else if fclv = 0 ∨ fclMax < fclv then .error 3
    else if (sectionsOf ss 1).any (fun x => decide (x.off % 8 ≠ 0 ∨ x.size % 8 ≠ 0))
        || (sectionsOf ss 6).any (fun x => x.size % 320 != 0) then .error 4
    else
      match objectRoutines p obj ss, objectCaps p obj ss, objectNatives (p.addr base) obj ss, objectNotes obj ss with
      | some routines, some caps, some natives, some notes =>
        if ss.any fun x => x.mand && (!knownType x.type || (x.type == 8 && nativeId (x.bytes obj) != 1)) then .error 5
        else if !notes.all noteOk then .error 6
        else .ok ⟨p, BitVec.ofNat 8 fclv, routines, caps, natives⟩
      | _, _, _, _ => .error 4

/-! ### Mapping (R27, R302, R336) -/

/-- Does the loader map a section without W: code and routines (R302)? -/
def readOnlyType (t : Nat) : Bool := t == 1 || t == 2

/-- The rights of a page-table entry: R, W, X and U in bits 1 to 4. Code and translations are readable and executable,
the rest readable and writable (R28, R302, R336). -/
def pageRights (code : Bool) : Word := if code then 0x1A else 0x16

/-- A pointer's or a page's entry as the loader makes it: V, and the page frame (R27). -/
def pteOf (ppn : BitVec 44) (rights : Word) : Word := (ppn.setWidth 64 <<< 10) ||| rights ||| 1

/-- A fresh page frame, its bytes zero. -/
def State.clearFrame (s : State) (ppn : BitVec 44) : State := s.store (ppn.toNat * 4096) (List.replicate 4096 0)

/-- The 512 entries of the level below for a page that spans several (R27). -/
def splitPage (pte : Word) (level : Nat) : List Byte :=
  (List.range 512).flatMap fun k => toBytes 8 (pte + (BitVec.ofNat 64 (k * 2 ^ (9 * (level - 1))) <<< 10))

/-- Give the page of an address its rights: an entry that stands gets them, one that is missing takes a page frame, and
so do the tables on the way; a larger page is split first. `n` is the level plus one. The answer is the frames left
(DESIGN CHOICE, log entry 28). -/
def mapPage (va : Word) (rights : Word) : Nat → Nat → State → List (BitVec 44) → State × List (BitVec 44)
  | 0, _, s, frames => (s, frames)
  | level + 1, table, s, frames =>
    let addr := table + 8 * ((va.toNat >>> (12 + 9 * level)) % 512)
    let pte : Word := ofBytes 64 (s.readBytes addr 8)
    let ppn : BitVec 44 := pte.extractLsb' 10 44
    if level = 0 then
      if pte.getLsbD 0 then (s.store addr (toBytes 8 ((pte &&& ~~~0x1E#64) ||| rights)), frames)
      else
        match frames with
        | [] => (s, [])
        | f :: fs => ((s.clearFrame f).store addr (toBytes 8 (pteOf f rights)), fs)
    else if pte.getLsbD 0 && pte.extractLsb' 1 3 == (0 : BitVec 3) then mapPage va rights level (ppn.toNat * 4096) s frames
    else
      match frames with
      | [] => (s, [])
      | f :: fs =>
        let s := if pte.getLsbD 0 then s.store (f.toNat * 4096) (splitPage pte level) else s.clearFrame f
        mapPage va rights level (f.toNat * 4096) (s.store addr (toBytes 8 (pteOf f 0))) fs

/-- Map the pages of n bytes from a page boundary on. -/
def mapRange (root : Word) (va n : Nat) (rights : Word) (sf : State × List (BitVec 44)) : State × List (BitVec 44) :=
  (List.range ((n + 4095) / 4096)).foldl (init := sf) fun sf k =>
    mapPage (BitVec.ofNat 64 (va + 4096 * k)) rights 4 ((root.extractLsb' 0 44 : BitVec 44).toNat * 4096) sf.1 sf.2

/-! ### Loading -/

/-- The bytes of a section as they are loaded: node records with their addresses (R336). -/
def sectionImage (p : Placing) (base : Nat) (obj : List Byte) (x : Section) : List Byte :=
  let bs := x.bytes obj
  if x.type = 6 then
    (List.range (bs.length / 320)).flatMap fun k =>
      toBytes 320 (relocateNode (p.addr base) (p.first 4) (ofBytes 2560 ((bs.drop (320 * k)).take 320)))
  else bs

/-- Does a routine of the object keep the engine image (R266)? -/
def State.usesImage (s : State) (routines : List RoutineEntry) : Bool :=
  routines.any fun e =>
    match s.catalogue e.hash with
    | none => false
    | some r =>
      [Routine.mmWload, .mmWdecode, .mmSwap, .mmAct, .mmDrain, .mmZero, .accAddrow, .decodeSeg].contains r

/-- P, the size of the private area (R329): at least 0x9_2000 bytes where R266 applies and then a multiple of 0x8000,
else at most 0xFFF0 and a multiple of 16. -/
def privateSize (image : Bool) (size : Nat) : Nat :=
  if image then (Nat.max size 0x92000 + 0x7FFF) / 0x8000 * 0x8000 else Nat.min size 0xFFF0 / 16 * 16

/-- The stub bundle of a function (R300). -/
def stubBundle (k : Nat) : List Byte :=
  toBytes 8 (0x100 : Word) ++ List.replicate 32 0 ++ toBytes 8 (Op.word .nxStub ⟨0, false⟩ 0 0 (BitVec.ofNat 37 k))

/-- A context's first object brings the translation root, the private area, the position map and the translation cache;
later ones only make the private area larger. An object with another root is the first of another process, and what the
context held before is gone (DESIGN CHOICE, log entry 28). -/
def Ctx.setup (c : Ctx) (setup : LoadSetup) (priv : Nat) : Ctx :=
  if c.objects.isEmpty || c.root ≠ setup.root then
    { c with
      objects := []
      root := setup.root, priv := priv, areas := setup.areas, spbase := setup.spbase, pmbase := setup.pmbase, pmapLen := 0
      pmapRoom := setup.pmsize, cache := (setup.cache + 15) &&& ~~~15#64, cacheSize := setup.cacheSize - 15
      cacheUsed := 0, patched := [] }
  else { c with priv := Nat.max c.priv priv, areas := setup.areas }

/-- What the loader puts into the job's translation cache for an object: the bundle blocks of its native sections, then
a stub for every function that no entry with FENT = 1 names, with their directory entries (R300, R307). -/
def loadBundles (c : Ctx) (n : NativeSection) (o : CodeObject) : List Byte × CodeObject :=
  let at_ := c.cache.toNat + c.cacheUsed
  let named := n.dir.filterMap fun e => if e.2.2 then some e.1 else none
  let bare := o.funcs.zipIdx.filter fun f => !named.contains f.1
  let bytes := n.block ++ bare.flatMap fun f => stubBundle f.2
  (bytes,
    { o with
      dir := n.dir.map fun e => (e.1, BitVec.ofNat 64 (at_ + e.2.1))
      stubs := bare.zipIdx.map fun f => (f.1.1, BitVec.ofNat 64 (at_ + n.block.length + 48 * f.2))
      bundles := (at_, bytes.length) })

/-- The code object as the context holds it before anything of it stands in the translation cache. -/
def Judged.object (x : Judged) (base : Nat) (procs : List Word) : CodeObject :=
  let extents (t : Nat) : List (Nat × Nat) := (x.placing.filter (·.1.type == t)).map fun e => (e.2, e.1.size)
  { base := BitVec.ofNat 64 base, fclv := x.fclv, code := extents 1, routine := extents 2, routines := x.routines
    caps := x.caps, funcs := procs.map fun p => BitVec.ofNat 64 (x.placing.addr base p.toNat)
    dir := [], stubs := [], made := [], bundles := (0, 0), pmapEnd := 0 }

/-- Place a judged object in a context: its pages and its bytes, and with the context's first object the pages of the
translation cache; then its bundles in the cache and its entries of the position map, where there is room for them
(R300, R302, R307, R336). -/
def State.placeObject (s : State) (cx : CtxId) (base : Nat) (obj : List Byte) (setup : LoadSetup) (x : Judged) : State :=
  let c := (s.ctx cx).setup setup (privateSize (s.usesImage x.routines) setup.size)
  let sf := x.placing.foldl (init := (s, setup.frames)) fun sf e =>
    mapRange c.root e.2 e.1.size (pageRights (readOnlyType e.1.type)) sf
  let s := (if c.objects.isEmpty then mapRange c.root c.cache.toNat c.cacheSize (pageRights true) sf else sf).1
  let s := x.placing.foldl (init := s) fun s e =>
    let bs := sectionImage x.placing base obj e.1
    State.pokeBytes (bs.length / 4096 + 2) s c.root (BitVec.ofNat 64 e.2) bs
  let o := x.object base setup.procs
  let n := joinSections c.pmapLen x.natives
  let (bytes, o') := loadBundles c n o
  let es := n.pmap
  if c.cacheSize < c.cacheUsed + bytes.length ∨ c.pmapRoom < c.pmapLen + es.length then
    s.setCtx cx { c with objects := c.objects ++ [{ o with pmapEnd := c.pmapLen }] }
  else
    let s := State.pokeBytes (bytes.length / 4096 + 2) s c.root (c.cache + BitVec.ofNat 64 c.cacheUsed) bytes
    let s := s.store (c.pmbase.toNat + 32 * c.pmapLen) (es.flatMap (toBytes 32))
    s.setCtx cx
      { c with
        cacheUsed := c.cacheUsed + bytes.length, pmapLen := c.pmapLen + es.length
        objects := c.objects ++ [{ o' with pmapEnd := c.pmapLen + es.length }] }

/-- Load a judged object for a context: its bytes, its bundles and the route tags of the job. -/
def State.loadObject (s : State) (cx : CtxId) (base : Nat) (obj : List Byte) (setup : LoadSetup) (x : Judged) : State :=
  setup.tags.foldl (init := s.placeObject cx base obj setup x) fun s g =>
    { s with hbar := s.hbar.set g.1.toNat g.2 g.1.isLt }

/-- The loader judges a code object for a context, and loads or refuses it (R305). -/
def execCodeObjectLoad (cx : CtxId) (base : BitVec 64) (obj : List Byte) (setup : LoadSetup) (s : State) :
    Host.Outcome State Fault Refusal :=
  match judge base.toNat obj with
  | .error k => .next (s.emit (.loaded cx (some k)))
  | .ok x => .next ((s.loadObject cx base.toNat obj setup x).emit (.loaded cx none))

end Sys2Proof.Machine
end

