-- ==== Sys2Proof/Machine/Sync.lean ====
section
/-! DEFINITION. Full/empty instructions, timeline counters, barrier objects, route tags, signal posts and waits,
forwarding ports, and the events that end their waits: spec/11_memory_sync_system.md R202, R207 to R218,
spec/05_cisterns.md R90. -/

namespace Sys2Proof.Machine

/-! ### Waits -/

/-- Start a divertible wait (R202). -/
def M.await {α : Type} (w : Wait) : M α := throw (.wait .waiting w)

/-- Perform the end of a wait as a step of the stream that waits; a frozen tile performs nothing (R98). -/
def State.endWait (s : State) (t : TileId) (side : Side) (body : M Unit) : Host.Outcome State Fault Refusal :=
  if (s.tile t).frozen then .next s
  else match finish ((M.mod Stream.resume *> body) { s with cur := ⟨t, side⟩ }) with
  | .next s' => .next { s' with cur := s.cur }
  | .fault f => .fault f
  | .refused r => .refused r

/-! ### Full and empty lines (R207) -/

/-- Checks of a full/empty form on its one byte; the answer is the line (R207). -/
def M.feLine (m : MemS) (k : Need) (acc : Access) : M Nat := do
  let x ← M.str
  let p ← M.atomicPart (x.getC m.cap) k (x.offS m) 1 1 acc
  if !inCistern p.pa then M.trap (accessFault acc) p.va
  pure (lineOf p.pa)

/-- `fe.clear` (R207). -/
def execFeClear (g : Pred) (m : MemS) (s : State) : Host.Outcome State Fault Refusal :=
  perform g (do
    let l ← M.feLine m .write .store
    modify (·.setEmpty l)
    M.next) s

/-- `fe.set` (R207). -/
def execFeSet (g : Pred) (m : MemS) (s : State) : Host.Outcome State Fault Refusal :=
  perform g (do
    let l ← M.feLine m .write .store
    modify (·.setFull l)
    M.next) s

/-- `fe.wait` (R207). -/
def execFeWait (g : Pred) (m : MemS) (s : State) : Host.Outcome State Fault Refusal :=
  perform g (do
    let l ← M.feLine m .read .load
    let s ← get
    if s.lineEmpty l then M.await (.full l)
    M.next) s

/-- `fe.wait` completes: the awaited line has become full (R207). -/
def execFeWaitEnd (t : TileId) (side : Side) (s : State) : Host.Outcome State Fault Refusal :=
  match ((s.tile t).stream side).wait with
  | .full l => if s.lineEmpty l then .next s else s.endWait t side M.next
  | _ => .next s

/-! ### Timeline counters (R208, R209) -/

/-- The value of a timeline counter. -/
def Tile.counter (x : Tile) : Timeline → Word
  | .tlp k => (x.pump k).tlp
  | .tlm => x.mx.tlm
  | .tlw => x.mx.tlw

/-- The issue number of a timeline counter. -/
def Tile.issue (x : Tile) : Timeline → Word
  | .tlp k => (x.pump k).issue
  | .tlm => x.mx.issueM
  | .tlw => x.mx.issueW

/-- `tl.wait` (R208). -/
def execTlWait (g : Pred) (_hint : Hint) (a : Timeline) (b : SReg) (s : State) : Host.Outcome State Fault Refusal :=
  perform g (do
    let s ← get
    let v := s.str.getS b
    if (s.here.issue a).ult v then M.trap Cause.timelineWaitBeyondIssue 0
    if (s.here.counter a).ult v then M.await (.timeline a v)
    M.next) s

/-- `tl.wait` completes: the counter has reached the value (R208). -/
def execTlWaitEnd (t : TileId) (side : Side) (s : State) : Host.Outcome State Fault Refusal :=
  match ((s.tile t).stream side).wait with
  | .timeline a v => if ((s.tile t).counter a).ult v then .next s else s.endWait t side M.next
  | _ => .next s

/-- `tl.read` (R209). -/
def execTlRead (g : Pred) (d : SReg) (a : Timeline) (s : State) : Host.Outcome State Fault Refusal :=
  perform g (do
    let s ← get
    M.mod fun x => x.setS d (s.here.counter a)
    M.next) s

/-! ### Barrier objects (R210 to R213) -/

/-- A barrier object (R210). -/
structure Barrier where
  gen      : BitVec 4
  expected : BitVec 16
  pending  : BitVec 16
  inbound  : BitVec 20
  outbound : BitVec 20
  irld     : BitVec 20
  orld     : BitVec 20
  reserved : BitVec 12
deriving DecidableEq, Repr

/-- The object in sixteen bytes (R210). -/
def barrierOf (q : Quad) : Barrier where
  gen := q.extractLsb' 124 4
  expected := q.extractLsb' 108 16
  pending := q.extractLsb' 92 16
  inbound := q.extractLsb' 72 20
  outbound := q.extractLsb' 52 20
  irld := q.extractLsb' 32 20
  orld := q.extractLsb' 12 20
  reserved := q.extractLsb' 0 12

/-- The sixteen bytes of an object (R210). -/
def Barrier.quad (b : Barrier) : Quad :=
  b.gen ++ b.expected ++ b.pending ++ b.inbound ++ b.outbound ++ b.irld ++ b.orld ++ b.reserved

/-- Re-arm an object whose counts are all zero (R211). -/
def Barrier.phase (b : Barrier) : Barrier :=
  if b.pending = 0 && b.inbound = 0 && b.outbound = 0 then
    { b with gen := b.gen + 1, pending := b.expected, inbound := b.irld, outbound := b.orld }
  else b

/-- The operand checks of the barrier forms, in the order that R213 lists them (R212). The state of the line is no
operand check: the object is read after the value checks that need no read (DEDUCED, log entry 62). -/
def M.barrierPart (m : MemS) : M Part := do
  let x ← M.str
  let p ← M.atomicPart (x.getC m.cap) .readWrite (x.offS m) 16 16 .atomic
  if !inCistern p.pa then M.trap Cause.storeAccessFault p.va
  pure p

/-- Read the object at a part: the read waits for its line and meets poison (R86). -/
def M.readBarrier (p : Part) : M Barrier := do
  M.ownLines p
  let bs ← M.readPart p
  pure (barrierOf (ofBytes 128 bs))

/-- Write the object at a part. -/
def M.writeBarrier (p : Part) (b : Barrier) : M Unit := M.writePart p (toBytes 16 b.quad)

/-- `bar.init` (R212). -/
def execBarInit (g : Pred) (m : MemS) (d : SReg) (s : State) : Host.Outcome State Fault Refusal :=
  perform g (do
    let p ← M.barrierPart m
    let v ← M.getS d
    if (v.extractLsb' 0 16 : BitVec 16) = 0 then M.trap Cause.barrierObjectInvalid p.va
    let b ← M.readBarrier p
    let e : BitVec 16 := v.extractLsb' 0 16
    let i : BitVec 20 := v.extractLsb' 16 20
    let o : BitVec 20 := v.extractLsb' 36 20
    M.writeBarrier p ⟨b.gen + 1, e, e, i, o, i, o, 0⟩
    M.next) s

/-- `bar.arrive` (R213). -/
def execBarArrive (g : Pred) (m : MemS) (s : State) : Host.Outcome State Fault Refusal :=
  perform g (do
    let p ← M.barrierPart m
    let b ← M.readBarrier p
    if b.pending = 0 then M.trap Cause.barrierArrivalOverflow p.va
    M.writeBarrier p ({ b with pending := b.pending - 1 }).phase
    M.mod fun x => { x with barrier := some ⟨p.va.setWidth 48, b.gen⟩ }
    M.next) s

/-- `bar.wait` (R213): like every read of its wait, the first one waits for an empty line as part of the wait, which a
call time may leave (R202). -/
def execBarWait (g : Pred) (m : MemS) (s : State) : Host.Outcome State Fault Refusal :=
  perform g (do
    let p ← M.barrierPart m
    let x ← M.str
    match x.barrier with
    | none => M.trap Cause.barrierWaitWithoutArrival p.va
    | some r =>
      if r.va ≠ p.va.setWidth 48 then M.trap Cause.barrierWaitWithoutArrival p.va
      let w : Wait := .barrier (swizzled p.mask p.va.toNat p.pa 0) r.gen
      let s ← get
      if s.lineEmpty (lineOf p.pa) then M.await w
      let b ← M.readBarrier p
      if b.gen = r.gen then M.await w
      M.next) s

/-- The object at a physical address. -/
def State.barrierAt (s : State) (pa : Nat) : Barrier := barrierOf (ofBytes 128 (s.readBytes pa 16))

/-- `bar.wait` completes: the generation has changed (R213). A wait that reads a poisoned line takes a machine check
(R381). -/
def execBarWaitEnd (t : TileId) (side : Side) (s : State) : Host.Outcome State Fault Refusal :=
  let x := (s.tile t).stream side
  match x.wait with
  | .barrier pa gen =>
    if s.lineEmpty (lineOf pa) then .next s
    else if s.linePoisoned (lineOf pa) then
      s.endWait t side
        (M.poisoned t (BitVec.signExtend 64 ((x.barrier.map BarrierRecord.va).getD 0)) (lineOf pa))
    else if (s.barrierAt pa).gen = gen then .next s
    else s.endWait t side M.next
  | _ => .next s

/-! ### Route tags (R214) -/

/-- `hbar` (R214): the arrival stands while the firmware context waits. -/
def execHbar (g : Pred) (tag : BitVec 3) (_hint : Hint) (s : State) : Host.Outcome State Fault Refusal :=
  perform g (do
    let s ← get
    if s.isUser then M.trap Cause.privilegedInstruction 0
    set (s.setTile s.cur.tile { s.here with hbarArrived := s.here.hbarArrived ||| BitVec.twoPow 8 tag.toNat })
    M.await (.hardwareBarrier tag)) s

/-- The route tag ends every member's wait once every member has arrived (R214), and no freeze covers one (R98). The
forty cycles are timing. A tile that is no member of the tag it waits on, or whose tag has none, waits for ever (DESIGN
CHOICE, log entry 72). -/
def execHbarRelease (tag : BitVec 3) (s : State) : Host.Outcome State Fault Refusal :=
  let members := s.hbar[tag.toNat]'tag.isLt
  if members.all fun t => (s.tile t).hbarArrived.getLsbD tag.toNat && !(s.tile t).frozen then
    .next (members.foldl (init := s) fun s t =>
      let x := s.tile t
      s.setTile t { x with
        hbarArrived := x.hbarArrived &&& ~~~(BitVec.twoPow 8 tag.toNat)
        fw := if x.fw.wait = .hardwareBarrier tag then x.fw.resume.advance else x.fw })
  else .next s

/-! ### Signals (R215, R216) -/

/-- `sig.post` (R215): the checks in their order, then the post enters the signal queue of eight entries. -/
def execSigPost (g : Pred) (m : MemS) (d c : SReg) (s : State) : Host.Outcome State Fault Refusal :=
  perform g (do
    let x ← M.str
    let cap := x.getC m.cap
    let off := x.offS m
    let t := x.getS c
    let s0 ← get
    M.capCheck cap .post off 8
    let chip : BitVec 8 := t.extractLsb' 0 8
    let peer := t.getLsbD 16
    if t.extractLsb' 17 47 ≠ 0 || (peer && (!s0.domainV || chip == s0.domainNum)) then
      M.trap Cause.signalTargetInvalid 0
    let va := canonical (cap.addr off)
    M.aligned va 8
    let (pa, via) ← if peer then pure (0, none) else do
      let p ← M.part (cap.mask x.xm) va 8 .post
      if !inCistern p.pa then M.trap Cause.storeAccessFault va
      pure (swizzled p.mask p.va.toNat p.pa 0, p.via)
    let s ← get
    let tile := s.here
    if tile.sigQ.length ≥ 8 then throw (.wait .stalled .signalQueue)
    let post : SigPost :=
      { peer := peer, chip := chip, tile := t.extractLsb' 8 8
        addr := if peer then cap.addr off else va
        pa := pa, amount := x.getS d, jobtag := (s.ctx s.ctxId).jobtag
        need := Vector.ofFn fun k : Fin 4 => tile.pumps[k].issue, sent := none, via := via }
    set (s.setTile s.cur.tile { tile with sigQ := tile.sigQ ++ [post] })
    M.next) s

/-- The signal word at a physical address. -/
def State.signalWord (s : State) (pa : Nat) : Word := ofBytes 64 (s.readBytes pa 8)

/-- The wait of `sig.wait` reads the word: an empty line is waited for, a poisoned one takes a machine check (R216). -/
def M.signalReached (pa : Nat) (va v : Word) : M Unit := do
  let s ← get
  if s.lineEmpty (lineOf pa) then M.await (.signal pa va v)
  if s.linePoisoned (lineOf pa) then M.poisoned s.cur.tile va (lineOf pa)
  if (s.signalWord pa).ult v then M.await (.signal pa va v)
  M.next

/-- `sig.wait` (R216). -/
def execSigWait (g : Pred) (m : MemS) (d : SReg) (s : State) : Host.Outcome State Fault Refusal :=
  perform g (do
    let x ← M.str
    let p ← M.atomicPart (x.getC m.cap) .read (x.offS m) 8 8 .load
    if !inCistern p.pa then M.trap Cause.loadAccessFault p.va
    M.signalReached (swizzled p.mask p.va.toNat p.pa 0) p.va (x.getS d)) s

/-- `sig.wait` completes, or its wait goes on (R216). -/
def execSigWaitEnd (t : TileId) (side : Side) (s : State) : Host.Outcome State Fault Refusal :=
  match ((s.tile t).stream side).wait with
  | .signal pa va v => s.endWait t side (M.signalReached pa va v)
  | _ => .next s

/-! ### Forwarding ports (R217) -/

/-- The virtual index of a stream's neighbour, if the grid has one (R340; DEDUCED, log entry 43). -/
def neighbour (vpos : Word) (a : Port) : Option Nat :=
  let vx := (vpos.extractLsb' 0 8).toNat
  let vy := (vpos.extractLsb' 8 8).toNat
  let w := (vpos.extractLsb' 16 8).toNat + 1
  let h := (vpos.extractLsb' 24 8).toNat + 1
  match a with
  | .north => if 0 < vy then some ((vy - 1) * w + vx) else none
  | .east => if vx + 1 < w then some (vy * w + vx + 1) else none
  | .south => if vy + 1 < h then some ((vy + 1) * w + vx) else none
  | .west => if 0 < vx then some (vy * w + vx - 1) else none

/-- The port of the neighbour that faces back (R217). -/
def facingPort : Port → Port
  | .north => .south
  | .east => .west
  | .south => .north
  | .west => .east

/-- The number of a port in the stream's ports: fwn, fwe, fws, fww. -/
def portIndex : Port → Fin 4
  | .north => 0
  | .east => 1
  | .south => 2
  | .west => 3

/-- The tile at a virtual index of the node that runs on a tile. -/
def State.memberTile (s : State) (t : TileId) (i : Nat) : Option TileId :=
  ((s.tile t).node.bind s.node?).bind fun n => n.tiles[i]?

/-- Is the tile still to start its stream of the node that runs on another tile: the node waits in its shadow bank? -/
def State.awaits (s : State) (t : TileId) (x : Tile) : Bool :=
  ((s.tile t).node.bind s.node?).any fun n => x.shadow.any fun sh => sh.serial == n.serial

/-- The entries that a port of a stream holds: those of its tile, and those put to it before it starts. A successor with
CONT = 1 takes over the tile's (R217, R346; DEDUCED, log entry 43). -/
def State.portEntries (s : State) (x : Tile) (early : Bool) (k : Fin 4) : Nat :=
  let held := x.user.ports[k].length
  match x.shadow with
  | none => held
  | some sh =>
    if (s.node? sh.serial).any (·.flags.getLsbD 42) then held + sh.ports[k].length
    else if early then sh.ports[k].length
    else held

/-- Add a vector to a port of a tile, or to that of the stream that it is still to start. -/
def Tile.addPort (x : Tile) (early : Bool) (k : Fin 4) (v : Vec) : Tile :=
  if early then { x with shadow := x.shadow.map fun sh => { sh with ports := sh.ports.set k (sh.ports[k] ++ [v]) } }
  else { x with user := { x.user with ports := x.user.ports.set k (x.user.ports[k] ++ [v]) } }

/-- Move a vector into the facing port of a neighbour, or wait while it holds four entries (R217) or the neighbour's
tile is frozen (R98). Where the neighbour's stream has ended and its tile runs another node, the vector goes to the
tile's ports as they are (DESIGN CHOICE, log entry 43). -/
def M.putPort (a : Port) (v : Vec) : M Unit := do
  let s ← get
  match (neighbour s.str.vpos a).bind (s.memberTile s.cur.tile) with
  | none => M.trap Cause.forwardingPortWithoutNeighbour 0
  | some t =>
    let x := s.tile t
    let k := portIndex (facingPort a)
    let early := s.awaits s.cur.tile x
    if x.frozen then M.await (.put a v)
    if s.portEntries x early k ≥ 4 then M.await (.put a v)
    set (s.setTile t (x.addPort early k v))
    M.next

/-- Take the oldest entry of an own port, or wait while it is empty (R217). -/
def M.getPort (d : VReg) (a : Port) : M Unit := do
  let x ← M.str
  if (neighbour x.vpos a).isNone then M.trap Cause.forwardingPortWithoutNeighbour 0
  match x.ports[portIndex a] with
  | [] => M.await (.get a d)
  | v :: rest =>
    M.mod fun x => ({ x with ports := x.ports.set (portIndex a) rest }).setV d v
    M.next

/-- `fwd.put` (R217). -/
def execFwdPut (g : Pred) (a : Port) (b : VReg) (s : State) : Host.Outcome State Fault Refusal :=
  perform g (do
    let v ← M.getV b
    M.putPort a v) s

/-- `fwd.get` (R217). -/
def execFwdGet (g : Pred) (d : VReg) (a : Port) (s : State) : Host.Outcome State Fault Refusal :=
  perform g (M.getPort d a) s

/-- A waiting put or get completes, or its wait goes on (R217). -/
def execForwardingWaitEnd (t : TileId) (side : Side) (s : State) : Host.Outcome State Fault Refusal :=
  match ((s.tile t).stream side).wait with
  | .put a v => s.endWait t side (M.putPort a v)
  | .get a d => s.endWait t side (M.getPort d a)
  | _ => .next s

/-! ### Whole-tile stalls (R90) -/

/-- Is what a stalled stream waits for at hand: its line is full, its queue has room, or the counter has caught up? The
instruction then issues again. -/
def stallOver (s : State) (t : TileId) (w : Wait) : Bool :=
  match w with
  | .line n => !s.lineEmpty n
  | .thaw k => !(s.tile k).frozen
  | .signalQueue => decide ((s.tile t).sigQ.length < 8)
  | .computeQueue => decide ((s.tile t).mx.queue.length < 16)
  | .matrixCatchUp => (s.tile t).mx.tlm == (s.tile t).mx.issueM
  | .none => true
  | .full _ => false
  | .timeline _ _ => false
  | .barrier _ _ => false
  | .signal _ _ _ => false
  | .put _ _ => false
  | .get _ _ => false
  | .rendezvous _ => false
  | .hardwareBarrier _ => false

/-- The stream runs again at the instruction that waited. After a whole-tile stall the access completes before anything
interrupts the stream (R198, R356, R372). -/
def Stream.wake (x : Stream) : Stream := { x.resume with woken := x.state == .stalled }

/-- A whole-tile stall ends (R89, R90), or the wait of an `rcall` on a full compute queue (R261). -/
def execStallEnd (t : TileId) (side : Side) (s : State) : Host.Outcome State Fault Refusal :=
  let x := (s.tile t).stream side
  let waits := x.state = .stalled || x.wait = .computeQueue || x.wait = .matrixCatchUp
  if waits && !(s.tile t).frozen && stallOver s t x.wait then .next (s.setStream t side x.wake) else .next s

end Sys2Proof.Machine
end

