-- ==== Sys2Proof/Machine/Pump.lean ====
section
/-! DEFINITION. Pumps: pushing a command (spec/06_pumps.md R102 to R104, spec/11_memory_sync_system.md R219), performing
its units and barrier counts (R105 to R110), halting and resuming (R111 to R113), prefetch walks
(spec/02_address_space.md R35). -/

namespace Sys2Proof.Machine

/-! ### The descriptor (R102) -/

/-- Fields of the descriptor. -/
def descIbar (d : Word) : BitVec 19 := d.extractLsb' 43 19
def descObar (d : Word) : BitVec 19 := d.extractLsb' 24 19
def descChip (d : Word) : BitVec 8 := d.extractLsb' 16 8
def descTile (d : Word) : TileId := d.extractLsb' 8 8
def descIbe (d : Word) : Bool := d.getLsbD 4
def descObe (d : Word) : Bool := d.getLsbD 3
def descPeer (d : Word) : Bool := d.getLsbD 2
def descCtx (d : Word) : BitVec 2 := d.extractLsb' 0 2

/-! ### The push (R103) -/

/-- The steps of R121 without the bounds: the cause of the first that fails. -/
def Cap.steps (c : Cap) (k : Need) : Option (BitVec 8) :=
  if !c.tag then some Cause.capabilityTagClear
  else if !c.fields.wellFormed then some Cause.invalidCapabilityField
  else if !c.fields.grants k then some Cause.capabilityPermission
  else none

/-- Check 1 of a push on one capability: the address reported is its BASE. -/
def M.pushCap (c : Cap) (k : Need) : M Unit :=
  match c.steps k with
  | some cause => M.trap cause (c.addr 0)
  | none => pure ()

/-- Check 2 of a push. -/
def State.descOk (s : State) (store : Bool) (d : Word) : Bool :=
  d.extractLsb' 62 2 == 0 && d.extractLsb' 5 3 == 0 && (store || !descPeer d)
    && (!descObe d || decide ((descObar d).toNat < 0x60000))
    && (!descIbe d || decide ((descIbar d).toNat < 0x60000))
    && (!descPeer d || (s.domainV && descChip d != s.domainNum))

/-- Check 4 of a push: lines of a peer's cistern. -/
def peerShapeOk (f : CapFields) : Bool :=
  f.base % 128 == 0 && f.stride % 128 == 0 && f.rowbytes % 128 == 0
    && (f.empty || decide (f.base + (f.rows - 1) * f.stride + f.rowbytes ≤ 0x600000))

/-- A push: the checks in their order; a queue that holds 32 commands answers with a false predicate (R103). -/
def pumpPush (g : Pred) (store : Bool) (d : PReg) (a b : CapReg) (c : SReg) (s : State) :
    Host.Outcome State Fault Refusal :=
  perform g (do
    let s ← get
    let x := s.str
    let dst := x.getC a
    let src := x.getC b
    let desc := x.getS c
    M.pushCap dst .write
    M.pushCap src .read
    if !s.descOk store desc then M.trap Cause.pumpDescriptorInvalid 0
    if dst.fields.rows ≠ src.fields.rows || dst.fields.rowbytes ≠ src.fields.rowbytes then
      M.trap Cause.pumpShapeMismatch 0
    if descPeer desc && !peerShapeOk dst.fields then M.trap Cause.pumpDescriptorInvalid 0
    let t := s.here
    let k := descCtx desc
    let q := t.queue store
    if q.length ≥ 32 then M.mod fun y => y.setP d false
    else do
      let n := (t.pump k).issue + 1
      let cmd : PumpCmd :=
        { k := k, number := n, dst := dst.bits, src := src.bits, desc := desc, jobtag := (s.ctx s.ctxId).jobtag
          row := 0, byte := 0, line := [], oweOut := false, oweIn := false, home := none, pages := [] }
      M.modTile fun t => (t.setQueue store (q ++ [cmd])).setPump k { t.pump k with issue := n }
      M.mod fun y => y.setP d true
    M.next) s

/-- `pump.ld` (R219). -/
def execPumpLd (g : Pred) (d : PReg) (a b : CapReg) (c : SReg) (s : State) : Host.Outcome State Fault Refusal :=
  pumpPush g false d a b c s

/-- `pump.st` (R219). -/
def execPumpSt (g : Pred) (d : PReg) (a b : CapReg) (c : SReg) (s : State) : Host.Outcome State Fault Refusal :=
  pumpPush g true d a b c s

/-! ### Units (R105, R106) -/

/-- The two capabilities of a command; both were tagged at the push. -/
def PumpCmd.source (c : PumpCmd) : Cap := ⟨c.src, true⟩
def PumpCmd.dest (c : PumpCmd) : Cap := ⟨c.dst, true⟩

/-- Offsets and addresses of the next unit on either side, and its length. -/
def PumpCmd.srcOff (c : PumpCmd) : Nat := c.row * c.source.fields.stride + c.byte
def PumpCmd.dstOff (c : PumpCmd) : Nat := c.row * c.dest.fields.stride + c.byte
def PumpCmd.srcAddr (c : PumpCmd) : Nat := c.source.fields.base + c.srcOff
def PumpCmd.dstAddr (c : PumpCmd) : Nat := c.dest.fields.base + c.dstOff
def PumpCmd.len (c : PumpCmd) : Nat :=
  Nat.min (c.source.fields.rowbytes - c.byte) (Nat.min (128 - c.srcAddr % 128) (128 - c.dstAddr % 128))

/-- Every unit has been performed. -/
def PumpCmd.done (c : PumpCmd) : Bool :=
  decide (c.source.fields.rows ≤ c.row) || c.source.fields.rowbytes == 0

/-- The command after the unit at its progress. -/
def PumpCmd.advance (c : PumpCmd) : PumpCmd :=
  if c.byte + c.len = c.source.fields.rowbytes then { c with row := c.row + 1, byte := 0 }
  else { c with byte := c.byte + c.len }

/-- Does the unit make the last write of its row to its destination line? -/
def PumpCmd.lastOfRow (c : PumpCmd) : Bool :=
  (c.dstAddr + c.len) % 128 == 0 || c.byte + c.len == c.source.fields.rowbytes

/-- Does a unit from a command's progress on write to a line (R85)? -/
def PumpCmd.writesLater (c : PumpCmd) (s : State) (root : Word) (line : Nat) : Bool :=
  !c.done &&
    (s.touches root line c.dstAddr (c.dest.fields.rowbytes - c.byte)
      || s.rowsTouch root c.dest.fields (c.row + 1) c.dest.fields.rows line)

/-- The failure of an access on the destination side is marked for `SIDE` (R112). -/
def M.destSide {α : Type} (m : M α) : M α := fun s =>
  match m s with
  | .error (.trap cause addr _) s' => .error (.trap cause addr 1) s'
  | r => r

/-- The capabilities through which a pump command makes accesses: a peer's cistern is not reached through translation
(R35, R104). -/
def PumpCmd.caps (c : PumpCmd) : List Cap := if descPeer c.desc then [c.source] else [c.source, c.dest]

/-- The pages that the accesses of the next unit enter: the source's, then that of a local destination. -/
def PumpCmd.unitPages (c : PumpCmd) : List Nat :=
  if descPeer c.desc || c.srcAddr / 4096 == c.dstAddr / 4096 then [c.srcAddr / 4096]
  else [c.srcAddr / 4096, c.dstAddr / 4096]

/-- Those that no access of the command has entered before (R35). -/
def PumpCmd.newPages (c : PumpCmd) : List Nat := c.unitPages.filter fun p => !c.pages.contains p

/-- Request the prefetch walks of a unit (R35). -/
def State.prefetchUnit (s : State) (t : TileId) (c : PumpCmd) : State :=
  c.newPages.foldl (fun s p => s.prefetch t (.pump c.k) c.caps p) s

/-- The destination side of a unit: none for a peer's cistern (R104, R105). That of a `pump.ld` meets the locality rule
whatever it is (R106). -/
def M.pumpDest (t : TileId) (store : Bool) (c : PumpCmd) : M (Option Part) := do
  let off := BitVec.ofNat 64 c.dstOff
  M.capCheck c.dest .write off c.len
  if descPeer c.desc then pure none
  else do
    let mask ← M.engineMask t c.dest
    let p ← M.enginePart t (.pump c.k) mask (canonical (c.dest.addr off)) c.len .store (!store)
    pure (some p)

/-- The locality rule (R106), and the case of R110 in which an inbound count has no cistern. -/
def M.locality (t : TileId) (store : Bool) (c : PumpCmd) (sp : Part) (dp : Option Part) : M (Option TileId) := do
  if store && cisternTile sp.pa != some t then M.trap Cause.pumpOperandOutsideOwnCistern sp.va
  match dp with
  | none => pure none
  | some p => M.destSide do
    if !store && cisternTile p.pa != some t then M.trap Cause.pumpOperandOutsideOwnCistern p.va
    if c.row = 0 && c.byte = 0 then
      if descIbe c.desc && (cisternTile p.pa).isNone then M.trap Cause.pumpDescriptorInvalid p.va
      pure (cisternTile p.pa)
    else pure c.home

/-- Perform the unit at a command's progress, with its checks in the order of R105; the answer is the command after it.
The mask that the capability of a peer destination names permutes nothing: its base is no virtual address (R104; DESIGN
CHOICE, log entry 66). -/
def M.pumpUnit (t : TileId) (store : Bool) (c : PumpCmd) : M PumpCmd := do
  let off := BitVec.ofNat 64 c.srcOff
  M.capCheck c.source .read off c.len
  let mask ← M.engineMask t c.source
  let sp ← M.enginePart t (.pump c.k) mask (canonical (c.source.addr off)) c.len .load store
  let dp ← M.destSide (M.pumpDest t store c)
  let home ← M.locality t store c sp dp
  let bs ← M.engineRead t sp
  modify fun s => s.prefetchUnit t c
  let next : PumpCmd :=
    { c.advance with
      home := home
      pages := c.newPages ++ c.pages
      oweOut := c.lastOfRow && descObe c.desc
      oweIn := c.lastOfRow && descIbe c.desc }
  match dp with
  | some p => do
    M.engineWrite p bs
    modify fun s => s.fillLine t (lineOf p.pa) c.advance.writesLater
    pure next
  | none => do
    let line := c.line ++ bs
    if (c.dstAddr + c.len) % 128 = 0 then do
      let s ← get
      let addr := BitVec.ofNat 64 (c.dstAddr / 128 * 128)
      set (s.sendPeer t (descChip c.desc) (descTile c.desc) c.jobtag (some (c.k, store)) addr false
        (.line (BitVec.ofNat 16 (c.dstAddr / 128)) (ofBytes 1024 line)))
      pure { next with line := [] }
    else pure { next with line := line }

/-! ### Barrier counts (R109, R110) -/

/-- The end of one decrement of a barrier object. -/
inductive Counted where
  | waits
  | fails (cause : BitVec 8)
  | done (s : State)

/-- Decrement the outbound or the inbound count of the object at a physical address of a tile's cistern, as one
read-modify-write; the decrement that leaves every count zero re-arms it (R110, R211). A frozen tile makes it wait
(R98). -/
def State.decrement (s : State) (tile : TileId) (pa : Nat) (inbound : Bool) : Counted :=
  if (s.tile tile).rbusy then .fails Cause.remoteTileUnavailable
  else if (s.tile tile).frozen || s.lineEmpty (lineOf pa) then .waits
  else if s.linePoisoned (lineOf pa) then .fails Cause.poisonedRead
  else
    let b := s.barrierAt pa
    let n := if inbound then b.inbound else b.outbound
    if n = 0 then .fails Cause.barrierTransferUnderflow
    else
      let b := if inbound then { b with inbound := n - 1 } else { b with outbound := n - 1 }
      .done (s.store pa (toBytes 16 b.phase.quad))

/-- Replace a command of a pump queue. -/
def Tile.putCmd (x : Tile) (store : Bool) (c : PumpCmd) : Tile :=
  x.setQueue store ((x.queue store).map fun d => if d.k == c.k && d.number == c.number then c else d)

/-- Halt a pump context in both queues, with the first cause (R111), and report it. -/
def State.haltPump (s : State) (t : TileId) (k : BitVec 2) (h : PumpHalt) : State :=
  let x := s.tile t
  match (x.pump k).halt with
  | some _ => s
  | none =>
    ((s.setTile t (x.setPump k { x.pump k with halt := some h, last := h.store })).countFault t (1 + k.setWidth 4)).refer t
      (1 + k.setWidth 4) h.cause h.addr

/-- One owed count: at its object's address, physical (R110; DEDUCED, log entry 47). -/
def State.payCount (s : State) (t : TileId) (store : Bool) (c : PumpCmd) (tile : TileId) (slot : BitVec 19)
    (inbound : Bool) : State :=
  let pa := cisternAddr tile (16 * slot.toNat)
  let paid : PumpCmd := if inbound then { c with oweIn := false } else { c with oweOut := false }
  match s.decrement tile pa inbound with
  | .waits => s
  | .done s => s.setTile t ((s.tile t).putCmd store paid)
  | .fails cause =>
    let s := if cause = Cause.poisonedRead then s.logPoison t (lineOf pa) else s
    (s.setTile t ((s.tile t).putCmd store paid)).haltPump t c.k ⟨store, cause, false, BitVec.ofNat 64 pa⟩

/-- The head command of a context in a queue. -/
def Tile.headCmd (x : Tile) (store : Bool) (k : BitVec 2) : Option PumpCmd := (cmdsOf (x.queue store) k).head?

/-- Is a packet of the command under way to a peer? (DESIGN CHOICE, log entry 48) -/
def State.peerBusy (s : State) (t : TileId) (k : BitVec 2) (store : Bool) : Bool :=
  s.peerOut.any fun o => o.tile == t && o.pump == some (k, store)

/-- Make the outbound count of the head command, then the inbound one (R110). A count that fails at the peer's barrier
object is reported with the object's offset in the cistern, 16 × IBAR (DESIGN CHOICE, log entry 47). -/
def State.payCounts (s : State) (t : TileId) (store : Bool) (k : BitVec 2) : State :=
  let s :=
    match (s.tile t).headCmd store k with
    | none => s
    | some c =>
      if c.oweOut && !s.peerBusy t k store then s.payCount t store c t (descObar c.desc) false else s
  match (s.tile t).headCmd store k with
  | none => s
  | some c =>
    if !c.oweIn || c.oweOut || s.peerBusy t k store then s
    else if descPeer c.desc then
      let s := s.setTile t ((s.tile t).putCmd store { c with oweIn := false })
      s.sendPeer t (descChip c.desc) (descTile c.desc) c.jobtag (some (k, store))
        (BitVec.ofNat 64 (16 * (descIbar c.desc).toNat)) true (.decrement (descIbar c.desc))
    else
      match c.home with
      | none => s.setTile t ((s.tile t).putCmd store { c with oweIn := false })
      | some h => s.payCount t store c h (descIbar c.desc) true

/-- Pop the head command of a context once it is complete, and move the counter (R107). -/
def State.popDone (s : State) (t : TileId) (store : Bool) (k : BitVec 2) : State :=
  let x := s.tile t
  match x.headCmd store k with
  | none => s
  | some c =>
    if c.done && !c.oweOut && !c.oweIn && !s.peerBusy t k store && (x.pump k).halt.isNone then
      let x := x.setQueue store ((x.queue store).filter fun d => !(d.k == k && d.number == c.number))
      s.setTile t (x.setPump k ((x.pump k).finish c.number))
    else s

/-- What follows a unit: its counts and, after the last, the command's completion. -/
def State.settlePump (s : State) (t : TileId) (store : Bool) (k : BitVec 2) : State :=
  (s.payCounts t store k).popDone t store k

/-- Has a context work that the pump may do for its head command in a queue: a unit, a count that it owes, or its
completion (R101, R111)? -/
def State.pumpReady (s : State) (t : TileId) (store : Bool) (k : BitVec 2) : Bool :=
  match (s.tile t).headCmd store k with
  | none => false
  | some c => !s.peerBusy t k store && (c.oweOut || c.oweIn || ((s.tile t).pump k).halt.isNone)

/-- The context that the pump worked for last in a queue. -/
def Tile.turn (x : Tile) (store : Bool) : BitVec 2 := if store then x.turnStore else x.turnLoad

/-- The pump has worked for a context in a queue. -/
def Tile.setTurn (x : Tile) (store : Bool) (k : BitVec 2) : Tile :=
  if store then { x with turnStore := k } else { x with turnLoad := k }

/-- The context whose turn it is in a queue: the next one with work, in rotating order (R101). -/
def State.pumpTurn (s : State) (t : TileId) (store : Bool) : Option (BitVec 2) :=
  let k := (s.tile t).turn store
  [k + 1, k + 2, k + 3, k].find? (s.pumpReady t store)

/-- The pump does the work of a context for its head command in a queue: a count that it still owes, or one unit (R101,
R105). A unit that waits for a line gives its turn up. -/
def execPumpUnit (t : TileId) (store : Bool) (k : BitVec 2) (s : State) : Host.Outcome State Fault Refusal :=
  if (s.tile t).enginesHeld || s.pumpTurn t store ≠ some k then .next s
  else
    let s := s.setTile t ((s.tile t).setTurn store k)
    match (s.tile t).headCmd store k with
    | none => .next s
    | some c =>
      if c.oweOut || c.oweIn then .next (s.settlePump t store k)
      else if c.done then .next (s.popDone t store k)
      else
        match M.pumpUnit t store c s with
        | .ok c' s' =>
          let x := (s'.tile t).putCmd store c'
          .next ((s'.setTile t (x.setPump k { x.pump k with last := store })).settlePump t store k)
        | .error (.trap cause addr side) s' => .next (s'.haltPump t k ⟨store, cause, side == 1, addr⟩)
        | .error (.wait _ _) s' => .next s'

/-- The firmware context resumes a halted pump context at its progress (R113), once no freeze covers it (R98). -/
def execPumpResume (t : TileId) (k : BitVec 2) (s : State) : Host.Outcome State Fault Refusal :=
  let x := s.tile t
  match (x.pump k).halt with
  | none => .next s
  | some h => .next (if x.frozen then s else (s.setTile t (x.setPump k { x.pump k with halt := none })).popDone t h.store k)

end Sys2Proof.Machine
end

