-- ==== Sys2Proof/Machine/Fetch.lean ====
section
/-! DEFINITION. Fetching a Juden instruction (spec/09_scalar_and_control.md R176, spec/14_routines.md R250,
spec/02_address_space.md R28 to R31), and the instruction that a native routine stands for. -/

namespace Sys2Proof.Machine

/-- May the current stream fetch at an address: a user stream inside the body of the routine that it is in, else in a
code section of a code object loaded for its context (R176, R250)? After the `ret` of a nested routine that is the body
of the outer one, wherever s1 leads (DESIGN CHOICE, log entry 46). The firmware context runs its own image. -/
def State.mayFetch (s : State) (pc : Word) : Bool :=
  !s.isUser || s.mayRun s.cur.tile pc

/-- The poison check of a fetch (R21, R29). -/
def M.unpoisoned (p : Part) : M Unit := do
  let s ← get
  match s.poisonedLine p.pa p.n with
  | none => pure ()
  | some l => M.poisoned s.cur.tile p.va l

/-- Fetch the instruction word at the current program counter. -/
def M.fetch : M Word := do
  let s ← get
  let pc := s.str.pc
  if pc.toNat % 8 ≠ 0 then M.trap Cause.misalignedInstructionAddress pc
  if !s.mayFetch pc then M.trap Cause.fetchAccessFault pc
  let p ← M.part none pc 8 .fetch
  M.unpoisoned p
  let bs ← M.readPart p
  M.mod fun x => { x with begun := true, woken := false, went := true }
  pure (ofBytes 64 bs)

/-- The step of a native routine (R253). -/
def Routine.instr : Routine → Instr
  | .mmWload => .mmWload
  | .mmWdecode => .mmWdecode
  | .mmSwap => .mmSwap
  | .mmAct => .mmAct
  | .mmDrain => .mmDrain
  | .mmZero => .mmZero
  | .tileCopy => .tileCopy
  | .tileTranspose => .tileTranspose
  | .tileCvt => .tileCvt
  | .tileGather => .tileGather
  | .tileScatter => .tileScatter
  | .tileLdscale => .tileLdscale
  | .scanAdd => .scanAdd
  | .scanAffine => .scanAffine
  | .redSum => .redSum
  | .redMax => .redMax
  | .redAmax => .redAmax
  | .scaleFold => .scaleFold
  | .ewExp => .ewExp
  | .ewSigmoid => .ewSigmoid
  | .ewSilu => .ewSilu
  | .ewGelu => .ewGelu
  | .ewRsqrt => .ewRsqrt
  | .normRms => .normRms
  | .normLayer => .normLayer
  | .softmaxRow => .softmaxRow
  | .ssmChunk => .ssmChunk
  | .hashMul => .hashMul
  | .decodeSeg => .decodeSeg
  | .accAddrow => .accAddrow
  | .quantRow => .quantRow
  | .topkRow => .topkRow

/-- What the current context does when it issues (R90, R98, R331, R349, R372). -/
inductive IssueKind where
  /-- The context does not issue. -/
  | none
  /-- An engine fault that was passed on traps the stream at this boundary (R372). -/
  | deliver (f : TileFault)
  /-- A bundle of native code. -/
  | bundle
  /-- A unit of a native routine. -/
  | routine (r : Routine)
  /-- A Juden instruction. -/
  | juden

/-- Does the stream stand at its boundary already, in a divertible wait outside every routine (R372)? -/
def Stream.atWait (x : Stream) : Bool :=
  x.state == .waiting && !x.inRoutine &&
    match x.wait with
    | .rendezvous _ => false
    | _ => true

/-- What the current context does when it issues. A fault passed on traps a stream that has come to a divertible wait
(R372). -/
def State.issueKind (s : State) : IssueKind :=
  let x := s.here
  let u := s.str
  if x.rbusy || x.frozen || x.gated then .none
  else if s.isUser && u.atWait then
    match x.fault.filter (·.pending) with
    | some f => .deliver f
    | none => .none
  else if u.state ≠ .running then .none
  else if s.isUser && x.held then .none
  else
    let go : IssueKind :=
      match u.native with
      | some _ => .bundle
      | none =>
        match u.calls.head?.bind (·.native) with
        | some r => .routine r
        | none => .juden
    match x.fault with
    | some f => if s.isUser && !u.woken && s.atPoint s.cur.tile then .deliver f else go
    | none => go

/-- The stream as an interruption shows it: at a yield point of a native routine, on the routine's definition
(R259, R260, R379). -/
def Stream.shown (x : Stream) : Stream :=
  match x.calls with
  | [] => x.settle
  | f :: rest => { x.settle with pc := x.place, calls := { f with native := none } :: rest }

/-- The engine fault that was passed on traps the stream here (R372). -/
def State.deliverPassed (s : State) (t : TileId) (f : TileFault) : State :=
  let x := s.tile t
  let f := { f with pending := false }
  (s.setTile t { x with user := x.user.shown, fault := some f }).deliver t f

end Sys2Proof.Machine
end

