-- ==== Sys2Proof/Machine/Traps.lean ====
section
/-! DEFINITION. Leaving a trap, and what the firmware context and the handlers of a trap do: `eret`, the firmware calls,
an engine fault passed on, a resume and an abandonment (spec/11_memory_sync_system.md R224, R226;
spec/14_routines.md R264; spec/15_native_form.md R309; spec/22_traps_and_context.md R372, R373, R378 to R382). -/

namespace Sys2Proof.Machine

/-! ### The return (R226, R372, R373) -/

/-- After a freeze each engine with a recorded fault is reported again (R373). -/
def State.rereport (s : State) (t : TileId) : State :=
  let s := [0, 1, 2, 3].foldl (init := s) fun s (k : BitVec 2) =>
    match ((s.tile t).pump k).halt with
    | none => s
    | some h => s.refer t (1 + k.setWidth 4) h.cause h.addr
  match (s.tile t).mx.halt with
  | none => s
  | some h => s.refer t (if h.well then 6 else 5) h.cause h.addr

/-- Return from a trap; the stream goes on through the translation directory, and the end of a freeze reports the
engines again (R300, R373). -/
def State.eret (s : State) (t : TileId) : State :=
  let s' := (s.returnFromTrap t).land t
  if (s.tile t).fault.isSome && (s'.tile t).fault.isNone then s'.rereport t else s'

/-- `eret` (R226). While a record of the tile is held the tile stays frozen, and the firmware stays at its `eret`
(R382). -/
def execEret (g : Pred) (s : State) : Host.Outcome State Fault Refusal :=
  perform g (do
    let s ← get
    if s.isUser then M.trap Cause.privilegedInstruction 0
    else if s.recordHeld s.cur.tile then pure ()
    else set (s.advance.eret s.cur.tile)) s

/-! ### Firmware calls (R264, R309) -/

/-- The number of the firmware call that a tile's user stream waits for (R374, R378). -/
def Tile.call (x : Tile) : Option (BitVec 16) :=
  if x.user.state == .trapped && x.tcause.extractLsb' 0 8 == Cause.firmwareCall then some (x.tcause.extractLsb' 32 16)
  else none

/-- The version of the call layer that a stream is bound to: that of the code object that holds its program counter
(R309). -/
def State.boundVersion (s : State) (t : TileId) : BitVec 8 :=
  ((s.ctx (s.ctxOf t)).objects.findSome? fun o =>
    if inExtent o.code (s.tile t).user.pc || inExtent o.routine (s.tile t).user.pc then some o.fclv else none).getD 1

/-- Firmware call 0x00 (R309). -/
def execFirmwareCallVersion (t : TileId) (s : State) : Host.Outcome State Fault Refusal :=
  .next (if (s.tile t).call = some 0x00 && !(s.tile t).frozen then
      s.serveCall t (some 1) (some ((s.boundVersion t).setWidth 64))
    else s)

/-- Is a cause code reserved (R371)? It is never produced (R370). -/
def reservedCause (c : Nat) : Bool :=
  c == 0x4F || decide (0x50 ≤ c ∧ c ≤ 0x5F) || decide (0x62 ≤ c ∧ c ≤ 0x6F) || decide (0x78 ≤ c ∧ c ≤ 0x7F)
    || decide (0x89 ≤ c ∧ c ≤ 0x9F)

/-- One unit of a wellhead command. -/
def MatCmd.wellUnit (t : TileId) : MatCmd → M Bool
  | .wloadc hdr t0 t1 sc => M.wloadc t hdr t0 t1 sc
  | .table hdr => M.table t hdr
  | .decode hdr tile dst => M.decode t hdr tile dst
  | .wload _ _ => pure true
  | .swap => pure true
  | .act _ _ _ => pure true
  | .zero _ _ => pure true
  | .drain _ _ _ _ _ _ => pure true

/-- Perform units of a wellhead command until it halts or completes; `fuel` bounds them. -/
def State.runWell : Nat → State → TileId → MatEntry → State
  | 0, s, _, _ => s
  | fuel + 1, s, t, e =>
    let m := (s.tile t).mx
    if m.halt.isSome || m.queue.isEmpty then s else State.runWell fuel (s.matrixUnit t e (e.cmd.wellUnit t)) t e

/-- Where the wellhead would stop in a command, on the tables that the definition of `mm.wdecode` uses (R83): its matrix
state there. -/
def State.wellAt (s : State) (t : TileId) (c : MatCmd) : Matrix :=
  let x := s.tile t
  let (mask, slots, _) := s.decoderView t
  let mx := { x.mx with
    queue := [⟨c, 0⟩], begun := false, rowp := 0, halt := none, mask := mask, slots := slots, entry := none
    whSecond := false, pages := [] }
  ((State.runWell 17 (s.setTile t { x with mx := mx, fault := none }) t ⟨c, 0⟩).tile t).mx

/-- The position fields of `WHSTAT` (R78). -/
def Matrix.withWell (m w : Matrix) : Matrix :=
  { m with
    whTile := w.whTile, whSeg := w.whSeg, whSym := w.whSym, whSlot := w.whSlot, whCause := w.whCause, whState := w.whState }

/-- A stream on the definition of a routine that stands for a wellhead command raises a coded-stream cause: the report
shows `WHSTAT` as the wellhead would, while the wellhead itself stands where it stood (R83; DEDUCED, log entry 69). -/
def State.raiseCoded (s : State) (t : TileId) (c : MatCmd) (cause : BitVec 8) (addr : Word) : State :=
  let x := s.tile t
  let s := (s.setTile t { x with mx := x.mx.withWell (s.wellAt t c) }).takeTrap t cause addr 0
  s.setTile t { s.tile t with mx := (s.tile t).mx.withWell x.mx }

/-- The wellhead command that a stream's innermost call stands for on its definition. -/
def Stream.wellCommand (x : Stream) : Option MatCmd := (x.calls.head?.bind (·.cmd)).filter (·.well)

/-- Is a cause one of a coded stream (R76, R371)? -/
def codedCause (c : BitVec 8) : Bool := decide (0x70 ≤ c.toNat ∧ c.toNat ≤ 0x77)

/-- Firmware call 0x10 raises a cause at the `sys` with an address (R264). -/
def State.raiseCall (s : State) (t : TileId) (cause : BitVec 8) (addr : Word) : State :=
  match (s.tile t).user.wellCommand with
  | some c => if codedCause cause then s.raiseCoded t c cause addr else s.takeTrap t cause addr 0
  | none => s.takeTrap t cause addr 0

/-- Firmware call 0x10 raises the cause in s10 at the `sys`, with s11 as the faulting address (R264). A reserved code,
which is never produced (R370), is answered as one outside the range (DESIGN CHOICE, log entry 69). -/
def execSysRaiseCause (t : TileId) (s : State) : Host.Outcome State Fault Refusal :=
  let x := s.tile t
  if x.call ≠ some 0x10 || x.frozen then .next s
  else
    let cause := x.user.getS 10
    .next (if 0x40 ≤ cause.toNat && cause.toNat ≤ 0x9F && !reservedCause cause.toNat 
        then s.raiseCall t (cause.setWidth 8) (x.user.getS 11)
      else s.serveCall t (some (BitVec.allOnes 64)) none)

/-- Is the address the entry of a function in a code section of a code object loaded for the stream's context (R309)? -/
def State.isFunction (s : State) (t : TileId) (a : Word) : Bool :=
  (s.ctx (s.ctxOf t)).objects.any fun o => o.funcs.contains a && inExtent o.code a

/-- Firmware call 0x11 translates a function ahead of its first call (R300, R309). -/
def execSysTranslateFunction (t : TileId) (s : State) : Host.Outcome State Fault Refusal :=
  let a := (s.tile t).user.getS 4
  if (s.tile t).call ≠ some 0x11 || (s.tile t).frozen then .next s
  else if s.isFunction t a then .next (((s.translateAt t a).getD s).serveCall t (some 0) none)
  else .next (s.serveCall t (some (BitVec.allOnes 64)) none)

/-! ### An engine fault passed on (R372) -/

/-- The fault that an engine of a tile has halted with, by SRC (R374). -/
def Tile.engineFault (x : Tile) (src : BitVec 4) : Option (BitVec 8 × Word) :=
  if 1 ≤ src.toNat ∧ src.toNat ≤ 4 then
    ((x.pump (BitVec.ofNat 2 (src.toNat - 1))).halt).map fun h => (h.cause, h.addr)
  else if src = 5 then (x.mx.halt.filter (!·.well)).map fun h => (h.cause, h.addr)
  else if src = 6 then (x.mx.halt.filter (·.well)).map fun h => (h.cause, h.addr)
  else if src = 7 then x.sigFault
  else none

/-- The firmware context passes an engine fault on as a tile fault: the tile freezes, and the stream is trapped at its
next boundary; while the tile is frozen the fault is counted, unless it is already (R372, R373). -/
def State.passOn (s : State) (t : TileId) (src : BitVec 4) (cause : BitVec 8) (addr : Word) : State :=
  let x := s.tile t
  let g := s.faultOf t src true cause addr 0
  match x.fault with
  | some f => if f.counted.contains src then s else s.amend t (f.join g)
  | none =>
    let f := { g with pending := true }
    let s := s.setTile t { x with fault := some f, sigFault := if src = 7 then none else x.sigFault }
    if !x.user.state.active then s.recordPassed t f
    else if x.user.atWait then s.deliverPassed t f
    else s

/-- An engine fault is passed on, once no correctable error freezes the tile (R98). -/
def execEngineFaultPassOn (t : TileId) (src : BitVec 4) (s : State) : Host.Outcome State Fault Refusal :=
  match (s.tile t).engineFault src with
  | none => .next s
  | some (cause, addr) => .next (if (s.tile t).frozen then s else s.passOn t src cause addr)

/-! ### Resuming and abandoning (R379 to R382) -/

/-- A port as a save area holds it (R377, R380). -/
def State.savedPort (s : State) (area k : Nat) : List Vec :=
  let n := Nat.min ((s.saveWord area (0x1400 + 0x280 * k)).toNat % 8) 4
  (List.range n).map fun e => ofBytes 1024 (s.readBytes (area + 0x1480 + 0x280 * k + 128 * e) 128)

/-- The decoder slots and their mask as a restore takes them: a valid slot that fails the check of a table load is
restored invalid (R71). -/
def State.savedSlots (s : State) (area : Nat) : BitVec 8 × Vector (BitVec 4096) 8 :=
  let mask := s.readByte (area + 0x1E00)
  let slots : Vector (BitVec 4096) 8 := Vector.ofFn fun k : Fin 8 => ofBytes 4096 (s.readBytes (area + 0x2000 + 512 * k.val) 512)
  let good := (List.finRange 8).foldl (init := (0 : BitVec 8)) fun m k =>
    if mask.getLsbD k.val && tableGood slots[k] then m ||| BitVec.twoPow 8 k.val else m
  (good, slots)

/-- Write the decoder slots back, into the decoder or with REFA = 1 into the engine image (R267). -/
def State.restoreSlots (s : State) (t : TileId) (mask : BitVec 8) (slots : Vector (BitVec 4096) 8) : State :=
  let x := s.tile t
  let u := x.user
  if u.ctxcfg.getLsbD 2 then
    State.pokeBytes 3 (State.pokeBytes 2 s u.ctxroot (u.image 0x90145) [mask]) u.ctxroot (u.image 0x91000)
      (slots.toList.flatMap (toBytes 512))
  else s.setTile t { x with mx := { x.mx with mask := mask, slots := slots } }

/-- A stream as a save area restores it (R380). -/
def State.restoreArea (s : State) (t : TileId) (area : Nat) : Stream :=
  { s.restoreFrame t area with
    v := Vector.ofFn fun k : Fin 32 => ofBytes 1024 (s.readBytes (area + 0x400 + 128 * k.val) 128)
    ports := Vector.ofFn fun k : Fin 4 => s.savedPort area k.val }

/-- Resume a trapped stream from its save area, through the translation directory, and end the freeze (R300, R372, R379,
R380). -/
def State.resume (s : State) (t : TileId) : State :=
  let x := s.tile t
  let area := x.tsave.toNat
  match s.poisonedLine area 0x3000 with
  | some l => s.restoreStops t l
  | none =>
    let (mask, slots) := s.savedSlots area
    let s := s.setTile t { x with user := s.restoreArea t area, fault := x.fault.filter (·.pending) }
    ((s.restoreSlots t mask slots).land t).rereport t

/-- May a handler's request act on the tile: its stream is trapped by a fault or its engines are frozen by a recorded
one, no record of it is held (R382), and no correctable error freezes it (R98)? -/
def State.handled (s : State) (t : TileId) : Bool :=
  let x := s.tile t
  ((x.user.state == .trapped && isFault (x.tcause.setWidth 8)) || x.fault.any (!·.pending)) && !s.recordHeld t && !x.frozen

/-- The runtime drops the native section of the code object that holds an address: its functions are translated lazily
from then on (R308). -/
def Ctx.dropSection (c : Ctx) (a : Word) : Ctx :=
  { c with objects := c.objects.map fun o => if inExtent o.code a then { o with dir := [] } else o }

/-- A handler's resume request (R379): not for a fault with RES = 0 (R374). The runtime drops the native section first
where it is asked to (R308). -/
def execStreamResume (r : ResumeRequest) (s : State) : Host.Outcome State Fault Refusal :=
  let t := r.tile
  let x := s.tile t
  let c := s.ctxOf t
  let s := if r.drop && s.handled t then s.setCtx c ((s.ctx c).dropSection x.user.pc) else s
  if !s.handled t || x.fault.any fun f => !f.res then .next s
  else if x.user.state == .trapped then .next (s.resume t)
  else .next ((s.setTile t { x with fault := none }).rereport t)

/-- A handler abandons a trapped stream: the node ends by fault (R345, R379). -/
def execStreamAbandon (t : TileId) (s : State) : Host.Outcome State Fault Refusal :=
  let x := s.tile t
  if !s.handled t then .next s
  else
    match x.node with
    | none => .next (s.setTile t { x with fault := none })
    | some n => .next (s.faultEnd n ((x.fault.map (·.cause)).getD (x.tcause.setWidth 8)))

/-- A write to `CFRTAIL` (R382). -/
def execCfrtail (v : Word) (s : State) : Host.Outcome State Fault Refusal := .next (s.writeCfrtail v)

end Sys2Proof.Machine
end

