-- ==== Sys2Proof/Machine/NativeOps.lean ====
section
/-! DEFINITION. The native form of the 960 (spec/15_native_form.md R285 to R301): what a slot's word reads, writes and
waits for, the native-only operations, and the commit of a recovery region. A fault in a region undoes it, and the
stream goes on at the region's Juden boundary one Juden instruction at a time, which is the replay of R296. -/

namespace Sys2Proof.Machine

/-! ### Local loads (R89, R289) -/

/-- The virtual addresses of a load slot's accesses, one for each lane of a gather (R139, R196, R298). -/
def accessVas (spbase : Word) (x : Stream) (w : SlotOp) : List Word :=
  match w.op.form with
  | .mem m =>
    let r := MemBits.of w.f.rest
    let cap := x.getC (.ofBits w.f.a)
    let offs := if m.b == .v then
        (List.range (Width.ofBits r.w).count).map (x.offV (Width.ofBits r.w).n (r.vector w.f.a))
      else [x.offS (r.scalar w.f.a)]
    offs.map fun o => canonical (cap.addr o)
  | .reg _ => []
  | .imm _ => [canonical ((x.getC .cpv).addr (spbase + 128 * w.f.rest.setWidth 64))]

/-- The bytes of each access of a load slot (R168, R195, R196, R203, R291). -/
def accessSize (w : SlotOp) : Nat :=
  if w.op == .ldq then 16
  else if w.op == .vld || w.op == .nxFill then 128
  else (Width.ofBits (MemBits.of w.f.rest).w).bytes

/-- Is every byte that a load slot reads in the tile's own cistern (R89)? -/
def State.localAccess (s : State) (x : Stream) (w : SlotOp) : Bool :=
  ((accessVas s.here.spbase x w).flatMap fun va => splitPages va (accessSize w)).all fun e =>
    (s.peek x.ctxroot e.1).any fun pa => cisternTile pa == some s.cur.tile

/-- The latency of a slot's result (R89, R289). An access of variable latency holds the tile until it is complete, and
what holds the tile counts no issue cycle (R90), so that the next bundle reads its result. -/
def State.latencyOf (s : State) (x : Stream) (w : SlotOp) : Nat :=
  match latency w.op with
  | .fixed n => n
  | .load n => if s.localAccess x w then n else 1

/-! ### The register file of a native stream -/

/-- Write a register when a pending write lands. -/
def Stream.landWrite (x : Stream) (w : PendingWrite) : Stream :=
  match w.reg with
  | .s r =>
    let y := x.setS r (w.val.setWidth 64)
    if w.tag then { y with tags := y.tags ||| tagBit (r.toNat / 2) } else y
  | .cpv => { x with cpv := w.val.setWidth 128, cpvTag := w.tag }
  | .v r => { x with nv := x.nv.set (r.toNat % 16) w.val (Nat.mod_lt _ (by decide)) }
  | .p r => x.setP r (w.val.getLsbD 0)

/-- Place a pending write behind those that land no later (R290). -/
def insertLanding (w : PendingWrite) : List PendingWrite → List PendingWrite
  | [] => [w]
  | y :: ys => if y.at_ ≤ w.at_ then y :: insertLanding w ys else w :: y :: ys

/-- Land the writes that are due at a cycle, in the order of their landing cycles (R290). -/
def Stream.landDue (x : Stream) (cycle : Nat) : Stream :=
  match x.native with
  | none => x
  | some n =>
    let y := (n.pending.filter (·.at_ ≤ cycle)).foldl Stream.landWrite x
    { y with native := some { n with pending := n.pending.filter fun w => !decide (w.at_ ≤ cycle) } }

/-- The registers once every pending write has landed. -/
def Stream.landed (x : Stream) : NativeUndo :=
  (((x.native.map (·.pending)).getD []).foldl Stream.landWrite x).undoCopy

/-- A stream whose vector fields name native vector registers (R287). -/
def Stream.nativeView (x : Stream) : Stream :=
  { x with v := Vector.ofFn fun k : Fin 32 => if h : k.val < 16 then x.nv[k.val] else x.v[k] }

/-- The stream with the registers that a bundle read as it issued. -/
def Stream.viewed (x : Stream) (u : NativeUndo) : Stream :=
  { x with s := u.s, tags := u.tags, p := u.p, nv := u.v }

/-- The write that a slot's word makes to a register, from the stream that the word has left. -/
def pendingOf (w : SlotOp) (y : Stream) (land : Nat) (r : NativeReg) : PendingWrite :=
  match r with
  | .s n => ⟨land, r, (y.getS n).setWidth 1024, w.operands.d.1 == .c && n.getLsbD 0 && y.tags.getLsbD (n.toNat / 2)⟩
  | .cpv => ⟨land, r, y.cpv.setWidth 1024, y.cpvTag⟩
  | .v n => ⟨land, r, y.getV n, false⟩
  | .p n => ⟨land, r, if y.getP n then 1 else 0, false⟩

/-- The pending writes of a slot's word, from the stream that the word has left. -/
def SlotOp.results (w : SlotOp) (y : Stream) (land : Nat) : List PendingWrite := w.writes.map (pendingOf w y land)

/-- Where native issue resumes after the replay of the current region: behind its RP bundle, with the entry of its
boundary (R296). -/
def State.afterReplay (s : State) (n : Native) : Option (Word × Nat) :=
  match n.finished with
  | some f => some (f.next - 48, f.pmi)
  | none => s.regionEnd s.cur.tile (s.bundleRoom s.cur.tile) n.npc

/-- Leave native code: the region is undone, and the replay goes on with Juden instructions from its boundary, at least
one, until native issue resumes (R296). An undone bracket that has passed no yield leaves the stream before the `rcall`,
outside the routine, and so does a call time that is pending (R291, R356). -/
def State.leaveNative (s : State) : State :=
  let x := s.str
  let y : Stream := { x.settle with
    state := .running, wait := .none, woken := false, single := true, rejoin := x.native.bind s.afterReplay }
  if x.calls.isEmpty && s.here.callTime == some 3 && x.native.any (·.bracket.isSome) then
    s.setTile s.cur.tile { s.here.setStream s.cur.side { y with went := false } with callTime := some 1 }
  else s.setStr y

/-- Report a cause that has no Juden counterpart at the boundary before the region (R296). -/
def State.bundleFault (s : State) (cause : BitVec 8) : State :=
  let s := s.leaveNative
  s.takeTrap s.cur.tile cause s.str.pc 0

/-! ### Native-only operations (R291, R292) -/

/-- Perform a native-only operation: outside native code its word is an unassigned encoding (R148). -/
def nativeForm (g : Pred) (body : Native → M Unit) (s : State) : Host.Outcome State Fault Refusal :=
  match s.str.native with
  | none => execIllegalInstruction s
  | some n => perform g (body n) s

/-- Change the native progress of the current stream. -/
def M.modNative (f : Native → Native) : M Unit := M.mod fun x => { x with native := x.native.map f }

/-- The code object whose bundles the loader placed around a native address (R307). -/
def State.nativeObject (s : State) (npc : Word) : Option CodeObject :=
  (s.ctx s.ctxId).objects.find? fun o =>
    decide (o.bundles.1 ≤ npc.toNat ∧ npc.toNat < o.bundles.1 + o.bundles.2)

/-- `nx.stub` (R300, R301): *translation required* is taken by the firmware context, which translates the function,
patches the call site and resumes the stream at the translation. A stub of no function, or a function for which no room
is left, sends the stream to the replay, at the function's Juden code where the stub begins a region (DESIGN CHOICE, log
entry 35). -/
def execNxStub (g : Pred) (imm : BitVec 37) (s : State) : Host.Outcome State Fault Refusal :=
  nativeForm g (fun n => do
    let s ← get
    let t := s.cur.tile
    match (s.nativeObject n.npc).bind (·.funcs[imm.toNat]?) with
    | none => set s.leaveNative
    | some f =>
      let s := s.noteTranslation t f
      match s.translateAt t f with
      | none =>
        if n.atStart then
          let u := s.str.landed
          set (s.setStr { s.str with native := none, s := u.s, tags := u.tags, p := u.p, pc := f, single := true })
        else set s.leaveNative
      | some s =>
        match s.native? t f with
        | none => set s.leaveNative
        | some npc =>
          let s := (n.site.map fun a => s.patchSite t a npc).getD s
          set (s.setStr { s.str with native := some { n with npc := npc, site := none } })) s

/-- `nx.rbeg` (R291). -/
def execNxRbeg (g : Pred) (imm : BitVec 37) (s : State) : Host.Outcome State Fault Refusal :=
  nativeForm g (fun _ => do
    M.modNative fun n => { n with bracket := some imm.toNat }
    M.modTile fun t => { t with callTime := t.callTime.map insideCode }
    M.next) s

/-- `nx.rend` (R291). -/
def execNxRend (g : Pred) (s : State) : Host.Outcome State Fault Refusal :=
  nativeForm g (fun n => do
    M.modNative fun n => { n with bracket := none }
    if n.bracket.isSome then M.mod fun x => { x with calls := x.calls.drop 1 }
    M.next) s

/-- `nx.ryld` (R260, R291): from here on, interruptions and faults find the routine's definition at its `yield`. -/
def execNxRyld (g : Pred) (imm : BitVec 37) (s : State) : Host.Outcome State Fault Refusal :=
  nativeForm g (fun n => do
    let s ← get
    let x := s.str
    let at_ (f : CallFrame) : Word := f.body + 8 * imm.setWidth 64
    match x.calls with
    | f :: _ => M.mod fun y => { y with pc := at_ f }
    | [] =>
      match n.bracket.bind fun k => s.callee (BitVec.ofNat 37 k) with
      | none => M.next
      | some (k, i, e) =>
        let f : CallFrame :=
          { native := none, body := e.body, ninsn := e.ninsn, ret := x.pc + 8, link := x.getS 1, asy := e.asy
            number := none, scratch := e.scratch, object := k, entry := i, prog := 0, aux := 0, cmd := none, rejoin := none }
        M.mod fun y => { y with calls := [f], pc := at_ f }) s

/-- The command of `nx.mpush`, or the cause of the check that fails (R292, R268; DEDUCED, log entry 34). -/
def pushCommand (x : Stream) (op : PushOp) (a b : Cap) (c : Word) : Except (BitVec 8) MatCmd :=
  let base : Word := (c.extractLsb' 0 11 : BitVec 11).setWidth 64
  match op with
  | .wload => .ok (.wload a b)
  | .wloadc =>
    if c &&& 0x7FFF000000000000 ≠ 0 then .error Cause.routineOperandInvalid
    else .ok (.wloadc a (c.extractLsb' 0 24) (c.extractLsb' 24 24) b)
  | .decode => .ok (.decode a c b)
  | .swap => .ok .swap
  | .act => .ok (.act a b c)
  | .zero => .ok (.zero base ((c.extractLsb' 16 11 : BitVec 11).setWidth 64))
  | .drain =>
    let rm : BitVec 3 := c.extractLsb' 24 3
    if rm = 6 || rm = 7 then .error Cause.routineOperandInvalid
    else .ok (.drain a b base (drainMode x rm) (c.getLsbD 27) (c.getLsbD 28))

/-- Push a command, or wait for room in the compute queue (R261, R292). -/
def M.pushMatrix (c : Except (BitVec 8) MatCmd) : M Unit := do
  match c with
  | .error e => M.trap e 0
  | .ok c =>
    let s ← get
    if s.here.mx.queue.length ≥ 16 then throw (.wait .waiting .computeQueue)
    M.modTile fun t => { t with mx := t.mx.push c }
    M.next

/-- `nx.mpush` (R292). -/
def execNxMpush (g : Pred) (op : PushOp) (a b : CapReg) (c : SReg) (s : State) : Host.Outcome State Fault Refusal :=
  nativeForm g (fun _ => do
    let x ← M.str
    M.pushMatrix (pushCommand x op (x.getC a) (x.getC b) (x.getS c))) s

/-- `nx.dtab` (R291, R234). -/
def execNxDtab (g : Pred) (a : CapReg) (s : State) : Host.Outcome State Fault Refusal :=
  nativeForm g (fun _ => do
    let x ← M.str
    M.pushMatrix (.ok (.table (x.getC a)))) s

/-- The offset of the home slot of Juden vN in the tile's private area (R298). -/
def State.homeOffset (s : State) (imm : BitVec 37) : Word := s.here.spbase + 128 * imm.setWidth 64

/-- `nx.spill` (R291, R298). -/
def execNxSpill (g : Pred) (a : VReg) (imm : BitVec 37) (s : State) : Host.Outcome State Fault Refusal :=
  nativeForm g (fun _ => do
    let x ← M.str
    M.store (x.getC .cpv) (s.homeOffset imm) (toBytes 128 (x.getV a)) 1
    M.next) s

/-- `nx.fill` (R291, R298). -/
def execNxFill (g : Pred) (d : VReg) (imm : BitVec 37) (s : State) : Host.Outcome State Fault Refusal :=
  nativeForm g (fun _ => do
    let x ← M.str
    let bs ← M.load (x.getC .cpv) (s.homeOffset imm) 128 1
    M.mod fun x => x.setV d (ofBytes 1024 bs)
    M.next) s

/-- `nx.vfn` (R291, R275): each of 32 FP32 lanes. -/
def execNxVfn (g : Pred) (op : ElemFn) (d a : VReg) (s : State) : Host.Outcome State Fault Refusal :=
  nativeForm g (fun _ => do
    let x ← M.str
    let rs := (List.range 32).map fun i => elemFn op (lane 32 (x.getV a) i)
    M.mod fun x => (x.setV d (ofLanes 32 (rs.map Prod.fst))).raise (flagsOf rs)
    M.next) s

/-! ### The commit of a region (R294 to R299) -/

/-- A region-ending operation as a step of the stream; those that leave the stream's straight line are left to the Juden
instruction itself. -/
def endOp (i : Instr) (s : State) : Option (Host.Outcome State Fault Refusal) :=
  match i with
  | .pumpLd g d a b c => some (execPumpLd g d a b c s)
  | .pumpSt g d a b c => some (execPumpSt g d a b c s)
  | .nxMpush g op a b c => some (execNxMpush g op a b c s)
  | .nxDtab g a => some (execNxDtab g a s)
  | .fwdPut g a b => some (execFwdPut g a b s)
  | .fwdGet g d a => some (execFwdGet g d a s)
  | .amo g w op sc d m c => some (execAmo g w op sc d m c s)
  | .amoCas g w sc d m c => some (execAmoCas g w sc d m c s)
  | .vamo g w op sc m d => some (execVamo g w op sc m d s)
  | .vscatter g w m d => some (execVscatter g w m d s)
  | .ldacq g w sc d m => some (execLdacq g w sc d m s)
  | .strel g w sc m d => some (execStrel g w sc m d s)
  | .fence g sc h => some (execFence g sc h s)
  | .feClear g m => some (execFeClear g m s)
  | .feSet g m => some (execFeSet g m s)
  | .feWait g m => some (execFeWait g m s)
  | .tlWait g h a b => some (execTlWait g h a b s)
  | .barInit g m d => some (execBarInit g m d s)
  | .barArrive g m => some (execBarArrive g m s)
  | .barWait g m => some (execBarWait g m s)
  | .sigPost g m d c => some (execSigPost g m d c s)
  | .sigWait g m d => some (execSigWait g m d s)
  | .hbar g tag h => some (execHbar g tag h s)
  | .rdv g => some (execRdv g s)
  | .yield g => some (execYield g s)
  | .wrc g d a => some (execWrc g d a s)
  | .dlRead g d => some (execDlRead g d s)
  | .vflagSet g a b => some (execVflagSet g a b s)
  | .nxRend g => some (execNxRend g s)
  | .nxRyld g imm => some (execNxRyld g imm s)
  | _ => none

/-- Does an operation move the boundary out of or within a bracket? -/
def bracketPoint : Instr → Bool
  | .nxRend _ => true
  | .nxRyld _ _ => true
  | _ => false

/-- The bytes at the home slot of Juden vN, with the poisoned lines met; none where a page is not mapped (R298). -/
def State.homeBytes (s : State) (x : Stream) (n : Nat) : Option (List Byte × List Nat) :=
  let va := canonical (x.cpv.setWidth 64) + s.here.spbase + BitVec.ofNat 64 (128 * n)
  if (cutPages 2 va 128).all fun p => (s.peek x.ctxroot p.1).isSome then some (s.peekBytes x.ctxroot va 128) else none

/-- The vector at the home slot of Juden vN; the register's last value where its page is not mapped, or where a poisoned
line hides it (R21, R298; DESIGN CHOICE, log entry 30). -/
def State.homeVec (s : State) (x : Stream) (n : Fin 32) : Vec :=
  match s.homeBytes x n.val with
  | some (bs, []) => ofBytes 1024 bs
  | some (_, _ :: _) => x.v[n]
  | none => x.v[n]

/-- The poisoned lines of the home slots that a position entry names. -/
def State.homePoison (s : State) (x : Stream) (e : BitVec 256) : List Nat :=
  (List.range 32).flatMap fun n =>
    if positionLoc e n = 16 then ((s.homeBytes x n).map Prod.snd).getD [] else []

/-- The Juden vectors at a boundary: each from the place that its VLOC names (R298). The destination of a `fwd.get` that
is still to be performed keeps its last value. -/
def State.judenVectors (s : State) (x : Stream) (e : BitVec 256) (nv : Vector Vec 16) (skip : Option VReg) :
    Vector Vec 32 :=
  Vector.ofFn fun n : Fin 32 =>
    let loc := (positionLoc e n.val).toNat
    if some loc = skip.map (·.toNat) then x.v[n]
    else if h : loc < 16 then nv[loc]
    else if loc = 16 then s.homeVec x n
    else x.v[n]

/-- The Juden register whose place is a native vector register (R298). -/
def judenOf (e : BitVec 256) (d : VReg) : VReg :=
  match (List.range 32).find? fun n => (positionLoc e n).toNat == d.toNat with
  | none => d
  | some n => BitVec.ofNat 5 n

/-- A `fwd.get` names the Juden register that its destination is the place of, since the vector may arrive later. -/
def forJuden (e : BitVec 256) : Instr → Instr
  | .fwdGet g d a => .fwdGet g (judenOf e d) a
  | i => i

/-- The destination of a `fwd.get`. -/
def getsVector : Instr → Option VReg
  | .fwdGet _ d _ => some d
  | _ => none

/-- Perform the buffered writes of the region in Juden order, each as the access it stands for (R295). -/
def State.performBuffer (s : State) (buf : List BufferedWrite) : State :=
  buf.foldl (fun s w => s.writePart w.mask w.va.toNat w.pa w.bytes) s

/-- Does the commit move the boundary: outside a bracket, or at its yield or end (R299)? -/
def Native.moves (n : Native) (f : Finished) : Bool :=
  n.bracket.isNone || (f.ending.any bracketPoint)

/-- The first part of a commit: the buffered writes are performed and the boundary moves to the region's end, before its
region-ending operation and its transfer (R294, R295). -/
def State.openRegion (s : State) (n : Native) (f : Finished) (e : BitVec 256) : State :=
  let s := s.performBuffer n.buffer
  let x := s.str
  let m : Native := { n with buffer := [], writes := 0, opened := true }
  if n.moves f then
    let u := x.landed
    let jpc := positionPc e
    let s := (s.homePoison x e).foldl (fun s l => s.logPoison s.cur.tile l) s
    s.setStr { x with
      pc := if f.ending.any fun i => !bracketPoint i then jpc - 8 else if f.ending.isSome then x.pc else jpc
      v := s.judenVectors x e u.v (f.ending.bind getsVector)
      native := some { m with undo := u } }
  else s.setStr { x with native := some m }

/-- The stream after the region-ending operation: what the operation did, its results pending on the live registers
(R288, R289). -/
def foldEnding (old y : Stream) (n : Native) (f : Finished) (e : BitVec 256) (w : SlotOp) (lat : Nat) : Stream :=
  let m := (y.native.getD n)
  let done := y.state == .running && (y.viewed n.view).holds w.f.guard
  let at_ := f.issued + lat
  let ws : List PendingWrite :=
    match getsVector w.insn with
    | some d => [⟨at_, .v d, y.getV (judenOf e d), false⟩]
    | none => w.results y at_
  { y with
    s := old.s, tags := old.tags, p := old.p, nv := old.nv
    v := match getsVector w.insn with
      | some d => if done then old.v.set (judenOf e d).toNat (y.getV (judenOf e d)) (judenOf e d).isLt else old.v
      | none => old.v
    native := some { m with pending := if done then ws.foldl (fun p w => insertLanding w p) m.pending else m.pending } }

/-- The stream that a region-ending operation runs on: the registers as its bundle issued, at its Juden instruction. -/
def endingStream (x : Stream) (n : Native) (e : BitVec 256) (i : Instr) : Stream :=
  let y := (x.viewed n.view).nativeView
  if bracketPoint i then y else { y with pc := positionPc e - 8 }

/-- The result of a region-ending operation. -/
inductive Ended where
  /-- The region-ending operation has been performed. -/
  | done (s : State)
  /-- It waits, or is tried again. -/
  | waits (s : State)
  /-- It is left to the replay. -/
  | replay
  | fault (f : Fault)
  | refused (r : Refusal)

/-- Perform the region-ending operation (R294, R295). Inside a bracket, a wait other than a stall and the wait for the
compute queue tries the operation again. The accesses of the operation come before its result lands (R289). -/
def State.runEnding (s : State) (n : Native) (f : Finished) (e : BitVec 256) (i : Instr) : Ended :=
  let x := s.str
  let j := forJuden e i
  let x' := endingStream x n e i
  match endOp j (s.setStr x'), slotOf i with
  | some (.next t), some w =>
    let y := t.str
    let z := foldEnding x y n f e w (s.latencyOf x' w)
    match y.state with
    | .running => .done (t.setStr { (if n.moves f then z else { z with pc := x.pc }) with woken := false })
    | .stalled => .waits (t.setStr { z with pc := x.pc })
    | .waiting =>
      if n.moves f then .waits (t.setStr z)
      else if y.wait == .computeQueue then .waits (t.setStr { z with pc := x.pc })
      else .waits (t.setStr { z with pc := x.pc, state := .running, wait := .none })
    | .idle => .replay
    | .loaded => .replay
    | .trapped => .replay
    | .ended => .replay
    | .stopped => .replay
  | some (.fault f), _ => .fault f
  | some (.refused r), _ => .refused r
  | _, _ => .replay

/-- The native address of a transfer's target, from the registers that its bundle read: none where the transfer is not
taken, an error where no bundle is known and the Juden instruction itself decides (R176, R288, R300). -/
def State.target (s : State) (x : Stream) (own : Word) (w : SlotOp) : Except Unit (Option Word) :=
  let near : Word := own + 48 * (w.f.rest.setWidth 37 : BitVec 37).signExtend 64
  let far (a : Word) : Except Unit (Option Word) :=
    if (canonical a).toNat % 8 ≠ 0 then .error ()
    else match s.nativeFor s.cur.tile (canonical a) with
      | none => .error ()
      | some b => .ok (some b)
  if !x.holds w.f.guard then .ok none
  else if w.op == .br || w.op == .call then .ok (some near)
  else if w.op == .loop then .ok (if x.getS w.f.a - 1 = 0 then none else some near)
  else if w.op == .ret then far (x.getS 1)
  else far (x.getS w.f.a)

/-- The register that a transfer writes, as a write that lands one cycle after its bundle (R175, R288). -/
def transferWrites (x : Stream) (jpc : Word) (issued : Nat) (w : SlotOp) : List PendingWrite :=
  if !x.holds w.f.guard then []
  else if w.op == .loop then [⟨issued + 1, .s w.f.a, (x.getS w.f.a - 1).setWidth 1024, false⟩]
  else if w.op == .call || w.op == .callr then [⟨issued + 1, .s 1, (jpc + 8).setWidth 1024, false⟩]
  else []

/-- Begin the region after a committed one at a bundle: where the boundary moves, the undo copies are its registers
(R295). -/
def State.nextRegion (s : State) (n : Native) (f : Finished) (u : NativeUndo) (npc : Word) (cycle : Nat)
    (site : Option Word) : State :=
  let x := s.str
  let m := x.native.getD n
  let moved := n.moves f
  s.setStr { x with
    woken := false
    went := true
    native := some { m with
      npc := npc, cycle := cycle, buffer := [], writes := 0, finished := none, opened := false, site := site
      atStart := moved, undo := if moved then u else m.undo } }

/-- The stream once its region-ending operation is complete: the end of a bracket is at the region's own boundary, and
the vector that a `fwd.get` waited for is in its native register. -/
def afterEnding (x : Stream) (f : Finished) (e : BitVec 256) (woken : Bool) : Stream :=
  match f.ending with
  | some (.fwdGet _ d _) =>
    let w : PendingWrite := ⟨f.issued + 1, .v d, x.getV (judenOf e d), false⟩
    if woken then
      { x with native := x.native.map fun (m : Native) => { m with pending := insertLanding w m.pending } }
    else x
  | some (.nxRend _) => { x with pc := positionPc e }
  | some (.nxRyld _ _) => if x.calls.isEmpty then { x with pc := positionPc e } else x
  | _ => x

/-- The last part of a commit: the boundary is the region's end, then the transfer takes effect (R288, R299). -/
def State.closeRegion (s : State) (n : Native) (f : Finished) : Host.Outcome State Fault Refusal :=
  let x := s.str
  let m := x.native.getD n
  let u := x.landed
  match f.transfer.bind slotOf with
  | none => .next (s.nextRegion n f u f.next m.cycle none)
  | some w =>
    let y := x.viewed m.view
    match s.target y (f.next - 48) w with
    | .error _ => .next (s.setStr { x with native := some { m with undo := u } }).leaveNative
    | .ok t =>
      let ws := transferWrites y x.pc f.issued w
      let cycle := if t.isSome then max m.cycle (f.issued + 3) else m.cycle
      let pending := ws.foldl (fun p w => insertLanding w p) m.pending
      let site := if t.isSome && w.op == .call then some (f.next - 48) else none
      .next ((s.setStr { x with native := some { m with pending := pending } }).nextRegion n f u (t.getD f.next) cycle site)

/-- A finished region commits, or goes on with its commit (R295): its buffered writes, its region-ending operation, its
boundary and its transfer (DESIGN CHOICE, log entry 31). -/
def State.commitRegion (s : State) (n : Native) (f : Finished) : Host.Outcome State Fault Refusal :=
  match s.position s.cur.tile f.pmi with
  | none => .next (s.logPoisons s.cur.tile (s.positionPoison s.cur.tile f.pmi).toList).leaveNative
  | some e =>
    let s := if n.opened then s else s.openRegion n f e
    let m := s.str.native.getD n
    match f.ending with
    | none => s.closeRegion m f
    | some i =>
      if n.opened && n.moves f && !bracketPoint i && s.str.pc == positionPc e then
        (s.setStr (afterEnding s.str f e true)).closeRegion m f
      else
        match s.runEnding m f e i with
        | .done t => (t.setStr (afterEnding t.str f e false)).closeRegion m f
        | .waits t => .next t
        | .replay => .next s.leaveNative
        | .fault f => .fault f
        | .refused r => .refused r

/-- The finished region of a tile's user stream performs its buffered writes, then its region-ending operation (R295). -/
def execRegionCommit (t : TileId) (s : State) : Host.Outcome State Fault Refusal :=
  let x := s.tile t
  if x.user.state ≠ .running || x.rbusy || x.frozen || x.gated || x.held then .next s
  else
    match x.user.native with
    | none => .next s
    | some n =>
      match n.finished with
      | none => .next s
      | some f =>
        match ({ s with cur := ⟨t, .user⟩ }).commitRegion n f with
        | .next s' => .next { s' with cur := s.cur }
        | .fault f => .fault f
        | .refused r => .refused r

end Sys2Proof.Machine
end

