-- ==== Sys2Proof/Machine/Pcie.lean ====
section
/-! DEFINITION. PCIe: the two base address registers (spec/25_edges.md R404, R405), and writes to device registers
(spec/02_address_space.md R25). -/

namespace Sys2Proof.Machine

/-- The value of up to sixteen bytes. -/
def quadOf (bs : List Byte) : Quad := ofBytes 128 bs

/-- A request to BAR0 acts as an SO access of a host core to the device register region; one that would fault completes
with Unsupported Request status and no data, or is dropped (R25, R404, R405). -/
def execPcieBar0Access (off : BitVec 33) (op : PcieOp) (s : State) : Host.Outcome State Fault Refusal :=
  let pa := deviceBase + off.toNat
  match op with
  | .read n =>
    match devRegOf pa n with
    | none => .next (s.emit (.pcie none))
    | some r => .next ((s.devRead r).2.emit (.pcie (some (toBytes n (s.devRead r).1))))
  | .write bs =>
    match devRegOf pa bs.length with
    | none => .next s
    | some r => .next (s.devWrite .pcie r (quadOf bs))

/-- The memory address of a range of BAR2; none where the window lies beyond memory or the range beyond the window
(R404; DEDUCED, log entry 60). -/
def State.bar2 (s : State) (off : BitVec 36) (n : Nat) : Option Nat :=
  if s.pciwin.toNat < 12 ∧ off.toNat + n ≤ 2 ^ 36 then some (s.pciwin.toNat * 2 ^ 36 + off.toNat) else none

/-- A request to BAR2 reaches high-bandwidth memory through the window that `PCIWIN` sets; a read of a poisoned line
returns no data and is logged (R21, R381, R404). -/
def execPcieBar2Access (off : BitVec 36) (op : PcieOp) (s : State) : Host.Outcome State Fault Refusal :=
  match op with
  | .read n =>
    match s.bar2 off n with
    | none => .next (s.emit (.pcie none))
    | some pa =>
      match s.poisonedLine pa n with
      | some l =>
        .next ((s.logError 0x09 Cause.poisonedRead 308 0 (BitVec.ofNat 64 (128 * l)) 0).emit (.pcie none))
      | none => .next (s.emit (.pcie (some (s.readBytes pa n))))
  | .write bs =>
    match s.bar2 off bs.length with
    | none => .next s
    | some pa => .next (s.store pa bs)

/-- A write to a device register that its agent may not make: a host core takes a store access fault; a PCIe write is
dropped; a tile takes the fault at its own store instruction (R24, R25). -/
def State.devMiss (s : State) (agent : Agent) : State :=
  match agent with
  | .user _ => s
  | .firmware _ => s
  | .host => s.emit (.hostFault Cause.storeAccessFault)
  | .pcie => s

/-- A write of `width` bytes to a device register (R25). -/
def execDeviceRegisterWrite (agent : Agent) (a : BitVec 41) (width : Nat) (v : Quad) (s : State) :
    Host.Outcome State Fault Refusal :=
  match regionOf a.toNat with
  | .device =>
    match devRegOf a.toNat width with
    | none => .next (s.devMiss agent)
    | some r => .next (s.devWrite agent r v)
  | .hbm => .next s
  | .cistern _ _ => .next s
  | .hole => .next (s.devMiss agent)

end Sys2Proof.Machine
end

