-- ==== Sys2Proof/Machine/Peer.lean ====
section
/-! DEFINITION. Transfers between chips and signals: grants (spec/05_cisterns.md R93 to R95), barrier decrements from a
peer (spec/06_pumps.md R109, R110), performing signal posts (spec/11_memory_sync_system.md R215), outcomes by the state
of the target tile (spec/22_traps_and_context.md R385), end-to-end sequence numbers (spec/25_edges.md R406, R408). -/

namespace Sys2Proof.Machine

/-! ### Receiving -/

/-- Does a grant entry cover a packet's line; `sig` asks for S, else for W (R94)? -/
def grantCovers (e : Quad) (p : PeerPacket) (line : Nat) (sig : Bool) : Bool :=
  e.getLsbD 127 && (if sig then e.getLsbD 125 else e.getLsbD 126)
    && e.extractLsb' 112 8 == p.chip && e.extractLsb' 96 16 == p.job
    && decide ((e.extractLsb' 80 8).toNat ≤ p.tile.toNat && p.tile.toNat ≤ (e.extractLsb' 88 8).toNat)
    && decide ((e.extractLsb' 48 16).toNat ≤ line && line ≤ (e.extractLsb' 64 16).toNat)

/-- Is a packet granted: some entry covers it, and the line is one of the cistern's (R84, R94)? -/
def State.granted (s : State) (p : PeerPacket) (line : Nat) (sig : Bool) : Bool :=
  decide (line < 49152) && s.grants.toList.any fun e => grantCovers e p line sig

/-- DETAIL of a refusal: the source chip and the job tag (R383). -/
def refusalDetail (p : PeerPacket) : Word := (0 : BitVec 40) ++ p.job ++ p.chip

/-- Refuse a packet: log its address and source, and answer (R94, R95, R385). -/
def State.refusePeer (s : State) (p : PeerPacket) (kind cause : BitVec 8) (addr : Nat) (a : PeerAnswer) : State :=
  ((s.logError kind cause p.tile.toNat 0 (BitVec.ofNat 64 addr) (refusalDetail p)).emit (.answer p.chip p.seq a))

/-- A packet leaves those that wait to be performed, and its number is noted, which is performed once (R407, R408). -/
def State.notePeer (s : State) (p : PeerPacket) : State :=
  { s with seqSeen := s.seqSeen ++ [(p.chip, p.seq)], inbox := s.inbox.filter (· != p) }

/-- Answer a packet that is accepted. -/
def State.acceptPeer (s : State) (p : PeerPacket) : State := s.emit (.answer p.chip p.seq .accepted)

/-- May the packet be taken now: the links have brought it, the chip has a domain number, the packet has not been
performed, its target is not frozen (R98, R407, R408, R410)? -/
def State.takesPeer (s : State) (p : PeerPacket) : Bool :=
  s.inbox.contains p && s.domainV && !s.seqSeen.contains (p.chip, p.seq) && !(s.tile p.tile).frozen

/-- A peer data line arrives: written whole and set full, or refused (R94, R95). -/
def State.lineArrives (s : State) (p : PeerPacket) (line : BitVec 16) (data : Vec) : State :=
  let pa := cisternAddr p.tile (128 * line.toNat)
  let s := s.notePeer p
  if (s.tile p.tile).rbusy then s.refusePeer p 0x07 Cause.remoteTileUnavailable pa .tileUnavailable
  else if s.granted p line.toNat false then
    ((s.store pa (toBytes 128 data)).setFull (lineOf pa)).acceptPeer p
  else s.refusePeer p 0x05 Cause.remoteGrantRefused pa .grantRefused

/-- Add to a signal word (R215). -/
def State.addSignal (s : State) (pa : Nat) (amount : Word) : State :=
  s.store pa (toBytes 8 (s.signalWord pa + amount))

/-- A signal of a peer arrives: one add, or refused; it waits while the word's line is empty (R215, R385). -/
def State.signalArrives (s : State) (p : PeerPacket) (off : BitVec 23) (amount : Word) : State :=
  let pa := cisternAddr p.tile off.toNat
  if (s.tile p.tile).rbusy then
    (s.notePeer p).refusePeer p 0x07 Cause.remoteTileUnavailable pa .tileUnavailable
  else if !s.granted p (off.toNat / 128) true then
    (s.notePeer p).refusePeer p 0x06 Cause.remoteGrantRefused pa .grantRefused
  else if s.lineEmpty (lineOf pa) then s
  else if s.linePoisoned (lineOf pa) then
    ((s.notePeer p).logPoison p.tile (lineOf pa)).emit (.answer p.chip p.seq .poisoned)
  else ((s.notePeer p).addSignal pa amount).acceptPeer p

/-- A peer data line, or a peer's signal, arrives (R94, R215). -/
def execPeerLineArrival (p : PeerPacket) (s : State) : Host.Outcome State Fault Refusal :=
  if !s.takesPeer p then .next s
  else
    match p.body with
    | .line n data => .next (s.lineArrives p n data)
    | .signal off amount => .next (s.signalArrives p off amount)
    | .decrement _ => .next s

/-- A barrier decrement of a peer arrives (R109, R110). -/
def State.decrementArrives (s : State) (p : PeerPacket) (slot : BitVec 19) : State :=
  let off := 16 * slot.toNat
  let pa := cisternAddr p.tile off
  if (s.tile p.tile).rbusy then
    (s.notePeer p).refusePeer p 0x07 Cause.remoteTileUnavailable pa .tileUnavailable
  else if !s.granted p (off / 128) false then
    (s.notePeer p).refusePeer p 0x05 Cause.remoteGrantRefused pa .grantRefused
  else
    match s.decrement p.tile pa true with
    | .waits => s
    | .done s => (s.notePeer p).acceptPeer p
    | .fails cause =>
      if cause = Cause.poisonedRead then
        ((s.notePeer p).logPoison p.tile (lineOf pa)).emit (.answer p.chip p.seq .poisoned)
      else (s.notePeer p).emit (.answer p.chip p.seq .underflow)

/-- A barrier decrement of a peer chip arrives (R109, R110). -/
def execRemoteBarrierDecrement (p : PeerPacket) (s : State) : Host.Outcome State Fault Refusal :=
  if !s.takesPeer p then .next s
  else
    match p.body with
    | .decrement slot => .next (s.decrementArrives p slot)
    | .line _ _ => .next s
    | .signal _ _ => .next s

/-! ### Answers -/

/-- The cause that an answer gives its sender (R94, R95, R110, R215). -/
def answerCause : PeerAnswer → Option (BitVec 8)
  | .accepted => none
  | .grantRefused => some Cause.remoteGrantRefused
  | .tileUnavailable => some Cause.remoteTileUnavailable
  | .underflow => some Cause.barrierTransferUnderflow
  | .poisoned => some Cause.poisonedRead

/-- A command whose line was refused, back at the first unit of that line (R32, R94). -/
def PumpCmd.atLine (c : PumpCmd) (addr : Word) : PumpCmd :=
  let f := c.dest.fields
  let o := addr.toNat - f.base
  let (row, byte) := if f.rows ≤ 1 then (0, o) else (o / f.stride, o % f.stride)
  { c with row := row, byte := byte, line := [], oweOut := false, oweIn := false }

/-- The answer to a pump packet (R94, R110). -/
def State.pumpAnswer (s : State) (o : PeerOut) (k : BitVec 2) (store : Bool) (a : PeerAnswer) : State :=
  match answerCause a with
  | none => s.settlePump o.tile store k
  | some cause =>
    let s :=
      if o.count then s
      else
        match (s.tile o.tile).headCmd store k with
        | none => s
        | some c => s.setTile o.tile ((s.tile o.tile).putCmd store (c.atLine o.addr))
    s.haltPump o.tile k ⟨store, cause, !o.count, o.addr⟩

/-- The signal queue of a tile reports an engine fault; an earlier one stands (R215). Each one that arises while the
tile is frozen is counted, since each is a fault of a post of its own (R373; DEDUCED, log entry 50). -/
def State.signalFault (s : State) (t : TileId) (cause : BitVec 8) (addr : Word) : State :=
  let x := s.tile t
  let s := if x.sigFault.isSome then s else s.setTile t { x with sigFault := some (cause, addr) }
  match x.fault with
  | none => s
  | some f => s.amend t { f with nsec := f.nsec + 1, counted := 7 :: f.counted }

/-- The answer to a signal post: it leaves the queue (R215). -/
def State.signalAnswer (s : State) (o : PeerOut) (a : PeerAnswer) : State :=
  let x := s.tile o.tile
  let s := s.setTile o.tile { x with sigQ := x.sigQ.filter fun p => p.sent != some o.seq || p.chip != o.chip }
  match answerCause a with
  | none => s
  | some cause => s.signalFault o.tile cause o.addr

/-- A peer's answer reaches the sender: an acceptance, or a refusal that halts the sending pump (R94, R406); a frozen
tile's pump and queues take it once the freeze is over (R98). -/
def execPeerErrorResponse (seq : BitVec 64) (chip : BitVec 8) (answer : PeerAnswer) (s : State) :
    Host.Outcome State Fault Refusal :=
  match s.peerOut.find? fun o => o.seq == seq && o.chip == chip with
  | none => .next s
  | some o =>
    if (s.tile o.tile).frozen then .next s
    else
      let s := { s with peerOut := s.peerOut.filter fun o => !(o.seq == seq && o.chip == chip) }
      match o.pump with
      | some (k, store) => .next (s.pumpAnswer o k store answer)
      | none => .next (s.signalAnswer o answer)

/-! ### Performing a post (R215) -/

/-- Is the command at its last line, refused there (R215)? -/
def Tile.refusedAtEnd (x : Tile) (store : Bool) (c : PumpCmd) : Bool :=
  match (x.pump c.k).halt with
  | none => false
  | some h =>
    h.store == store && (h.cause == Cause.remoteGrantRefused || h.cause == Cause.remoteTileUnavailable)
      && x.headCmd store c.k == some c && c.row + 1 == c.source.fields.rows && c.byte + 128 == c.source.fields.rowbytes

/-- Does a pump command hold a post back: it was pushed before the post, writes to the post's chip, and has a write left
that is neither performed nor refused (R215)? -/
def Tile.holdsPost (x : Tile) (p : SigPost) (store : Bool) (c : PumpCmd) : Bool :=
  decide (c.number.toNat ≤ (p.need[c.k.toNat]'c.k.isLt).toNat)
    && (if p.peer then descPeer c.desc && descChip c.desc == p.chip else !descPeer c.desc)
    && !c.done && !x.refusedAtEnd store c

/-- Is the head post of a tile free to be performed? -/
def State.postReady (s : State) (t : TileId) (p : SigPost) : Bool :=
  let x := s.tile t
  !(x.loadQ.any (x.holdsPost p false)) && !(x.storeQ.any (x.holdsPost p true))
    && !(s.peerOut.any fun o => o.tile == t && o.chip == p.chip && p.peer)

/-- Take the head post out of the queue. -/
def State.popPost (s : State) (t : TileId) : State :=
  let x := s.tile t
  s.setTile t { x with sigQ := x.sigQ.tail }

/-- Perform the head post on a cistern of this chip (R215, R385). A refusal's entry holds the virtual address of the
post (DESIGN CHOICE, log entry 43). -/
def State.postHere (s : State) (t : TileId) (p : SigPost) : State :=
  match cisternTile p.pa with
  | none => s.popPost t
  | some c =>
    if (s.tile c).frozen then s
    else if (s.tile c).rbusy then
      let detail := refusalDetail ⟨s.domainNum, p.jobtag, 0, c, .signal 0 0⟩
      ((s.popPost t).logError 0x07 Cause.remoteTileUnavailable c.toNat (s.ctxOf t) p.addr detail).signalFault t
        Cause.remoteTileUnavailable p.addr
    else if s.lineEmpty (lineOf p.pa) then s
    else if s.linePoisoned (lineOf p.pa) then
      ((s.popPost t).logPoison t (lineOf p.pa)).signalFault t Cause.poisonedRead p.addr
    else (s.addSignal p.pa p.amount).popPost t

/-- Send the head post to its chip; an offset outside every cistern is refused at once, with no packet and no entry
(R94, R104; DESIGN CHOICE, log entry 43). -/
def State.postAway (s : State) (t : TileId) (p : SigPost) : State :=
  if p.addr.toNat ≥ 0x600000 then (s.popPost t).signalFault t Cause.remoteGrantRefused p.addr
  else
    let seq := s.seqNext[p.chip.toNat]'p.chip.isLt
    let x := s.tile t
    let s := s.setTile t { x with sigQ := { p with sent := some seq } :: x.sigQ.tail }
    s.sendPeer t p.chip p.tile p.jobtag none p.addr false (.signal (p.addr.setWidth 23) p.amount)

/-- The head of a tile's signal queue is performed, sent, refused or discarded, once nothing holds it back (R215). -/
def execSigPostPerform (t : TileId) (s : State) : Host.Outcome State Fault Refusal :=
  let x := s.tile t
  match x.sigQ with
  | [] => .next s
  | p :: _ =>
    if x.enginesHeld || p.sent.isSome || !s.postReady t p then .next s
    else if p.peer then .next (s.postAway t p)
    else .next (s.postHere t p)

end Sys2Proof.Machine
end

