-- ==== Sys2Proof/Machine/ScalarFp.lean ====
section
/-! DEFINITION. Class 0b00, FP32: spec/09_scalar_and_control.md R159 to R166. -/

namespace Sys2Proof.Machine

/-- The FP32 operand in a scalar register (R159). -/
def Stream.getF (x : Stream) (r : SReg) : BitVec 32 := (x.getS r).setWidth 32

/-- A form with two FP32 operands (R160, R161). -/
def fp2 (g : Pred) (d a b : SReg) (f : Stream → BitVec 32 → BitVec 32 → Fp) (s : State) :
    Host.Outcome State Fault Refusal :=
  register g (fun x => x.setF d (f x (x.getF a) (x.getF b))) s

/-- `fadd` (R160). -/
def execFadd (g : Pred) (rm : Rm) (d a b : SReg) (s : State) : Host.Outcome State Fault Refusal :=
  fp2 g d a b (fun x => fadd32 (x.mode rm)) s

/-- `fsub` (R160). -/
def execFsub (g : Pred) (rm : Rm) (d a b : SReg) (s : State) : Host.Outcome State Fault Refusal :=
  fp2 g d a b (fun x => fsub32 (x.mode rm)) s

/-- `fmul` (R160). -/
def execFmul (g : Pred) (rm : Rm) (d a b : SReg) (s : State) : Host.Outcome State Fault Refusal :=
  fp2 g d a b (fun x => fmul32 (x.mode rm)) s

/-- `fdiv` (R160). -/
def execFdiv (g : Pred) (rm : Rm) (d a b : SReg) (s : State) : Host.Outcome State Fault Refusal :=
  fp2 g d a b (fun x => fdiv32 (x.mode rm)) s

/-- `fsqrt` (R160). -/
def execFsqrt (g : Pred) (rm : Rm) (d a : SReg) (s : State) : Host.Outcome State Fault Refusal :=
  register g (fun x => x.setF d (fsqrt32 (x.mode rm) (x.getF a))) s

/-- `fma` (R160). -/
def execFma (g : Pred) (rm : Rm) (d a b c : SReg) (s : State) : Host.Outcome State Fault Refusal :=
  register g (fun x => x.setF d (fma32 (x.mode rm) (x.getF a) (x.getF b) (x.getF c))) s

/-- `fmin` (R161). -/
def execFmin (g : Pred) (d a b : SReg) (s : State) : Host.Outcome State Fault Refusal :=
  fp2 g d a b (fun _ => fmin32) s

/-- `fmax` (R161). -/
def execFmax (g : Pred) (d a b : SReg) (s : State) : Host.Outcome State Fault Refusal :=
  fp2 g d a b (fun _ => fmax32) s

/-- `fcmp` (R162). -/
def execFcmp (g : Pred) (cc : FCond) (d : PReg) (a b : SReg) (s : State) : Host.Outcome State Fault Refusal :=
  register g (fun x =>
    let r := fcmp32 cc (x.getF a) (x.getF b)
    (x.setP d r.1).raise r.2) s

/-- A converted code as `fcvt` writes it: sign-extended for the integer formats, zero-extended otherwise (R163). -/
def codeWord (f : Fmt) (c : Nat) : Word :=
  if f = 8 then (BitVec.ofNat 8 c).signExtend 64
  else if f = 9 then (BitVec.ofNat 4 c).signExtend 64
  else BitVec.ofNat 64 c

/-- `fcvt` (R163). *Unsupported format* reports address 0, as the table of R413 has it for the code (DESIGN CHOICE, log
entry 73). -/
def execFcvt (g : Pred) (rm : Rm) (sat : Bool) (fa fb : Fmt) (d a : SReg) (s : State) :
    Host.Outcome State Fault Refusal :=
  perform g (do
    if !isFormat fa || !isFormat fb then M.trap Cause.unsupportedFormat 0
    M.mod fun x =>
      let r := convertCode fa fb (x.mode rm) sat (codeOfLane fa (x.getS a).toNat)
      (x.setS d (codeWord fb r.1)).raise r.2
    M.next) s

/-- `fcvti` (R164). -/
def execFcvti (g : Pred) (w : Width) (rm : Rm) (_sat : Bool) (d a : SReg) (s : State) :
    Host.Outcome State Fault Refusal :=
  register g (fun x =>
    let r := toInt32 w.n (x.mode rm) (x.getF a)
    (x.setW d (BitVec.ofNat w.n r.1)).raise r.2) s

/-- `icvtf` (R164). -/
def execIcvtf (g : Pred) (w : Width) (rm : Rm) (d a : SReg) (s : State) : Host.Outcome State Fault Refusal :=
  register g (fun x => x.setF d (ofInt32 (x.mode rm) (atWidth w (x.getS a)).toInt)) s

/-- `fclass` (R165). -/
def execFclass (g : Pred) (d a : SReg) (s : State) : Host.Outcome State Fault Refusal :=
  register g (fun x => x.setS d (BitVec.twoPow 64 (fclass32 (x.getF a)))) s

/-- `fsgn` (R166). -/
def execFsgn (g : Pred) (op : SgnOp) (d a b : SReg) (s : State) : Host.Outcome State Fault Refusal :=
  fp2 g d a b (fun _ x y => (fsgn32 op x y, 0)) s

end Sys2Proof.Machine
end

