-- ==== Sys2Proof/Machine/Walker.lean ====
section
/-! DEFINITION. The walker's queue and the shoot-downs (spec/02_address_space.md R35, R37, R40 to R43). -/

namespace Sys2Proof.Machine

/-! ### The walker (R37) -/

/-- The walker of a tile serves the request at the head of its queue (R37). -/
def execWalk (t : TileId) (s : State) : Host.Outcome State Fault Refusal := .next (s.walkHead t)

/-! ### Shoot-downs (R40 to R42) -/

/-- The first page and the number of pages of the range of an `XINVAL` value (R40). -/
def xinvalRange (v : Word) : Nat × Nat :=
  let size : BitVec 4 := v.extractLsb' 8 4
  let pages : Nat := if size = 0 then 1 else if size = 1 then 16 else if size = 2 then 2 ^ 9
    else if size = 3 then 2 ^ 18 else if size = 4 then 2 ^ 27 else 2 ^ 36
  let vpn : BitVec 36 := v.extractLsb' 12 36
  (vpn.toNat / pages * pages, pages)

/-- Does an `XINVAL` value name the ASID (R40)? -/
def xinvalAsid (v : Word) (asid : BitVec 16) : Bool := v.getLsbD 0 || v.extractLsb' 48 16 == asid

/-- Does a shoot-down remove a translation (R40)? -/
def TlbEntry.removedBy (e : TlbEntry) (v : Word) : Bool :=
  let (lo, n) := xinvalRange v
  let first := e.vpn.toNat >>> e.span <<< e.span
  decide (first < lo + n ∧ lo < first + 2 ^ e.span) && (if e.g then v.getLsbD 1 else xinvalAsid v e.asid)

/-- Does a shoot-down remove a table pointer: every one of the named ASIDs, a global one being of each (R33, R40)? -/
def WalkEntry.removedBy (e : WalkEntry) (v : Word) : Bool := e.g || xinvalAsid v e.asid

/-- The caches after a shoot-down with its generation is received (R42). -/
def Mmu.receive (m : Mmu) (gen : BitVec 32) (v : Word) : Mmu :=
  let keep (xs : List TlbEntry) : List TlbEntry := xs.filter fun e => !e.removedBy v
  { m with
    l1 := keep m.l1, l2 := keep m.l2, streams := m.streams.map keep
    walks := m.walks.filter fun e => !e.removedBy v
    gen := gen, unacked := m.unacked ++ [gen] }

/-- `XINVAL`: a shoot-down with the next generation number (R40). -/
def execXinval (v : Word) (s : State) : Host.Outcome State Fault Refusal := .next (s.xinval v)

/-- A stream that waits on a word, a line or a barrier by its translated address: its instruction issues again, and
translates it anew (R44; DEDUCED, log entry 18). -/
def Stream.rewait (x : Stream) : Stream :=
  match x.wait with
  | .full _ => { x with state := .running, wait := .none }
  | .barrier _ _ => { x with state := .running, wait := .none }
  | .signal _ _ _ => { x with state := .running, wait := .none }
  | _ => x

/-- A tile receives the oldest shoot-down that it has not received (R42). -/
def execShootdownReceive (t : TileId) (s : State) : Host.Outcome State Fault Refusal :=
  match s.shoots.find? fun h => h.2.2.1.contains t with
  | none => .next s
  | some (gen, v, _, _) =>
    let x := s.tile t
    let s := s.setTile t { x with mmu := x.mmu.receive gen v, user := x.user.rewait, fw := x.fw.rewait }
    .next { s with shoots := s.shoots.map fun h =>
      if h.1 == gen then (h.1, h.2.1, h.2.2.1.filter (· != t), h.2.2.2) else h }

/-- Shoot-downs that every tile has acknowledged complete, in the order of their generations (R41, R42). -/
def State.completeShoots : Nat → State → State
  | 0, s => s
  | fuel + 1, s =>
    match s.shoots with
    | (gen, _, _, []) :: rest => State.completeShoots fuel { s with shoots := rest, completed := gen }
    | _ => s

/-- Does a pending access use a translation that a shoot-down removes (R42)? -/
def usesRemoved (v : Word) (via : Option TlbEntry) : Bool := via.any fun e => e.removedBy v

/-- Has the tile translated an access under an entry that a shoot-down removes and not performed it yet: a write in the
region store buffer, a lane of a `vamo`, a post in the signal queue (R42, R205, R215, R295)? -/
def Tile.owes (x : Tile) (v : Word) : Bool :=
  let lanes (y : Stream) : Bool := y.vamoTodo.any fun l => usesRemoved v l.via
  lanes x.user || lanes x.fw || (x.user.native.any fun n => n.buffer.any fun b => usesRemoved v b.via)
    || x.sigQ.any fun p => usesRemoved v p.via

/-- The value with which a shoot-down of a generation was issued. -/
def State.shootValue (s : State) (gen : BitVec 32) : Word := ((s.shoots.find? (·.1 == gen)).map (·.2.1)).getD 0

/-- A tile acknowledges the oldest shoot-down that it has received, once every access that it has translated under a
removed entry is performed (R42; DEDUCED, log entry 18). -/
def execShootdownAcknowledge (t : TileId) (s : State) : Host.Outcome State Fault Refusal :=
  let x := s.tile t
  match x.mmu.unacked with
  | [] => .next s
  | gen :: rest =>
    if x.owes (s.shootValue gen) then .next s
    else
      let s := s.setTile t { x with mmu := { x.mmu with unacked := rest } }
      let shoots := s.shoots.map fun h =>
        if h.1 == gen then (h.1, h.2.1, h.2.2.1, h.2.2.2.filter (· != t)) else h
      .next (State.completeShoots shoots.length { s with shoots := shoots })

end Sys2Proof.Machine
end

