-- ==== Sys2Proof/Machine/Wellhouse.lean ====
section
/-! DEFINITION. The registers of the well-house as steps, pre-emption and gang slots, tile reset
(spec/19_execution_and_scheduling.md R332, R333, R337, R339, R348 to R351; spec/05_cisterns.md R93, R95). -/

namespace Sys2Proof.Machine

/-- A write to `SUBMIT` (R337). -/
def execSubmit (cx : CtxId) (v : Word) (s : State) : Host.Outcome State Fault Refusal := .next (s.submit cx v)

/-- A write to `EVSETw` (R333). -/
def execEvset (cx : CtxId) (w : BitVec 2) (v : Word) (s : State) : Host.Outcome State Fault Refusal :=
  .next (s.evset cx w v)

/-- A write to `EVCLRw` (R333). -/
def execEvclr (cx : CtxId) (w : BitVec 2) (v : Word) (s : State) : Host.Outcome State Fault Refusal :=
  .next (s.evclr cx w v)

/-- A write to `HOLD` (R332, R350). -/
def execHold (cx : CtxId) (v : Word) (s : State) : Host.Outcome State Fault Refusal := .next (s.writeHold cx v)

/-- A write of a double of a group table entry (R339). -/
def execGroupTableWrite (e : BitVec 8) (dbl : BitVec 6) (v : Word) (s : State) : Host.Outcome State Fault Refusal :=
  .next (s.writeGroup e dbl v)

/-- A store to a grant entry (R93). -/
def execGrantTableWrite (agent : Agent) (e : BitVec 6) (v : Quad) (s : State) : Host.Outcome State Fault Refusal :=
  .next (s.writeGrant agent e v)

/-! ### Pre-emption and gang slots (R350, R351) -/

/-- May the pre-emption of a context be completed on a tile: the context is held, its last node there is over, and every
queue has drained? -/
def State.preemptible (s : State) (c : CtxId) (t : TileId) : Bool :=
  let x := s.tile t
  s.ctxHeld c && x.lastCtx == some c && x.node.isNone && s.nodeCtx (x.shadow.map (·.serial)) != some c
    && x.queuesEmpty && !(s.ctx c).quiet.contains t

/-- The firmware clears V in the grant entries that belong to a context (R95). -/
def State.clearGrants (s : State) (c : CtxId) : State :=
  { s with grants := s.grants.map fun g =>
      if g.extractLsb' 96 16 == (s.ctx c).jobtag then g &&& ~~~(BitVec.twoPow 128 127) else g }

/-- The carry registers s56 .. s63 of a stream. -/
def Stream.carryRegs (x : Stream) : Vector Word 8 := Vector.ofFn fun k : Fin 8 => x.s[56 + k.val]

/-- Complete the pre-emption of a context on a tile: the carry registers are saved for the virtual position and in the
save area, the grant entries are cleared, and no waiting node continues its predecessor's state (R346, R350, R377;
DEDUCED, log entry 54). -/
def State.preempt (s : State) (c : CtxId) (t : TileId) : State :=
  let x := s.tile t
  let regs := x.user.carryRegs
  let place : BitVec 16 := x.user.vpos.extractLsb' 32 16
  let k := s.ctx c
  let s := s.setCtx c
    { k with quiet := k.quiet ++ [t], carry := (place, regs) :: k.carry.filter (·.1 != place) }
  let s := s.store (x.tsave.toNat + 0x1C0) (regs.toList.flatMap (toBytes 8))
  ({ s with nodes := s.nodes.map fun (n : Node) => if n.ctx == c then { n with broken := t :: n.broken } else n }).clearGrants
    c

/-- Pre-emption of a context on a tile (R350), once no freeze covers it (R98). -/
def execPreemption (cx : CtxId) (t : TileId) (s : State) : Host.Outcome State Fault Refusal :=
  .next (if s.preemptible cx t && !(s.tile t).frozen then s.preempt cx t else s)

/-- Device time has entered another gang slot, which comes into force (R351). -/
def execGangSlotEdge (s : State) : Host.Outcome State Fault Refusal :=
  .next (if s.slotNow = s.gslot then s else s.gangSlot)

/-! ### Tile reset (R348, R349) -/

/-- A write of RST = 1 to a tile's `TCFG`. -/
def execTileReset (t : TileId) (s : State) : Host.Outcome State Fault Refusal := .next (s.resetTile t)

/-- A write of RST = 0. -/
def execTileResetRelease (t : TileId) (s : State) : Host.Outcome State Fault Refusal := .next (s.releaseTile t)

/-- The tile leaves tile reset: its firmware context starts at the entry that the firmware image gives it (DESIGN
CHOICE, log entry 45). -/
def Tile.exitReset (x : Tile) (entry : Word) : Tile :=
  { x with rbusy := false, fw := { x.fw with state := .running, wait := .none, pc := entry } }

/-- A released tile leaves tile reset once its clearing is complete. -/
def execTileResetExit (t : TileId) (s : State) : Host.Outcome State Fault Refusal :=
  let x := s.tile t
  .next (if x.rbusy && !x.rst && s.tilesEnabled then s.setTile t (x.exitReset s.boot.fwEntry) else s)

end Sys2Proof.Machine
end

