-- ==== Sys2Proof/Machine/Dispatch.lean ====
section
/-! DEFINITION. The meaning of every step, by constructor: one call each. -/

namespace Sys2Proof.Machine

/-- One step of the machine: an instruction of the current stream, or an event. -/
def exec (i : Instr) (s : State) : Host.Outcome State Fault Refusal :=
  match i with
  | .add g w d a b => Sys2Proof.Machine.execAdd g w d a b s
  | .sub g w d a b => Sys2Proof.Machine.execSub g w d a b s
  | .mul g w d a b => Sys2Proof.Machine.execMul g w d a b s
  | .mulh g w d a b => Sys2Proof.Machine.execMulh g w d a b s
  | .mulhu g w d a b => Sys2Proof.Machine.execMulhu g w d a b s
  | .div g w d a b => Sys2Proof.Machine.execDiv g w d a b s
  | .divu g w d a b => Sys2Proof.Machine.execDivu g w d a b s
  | .rem g w d a b => Sys2Proof.Machine.execRem g w d a b s
  | .remu g w d a b => Sys2Proof.Machine.execRemu g w d a b s
  | .and g w d a b => Sys2Proof.Machine.execAnd g w d a b s
  | .or g w d a b => Sys2Proof.Machine.execOr g w d a b s
  | .xor g w d a b => Sys2Proof.Machine.execXor g w d a b s
  | .sll g w d a b => Sys2Proof.Machine.execSll g w d a b s
  | .srl g w d a b => Sys2Proof.Machine.execSrl g w d a b s
  | .sra g w d a b => Sys2Proof.Machine.execSra g w d a b s
  | .min g w d a b => Sys2Proof.Machine.execMin g w d a b s
  | .max g w d a b => Sys2Proof.Machine.execMax g w d a b s
  | .minu g w d a b => Sys2Proof.Machine.execMinu g w d a b s
  | .maxu g w d a b => Sys2Proof.Machine.execMaxu g w d a b s
  | .clz g w d a => Sys2Proof.Machine.execClz g w d a s
  | .ctz g w d a => Sys2Proof.Machine.execCtz g w d a s
  | .popc g w d a => Sys2Proof.Machine.execPopc g w d a s
  | .brev g w d a => Sys2Proof.Machine.execBrev g w d a s
  | .bswap g w d a => Sys2Proof.Machine.execBswap g w d a s
  | .bfx g w d a b c => Sys2Proof.Machine.execBfx g w d a b c s
  | .bfxu g w d a b c => Sys2Proof.Machine.execBfxu g w d a b c s
  | .bfi g w d a b c => Sys2Proof.Machine.execBfi g w d a b c s
  | .cmp g w cc d a b => Sys2Proof.Machine.execCmp g w cc d a b s
  | .sel g d a b c => Sys2Proof.Machine.execSel g d a b c s
  | .addi g d a imm => Sys2Proof.Machine.execAddi g d a imm s
  | .andi g d a imm => Sys2Proof.Machine.execAndi g d a imm s
  | .ori g d a imm => Sys2Proof.Machine.execOri g d a imm s
  | .xori g d a imm => Sys2Proof.Machine.execXori g d a imm s
  | .slli g d a imm => Sys2Proof.Machine.execSlli g d a imm s
  | .srli g d a imm => Sys2Proof.Machine.execSrli g d a imm s
  | .srai g d a imm => Sys2Proof.Machine.execSrai g d a imm s
  | .muli g d a imm => Sys2Proof.Machine.execMuli g d a imm s
  | .li g d imm => Sys2Proof.Machine.execLi g d imm s
  | .lhi g d a imm => Sys2Proof.Machine.execLhi g d a imm s
  | .fadd g rm d a b => Sys2Proof.Machine.execFadd g rm d a b s
  | .fsub g rm d a b => Sys2Proof.Machine.execFsub g rm d a b s
  | .fmul g rm d a b => Sys2Proof.Machine.execFmul g rm d a b s
  | .fdiv g rm d a b => Sys2Proof.Machine.execFdiv g rm d a b s
  | .fsqrt g rm d a => Sys2Proof.Machine.execFsqrt g rm d a s
  | .fma g rm d a b c => Sys2Proof.Machine.execFma g rm d a b c s
  | .fmin g d a b => Sys2Proof.Machine.execFmin g d a b s
  | .fmax g d a b => Sys2Proof.Machine.execFmax g d a b s
  | .fcmp g cc d a b => Sys2Proof.Machine.execFcmp g cc d a b s
  | .fcvt g rm sat fa fb d a => Sys2Proof.Machine.execFcvt g rm sat fa fb d a s
  | .fcvti g w rm sat d a => Sys2Proof.Machine.execFcvti g w rm sat d a s
  | .icvtf g w rm d a => Sys2Proof.Machine.execIcvtf g w rm d a s
  | .fclass g d a => Sys2Proof.Machine.execFclass g d a s
  | .fsgn g op d a b => Sys2Proof.Machine.execFsgn g op d a b s
  | .pand g d a b => Sys2Proof.Machine.execPand g d a b s
  | .por g d a b => Sys2Proof.Machine.execPor g d a b s
  | .pxor g d a b => Sys2Proof.Machine.execPxor g d a b s
  | .pandn g d a b => Sys2Proof.Machine.execPandn g d a b s
  | .ptest g d a => Sys2Proof.Machine.execPtest g d a s
  | .pget g d a => Sys2Proof.Machine.execPget g d a s
  | .cmov g d a => Sys2Proof.Machine.execCmov g d a s
  | .cnrow g d a b c => Sys2Proof.Machine.execCnrow g d a b c s
  | .cnbyte g d a b c => Sys2Proof.Machine.execCnbyte g d a b c s
  | .cnstride g d a b => Sys2Proof.Machine.execCnstride g d a b s
  | .cnperm g d a perm => Sys2Proof.Machine.execCnperm g d a perm s
  | .cfmt g d a fa => Sys2Proof.Machine.execCfmt g d a fa s
  | .cget g f d a => Sys2Proof.Machine.execCget g f d a s
  | .ctab g d imm => Sys2Proof.Machine.execCtab g d imm s
  | .vadd g w sat d a b => Sys2Proof.Machine.execVadd g w sat d a b s
  | .vsub g w sat d a b => Sys2Proof.Machine.execVsub g w sat d a b s
  | .vmul g w d a b => Sys2Proof.Machine.execVmul g w d a b s
  | .vmulh g w d a b => Sys2Proof.Machine.execVmulh g w d a b s
  | .vmin g w d a b => Sys2Proof.Machine.execVmin g w d a b s
  | .vmax g w d a b => Sys2Proof.Machine.execVmax g w d a b s
  | .vminu g w d a b => Sys2Proof.Machine.execVminu g w d a b s
  | .vmaxu g w d a b => Sys2Proof.Machine.execVmaxu g w d a b s
  | .vand g w d a b => Sys2Proof.Machine.execVand g w d a b s
  | .vor g w d a b => Sys2Proof.Machine.execVor g w d a b s
  | .vxor g w d a b => Sys2Proof.Machine.execVxor g w d a b s
  | .vsll g w d a b => Sys2Proof.Machine.execVsll g w d a b s
  | .vsrl g w d a b => Sys2Proof.Machine.execVsrl g w d a b s
  | .vsra g w d a b => Sys2Proof.Machine.execVsra g w d a b s
  | .vabs g w d a => Sys2Proof.Machine.execVabs g w d a s
  | .vcmp g w cc d a b => Sys2Proof.Machine.execVcmp g w cc d a b s
  | .vsel g w d a b c => Sys2Proof.Machine.execVsel g w d a b c s
  | .vfadd g rm d a b => Sys2Proof.Machine.execVfadd g rm d a b s
  | .vfsub g rm d a b => Sys2Proof.Machine.execVfsub g rm d a b s
  | .vfmul g rm d a b => Sys2Proof.Machine.execVfmul g rm d a b s
  | .vfdiv g rm d a b => Sys2Proof.Machine.execVfdiv g rm d a b s
  | .vfma g rm d a b c => Sys2Proof.Machine.execVfma g rm d a b c s
  | .vfsqrt g rm d a => Sys2Proof.Machine.execVfsqrt g rm d a s
  | .vfmin g d a b => Sys2Proof.Machine.execVfmin g d a b s
  | .vfmax g d a b => Sys2Proof.Machine.execVfmax g d a b s
  | .vfcmp g cc d a b => Sys2Proof.Machine.execVfcmp g cc d a b s
  | .vfsgn g op d a b => Sys2Proof.Machine.execVfsgn g op d a b s
  | .vcvt g rm sat fa fb d a => Sys2Proof.Machine.execVcvt g rm sat fa fb d a s
  | .vfdot g fa d a b c => Sys2Proof.Machine.execVfdot g fa d a b c s
  | .vperm g w d a b => Sys2Proof.Machine.execVperm g w d a b s
  | .vzip g w d a b => Sys2Proof.Machine.execVzip g w d a b s
  | .vunzip g w d a b => Sys2Proof.Machine.execVunzip g w d a b s
  | .vslide g w d a b => Sys2Proof.Machine.execVslide g w d a b s
  | .vbcast g w d a b => Sys2Proof.Machine.execVbcast g w d a b s
  | .vext g w d a b => Sys2Proof.Machine.execVext g w d a b s
  | .vins g w d a b => Sys2Proof.Machine.execVins g w d a b s
  | .viota g w d => Sys2Proof.Machine.execViota g w d s
  | .vmov g w d b => Sys2Proof.Machine.execVmov g w d b s
  | .vred g w op d a => Sys2Proof.Machine.execVred g w op d a s
  | .vfred g rm op d a => Sys2Proof.Machine.execVfred g rm op d a s
  | .vscan g w op d a => Sys2Proof.Machine.execVscan g w op d a s
  | .vfscan g rm op d a => Sys2Proof.Machine.execVfscan g rm op d a s
  | .vfaffine g rm d a b => Sys2Proof.Machine.execVfaffine g rm d a b s
  | .vld g d m => Sys2Proof.Machine.execVld g d m s
  | .vst g m d => Sys2Proof.Machine.execVst g m d s
  | .vgather g w d m => Sys2Proof.Machine.execVgather g w d m s
  | .vscatter g w m d => Sys2Proof.Machine.execVscatter g w m d s
  | .vamo g w op scope m d => Sys2Proof.Machine.execVamo g w op scope m d s
  | .ld g w d m => Sys2Proof.Machine.execLd g w d m s
  | .ldu g w d m => Sys2Proof.Machine.execLdu g w d m s
  | .st g w m d => Sys2Proof.Machine.execSt g w m d s
  | .ldq g d m => Sys2Proof.Machine.execLdq g d m s
  | .stq g m d => Sys2Proof.Machine.execStq g m d s
  | .ldacq g w scope d m => Sys2Proof.Machine.execLdacq g w scope d m s
  | .strel g w scope m d => Sys2Proof.Machine.execStrel g w scope m d s
  | .amo g w op scope d m c => Sys2Proof.Machine.execAmo g w op scope d m c s
  | .amoCas g w scope d m c => Sys2Proof.Machine.execAmoCas g w scope d m c s
  | .fence g scope hint => Sys2Proof.Machine.execFence g scope hint s
  | .feClear g m => Sys2Proof.Machine.execFeClear g m s
  | .feSet g m => Sys2Proof.Machine.execFeSet g m s
  | .feWait g m => Sys2Proof.Machine.execFeWait g m s
  | .tlWait g hint a b => Sys2Proof.Machine.execTlWait g hint a b s
  | .tlRead g d a => Sys2Proof.Machine.execTlRead g d a s
  | .barInit g m d => Sys2Proof.Machine.execBarInit g m d s
  | .barArrive g m => Sys2Proof.Machine.execBarArrive g m s
  | .barWait g m => Sys2Proof.Machine.execBarWait g m s
  | .hbar g tag hint => Sys2Proof.Machine.execHbar g tag hint s
  | .sigPost g m d c => Sys2Proof.Machine.execSigPost g m d c s
  | .sigWait g m d => Sys2Proof.Machine.execSigWait g m d s
  | .fwdPut g a b => Sys2Proof.Machine.execFwdPut g a b s
  | .fwdGet g d a => Sys2Proof.Machine.execFwdGet g d a s
  | .pumpLd g d a b c => Sys2Proof.Machine.execPumpLd g d a b c s
  | .pumpSt g d a b c => Sys2Proof.Machine.execPumpSt g d a b c s
  | .br g imm => Sys2Proof.Machine.execBr g imm s
  | .call g imm => Sys2Proof.Machine.execCall g imm s
  | .loop g a imm => Sys2Proof.Machine.execLoop g a imm s
  | .jr g a => Sys2Proof.Machine.execJr g a s
  | .callr g a => Sys2Proof.Machine.execCallr g a s
  | .ret g => Sys2Proof.Machine.execRet g s
  | .rcall g imm => Sys2Proof.Machine.execRcall g imm s
  | .yield g => Sys2Proof.Machine.execYield g s
  | .rdv g => Sys2Proof.Machine.execRdv g s
  | .sys g imm => Sys2Proof.Machine.execSys g imm s
  | .trap g imm => Sys2Proof.Machine.execTrap g imm s
  | .eret g => Sys2Proof.Machine.execEret g s
  | .rdc g d a => Sys2Proof.Machine.execRdc g d a s
  | .wrc g d a => Sys2Proof.Machine.execWrc g d a s
  | .dlRead g d => Sys2Proof.Machine.execDlRead g d s
  | .vflagSet g a b => Sys2Proof.Machine.execVflagSet g a b s
  | .nop g => Sys2Proof.Machine.execNop g s
  | .bkpt g => Sys2Proof.Machine.execBkpt g s
  | .nxStub g imm => Sys2Proof.Machine.execNxStub g imm s
  | .nxRbeg g imm => Sys2Proof.Machine.execNxRbeg g imm s
  | .nxRend g => Sys2Proof.Machine.execNxRend g s
  | .nxRyld g imm => Sys2Proof.Machine.execNxRyld g imm s
  | .nxMpush g op a b c => Sys2Proof.Machine.execNxMpush g op a b c s
  | .nxDtab g a => Sys2Proof.Machine.execNxDtab g a s
  | .nxSpill g a imm => Sys2Proof.Machine.execNxSpill g a imm s
  | .nxFill g d imm => Sys2Proof.Machine.execNxFill g d imm s
  | .nxVfn g op d a => Sys2Proof.Machine.execNxVfn g op d a s
  | .firmwareCallVersion t => Sys2Proof.Machine.execFirmwareCallVersion t s
  | .sysRaiseCause t => Sys2Proof.Machine.execSysRaiseCause t s
  | .sysTranslateFunction t => Sys2Proof.Machine.execSysTranslateFunction t s
  | .regionCommit t => Sys2Proof.Machine.execRegionCommit t s
  | .walk t => Sys2Proof.Machine.execWalk t s
  | .xinval v => Sys2Proof.Machine.execXinval v s
  | .shootdownReceive t => Sys2Proof.Machine.execShootdownReceive t s
  | .shootdownAcknowledge t => Sys2Proof.Machine.execShootdownAcknowledge t s
  | .stallEnd t side => Sys2Proof.Machine.execStallEnd t side s
  | .feWaitEnd t side => Sys2Proof.Machine.execFeWaitEnd t side s
  | .tlWaitEnd t side => Sys2Proof.Machine.execTlWaitEnd t side s
  | .barWaitEnd t side => Sys2Proof.Machine.execBarWaitEnd t side s
  | .sigWaitEnd t side => Sys2Proof.Machine.execSigWaitEnd t side s
  | .forwardingWaitEnd t side => Sys2Proof.Machine.execForwardingWaitEnd t side s
  | .hbarRelease tag => Sys2Proof.Machine.execHbarRelease tag s
  | .pumpUnit t store k => Sys2Proof.Machine.execPumpUnit t store k s
  | .pumpResume t k => Sys2Proof.Machine.execPumpResume t k s
  | .peerLineArrival p => Sys2Proof.Machine.execPeerLineArrival p s
  | .remoteBarrierDecrement p => Sys2Proof.Machine.execRemoteBarrierDecrement p s
  | .peerErrorResponse seq chip answer => Sys2Proof.Machine.execPeerErrorResponse seq chip answer s
  | .sigPostPerform t => Sys2Proof.Machine.execSigPostPerform t s
  | .mmWload => Sys2Proof.Machine.execMmWload s
  | .mmWdecode => Sys2Proof.Machine.execMmWdecode s
  | .mmSwap => Sys2Proof.Machine.execMmSwap s
  | .mmAct => Sys2Proof.Machine.execMmAct s
  | .mmDrain => Sys2Proof.Machine.execMmDrain s
  | .mmZero => Sys2Proof.Machine.execMmZero s
  | .wload t => Sys2Proof.Machine.execWload t s
  | .wloadc t => Sys2Proof.Machine.execWloadc t s
  | .table t => Sys2Proof.Machine.execTable t s
  | .decode t => Sys2Proof.Machine.execDecode t s
  | .swap t => Sys2Proof.Machine.execSwap t s
  | .act t => Sys2Proof.Machine.execAct t s
  | .zero t => Sys2Proof.Machine.execZero t s
  | .drain t => Sys2Proof.Machine.execDrain t s
  | .matrixResume t => Sys2Proof.Machine.execMatrixResume t s
  | .decodeResume t => Sys2Proof.Machine.execDecodeResume t s
  | .tileCopy => Sys2Proof.Machine.execTileCopy s
  | .tileTranspose => Sys2Proof.Machine.execTileTranspose s
  | .tileCvt => Sys2Proof.Machine.execTileCvt s
  | .tileGather => Sys2Proof.Machine.execTileGather s
  | .tileScatter => Sys2Proof.Machine.execTileScatter s
  | .tileLdscale => Sys2Proof.Machine.execTileLdscale s
  | .scanAdd => Sys2Proof.Machine.execScanAdd s
  | .scanAffine => Sys2Proof.Machine.execScanAffine s
  | .redSum => Sys2Proof.Machine.execRedSum s
  | .redMax => Sys2Proof.Machine.execRedMax s
  | .redAmax => Sys2Proof.Machine.execRedAmax s
  | .scaleFold => Sys2Proof.Machine.execScaleFold s
  | .ewExp => Sys2Proof.Machine.execEwExp s
  | .ewSigmoid => Sys2Proof.Machine.execEwSigmoid s
  | .ewSilu => Sys2Proof.Machine.execEwSilu s
  | .ewGelu => Sys2Proof.Machine.execEwGelu s
  | .ewRsqrt => Sys2Proof.Machine.execEwRsqrt s
  | .normRms => Sys2Proof.Machine.execNormRms s
  | .normLayer => Sys2Proof.Machine.execNormLayer s
  | .softmaxRow => Sys2Proof.Machine.execSoftmaxRow s
  | .ssmChunk => Sys2Proof.Machine.execSsmChunk s
  | .hashMul => Sys2Proof.Machine.execHashMul s
  | .decodeSeg => Sys2Proof.Machine.execDecodeSeg s
  | .accAddrow => Sys2Proof.Machine.execAccAddrow s
  | .quantRow => Sys2Proof.Machine.execQuantRow s
  | .topkRow => Sys2Proof.Machine.execTopkRow s
  | .submit cx v => Sys2Proof.Machine.execSubmit cx v s
  | .nodeAdmission cx => Sys2Proof.Machine.execNodeAdmission cx s
  | .nodeDispatch serial => Sys2Proof.Machine.execNodeDispatch serial s
  | .overlaySwap t => Sys2Proof.Machine.execOverlaySwap t s
  | .nodeCompletion serial => Sys2Proof.Machine.execNodeCompletion serial s
  | .evset cx w v => Sys2Proof.Machine.execEvset cx w v s
  | .evclr cx w v => Sys2Proof.Machine.execEvclr cx w v s
  | .hold cx v => Sys2Proof.Machine.execHold cx v s
  | .preemption cx t => Sys2Proof.Machine.execPreemption cx t s
  | .gangSlotEdge => Sys2Proof.Machine.execGangSlotEdge s
  | .groupTableWrite e dbl v => Sys2Proof.Machine.execGroupTableWrite e dbl v s
  | .grantTableWrite agent e v => Sys2Proof.Machine.execGrantTableWrite agent e v s
  | .tileReset t => Sys2Proof.Machine.execTileReset t s
  | .tileResetRelease t => Sys2Proof.Machine.execTileResetRelease t s
  | .tileResetExit t => Sys2Proof.Machine.execTileResetExit t s
  | .callTime serial => Sys2Proof.Machine.execCallTime serial s
  | .diversion t => Sys2Proof.Machine.execDiversion t s
  | .hardStop serial => Sys2Proof.Machine.execHardStop serial s
  | .engineFaultPassOn t src => Sys2Proof.Machine.execEngineFaultPassOn t src s
  | .streamResume r => Sys2Proof.Machine.execStreamResume r s
  | .streamAbandon t => Sys2Proof.Machine.execStreamAbandon t s
  | .cfrtail v => Sys2Proof.Machine.execCfrtail v s
  | .correctableError t site => Sys2Proof.Machine.execCorrectableError t site s
  | .freezeEnd t => Sys2Proof.Machine.execFreezeEnd t s
  | .uncorrectableError t site => Sys2Proof.Machine.execUncorrectableError t site s
  | .ptpMessage port m => Sys2Proof.Machine.execPtpMessage port m s
  | .pulsePerSecondOutput => Sys2Proof.Machine.execPulsePerSecondOutput s
  | .pulsePerSecondInput x => Sys2Proof.Machine.execPulsePerSecondInput x s
  | .deviceReset record => Sys2Proof.Machine.execDeviceReset record s
  | .bootImageFetch image => Sys2Proof.Machine.execBootImageFetch image s
  | .bootRetry => Sys2Proof.Machine.execBootRetry s
  | .attreq v => Sys2Proof.Machine.execAttreq v s
  | .attestationReport => Sys2Proof.Machine.execAttestationReport s
  | .ettxtail p v => Sys2Proof.Machine.execEttxtail p v s
  | .etrxtail p v => Sys2Proof.Machine.execEtrxtail p v s
  | .etctl p v => Sys2Proof.Machine.execEtctl p v s
  | .ethernetTransmit p => Sys2Proof.Machine.execEthernetTransmit p s
  | .ethernetReceive p f => Sys2Proof.Machine.execEthernetReceive p f s
  | .linkTraining p switchPort => Sys2Proof.Machine.execLinkTraining p switchPort s
  | .flitReceive p flit => Sys2Proof.Machine.execFlitReceive p flit s
  | .negativeAcknowledgement p seq => Sys2Proof.Machine.execNegativeAcknowledgement p seq s
  | .pcieBar0Access off op => Sys2Proof.Machine.execPcieBar0Access off op s
  | .pcieBar2Access off op => Sys2Proof.Machine.execPcieBar2Access off op s
  | .codeObjectLoad cx base obj setup => Sys2Proof.Machine.execCodeObjectLoad cx base obj setup s
  | .thermalThrottle step => Sys2Proof.Machine.execThermalThrottle step s
  | .overheat => Sys2Proof.Machine.execOverheat s
  | .powerGate t => Sys2Proof.Machine.execPowerGate t s
  | .deviceRegisterWrite agent a width v => Sys2Proof.Machine.execDeviceRegisterWrite agent a width v s
  | .illegalInstruction => Sys2Proof.Machine.execIllegalInstruction s
  | .hostCoreAccess p op => Sys2Proof.Machine.execHostCoreAccess p op s
  | .holdover => Sys2Proof.Machine.execHoldover s
  | .ethernetLinkChange p up => Sys2Proof.Machine.execEthernetLinkChange p up s
  | .networkTimeout => Sys2Proof.Machine.execNetworkTimeout s

end Sys2Proof.Machine
end

