-- ==== Sys2Proof/Machine/Bundle.lean ====
section
/-! DEFINITION. The issue of one native bundle (spec/15_native_form.md R285 to R290, R293): its checks, its slots on the
registers as they stand, and the region that it ends. -/

namespace Sys2Proof.Machine

/-- The kinds of the slots, in the order of their words (R285). -/
def slotKinds : List SlotKind := [.s, .s, .v, .m, .e]

/-- Fetch the 48 bytes of a bundle under the checks of a fetch (R285). -/
def M.fetchBundle (npc : Word) : M (List Byte) := do
  let ps ← M.parts none npc 48 .fetch
  ps.forM M.unpoisoned
  let bs ← ps.mapM M.readPart
  pure bs.flatten

/-- The fields of a bundle header (R286). -/
structure Header where
  stall    : Nat
  valid    : BitVec 5
  rp       : Bool
  pmi      : Nat
  reserved : Bool
deriving DecidableEq, Repr

/-- Read a bundle header (R286). -/
def headerOf (w : Word) : Header where
  stall := (w.extractLsb' 0 4 : BitVec 4).toNat
  valid := w.extractLsb' 4 5
  rp := w.getLsbD 9
  pmi := (w.extractLsb' 16 24 : BitVec 24).toNat
  reserved := w.extractLsb' 10 6 != 0 || w.extractLsb' 40 24 != 0

/-- The valid slots of a bundle, judged in slot order (R286, R287, R293). -/
def slotsOf (h : Header) (words : List Word) : Except (Option (BitVec 8)) (List SlotOp) :=
  ((slotKinds.zip words).zipIdx.filter fun x => h.valid.getLsbD x.2).mapM fun x => judgeSlot x.1.1 x.1.2

/-- Does a register occur twice? -/
def repeats : List NativeReg → Bool
  | [] => false
  | r :: rs => rs.contains r || repeats rs

/-- Do the slots of a bundle break a rule of R288, R293 or R294? (DEDUCED, log entry 32) -/
def bundleInvalid (h : Header) (ws : List SlotOp) : Bool :=
  h.reserved || repeats (ws.flatMap (·.writes))
    || (!h.rp && ws.any fun w => endsRegion w.op || w.op == .call || w.op == .callr)
    || decide (1 < (ws.filter fun w => endsRegion w.op).length)

/-- Does a slot meet a register whose write has not landed (R290)? -/
def meetsPending (n : Native) (ws : List SlotOp) : Bool :=
  ws.any fun w => (w.reads ++ w.writes).any fun r => n.pending.any fun p => p.reg == r

/-- How the slots of a bundle end. -/
inductive Slots where
  /-- Every slot has been performed: the state with the effects outside the register file, the writes still to land and
  the flags raised. -/
  | done (s : State) (ws : List PendingWrite) (fpctl : BitVec 32)
  /-- A whole-tile stall (R89): the bundle issues again. -/
  | stalled (st : StreamState) (w : Wait)
  /-- A trap, or an access that must be replayed (R296, R297). -/
  | replay

/-- Perform slots one after another, each on the registers as the bundle found them (R288). -/
def runSlots (x : Stream) : List SlotOp → State → List PendingWrite → BitVec 32 → Slots
  | [], s, ws, fp => .done s ws fp
  | w :: rest, s, ws, fp =>
    let y := { x.nativeView with native := s.str.native, dtimef := s.str.dtimef }
    match exec w.insn (s.setStr y) with
    | .next t =>
      let z := t.str
      match z.state with
      | .running =>
        if z.pc ≠ y.pc + 8 || z.native.isNone then .replay
        else
          let n := z.native
          let land := (n.map (·.cycle)).getD 0 + s.latencyOf y w
          let ws' := if y.holds w.f.guard then ws ++ w.results z land else ws
          runSlots x rest (t.setStr { x with native := n, dtimef := z.dtimef }) ws' (fp ||| z.fpctl)
      | .stalled => .stalled .stalled z.wait
      | .waiting => .stalled .waiting z.wait
      | .idle => .replay
      | .loaded => .replay
      | .trapped => .replay
      | .ended => .replay
      | .stopped => .replay
    | .fault _ => .replay
    | .refused _ => .replay

/-- The end of a bundle whose slots have been performed: its writes are pending, and the next bundle follows, or the
region is finished (R288, R289, R294). -/
def State.retire (s : State) (view : NativeUndo) (h : Header) (ws : List SlotOp) (pending : List PendingWrite)
    (fp : BitVec 32) : Host.Outcome State Fault Refusal :=
  let x := s.str
  match x.native with
  | none => .next s
  | some n =>
    let performed := ws.filter fun w => isRegionWrite w.op && (x.viewed view).holds w.f.guard
    let next := n.npc + 48
    let m : Native :=
      { n with
        pending := pending.foldl (fun p w => insertLanding w p) n.pending
        writes := n.writes + performed.length
        cycle := n.cycle + 1 + h.stall
        atStart := false
        view := view
        site := none }
    let y : Stream := { x with begun := true, woken := false, fpctl := fp }
    let moves := ws.find? fun w => isTransfer w.op
    if 8 < m.writes then .next (s.bundleFault Cause.nativeBundleInvalid)
    else if h.rp then
      let f : Finished :=
        ⟨(ws.find? fun w => endsRegion w.op).map (·.insn), moves.map (·.insn), h.pmi, n.cycle, next⟩
      .next (s.setStr { y with native := some { m with npc := next, finished := some f } })
    else
      match moves with
      | none => .next (s.setStr { y with native := some { m with npc := next } })
      | some w =>
        let z := x.viewed view
        match s.target z n.npc w with
        | .error _ => .next s.leaveNative
        | .ok t =>
          let p := (transferWrites z x.pc n.cycle w).foldl (fun p w => insertLanding w p) m.pending
          let cycle := if t.isSome then max m.cycle (n.cycle + 3) else m.cycle
          .next (s.setStr { y with native := some { m with npc := t.getD next, pending := p, cycle := cycle } })

/-- Issue the bundle of the given bytes (R285 to R294). -/
def State.issueBundle (s : State) (bs : List Byte) : Host.Outcome State Fault Refusal :=
  let words := (List.range 6).map fun k => ofBytes 64 ((bs.drop (8 * k)).take 8)
  let h := headerOf (words.headD 0)
  if h.reserved then .next (s.bundleFault Cause.nativeBundleInvalid)
  else
    match slotsOf h (words.drop 1) with
    | .error (some c) => .next (s.bundleFault c)
    | .error none => .next s.leaveNative
    | .ok ws =>
      if bundleInvalid h ws then .next (s.bundleFault Cause.nativeBundleInvalid)
      else
        let x := s.str.landDue ((s.str.native.map (·.cycle)).getD 0)
        match x.native with
        | none => .next s
        | some n =>
          if x.ctxcfg.getLsbD 1 && meetsPending n ws then .next (s.bundleFault Cause.stallCountTooSmall)
          else
            match ws.find? fun w => w.op == .nxStub && x.holds w.f.guard with
            | some w => exec w.insn (s.setStr x)
            | none =>
              let now := ws.filter fun w => !endsRegion w.op && !isTransfer w.op
              match runSlots x now (s.setStr x) [] x.fpctl with
              | .done t pending fp => t.retire x.undoCopy h ws pending fp
              | .stalled st w => .next (s.setStr { x with state := st, wait := w })
              | .replay => .next s.leaveNative

/-- One step of native code: the commit of a finished region, or the next bundle (R285, R295). -/
def runBundle (s : State) : Host.Outcome State Fault Refusal :=
  match s.str.native with
  | none => .next s
  | some n =>
    if n.finished.isSome then execRegionCommit s.cur.tile s
    else
      match M.fetchBundle n.npc s with
      | .ok bs t => t.issueBundle bs
      | .error (.wait .stalled w) _ => .next (s.setStr { s.str with state := .stalled, wait := w })
      | .error _ _ => .next s.leaveNative

end Sys2Proof.Machine
end

