-- ==== Sys2Proof/Machine/Issue.lean ====
section
/-! DEFINITION. What a hardware context does when it issues, the deadlines that come before everything else, and which
steps are events (spec/01_the_road.md R15, spec/19_execution_and_scheduling.md R331, spec/20_deadlines.md R355 to
R361). -/

namespace Sys2Proof.Machine

/-- Perform a fetched word: the instruction that it decodes to, or *illegal instruction* (R150). -/
def perfWord (w : Word) (s : State) : Host.Outcome State Fault Refusal :=
  match decode w with
  | .ok i => exec i s
  | .error _ => exec .illegalInstruction s

/-- A Juden instruction of a replay is over: native issue may resume, unless the instruction still waits to be performed
(R296). -/
def State.stepped (s : State) : State :=
  if s.str.single && s.str.state != .stalled then s.setStr { s.str with single := false } else s

/-- What follows an outcome. -/
def andThen (r : Host.Outcome State Fault Refusal) (f : State → State) : Host.Outcome State Fault Refusal :=
  match r with
  | .next s => .next (f s)
  | .fault e => .fault e
  | .refused e => .refused e

/-- Fetch and perform one Juden instruction. -/
def issueJuden (s : State) : Host.Outcome State Fault Refusal :=
  match M.fetch s with
  | .ok w s' => andThen (perfWord w s') State.stepped
  | .error e s' => andThen (finish (.error e s')) State.stepped

/-- A context at a Juden address: native code takes over where it has a bundle for the address (R300), else one Juden
instruction is performed. The firmware context runs its image one Juden word at a time and never as bundles, since the
spec does not say how firmware code becomes native (DESIGN CHOICE within R17, log entry 35). -/
def issueHere (s : State) : Host.Outcome State Fault Refusal :=
  let s := if s.isUser then s.joinNative s.cur.tile else s
  if s.str.native.isSome then runBundle s else issueJuden s

/-- The current context issues. -/
def issue (s : State) : Host.Outcome State Fault Refusal :=
  match s.issueKind with
  | .none => .next s
  | .deliver f => .next (s.deliverPassed s.cur.tile f)
  | .bundle => runBundle s
  | .routine r => exec r.instr s
  | .juden => issueHere s

/-- Is the step an event of another agent or from outside: neither an instruction word nor a routine's own step nor the
trap of an unassigned word, which only an issue brings about? -/
def isEvent (i : Instr) : Bool :=
  (encode i).isNone && i != .illegalInstruction && !(routineList.any fun r => r.instr == i)

/-- A deadline step. -/
inductive Due where
  | hardStop (serial : Nat)
  | callTime (serial : Nat)
  | diversion (t : TileId)
deriving DecidableEq, Repr

/-- The deadline step that comes before every other step (R355): a hard stop, then a call time, then a diversion whose
point is reached. -/
def State.due (s : State) : Option Due :=
  match s.nodes.find? s.hardStopDue with
  | some n => some (.hardStop n.serial)
  | none =>
    match s.nodes.find? s.callTimeDue with
    | some n => some (.callTime n.serial)
    | none =>
      (s.nodes.flatMap s.nodeTiles).findSome? fun t => (s.diversionPoint t).map fun _ => .diversion t

/-- Perform a deadline step. -/
def State.perfDue (s : State) (d : Due) : Host.Outcome State Fault Refusal :=
  match d with
  | .hardStop n => execHardStop n s
  | .callTime n => execCallTime n s
  | .diversion t => execDiversion t s

/-- One turn of the agenda. -/
def State.turn (s : State) (x : Turn) : Host.Outcome State Fault Refusal :=
  match x with
  | .insn t side => issue { s with cur := ⟨t, side⟩ }
  | .event i => if isEvent i then exec i s else .next s
  | .time d => .next (s.pass d)

end Sys2Proof.Machine
end

