-- ==== Sys2Proof/Machine/Place.lean ====
section
/-! DEFINITION. A running stream with a given instruction word at its program counter. A program comes to run on this
hardware through the boot unit, the loader and the well-house (DESIGN CHOICE, log entry 2); this operation stands for
all of that. -/

namespace Sys2Proof.Machine

/-- The physical page that the word is placed in. -/
def placePage : BitVec 44 := 1

/-- The translation of the page of the program counter, as the first-level control TLB holds it (R33). -/
def placeTlb (pc : Word) : TlbEntry :=
  { vpn := (pc.extractLsb' 12 36), span := 0, asid := 0, g := true, u := true, x := true, w := true, r := true
    d := true, pbmt := 0, ppn := placePage }

/-- The code object whose code section is that page (R304). -/
def placedObject (pc : Word) : CodeObject :=
  { base := pc &&& ~~~0xFFF#64, fclv := 1, code := [((pc &&& ~~~0xFFF#64).toNat, 4096)], routine := [], routines := []
    caps := [], funcs := [pc], dir := [], stubs := [], made := [], bundles := ((pc &&& ~~~0xFFF#64).toNat, 4096)
    pmapEnd := 0 }

/-- The current tile with its user stream running at the word (R331). -/
def Tile.placed (x : Tile) (pc : Word) (native : Option Native) : Tile :=
  { x with
    rst := false, rbusy := false, frozen := false, gated := false, fault := none, node := none, shadow := none
    callTime := none
    mmu := { x.mmu with l1 := [placeTlb pc] }
    user := { x.user with
      state := .running, wait := .none, pc := pc, calls := [], single := false, rejoin := none, went := false
      late := 0, native := native
      ctxroot := (9 : BitVec 4) ++ (0 : BitVec 60) } }

/-- The valid mask of a bundle that holds a word in a slot, and the place of the word in it (R285, R286). -/
def placeSlot (o : Op) : Nat × Nat :=
  match slotKind o with
  | .s => (0, 8)
  | .v => (2, 24)
  | .m => (3, 32)
  | .e => (4, 40)

/-- A native stream at a bundle in the page, whose region is finished where the word ends a region (R294). -/
def placeNative (x : Stream) (npc : Word) (o : Op) (i : Instr) : Native :=
  let u := x.undoCopy
  { npc := npc, cycle := 0, pending := [], buffer := [], writes := 0, atStart := true, undo := u
    finished := if endsRegion o then some ⟨some i, none, 0, 0, npc + 48⟩ else none
    view := u, opened := false, bracket := none, site := none }

/-- The state with a word where the user stream of the current tile fetches next: a Juden word at the program counter, a
native-only operation as a slot of a bundle in the same page. -/
def State.placeWord (s : State) (w : Word) : State :=
  let pc := s.here.user.pc &&& ~~~7#64
  let pa := placePage.toNat * 4096 + (pc.setWidth 12).toNat
  let s : State := { s with agenda := [], nodes := [], cur := ⟨s.cur.tile, .user⟩ }
  let s := s.setCtx 0 { s.ctx 0 with objects := [placedObject pc] }
  match decode w, decodeSlot w, Op.ofKey (opOf w).toNat with
  | .error _, .ok i, some o =>
    let off : Nat := if (pc.setWidth 12).toNat < 2048 then 2048 else 0
    let npc := (pc &&& ~~~0xFFF#64) + BitVec.ofNat 64 off
    let (k, at_) := placeSlot o
    let base := placePage.toNat * 4096 + off
    let s := (s.writeBytes base (toBytes 8 (BitVec.ofNat 64 (16 * 2 ^ k)))).writeBytes (base + at_) (toBytes 8 w)
    let s := (s.writeBytes (base + 128) (toBytes 32 (placement (pc + 8)))).clearPoison (lineOf base)
    let s := s.clearPoison (lineOf (base + 128))
    s.setTile s.cur.tile
      { s.here.placed pc (some (placeNative s.here.user npc o i)) with pmbase := BitVec.ofNat 64 (base + 128) }
  | _, _, _ =>
    let s := (s.writeBytes pa (toBytes 8 w)).clearPoison (lineOf pa)
    s.setTile s.cur.tile (s.here.placed pc none)

end Sys2Proof.Machine
end

