-- ==== Sys2Proof/Machine/Step.lean ====
section
/-! DEFINITION. One step of the machine, and the placing of an instruction where the machine fetches next. -/

namespace Sys2Proof.Machine

/-- One step: a deadline that is due, else the next turn of the agenda, else the current context issues (DESIGN CHOICE,
log entry 6). -/
def step (s : State) : Host.Outcome State Fault Refusal :=
  match s.due with
  | some d => s.perfDue d
  | none =>
    match s.agenda with
    | [] => issue s
    | x :: rest => ({ s with agenda := rest }).turn x

/-- The state with an instruction where `step` fetches next (`State.place` of Machine/Place.lean). -/
def State.withFetchWord (s : State) (nbits w : Nat) : State := s.placeWord (BitVec.ofNat 64 (w % 2 ^ nbits))

end Sys2Proof.Machine
end

