-- ==== Sys2Proof/Safety.lean ====
section
/-! DEFINITION. What counts as a safe state and a safe run. -/

namespace Sys2Proof.Machine

/-- The machine is in a well-formed state: its memory is in canonical form. -/
def State.wf (s : State) : Bool := Memory.wf s.mem

/-- No stop: a run of k steps ends in a state. -/
def runs (k : Nat) (s : State) : Bool :=
  match Sys2Proof.core.run k s with
  | .next _ => true
  | .fault _ => false
  | .refused _ => false

end Sys2Proof.Machine
end

