-- ==== Sys2Proof/Certificates/Slice0/Obligations.lean ====
section
/-! DEFINITION. The statements for the provers: what the rules of spec/ say that the machine does, in terms of `decode`,
`step`, `exec` and the state. -/

namespace Sys2Proof.Claims

open Sys2Proof.Machine

/-- The next state in which the current stream has become `x` and has moved past the instruction word: nothing else of
the machine differs. -/
def wrote (s : State) (x : Stream) : Host.Outcome State Fault Refusal := .next (s.setStr { x with pc := x.pc + 8 })

/-- The user stream of the step's tile takes a trap at its instruction. -/
def trapped (s : State) (cause : BitVec 8) (addr : Word) : Host.Outcome State Fault Refusal :=
  .next (s.takeTrap s.cur.tile cause addr 0)

/-- The next state in which the current stream has become `x` and has come to the program counter that it holds: a user
stream goes on in native code, which the firmware makes where the directory names none (R176, R300). -/
def arrives (s : State) (x : Stream) : Host.Outcome State Fault Refusal :=
  .next (if s.cur.side = .user then (s.setStr x).land s.cur.tile else s.setStr x)

/-- The same, at a target that is made canonical. The transfer ends the replay of a region (R296; log entry 35). -/
def goes (s : State) (x : Stream) (target : Word) : Host.Outcome State Fault Refusal :=
  arrives s { x with pc := canonical target, rejoin := none }

/-- A stream that has taken a floating-point result: the FP32 code zero-extended in sD, the flags raised in `FPCTL`. -/
def fpOut (x : Stream) (d : SReg) (r : BitVec 32 × BitVec 5) : Stream :=
  { x.setS d (r.1.setWidth 64) with fpctl := x.fpctl ||| r.2.setWidth 32 }

/-- A stream that has taken 32 FP32 lanes, and the union of their flags. -/
def fpLanes (x : Stream) (d : VReg) (f : Nat → BitVec 32 × BitVec 5) : Stream :=
  { x.setV d (mkLanes 32 fun i => (f i).1) with
    fpctl := x.fpctl ||| ((List.range 32).foldl (fun (u : BitVec 5) i => u ||| (f i).2) 0).setWidth 32 }

/-- The instruction completes with a vector in vD whose lane i of width n is `f i`, and changes nothing else. -/
def writesLanes (i : Instr) (s : State) (d : VReg) (n : Nat) (f : Nat → BitVec n) : Prop :=
  ∃ r : Vec, exec i s = wrote s (s.str.setV d r) ∧ ∀ k, k < 1024 / n → lane n r k = f k

/-- The halving tree of R191: each level combines lane i with lane i + h. -/
def treeOf {α : Type} (op : α → α → α) : Nat → List α → List α
  | 0, xs => xs
  | k + 1, xs => treeOf op k (List.zipWith op (xs.take (xs.length / 2)) (xs.drop (xs.length / 2)))

/-- The scan of R193 after the strides 1, 2 .. 2^(k−1): lane i combines with lane i − d of the step before. -/
def scanOf {α : Type} (op : α → α → α) : Nat → (Nat → α) → Nat → α
  | 0, x => x
  | k + 1, x => fun i => if 2 ^ k ≤ i then op (scanOf op k x (i - 2 ^ k)) (scanOf op k x i) else scanOf op k x i

/-- What a capability form does with the fields `f` that it computes from its source `c` (R169, R122): `part` is the
form's own condition of R170. A tagged result is narrower than its source in either context, and only the firmware
context writes cpv. -/
def derives (i : Instr) (s : State) (d : CapReg) (c : Cap) (f : CapFields) (part : Bool) : Prop :=
  (s.cur.side = .user → d = .cpv → exec i s = trapped s Cause.capabilityWidening 0) ∧
  (¬(s.cur.side = .user ∧ d = .cpv) → c.tag = false → exec i s = wrote s (s.str.setC d ⟨f.bits, false⟩)) ∧
  (¬(s.cur.side = .user ∧ d = .cpv) → c.tag = true → f.fits = true →
    part = true → narrower f c.fields = true →
    exec i s = wrote s (s.str.setC d ⟨f.bits, true⟩)) ∧
  (s.cur.side = .user → c.tag = true → ¬(f.fits = true ∧ part = true ∧ narrower f c.fields = true) →
    exec i s = trapped s Cause.capabilityWidening 0)

/-- Checks 3 to 5 of R29 pass for n bytes of one page: the address is translated for the current stream to memory or a
cistern through a page that is SO or not, no frozen cistern holds the access up (R98), and the state after it holds the
filled caches and the accessed bits. -/
def reachesAs (s : State) (va : Word) (acc : Access) (so : Bool) (pa : Nat) (s1 : State) : Prop :=
  translate s s.cur.tile (.control s.cur.side) s.str.ctxroot va acc s.isUser = .ok (⟨pa, so⟩, s1) ∧
    s.heldUp s.cur.tile (.control s.cur.side) s.str.ctxroot va acc s.isUser pa = none ∧
    (regionOf pa = .hbm ∨ inCistern pa = true)

/-- The same, whatever the page's ordering. -/
def reaches (s : State) (va : Word) (acc : Access) (pa : Nat) (s1 : State) : Prop :=
  ∃ so, reachesAs s va acc so pa s1

/-- Every line that n bytes touch is full and holds no poison (check 6 of R29). -/
def clean (s : State) (pa n : Nat) : Prop := ∀ l ∈ linesOf pa n, s.lineEmpty l = false ∧ s.linePoisoned l = false

/-- The bytes of a page that an access at va may still cover. -/
def room (va : Word) : Nat := 4096 - va.toNat % 4096

/-- The second page of an access that crosses one (R31). -/
def nextPage (va : Word) : Word := canonical (va + BitVec.ofNat 64 (room va))

/-- Outside native code, an access through a capability passes checks 1 and 2 of R29 and lies at va. -/
def admitted (s : State) (c : Cap) (k : Need) (off : Word) (n align : Nat) (va : Word) : Prop :=
  s.str.native = none ∧ c.check k off.toNat n = none ∧ va = canonical (c.addr off) ∧ va.toNat % align = 0

/-- A load of n bytes through a capability passes every check of R29, as one part or as the two parts of R31, and reads
`bs` in the state `s1` that its translations leave. -/
def reads (s : State) (c : Cap) (off : Word) (n align : Nat) (bs : List Byte) (s1 : State) : Prop :=
  ∃ va, admitted s c .read off n align va ∧
    ((n ≤ room va ∧ ∃ pa, reaches s va .load pa s1 ∧ clean s1 pa n ∧
        bs = s1.readPart (c.mask s.str.xm) va.toNat pa n) ∨
      (room va < n ∧ ∃ pa pb s0, reaches s va .load pa s0 ∧ clean s0 pa (room va) ∧
        reaches s0 (nextPage va) .load pb s1 ∧ clean s1 pb (n - room va) ∧
        bs = s1.readPart (c.mask s.str.xm) va.toNat pa (room va) ++
          s1.readPart (c.mask s.str.xm) (nextPage va).toNat pb (n - room va)))

/-- A store of `bs` through a capability passes every check of R29, as one part or as two, and leaves `t`. -/
def stores (s : State) (c : Cap) (off : Word) (bs : List Byte) (align : Nat) (t : State) : Prop :=
  ∃ va, admitted s c .write off bs.length align va ∧
    ((bs.length ≤ room va ∧ ∃ pa s1, reaches s va .store pa s1 ∧
        t = s1.writePart (c.mask s.str.xm) va.toNat pa bs) ∨
      (room va < bs.length ∧ ∃ pa pb s0 s1, reaches s va .store pa s0 ∧ reaches s0 (nextPage va) .store pb s1 ∧
        t = (s1.writePart (c.mask s.str.xm) va.toNat pa (bs.take (room va))).writePart (c.mask s.str.xm)
          (nextPage va).toNat pb (bs.drop (room va))))

/-- An aligned access of n bytes in one page passes checks 1 to 5 of R29 and lies at pa. -/
def touches (s : State) (c : Cap) (k : Need) (off : Word) (n : Nat) (acc : Access) (va : Word) (pa : Nat) (s1 : State) :
    Prop :=
  admitted s c k off n n va ∧ reaches s va acc pa s1

/-- The engine may go on with the command c at the head of a tile's compute queue (R235, R372). -/
def heads (s : State) (k : TileId) (c : MatCmd) (e : MatEntry) : Prop :=
  (s.tile k).rbusy = false ∧ (s.tile k).frozen = false ∧ (s.tile k).fault = none ∧ (s.tile k).mx.halt = none ∧
    (s.tile k).mx.queue.head? = some e ∧ e.cmd = c

/-- The head command has left the queue, and its number is on its counter (R234, R236). -/
def retires (s t : State) (k : TileId) (e : MatEntry) : Prop :=
  let m := (s.tile k).mx
  let m' := (t.tile k).mx
  m'.queue = m.queue.drop 1 ∧ m'.begun = false ∧ m'.halt = none ∧
    (e.cmd.well = false → m.doneM = [] → e.number = m.tlm + 1 → m'.tlm = e.number) ∧
    (e.cmd.well = true → m.doneW = [] → e.number = m.tlw + 1 → m'.tlw = e.number)

/-- The head command has passed its start checks and stands at a row. -/
def stays (s t : State) (k : TileId) (row : Nat) : Prop :=
  (t.tile k).mx.queue = (s.tile k).mx.queue ∧ (t.tile k).mx.begun = true ∧ (t.tile k).mx.halt = none ∧
    (t.tile k).mx.rowp = row

/-- A matrix routine makes its scratch header, pushes its command and returns (R261, R265, R268). -/
def pushes (i : Instr) (r : Routine) (s : State) (c : MatCmd) : Prop :=
  ∀ f rest s1, s.str.calls = f :: rest → f.native = some r → s.here.mx.queue.length < 16 →
    stores s (s.str.getC .cpv) (s.str.getS 2 - 4096) (List.replicate 16 0) 1 s1 →
    exec i s = .next ((s1.setTile s1.cur.tile { s1.here with mx := s1.here.mx.push c }).setStr
      { s1.str with calls := rest, pc := f.ret, woken := false, rejoin := f.rejoin })

/-- The unit of a native routine that ends the routine leaves the state t, with the flags of its row raised (R259). -/
def returns (f : CallFrame) (rest : List CallFrame) (t : State) (fl : BitVec 5) : Host.Outcome State Fault Refusal :=
  .next (t.setStr { t.str with
    calls := rest, pc := f.ret, woken := false, rejoin := f.rejoin, fpctl := t.str.fpctl ||| fl.setWidth 32 })

/-- A state in which flags are raised. -/
def raised (t : State) (fl : BitVec 5) : State := t.setStr { t.str with fpctl := t.str.fpctl ||| fl.setWidth 32 }

/-- The header of the scratch area, PROG and the carried value, is stored, which leaves the state t (R263, R265). -/
def header (s : State) (prog : Nat) (aux : Word) (t : State) : Prop :=
  stores s (s.str.getC .cpv) (s.str.getS 2 - 4096) (toBytes 8 (BitVec.ofNat 64 prog) ++ toBytes 8 aux) 1 t

/-- Rows one after another, n of them from number i on: `step` relates the states before and after a row, and the values
that the routine carries from row to row. -/
def rowsFrom {α : Type} (step : Nat → α → State → α → State → Prop) : Nat → Nat → α → State → α → State → Prop
  | 0, _, a, s, b, t => b = a ∧ t = s
  | n + 1, i, a, s, b, t => ∃ c u, step i a s c u ∧ rowsFrom step n (i + 1) c u b t

/-- The entry of a unit: the first passes the entry checks and stores the header; a later one goes on at its yield point
(R253, R265). -/
def starts (s : State) (f : CallFrame) (ok : Prop) (s0 : State) : Prop := if f.prog = 0 then ok ∧ header s 0 0 s0 else s0 = s

/-- The end of a unit before row `last`: a yield with the progress stored, or after the last row the return (R253,
R263). -/
def ends (i : Instr) (s : State) (f : CallFrame) (rest : List CallFrame) (last rows : Nat) (aux : Word) (s1 : State)
    (after : State → Prop) : Prop :=
  (last < rows → ∀ t, header s1 last aux t → exec i s =
    .next (t.setStr { t.str with woken := false, calls := { f with prog := last, aux := aux.setWidth 128 } :: rest })) ∧
  (rows ≤ last → ∀ t, after t → exec i s = returns f rest t 0)

/-- An entry check that fails is raised as the definition raises it: s10 holds the cause and s11 the address, every
other register its value at the entry, and nothing else is done (R264, R265). -/
def refuses (i : Instr) (r : Routine) (s : State) (ok : Prop) : Prop :=
  ∀ f rest, s.str.calls = f :: rest → f.native = some r → f.prog = 0 → ¬ ok → s.cur.side = .user → s.str.native = none →
    s.here.fault = none → ∃ t, exec i s = .next t ∧ t.str.state = .trapped ∧
      (let c : BitVec 8 := t.here.tcause.extractLsb' 0 8;
        (c = Cause.unsupportedFormat ∨ c = Cause.routineOperandInvalid ∨ c = Cause.matrixShapeMismatch ∨
          c = Cause.accumulatorRange) ∧ t.str.getS 10 = c.setWidth 64) ∧
      t.str.getS 11 = t.here.taddr ∧ (∀ r, r ≠ 10 → r ≠ 11 → t.str.getS r = s.str.getS r) ∧ t.str.v = s.str.v

/-- The units of a native routine of `rows` rows with a yield point every y rows, from its entry or its last yield point
to the next, or to its return: every form of a unit, the first, the last and those between (R253, R259, R263, R265). -/
def unitOf (i : Instr) (r : Routine) (y : Nat) (s : State) (rows : Nat) (ok : Prop) (start : State → State → Prop)
    (step : Nat → Word → State → Word → State → Prop) (after : Word → State → State → Prop) : Prop :=
  refuses i r s ok ∧
  ∀ f rest s0 u b s1, s.str.calls = f :: rest → f.native = some r → starts s f ok s0 → start s0 u →
    let last := min rows ((f.prog / y + 1) * y)
    rowsFrom step (last - f.prog) f.prog (f.aux.setWidth 64) u b s1 → ends i s f rest last rows b s1 (after b s1)

/-- A routine without a carried value, whose row k is what `row` says. -/
def rowwise (i : Instr) (r : Routine) (s : State) (rows : Nat) (ok : Prop) (row : Nat → State → State → Prop) : Prop :=
  unitOf i r 16 s rows ok (fun u v => v = u) (fun k a u b v => b = a ∧ row k u v) fun _ u v => v = u

/-- A routine each of whose rows reads row k of `src`, writes `out` of its bytes to row k of `dst` and raises its flags.
-/
def mapsRow (i : Instr) (r : Routine) (s : State) (ok : Prop) (dst src : Cap) (out : List Byte → List Byte × BitVec 5) : Prop :=
  rowwise i r s src.fields.rows ok fun k u v => ∃ bs u1 u2, M.readRow src k 0 src.fields.rowbytes u = .ok bs u1 ∧
    M.writeRow dst k 0 (out bs).1 u1 = .ok () u2 ∧ v = raised u2 (out bs).2

/-- A word of the register format, field by field (R135, R136). -/
def regWord (cls : BitVec 2) (opc : BitVec 8) (pred : BitVec 4) (neg : BitVec 1) (d a b c : BitVec 6) (bc : BitVec 1)
    (w : BitVec 2) (rm : BitVec 3) (sat : BitVec 1) (scope : BitVec 3) (hint : BitVec 2) (fa fb : BitVec 4)
    (op : BitVec 5) : Word :=
  cls ++ opc ++ pred ++ neg ++ d ++ a ++ b ++ c ++ bc ++ w ++ rm ++ sat ++ scope ++ hint ++ fa ++ fb ++ op

/-- A word of the immediate format (R135, R138). -/
def immWord (cls : BitVec 2) (opc : BitVec 8) (pred : BitVec 4) (neg : BitVec 1) (d a : BitVec 6) (imm : BitVec 37) :
    Word :=
  cls ++ opc ++ pred ++ neg ++ d ++ a ++ imm

/-- A word of the memory format (R135, R139). -/
def memWord (cls : BitVec 2) (opc : BitVec 8) (pred : BitVec 4) (neg : BitVec 1) (d a b c : BitVec 6) (bc : BitVec 1)
    (w : BitVec 2) (mop : BitVec 4) (scope : BitVec 3) (hint : BitVec 2) (off : BitVec 13) : Word :=
  cls ++ opc ++ pred ++ neg ++ d ++ a ++ b ++ c ++ bc ++ w ++ mop ++ scope ++ hint ++ off

/-- The current context issues a Juden instruction: its tile is out of reset, not frozen, not gated and without a fault,
and its stream runs outside native code and native routines, where it does not enter native code: in the firmware
context, which has no bundles (log entry 35), in the replay of a region before its end, or at an address for which the
directory names no bundle (R296, R300). -/
def readyToIssue (s : State) : Prop :=
  s.here.rbusy = false ∧ s.here.frozen = false ∧ s.here.gated = false ∧ s.here.fault = none ∧ s.str.state = .running ∧
    s.str.native = none ∧ (∀ f, s.str.calls.head? = some f → f.native = none) ∧
    (s.cur.side = .firmware ∨ s.str.single = true ∨
      (s.str.rejoin = none ∧ s.nativeFor s.cur.tile s.str.pc = none) ∨
      ∃ rp pmi e, s.str.rejoin = some (rp, pmi) ∧ s.position s.cur.tile pmi = some e ∧ s.poisonAt s.cur.tile rp 48 = none ∧
        positionPc e ≠ s.str.pc)

/-- The current stream fetches w at its program counter, which leaves the state t (R29, R176, R250). -/
def fetches (s : State) (w : Word) (t : State) : Prop :=
  s.str.pc.toNat % 8 = 0 ∧ s.mayFetch s.str.pc = true ∧ ∃ pa s1, reaches s s.str.pc .fetch pa s1 ∧
    s1.poisonedLine pa 8 = none ∧ w = ofBytes 64 (s1.readPart none s.str.pc.toNat pa 8) ∧
    t = s1.setStr { s1.str with begun := true, woken := false, went := true }

end Sys2Proof.Claims

section

open Sys2Proof Sys2Proof.Machine Sys2Proof.Claims

/-! ### Scalar integers -/

/-- R153, R154: every two-operand form writes to sD the result of its table at width n, sign-extended, and changes
nothing else but the program counter. Division truncates toward zero, the remainder takes the sign of the dividend, and
a zero divisor and the overflowing quotient have the fixed results of their table. -/
def Obligations.Integer_forms_write_their_table_result : Prop :=
  (∀ (g : Pred) (w : Width) (d a b : SReg) (s : State), s.str.holds g = true →
     let n := w.n
     let x : BitVec n := (s.str.getS a).setWidth n
     let y : BitVec n := (s.str.getS b).setWidth n
     let put (r : BitVec n) := wrote s (s.str.setS d (r.signExtend 64))
     exec (.add g w d a b) s = put (BitVec.ofNat n (x.toNat + y.toNat)) ∧
     exec (.sub g w d a b) s = put (BitVec.ofInt n (x.toNat - y.toNat)) ∧
     exec (.mul g w d a b) s = put (BitVec.ofNat n (x.toNat * y.toNat)) ∧
     exec (.mulh g w d a b) s = put (BitVec.ofInt n (x.toInt * y.toInt / 2 ^ n)) ∧
     exec (.mulhu g w d a b) s = put (BitVec.ofNat n (x.toNat * y.toNat / 2 ^ n)) ∧
     exec (.and g w d a b) s = put (x &&& y) ∧
     exec (.or g w d a b) s = put (x ||| y) ∧
     exec (.xor g w d a b) s = put (x ^^^ y) ∧
     exec (.sll g w d a b) s = put (x <<< (y.toNat % n)) ∧
     exec (.srl g w d a b) s = put (x >>> (y.toNat % n)) ∧
     exec (.sra g w d a b) s = put (x.sshiftRight (y.toNat % n)) ∧
     exec (.min g w d a b) s = put (if y.toInt < x.toInt then y else x) ∧
     exec (.max g w d a b) s = put (if x.toInt < y.toInt then y else x) ∧
     exec (.minu g w d a b) s = put (if y.toNat < x.toNat then y else x) ∧
     exec (.maxu g w d a b) s = put (if x.toNat < y.toNat then y else x)) ∧
  (∀ (g : Pred) (w : Width) (d a b : SReg) (s : State), s.str.holds g = true →
     let n := w.n
     let x : BitVec n := (s.str.getS a).setWidth n
     let y : BitVec n := (s.str.getS b).setWidth n
     let put (r : BitVec n) := wrote s (s.str.setS d (r.signExtend 64))
     exec (.div g w d a b) s = put (if y = 0 then BitVec.allOnes n else BitVec.ofInt n (x.toInt.tdiv y.toInt)) ∧
     exec (.divu g w d a b) s = put (if y = 0 then BitVec.allOnes n else BitVec.ofNat n (x.toNat / y.toNat)) ∧
     exec (.rem g w d a b) s = put (if y = 0 then x else BitVec.ofInt n (x.toInt.tmod y.toInt)) ∧
     exec (.remu g w d a b) s = put (if y = 0 then x else BitVec.ofNat n (x.toNat % y.toNat)) ∧
     (x = BitVec.intMin n → y = BitVec.allOnes n →
       exec (.div g w d a b) s = put (BitVec.intMin n) ∧ exec (.rem g w d a b) s = put 0))

/-- R155, R156: the unary forms count bits or move them, each count described by the bits of the operand; the bit-field
forms extract with and without the sign, or insert, the field at the position in sB, cut off at bit n−1. R157, R158,
R167: a comparison writes its predicate, `sel` chooses by one, the immediate forms compute on 64 bits with the
sign-extended immediate, and the predicate forms write theirs. -/
def Obligations.Bit_compare_select_immediate_and_predicate_forms : Prop :=
  ((∀ (g : Pred) (w : Width) (d a : SReg) (s : State), s.str.holds g = true →
      let n := w.n
      let x : BitVec n := (s.str.getS a).setWidth n
      let put (r : BitVec n) := wrote s (s.str.setS d (r.signExtend 64))
      (∃ k, k ≤ n ∧ exec (.clz g w d a) s = put (BitVec.ofNat n k) ∧
        (∀ i, i < k → x.getMsbD i = false) ∧ (k < n → x.getMsbD k = true)) ∧
      (∃ k, k ≤ n ∧ exec (.ctz g w d a) s = put (BitVec.ofNat n k) ∧
        (∀ i, i < k → x.getLsbD i = false) ∧ (k < n → x.getLsbD k = true)) ∧
      exec (.popc g w d a) s = put (BitVec.ofNat n ((List.range n).filter x.getLsbD).length) ∧
      (∃ r, exec (.brev g w d a) s = put r ∧ ∀ i, i < n → r.getLsbD (n - 1 - i) = x.getLsbD i) ∧
      (∃ r, exec (.bswap g w d a) s = put r ∧
        ∀ i, i < n / 8 → r.extractLsb' (8 * (n / 8 - 1 - i)) 8 = x.extractLsb' (8 * i) 8)) ∧
   (∀ (g : Pred) (w : Width) (d a b c : SReg) (s : State), s.str.holds g = true →
      let n := w.n
      let x : BitVec n := (s.str.getS a).setWidth n
      let old : BitVec n := (s.str.getS d).setWidth n
      let put (r : BitVec n) := wrote s (s.str.setS d (r.signExtend 64))
      let pos := (s.str.getS b).toNat % n
      let len := min (s.str.getS c).toNat (n - pos)
      exec (.bfx g w d a b c) s = put ((x.extractLsb' pos len).signExtend n) ∧
      exec (.bfxu g w d a b c) s = put ((x.extractLsb' pos len).setWidth n) ∧
      ∃ r, exec (.bfi g w d a b c) s = put r ∧
        ∀ i, i < n → r.getLsbD i = if pos ≤ i ∧ i < pos + len then x.getLsbD (i - pos) else old.getLsbD i)) ∧
  ((∀ (g : Pred) (w : Width) (d a b : SReg) (pd pc : PReg) (imm : BitVec 37) (sh : BitVec 6) (hi : BitVec 27) (s : State),
      s.str.holds g = true →
      let x : BitVec w.n := (s.str.getS a).setWidth w.n
      let y : BitVec w.n := (s.str.getS b).setWidth w.n
      let m : Word := imm.signExtend 64
      let flag (r : Bool) := wrote s (s.str.setP pd r)
      let put (r : Word) := wrote s (s.str.setS d r)
      exec (.cmp g w .eq pd a b) s = flag (decide (x = y)) ∧
      exec (.cmp g w .ne pd a b) s = flag (decide (x ≠ y)) ∧
      exec (.cmp g w .lt pd a b) s = flag (decide (x.toInt < y.toInt)) ∧
      exec (.cmp g w .ge pd a b) s = flag (decide (y.toInt ≤ x.toInt)) ∧
      exec (.cmp g w .le pd a b) s = flag (decide (x.toInt ≤ y.toInt)) ∧
      exec (.cmp g w .gt pd a b) s = flag (decide (y.toInt < x.toInt)) ∧
      exec (.cmp g w .ltu pd a b) s = flag (decide (x.toNat < y.toNat)) ∧
      exec (.cmp g w .geu pd a b) s = flag (decide (y.toNat ≤ x.toNat)) ∧
      exec (.cmp g w .leu pd a b) s = flag (decide (x.toNat ≤ y.toNat)) ∧
      exec (.cmp g w .gtu pd a b) s = flag (decide (y.toNat < x.toNat)) ∧
      exec (.sel g d a b pc) s = put (if s.str.getP pc then s.str.getS a else s.str.getS b) ∧
      exec (.addi g d a imm) s = put (s.str.getS a + m) ∧
      exec (.andi g d a imm) s = put (s.str.getS a &&& m) ∧
      exec (.ori g d a imm) s = put (s.str.getS a ||| m) ∧
      exec (.xori g d a imm) s = put (s.str.getS a ^^^ m) ∧
      exec (.slli g d a sh) s = put (s.str.getS a <<< sh.toNat) ∧
      exec (.srli g d a sh) s = put (s.str.getS a >>> sh.toNat) ∧
      exec (.srai g d a sh) s = put ((s.str.getS a).sshiftRight sh.toNat) ∧
      exec (.muli g d a imm) s = put (s.str.getS a * m) ∧
      exec (.li g d imm) s = put m ∧
      exec (.lhi g d a hi) s = put (hi ++ (s.str.getS a).extractLsb' 0 37)) ∧
   (∀ (g : Pred) (d a b : PReg) (sd sa : SReg) (s : State), s.str.holds g = true →
      let p := s.str.getP a
      let q := s.str.getP b
      exec (.pand g d a b) s = wrote s (s.str.setP d (p && q)) ∧
      exec (.por g d a b) s = wrote s (s.str.setP d (p || q)) ∧
      exec (.pxor g d a b) s = wrote s (s.str.setP d (xor p q)) ∧
      exec (.pandn g d a b) s = wrote s (s.str.setP d (p && !q)) ∧
      exec (.ptest g d sa) s = wrote s (s.str.setP d (decide (s.str.getS sa ≠ 0))) ∧
      exec (.pget g sd a) s = wrote s (s.str.setS sd (if p then 1 else 0))))

/-! ### FP32 -/

/-- R159 to R162, R164 to R166: every scalar FP32 form reads bits 31:0 of its operands, rounds by its mode, writes its
code zero-extended (an integer or a class mask in the two forms that write one) and raises its flags. -/
def Obligations.Scalar_fp_forms_write_code_and_flags : Prop :=
  ∀ (g : Pred) (rm : Rm) (w : Width) (sat : Bool) (d a b c : SReg) (pd : PReg) (cc : FCond) (op : SgnOp) (s : State),
    s.str.holds g = true →
    let m := s.str.mode rm
    let x : BitVec 32 := (s.str.getS a).setWidth 32
    let y : BitVec 32 := (s.str.getS b).setWidth 32
    let z : BitVec 32 := (s.str.getS c).setWidth 32
    let out (r : BitVec 32 × BitVec 5) := wrote s (fpOut s.str d r)
    exec (.fadd g rm d a b) s = out (fadd32 m x y) ∧
    exec (.fsub g rm d a b) s = out (fsub32 m x y) ∧
    exec (.fmul g rm d a b) s = out (fmul32 m x y) ∧
    exec (.fdiv g rm d a b) s = out (fdiv32 m x y) ∧
    exec (.fsqrt g rm d a) s = out (fsqrt32 m x) ∧
    exec (.fma g rm d a b c) s = out (fma32 m x y z) ∧
    exec (.fmin g d a b) s = out (fmin32 x y) ∧
    exec (.fmax g d a b) s = out (fmax32 x y) ∧
    exec (.fsgn g op d a b) s = out (fsgn32 op x y, 0) ∧
    exec (.icvtf g w rm d a) s = out (ofInt32 m ((s.str.getS a).setWidth w.n).toInt) ∧
    (let r := toInt32 w.n m x;
      exec (.fcvti g w rm sat d a) s =
        wrote s { s.str.setS d ((BitVec.ofNat w.n r.1).signExtend 64) with fpctl := s.str.fpctl ||| r.2.setWidth 32 }) ∧
    exec (.fclass g d a) s = wrote s (s.str.setS d (BitVec.ofNat 64 (2 ^ fclass32 x))) ∧
    (let r := fcmp32 cc x y;
      exec (.fcmp g cc pd a b) s = wrote s { s.str.setP pd r.1 with fpctl := s.str.fpctl ||| r.2.setWidth 32 })

/-- R61, R160 to R162: the special values of the FP32 operations. A NaN operand gives the first NaN in operand order,
quieted, with NV only for a signalling one; an invalid operation gives the default NaN with NV; a finite nonzero number
over zero gives an infinity of the product of the signs with DZ; √(−0) is −0; the smaller of the two zeros is −0. A
comparison with a NaN operand holds for `ne` and `un` alone, and raises NV for a signalling NaN or an ordering
condition. -/
def Obligations.Fp_special_values : Prop :=
  (let nan (a : BitVec 32) : Prop := a.extractLsb' 23 8 = 255 ∧ a.extractLsb' 0 23 ≠ 0
   let snan (a : BitVec 32) : Prop := nan a ∧ a.getLsbD 22 = false
   let zero (a : BitVec 32) : Prop := a.extractLsb' 0 31 = 0
   let finite (a : BitVec 32) : Prop := a.extractLsb' 23 8 ≠ 255
   let inf (a : BitVec 32) : Prop := a.extractLsb' 0 31 = 0x7F800000
   let quiet (a : BitVec 32) : BitVec 32 := a ||| 0x400000
   let nv : BitVec 5 := 16
   let dz : BitVec 5 := 8
   ∀ (m : Mode) (a b c : BitVec 32),
     (nan a → ¬ snan a → ¬ snan b →
       fadd32 m a b = (quiet a, 0) ∧ fsub32 m a b = (quiet a, 0) ∧ fmul32 m a b = (quiet a, 0) ∧
       fdiv32 m a b = (quiet a, 0) ∧ fmin32 a b = (quiet a, 0) ∧ fmax32 a b = (quiet a, 0)) ∧
     (nan a → snan b → fadd32 m a b = (quiet a, nv) ∧ fmul32 m a b = (quiet a, nv)) ∧
     (¬ nan a → nan b → ¬ snan b → fadd32 m a b = (quiet b, 0) ∧ fdiv32 m a b = (quiet b, 0) ∧ fmin32 a b = (quiet b, 0)) ∧
     (¬ nan a → ¬ nan b → nan c → fma32 m a b c = (quiet c, if c.getLsbD 22 then 0 else nv)) ∧
     (inf a → inf b → a ≠ b → fadd32 m a b = (0x7FC00000, nv)) ∧
     (inf a → inf b → fdiv32 m a b = (0x7FC00000, nv)) ∧
     (inf a → zero b → fmul32 m a b = (0x7FC00000, nv) ∧ fmul32 m b a = (0x7FC00000, nv)) ∧
     (zero a → zero b → fdiv32 m a b = (0x7FC00000, nv)) ∧
     (finite a → ¬ zero a → zero b →
       fdiv32 m a b = (if a.msb = b.msb then 0x7F800000 else 0xFF800000, dz)) ∧
     (zero a → fsqrt32 m a = (a, 0)) ∧
     (¬ nan a → ¬ zero a → a.msb = true → fsqrt32 m a = (0x7FC00000, nv)) ∧
     fmin32 0x80000000 0 = (0x80000000, 0) ∧ fmin32 0 0x80000000 = (0x80000000, 0) ∧
     fmax32 0x80000000 0 = (0, 0) ∧ fmax32 0 0x80000000 = (0, 0)) ∧
  (∀ (cc : FCond) (a b : BitVec 32),
     (isNan32 a = true ∨ isNan32 b = true) →
     (fcmp32 cc a b).1 = (cc == .ne || cc == .un) ∧
     (fcmp32 cc a b).2 =
       (if isSnan32 a || isSnan32 b || cc == .lt || cc == .ge || cc == .le || cc == .gt then (16 : BitVec 5) else 0))


/-- R163, R186, R187: a conversion or a dot product between assigned formats completes; one that names a reserved
format, or a dot product of FP32, takes *unsupported format* in the user context. That its faulting address is 0 is the
model's choice (log entry 73). -/
def Obligations.Conversions_complete_or_trap_on_format : Prop :=
  ∀ (g : Pred) (rm : Rm) (sat : Bool) (fa fb : Fmt) (d a : SReg) (vd va vb : VReg) (c : SReg) (s : State),
    s.str.holds g = true →
    let m := s.str.mode rm
    (fa.toNat < 11 → fb.toNat < 11 →
      (let r := convertCode fa fb m sat (codeOfLane fa (s.str.getS a).toNat);
        exec (.fcvt g rm sat fa fb d a) s = wrote s
          { s.str.setS d
              (if fb = 8 then (BitVec.ofNat 8 r.1).signExtend 64
                else if fb = 9 then (BitVec.ofNat 4 r.1).signExtend 64 else BitVec.ofNat 64 r.1) with
            fpctl := s.str.fpctl ||| r.2.setWidth 32 }) ∧
      (let rs := convertLanes fa fb m sat (s.str.getV va);
        exec (.vcvt g rm sat fa fb vd va) s = wrote s
          { s.str.setV vd (ofLanes (fmtLane fb) (rs.map fun r => BitVec.ofNat (fmtLane fb) r.1)) with
            fpctl := s.str.fpctl ||| (rs.foldl (fun (u : BitVec 5) r => u ||| r.2) 0).setWidth 32 })) ∧
    (fa ≠ 0 → fa.toNat < 11 →
      let k := s.str.getS c
      let groups := min (k.extractLsb' 32 4).toNat 8
      (groups = 0 → exec (.vfdot g fa vd va vb c) s = wrote s s.str) ∧
      (groups ≠ 0 →
        let r := dotLanes fa (lane 32 (s.str.getV vd) 0) (s.str.getV va) (s.str.getV vb) k groups;
        exec (.vfdot g fa vd va vb c) s = wrote s
          { s.str.setV vd ((s.str.getV vd).extractLsb' 32 992 ++ r.1) with
            fpctl := s.str.fpctl ||| r.2.setWidth 32 })) ∧
    (s.cur.side = .user → ¬(fa.toNat < 11 ∧ fb.toNat < 11) →
      exec (.fcvt g rm sat fa fb d a) s = trapped s Cause.unsupportedFormat 0 ∧
      exec (.vcvt g rm sat fa fb vd va) s = trapped s Cause.unsupportedFormat 0) ∧
    (s.cur.side = .user → (fa = 0 ∨ 11 ≤ fa.toNat) →
      exec (.vfdot g fa vd va vb c) s = trapped s Cause.unsupportedFormat 0)

/-! ### Vectors -/

/-- R182 to R184: every lane of vD receives the result of its form's table from the same lanes of its operands. -/
def Obligations.Integer_lanes_receive_their_result : Prop :=
  ∀ (g : Pred) (w : Width) (d a c : VReg) (b : VOrS) (cc : Cond) (s : State), s.str.holds g = true →
    let n := w.n
    let x (i : Nat) : BitVec n := lane n (s.str.getV a) i
    let y (i : Nat) : BitVec n := s.str.laneB n b i
    let gives (i : Instr) (f : BitVec n → BitVec n → BitVec n) : Prop := writesLanes i s d n fun k => f (x k) (y k)
    gives (.vadd g w false d a b) (fun p q => BitVec.ofNat n (p.toNat + q.toNat)) ∧
    gives (.vsub g w false d a b) (fun p q => BitVec.ofInt n (p.toInt - q.toInt)) ∧
    gives (.vadd g w true d a b)
      (fun p q => BitVec.ofInt n (max (-(2 ^ (n - 1))) (min (2 ^ (n - 1) - 1) (p.toInt + q.toInt)))) ∧
    gives (.vsub g w true d a b)
      (fun p q => BitVec.ofInt n (max (-(2 ^ (n - 1))) (min (2 ^ (n - 1) - 1) (p.toInt - q.toInt)))) ∧
    gives (.vmul g w d a b) (fun p q => BitVec.ofNat n (p.toNat * q.toNat)) ∧
    gives (.vmulh g w d a b) (fun p q => BitVec.ofInt n (p.toInt * q.toInt / 2 ^ n)) ∧
    gives (.vmin g w d a b) (fun p q => if q.toInt < p.toInt then q else p) ∧
    gives (.vmax g w d a b) (fun p q => if p.toInt < q.toInt then q else p) ∧
    gives (.vminu g w d a b) (fun p q => if q.toNat < p.toNat then q else p) ∧
    gives (.vmaxu g w d a b) (fun p q => if p.toNat < q.toNat then q else p) ∧
    gives (.vand g w d a b) (fun p q => p &&& q) ∧
    gives (.vor g w d a b) (fun p q => p ||| q) ∧
    gives (.vxor g w d a b) (fun p q => p ^^^ q) ∧
    gives (.vsll g w d a b) (fun p q => p <<< (q.toNat % n)) ∧
    gives (.vsrl g w d a b) (fun p q => p >>> (q.toNat % n)) ∧
    gives (.vsra g w d a b) (fun p q => p.sshiftRight (q.toNat % n)) ∧
    gives (.vabs g w d a) (fun p _ => if p.toInt < 0 then BitVec.ofInt n (-p.toInt) else p) ∧
    gives (.vcmp g w cc d a b) (fun p q => if condHolds cc p q then BitVec.allOnes n else 0) ∧
    writesLanes (.vsel g w d a b c) s d n
      (fun k => if lane n (s.str.getV c) k ≠ 0 then x k else y k)

/-- R185: every FP32 lane is computed as the scalar form computes it, and the flags of all lanes are raised together. -/
def Obligations.Fp_lanes_are_the_scalar_forms : Prop :=
  ∀ (g : Pred) (rm : Rm) (d a c : VReg) (b : VOrS) (cc : FCond) (op : SgnOp) (s : State), s.str.holds g = true →
    let m := s.str.mode rm
    let x (i : Nat) : BitVec 32 := lane 32 (s.str.getV a) i
    let y (i : Nat) : BitVec 32 := s.str.laneB 32 b i
    let z (i : Nat) : BitVec 32 := lane 32 (s.str.getV c) i
    let out (f : Nat → BitVec 32 × BitVec 5) := wrote s (fpLanes s.str d f)
    exec (.vfadd g rm d a b) s = out (fun i => fadd32 m (x i) (y i)) ∧
    exec (.vfsub g rm d a b) s = out (fun i => fsub32 m (x i) (y i)) ∧
    exec (.vfmul g rm d a b) s = out (fun i => fmul32 m (x i) (y i)) ∧
    exec (.vfdiv g rm d a b) s = out (fun i => fdiv32 m (x i) (y i)) ∧
    exec (.vfma g rm d a b c) s = out (fun i => fma32 m (x i) (y i) (z i)) ∧
    exec (.vfsqrt g rm d a) s = out (fun i => fsqrt32 m (x i)) ∧
    exec (.vfmin g d a b) s = out (fun i => fmin32 (x i) (y i)) ∧
    exec (.vfmax g d a b) s = out (fun i => fmax32 (x i) (y i)) ∧
    exec (.vfcmp g cc d a b) s =
      out (fun i => (if (fcmp32 cc (x i) (y i)).1 then 0xFFFFFFFF else 0, (fcmp32 cc (x i) (y i)).2)) ∧
    exec (.vfsgn g op d a b) s = out (fun i => (fsgn32 op (x i) (y i), 0))

/-- R190: the permute forms move lanes as their table says. -/
def Obligations.Permutes_move_lanes : Prop :=
  ∀ (g : Pred) (w : Width) (d a b : VReg) (vb : VOrS) (sd sa sb : SReg) (s : State), s.str.holds g = true →
    let n := w.n
    let l := 1024 / n
    let x (i : Nat) : BitVec n := lane n (s.str.getV a) i
    let y (i : Nat) : BitVec n := lane n (s.str.getV b) i
    let k := (s.str.getS sb).toNat
    writesLanes (.vperm g w d a b) s d n (fun i => x ((y i).toNat % l)) ∧
    writesLanes (.vzip g w d a b) s d n (fun i => if i % 2 = 0 then x (i / 2) else y ((i - 1) / 2)) ∧
    writesLanes (.vunzip g w d a b) s d n (fun i => if i < l / 2 then x (2 * i) else y (2 * (i - l / 2))) ∧
    writesLanes (.vslide g w d a sb) s d n
      (fun i => if 0 ≤ (i : Int) + (s.str.getS sb).toInt ∧ (i : Int) + (s.str.getS sb).toInt < l
        then x ((i : Int) + (s.str.getS sb).toInt).toNat else 0) ∧
    writesLanes (.vbcast g w d a sb) s d n (fun _ => x (k % l)) ∧
    writesLanes (.viota g w d) s d n (fun i => BitVec.ofNat n i) ∧
    writesLanes (.vmov g w d vb) s d n (fun i => s.str.laneB n vb i) ∧
    exec (.vext g w sd a sb) s = wrote s (s.str.setS sd ((x (k % l)).signExtend 64)) ∧
    writesLanes (.vins g w d sa sb) s d n
      (fun i => if i = k % l then (s.str.getS sa).setWidth n else lane n (s.str.getV d) i)

/-- R191 to R194: a reduction combines the lanes by a halving tree, the lower lane on the left, and writes one value; a
scan runs the loop of stride doubling, every step reading the values of the step before it, the older partial on the
left. -/
def Obligations.Reductions_and_scans_combine_in_order : Prop :=
  (∀ (g : Pred) (w : Width) (rm : Rm) (op : RedOp) (fop : FRedOp) (d : SReg) (a : VReg) (s : State),
     s.str.holds g = true →
     let n := w.n
     let x : List (BitVec n) := (List.range (1024 / n)).map (lane n (s.str.getV a))
     let xf : List (BitVec 32 × BitVec 5) := (List.range 32).map fun i => (lane 32 (s.str.getV a) i, 0)
     let levels := Nat.log2 (1024 / n)
     (∃ r, treeOf (redStep op) levels x = [r] ∧
       exec (.vred g w op d a) s =
         wrote s (s.str.setS d (if op = .minu ∨ op = .maxu then r.setWidth 64 else r.signExtend 64))) ∧
     (∃ r, treeOf (withFlags (fredStep fop (s.str.mode rm))) 5 xf = [r] ∧
       exec (.vfred g rm fop d a) s = wrote s (fpOut s.str d r))) ∧
  (∀ (g : Pred) (w : Width) (rm : Rm) (d a b : VReg) (s : State), s.str.holds g = true →
     let n := w.n
     let l := 1024 / n
     let m := s.str.mode rm
     let x (i : Nat) : BitVec n := lane n (s.str.getV a) i
     let xa (i : Nat) : BitVec 32 × BitVec 5 := (lane 32 (s.str.getV a) i, 0)
     let xp (i : Nat) : BitVec 32 × BitVec 32 × BitVec 5 := (lane 32 (s.str.getV a) i, lane 32 (s.str.getV b) i, 0)
     writesLanes (.vscan g w .add d a) s d n (scanOf (fun p q => p + q) (Nat.log2 l) x) ∧
     writesLanes (.vscan g w .min d a) s d n (scanOf (fun p q => if q.toInt < p.toInt then q else p) (Nat.log2 l) x) ∧
     writesLanes (.vscan g w .max d a) s d n (scanOf (fun p q => if p.toInt < q.toInt then q else p) (Nat.log2 l) x) ∧
     exec (.vfscan g rm .add d a) s =
       wrote s (fpLanes s.str d (scanOf (withFlags (fadd32 m)) 5 xa)) ∧
     exec (.vfscan g rm .max d a) s =
       wrote s (fpLanes s.str d (scanOf (withFlags fmax32) 5 xa)) ∧
     exec (.vfaffine g rm d a b) s =
       wrote s (fpLanes s.str d (fun i => (scanOf (affine m) 5 xp i).2)))


/-! ### Predicates and capabilities -/

/-- R169 to R172: the six forms that derive a capability compute the fields of their table and meet the common checks.
`cget` reads any capability's field; `ctab` loads an entry of the capability table of the code object that holds the
instruction, with its tag set, and traps on an index beyond the table. That *capability widening* reports address 0 is
the model's choice (log entry 73). -/
def Obligations.Capability_forms_derive_read_and_load : Prop :=
  (∀ (g : Pred) (d a : CapReg) (b c : SReg) (perm : BitVec 3) (fa : Fmt) (s : State), s.str.holds g = true →
     let src := s.str.getC a
     let f := src.fields
     let x := (s.str.getS b).toNat
     let y := (s.str.getS c).toNat
     derives (.cmov g d a) s d src f true ∧
     derives (.cnrow g d a b c) s d src { f with base := f.base + x * f.stride, rows := y } (y = 0 ∨ x + y ≤ f.rows) ∧
     derives (.cnbyte g d a b c) s d src { f with base := f.base + x, rowbytes := y } (y = 0 ∨ x + y ≤ f.rowbytes) ∧
     derives (.cnstride g d a b) s d src
       (if x = 0 then { f with stride := 0, rows := 0 }
         else { f with stride := f.stride * x, rows := (f.rows + x - 1) / x }) true ∧
     derives (.cnperm g d a perm) s d src
       { f with perm := f.perm.extractLsb' 3 1 ++ (f.perm.extractLsb' 0 3 &&& perm) } true ∧
     (fa.toNat < 11 → derives (.cfmt g d a fa) s d src { f with fmt := fa } true) ∧
     (s.cur.side = .user → 11 ≤ fa.toNat → exec (.cfmt g d a fa) s = trapped s Cause.unsupportedFormat 0)) ∧
  (∀ (g : Pred) (d : SReg) (a dc : CapReg) (imm : BitVec 37) (s : State), s.str.holds g = true →
     let c := (s.str.getC a).bits
     exec (.cget g .base d a) s = wrote s (s.str.setS d ((c.extractLsb' 0 48).setWidth 64)) ∧
     exec (.cget g .stride d a) s = wrote s (s.str.setS d ((c.extractLsb' 48 20).setWidth 64)) ∧
     exec (.cget g .rows d a) s = wrote s (s.str.setS d ((c.extractLsb' 68 16).setWidth 64)) ∧
     exec (.cget g .rowbytes d a) s = wrote s (s.str.setS d ((c.extractLsb' 84 16).setWidth 64)) ∧
     exec (.cget g .fmt d a) s = wrote s (s.str.setS d ((c.extractLsb' 100 4).setWidth 64)) ∧
     exec (.cget g .perm d a) s = wrote s (s.str.setS d ((c.extractLsb' 104 4).setWidth 64)) ∧
     exec (.cget g .swz d a) s = wrote s (s.str.setS d ((c.extractLsb' 108 6).setWidth 64)) ∧
     exec (.cget g .tag d a) s = wrote s (s.str.setS d (if (s.str.getC a).tag then 1 else 0)) ∧
     (∀ k o q, s.objectAt s.str.pc = some (k, o) → o.caps[imm.toNat]? = some q → (s.cur.side = .user → dc ≠ .cpv) →
       exec (.ctab g dc imm) s = wrote s (s.str.setC dc ⟨q, true⟩)) ∧
     (∀ k o, s.objectAt s.str.pc = some (k, o) → o.caps.length ≤ imm.toNat → s.cur.side = .user → dc ≠ .cpv →
       exec (.ctab g dc imm) s = trapped s Cause.capabilityTableIndex 0) ∧
     (s.cur.side = .user → exec (.ctab g .cpv imm) s = trapped s Cause.capabilityWidening 0))

/-! ### Loads, stores and atomics -/

/-- R168, R195, R203: a load whose access passes the checks of R29 completes with the bytes it reads, extended as its
form says; acquiring loads need natural alignment. What an unlisted byte reads as is the model's choice (log entry 1),
the order of the parts of a split access its reading of R31 (log entry 14). -/
def Obligations.Loads_complete_with_their_bytes : Prop :=
  ∀ (g : Pred) (w : Width) (scope : Scope) (d : SReg) (vd : VReg) (q : BitVec 5) (m : MemS) (bs : List Byte) (s s1 : State),
    s.str.holds g = true →
    let c := s.str.getC m.cap
    let off := s.str.getS m.idx + m.off.signExtend 64
    (reads s c off w.bytes 1 bs s1 →
      exec (.ld g w d m) s = wrote s1 (s.str.setS d ((ofBytes w.n bs).signExtend 64)) ∧
      exec (.ldu g w d m) s = wrote s1 (s.str.setS d ((ofBytes w.n bs).setWidth 64))) ∧
    (reads s c off w.bytes w.bytes bs s1 →
      exec (.ldacq g w scope d m) s = wrote s1 (s.str.setS d ((ofBytes w.n bs).signExtend 64))) ∧
    (reads s c off 16 1 bs s1 →
      exec (.ldq g q m) s = wrote s1
        (if q = 0 then s.str
          else (s.str.setS (q.setWidth 6 <<< 1) (ofBytes 64 (bs.take 8))).setS ((q.setWidth 6 <<< 1) + 1)
            (ofBytes 64 (bs.drop 8)))) ∧
    (reads s c off 128 1 bs s1 → exec (.vld g vd m) s = wrote s1 (s.str.setV vd (ofBytes 1024 bs)))

/-- R168, R195, R203: a store whose access passes the checks of R29 completes with its bytes stored, lowest first, and
no register changed. The frame of a store of one part (R21): for the physical address that the translation gives, every
byte outside the n bytes stored reads as it did in the state that the translation left, each stored byte reads as
stored, the full and empty bits are unchanged, and so are every tile, register and engine. The order of the parts of a
split access is the model's reading of R31 (log entry 14). -/
def Obligations.Stores_write_their_bytes_and_no_others : Prop :=
  (∀ (g : Pred) (w : Width) (scope : Scope) (d : SReg) (vd : VReg) (q : BitVec 5) (m : MemS) (s t : State),
     s.str.holds g = true →
     let c := s.str.getC m.cap
     let off := s.str.getS m.idx + m.off.signExtend 64
     let low (n : Nat) (x : Vec) : List Byte := (List.range n).map fun k => x.extractLsb' (8 * k) 8
     let pair : Vec :=
       if q = 0 then 0
       else (s.str.getS ((q.setWidth 6 <<< 1) + 1) ++ s.str.getS (q.setWidth 6 <<< 1)).setWidth 1024
     (stores s c off (low w.bytes ((s.str.getS d).setWidth 1024)) 1 t →
       exec (.st g w m d) s = wrote t s.str) ∧
     (stores s c off (low w.bytes ((s.str.getS d).setWidth 1024)) w.bytes t →
       exec (.strel g w scope m d) s = wrote t s.str) ∧
     (stores s c off (low 16 pair) 1 t → exec (.stq g m q) s = wrote t s.str) ∧
     (stores s c off (low 128 (s.str.getV vd)) 1 t → exec (.vst g m vd) s = wrote t s.str)) ∧
  (∀ (s1 : State) (va pa : Nat) (bs : List Byte), Memory.wf s1.mem = true →
     let t := s1.writePart none va pa bs
     (∀ a, a < pa ∨ pa + bs.length ≤ a → t.readByte a = s1.readByte a) ∧
     (∀ k, (h : k < bs.length) → t.readByte (pa + k) = bs[k]) ∧
     t.empty = s1.empty ∧ t.tiles = s1.tiles ∧ t.ctxs = s1.ctxs ∧ t.nodes = s1.nodes ∧ t.cur = s1.cur ∧
     (∀ l, s1.linePoisoned l = false → t.linePoisoned l = false))

/-- R24, R26 to R28, R33, R37, R38, R349: a translation that answers changes nothing of the machine but the translation
caches and the walker's queue of the tile, the A and D bits of page-table entries, and what the host cores see of those
writes. With no request queued before it: where a cache of the requester serves the access, memory stays as it was; else
a walk from the deepest pointer that the walk cache holds, or from the root, has reached a leaf, and the one change of
memory is that A, and D for a store or atomic, are set in that leaf's eight bytes, at the address that the walk read it
from. Under a bare root the firmware context reaches memory at its own canonical address with no effect on the machine,
and a user stream is refused with the access fault of its kind. The caches answer before the tables, which is the
model's use of R33 (log entry 59). -/
def Obligations.Translation_changes_caches_and_accessed_bits : Prop :=
  (∀ (s s1 : State) (t : TileId) (who : Walker) (root va : Word) (acc : Access) (user : Bool) (p : Phys),
     translate s t who root va acc user = .ok (p, s1) →
     (∃ m, s1 = { s.setTile t { s.tile t with mmu := m } with mem := s1.mem, hosts := s1.hosts }) ∧
     ((s.tile t).mmu.queue = [] → root.extractLsb' 60 4 ≠ 0 →
       let m := (s.tile t).mmu
       let asid : BitVec 16 := root.extractLsb' 44 16
       let v48 : BitVec 48 := va.setWidth 48
       (∀ e, tlbLookup m who asid v48 acc user = some e → s1.mem = s.mem) ∧
       (tlbLookup m who asid v48 acc user = none →
         ∃ k : Walked,
           (match walkCached m asid v48 with
             | some e => walkFrom s asid v48 acc e.level (e.ppn.toNat * 4096) e.g []
             | none => walkFrom s asid v48 acc 4 ((root.extractLsb' 0 44).toNat * 4096) false []) = .ok k ∧
           k.pte = ofBytes 64 (s.readBytes k.pteAddr 8) ∧
           let new := k.pte ||| 0x40 ||| (if acc.writes then 0x80 else 0)
           s1.mem = if new = k.pte then s.mem else memWriteBytes s.mem k.pteAddr (toBytes 8 new)))) ∧
  (∀ (s : State) (t : TileId) (who : Walker) (root va : Word) (acc : Access),
     root.extractLsb' 60 4 = 0 →
     (regionOf (canonical va).toNat = .hbm →
       translate s t who root va acc false = .ok (⟨(canonical va).toNat, false⟩, s)) ∧
     translate s t who root va acc true = .error (accessFault acc))


/-- R29 and R121: the checks of a capability come first and in their order; a failing one traps the user stream with its
cause and the address BASE + offset before any other check, for every scalar and vector load and store. The address of
the fault is the model's reading of R29 (log entry 14). -/
def Obligations.Capability_checks_come_first : Prop :=
  ∀ (g : Pred) (w : Width) (scope : Scope) (d : SReg) (vd : VReg) (q : BitVec 5) (m : MemS) (s : State),
    s.str.holds g = true → s.cur.side = .user →
    let c := s.str.getC m.cap
    let off := s.str.getS m.idx + m.off.signExtend 64
    let f := c.fields
    let first (k : Need) (n : Nat) : Option (BitVec 8) :=
      if c.tag = false then some Cause.capabilityTagClear
      else if f.wellFormed = false then some Cause.invalidCapabilityField
      else if f.grants k = false then some Cause.capabilityPermission
      else if f.covers off.toNat n = false then some Cause.capabilityBounds
      else none
    (∀ cause, first .read w.bytes = some cause →
      exec (.ld g w d m) s = trapped s cause (c.addr off) ∧ exec (.ldu g w d m) s = trapped s cause (c.addr off) ∧
      exec (.ldacq g w scope d m) s = trapped s cause (c.addr off)) ∧
    (∀ cause, first .write w.bytes = some cause →
      exec (.st g w m d) s = trapped s cause (c.addr off) ∧
      exec (.strel g w scope m d) s = trapped s cause (c.addr off)) ∧
    (∀ cause, first .read 16 = some cause → exec (.ldq g q m) s = trapped s cause (c.addr off)) ∧
    (∀ cause, first .write 16 = some cause → exec (.stq g m q) s = trapped s cause (c.addr off)) ∧
    (∀ cause, first .read 128 = some cause → exec (.vld g vd m) s = trapped s cause (c.addr off)) ∧
    (∀ cause, first .write 128 = some cause → exec (.vst g m vd) s = trapped s cause (c.addr off)) ∧
    (first .read w.bytes = none → (canonical (c.addr off)).toNat % w.bytes ≠ 0 →
      exec (.ldacq g w scope d m) s = trapped s Cause.misalignedAtomic (canonical (c.addr off))) ∧
    (first .write w.bytes = none → (canonical (c.addr off)).toNat % w.bytes ≠ 0 →
      exec (.strel g w scope m d) s = trapped s Cause.misalignedAtomic (canonical (c.addr off)))

/-- R204: an atomic reads the old value, writes the new one in the same access and gives the old one sign-extended to
sD; a compare-and-swap that does not match writes nothing. That an atomic translates as a store is the model's reading
(log entry 12). -/
def Obligations.Atomics_read_modify_write : Prop :=
  ∀ (g : Pred) (w : Width) (op : AmoOp) (scope : Scope) (d c : SReg) (m : MemS) (va : Word) (pa : Nat) (s s1 : State),
    s.str.holds g = true →
    touches s (s.str.getC m.cap) .atomic (s.str.getS m.idx + m.off.signExtend 64) w.bytes .atomic va pa s1 →
    clean s1 pa w.bytes →
    let mask := (s.str.getC m.cap).mask s.str.xm
    let old : BitVec w.n := ofBytes w.n (s1.readPart mask va.toNat pa w.bytes)
    let b : BitVec w.n := (s.str.getS c).setWidth w.n
    let new : BitVec w.n :=
      match op with
      | .swap => b
      | .add => BitVec.ofNat w.n (old.toNat + b.toNat)
      | .and => old &&& b
      | .or => old ||| b
      | .xor => old ^^^ b
      | .min => if b.toInt < old.toInt then b else old
      | .max => if old.toInt < b.toInt then b else old
      | .minu => if b.toNat < old.toNat then b else old
      | .maxu => if old.toNat < b.toNat then b else old
    let put (x : BitVec w.n) : State := s1.writePart mask va.toNat pa (toBytes w.bytes x)
    let gives (t : State) := wrote t (s.str.setS d (old.signExtend 64))
    exec (.amo g w op scope d m c) s = gives (put new) ∧
    exec (.amoCas g w scope d m c) s = gives (if old = (s.str.getS d).setWidth w.n then put b else s1)

/-- R196 and R205: when every lane passes its checks, a gather gives each lane its bytes, a scatter stores the lanes in
ascending order, and a vector atomic performs one read-modify-write a lane in ascending order. -/
def Obligations.Lane_accesses_go_in_ascending_order : Prop :=
  ∀ (g : Pred) (w : Width) (op : VAmoOp) (scope : Scope) (d : VReg) (m : MemV) (s s1 : State),
    s.str.holds g = true → s.str.native = none → s.str.vamoTodo = [] →
    let v := s.str.getV d
    (∀ lanes, M.laneParts w m .read .load s = .ok lanes s1 →
      (∀ ps ∈ lanes, ∀ p ∈ ps, p.dev = none ∧ clean s1 p.pa p.n) →
      exec (.vgather g w d m) s = wrote s1 (s.str.setV d (ofLanes w.n (lanes.map fun ps =>
        ofBytes w.n (ps.flatMap fun p => s1.readPart p.mask p.va.toNat p.pa p.n))))) ∧
    (∀ parts : List Part, M.laneParts w m .write .store s = .ok (parts.map fun p => [p]) s1 →
      (∀ p ∈ parts, p.dev = none ∧ p.n = w.bytes) →
      exec (.vscatter g w m d) s = wrote
        (parts.zipIdx.foldl (fun t p => t.writePart p.1.mask p.1.va.toNat p.1.pa (toBytes w.bytes (lane w.n v p.2))) s1)
        s.str) ∧
    (∀ parts : List Part,
      ((List.range w.count).mapM fun i => do
        let p ← M.atomicPart (s.str.getC m.cap) .atomic (s.str.offV w.n m i) w.bytes w.bytes .atomic
        pure (i, p)) s = .ok (parts.zipIdx.map fun p => (p.2, p.1)) s1 →
      (∀ p ∈ parts, p.dev = none ∧ p.n = w.bytes ∧ clean s1 p.pa p.n) →
      exec (.vamo g w op scope m d) s = wrote
        (parts.zipIdx.foldl (fun t p =>
          let old : BitVec w.n := ofBytes w.n (t.readPart p.1.mask p.1.va.toNat p.1.pa w.bytes)
          let b := lane w.n v p.2
          t.writePart p.1.mask p.1.va.toNat p.1.pa
            (toBytes w.bytes (match op with | .or => old ||| b | .add => old + b))) s1)
        s.str)

/-! ### Synchronisation -/


/-- R178, R206, R207, R221: `nop`, `fence` and a `yield` with nothing waiting for the stream only move on. `fe.clear`
sets the line of its byte empty and `fe.set` sets it full, `fe.wait` goes on where it is full and waits where it is
empty; the content and the poison of the line are untouched, and a byte outside every cistern traps. That `fence` has
nothing to order is the model's (log entry 18). -/
def Obligations.Full_empty_and_plain_forms : Prop :=
  (∀ (g : Pred) (m : MemS) (va : Word) (pa : Nat) (s s1 : State), s.str.holds g = true →
     let c := s.str.getC m.cap
     let off := s.str.getS m.idx + m.off.signExtend 64
     (touches s c .write off 1 .store va pa s1 → inCistern pa = true →
       exec (.feClear g m) s = wrote { s1 with empty := insertNat (pa / 128) s1.empty } s.str ∧
       exec (.feSet g m) s = wrote { s1 with empty := s1.empty.filter (· ≠ pa / 128) } s.str) ∧
     (touches s c .write off 1 .store va pa s1 → inCistern pa = false → s.cur.side = .user →
       exec (.feClear g m) s = trapped s1 Cause.storeAccessFault va ∧
       exec (.feSet g m) s = trapped s1 Cause.storeAccessFault va) ∧
     (touches s c .read off 1 .load va pa s1 → inCistern pa = true →
       exec (.feWait g m) s =
         if s1.lineEmpty (pa / 128) then .next (s1.setStr { s.str with state := .waiting, wait := .full (pa / 128) })
         else wrote s1 s.str) ∧
     (touches s c .read off 1 .load va pa s1 → inCistern pa = false → s.cur.side = .user →
       exec (.feWait g m) s = trapped s1 Cause.loadAccessFault va)) ∧
  (∀ (g : Pred) (scope : Scope) (hint : Hint) (s : State),
     exec (.nop g) s = wrote s s.str ∧ exec (.fence g scope hint) s = wrote s s.str ∧ exec (.yield g) s = wrote s s.str)

/-- R208 and R209: a wait for a value beyond the issue number traps; one for a value that the counter has reached goes
on; any other waits. A read gives the counter as it stands. R90, R202: a wait that is over lets its stream run on: a
whole-tile stall at the instruction that stalled, which issues again, and a divertible wait past the waiting
instruction. That a stalled instruction issues again is the model's form of a whole-tile stall (log entry 11). -/
def Obligations.Timelines_are_read_and_waits_end : Prop :=
  (∀ (g : Pred) (hint : Hint) (a : Timeline) (d b : SReg) (s : State), s.str.holds g = true →
     let v := s.str.getS b
     let value := s.here.counter a
     let issue := s.here.issue a
     (issue.toNat < v.toNat → s.cur.side = .user →
       exec (.tlWait g hint a b) s = trapped s Cause.timelineWaitBeyondIssue 0) ∧
     (v.toNat ≤ issue.toNat → v.toNat ≤ value.toNat → exec (.tlWait g hint a b) s = wrote s s.str) ∧
     (v.toNat ≤ issue.toNat → value.toNat < v.toNat →
       exec (.tlWait g hint a b) s = .next (s.setStr { s.str with state := .waiting, wait := .timeline a v })) ∧
     exec (.tlRead g d a) s = wrote s (s.str.setS d value)) ∧
  (∀ (t : TileId) (side : Side) (s : State), (s.tile t).frozen = false →
     let x := (s.tile t).stream side
     let on (y : Stream) : Host.Outcome State Fault Refusal :=
       .next (s.setTile t ((s.tile t).setStream side { y with state := .running, wait := .none }))
     let past := on { x with pc := x.pc + 8 }
     let again := on { x with woken := true }
     (∀ l, x.state = .stalled → x.wait = .line l → s.lineEmpty l = false → exec (.stallEnd t side) s = again) ∧
     (∀ k, x.state = .stalled → x.wait = .thaw k → (s.tile k).frozen = false → exec (.stallEnd t side) s = again) ∧
     (x.state = .stalled → x.wait = .signalQueue → (s.tile t).sigQ.length < 8 → exec (.stallEnd t side) s = again) ∧
     (∀ l, x.wait = .full l → s.lineEmpty l = false → exec (.feWaitEnd t side) s = past) ∧
     (∀ a v, x.wait = .timeline a v → v.toNat ≤ ((s.tile t).counter a).toNat → exec (.tlWaitEnd t side) s = past) ∧
     (∀ pa gen, x.wait = .barrier pa gen → s.lineEmpty (pa / 128) = false → s.linePoisoned (pa / 128) = false →
       ((ofBytes 128 (s.readBytes pa 16) : Quad).extractLsb' 124 4) ≠ gen → exec (.barWaitEnd t side) s = past) ∧
     (∀ pa va v, x.wait = .signal pa va v → s.lineEmpty (pa / 128) = false → s.linePoisoned (pa / 128) = false →
       v.toNat ≤ (ofBytes 64 (s.readBytes pa 8) : Word).toNat → exec (.sigWaitEnd t side) s = past) ∧
     (∀ a d i v rest, x.wait = .get a d → neighbour x.vpos a = some i → x.ports[portIndex a] = v :: rest →
       exec (.forwardingWaitEnd t side) s =
         on { x.setV d v with ports := x.ports.set (portIndex a) rest, pc := x.pc + 8 }))

/-- R210 to R213: the barrier forms change the sixteen bytes of the object in one access: `bar.init` arms it,
`bar.arrive` counts one arrival, re-arms the object when every count is zero and records the generation before, and
`bar.wait` goes on once the generation differs from the recorded one. Their value checks trap. That the line's state is
looked at after the checks of values is the model's reading (log entry 62). -/
def Obligations.Barrier_objects_count_and_rearm : Prop :=
  ∀ (g : Pred) (m : MemS) (d : SReg) (va : Word) (pa : Nat) (s s1 : State), s.str.holds g = true →
    touches s (s.str.getC m.cap) .readWrite (s.str.getS m.idx + m.off.signExtend 64) 16 .atomic va pa s1 →
    inCistern pa = true → clean s1 pa 16 →
    let mask := (s.str.getC m.cap).mask s.str.xm
    let q : Quad := ofBytes 128 (s1.readPart mask va.toNat pa 16)
    let gen : BitVec 4 := q.extractLsb' 124 4
    let expected : BitVec 16 := q.extractLsb' 108 16
    let pending : BitVec 16 := q.extractLsb' 92 16
    let inbound : BitVec 20 := q.extractLsb' 72 20
    let outbound : BitVec 20 := q.extractLsb' 52 20
    let irld : BitVec 20 := q.extractLsb' 32 20
    let orld : BitVec 20 := q.extractLsb' 12 20
    let put (x : Quad) : State := s1.writePart mask va.toNat pa (toBytes 16 x)
    let v := s.str.getS d
    let e : BitVec 16 := v.extractLsb' 0 16
    let i : BitVec 20 := v.extractLsb' 16 20
    let o : BitVec 20 := v.extractLsb' 36 20
    (e ≠ 0 → exec (.barInit g m d) s =
      wrote (put ((gen + 1) ++ e ++ e ++ i ++ o ++ i ++ o ++ (0 : BitVec 12))) s.str) ∧
    (e = 0 → s.cur.side = .user → exec (.barInit g m d) s = trapped s1 Cause.barrierObjectInvalid va) ∧
    (pending ≠ 0 → exec (.barArrive g m) s =
      wrote
        (put (if pending = 1 ∧ inbound = 0 ∧ outbound = 0 then
            (gen + 1) ++ expected ++ expected ++ irld ++ orld ++ irld ++ orld ++ q.extractLsb' 0 12
          else gen ++ expected ++ (pending - 1) ++ inbound ++ outbound ++ irld ++ orld ++ q.extractLsb' 0 12))
        { s.str with barrier := some ⟨va.setWidth 48, gen⟩ }) ∧
    (pending = 0 → s.cur.side = .user → exec (.barArrive g m) s = trapped s1 Cause.barrierArrivalOverflow va) ∧
    (∀ r, s.str.barrier = some r → r.va = va.setWidth 48 → r.gen ≠ gen → exec (.barWait g m) s = wrote s1 s.str) ∧
    (∀ r, s.str.barrier = some r → r.va = va.setWidth 48 → r.gen = gen →
      exec (.barWait g m) s = .next (s1.setStr { s.str with state := .waiting, wait := .barrier (swizzled mask va.toNat pa 0) gen })) ∧
    ((s.str.barrier = none ∨ ∃ r, s.str.barrier = some r ∧ r.va ≠ va.setWidth 48) → s.cur.side = .user →
      exec (.barWait g m) s = trapped s1 Cause.barrierWaitWithoutArrival va)

/-- R214: `hbar` is for the firmware context: there it arrives and waits; in the user context it is a privileged
instruction. The release ends the wait of every member once all have arrived and none is frozen (R98). The membership of
a tag is the model's (log entries 42 and 72). -/
def Obligations.Route_tags_wait_for_every_member : Prop :=
  ∀ (g : Pred) (tag : BitVec 3) (hint : Hint) (s : State),
    (s.str.holds g = true → s.cur.side = .firmware →
      ∃ t, exec (.hbar g tag hint) s = .next t ∧ t.str = { s.str with state := .waiting, wait := .hardwareBarrier tag } ∧
        t.here.hbarArrived = s.here.hbarArrived ||| BitVec.twoPow 8 tag.toNat ∧ t.mem = s.mem) ∧
    (s.str.holds g = true → s.cur.side = .user → exec (.hbar g tag hint) s = trapped s Cause.privilegedInstruction 0) ∧
    (let members := s.hbar[tag.toNat]'tag.isLt;
      members.Nodup →
      (∀ t ∈ members, (s.tile t).hbarArrived.getLsbD tag.toNat = true ∧ (s.tile t).frozen = false) →
      ∃ u, exec (.hbarRelease tag) s = .next u ∧ u.mem = s.mem ∧
        ∀ t ∈ members, (u.tile t).hbarArrived.getLsbD tag.toNat = false ∧
          ((s.tile t).fw.wait = .hardwareBarrier tag →
            (u.tile t).fw = { (s.tile t).fw with state := .running, wait := .none, pc := (s.tile t).fw.pc + 8 })) ∧
    ((∃ t ∈ s.hbar[tag.toNat]'tag.isLt, (s.tile t).hbarArrived.getLsbD tag.toNat = false ∨ (s.tile t).frozen = true) →
      exec (.hbarRelease tag) s = .next s)

/-- R215, R216: a post that passes its checks enters the signal queue of its tile, with the address of its target, and
the stream moves on, also where the target's tile is in tile reset (R349); a full queue stalls the stream, and bad bits
of sC trap. A signal wait goes on where the word has reached the value and waits where it has not, or where its line is
empty. That the offset of a post to another chip is not permuted is the model's choice (log entry 66), that a signal
wait on an empty line waits is its reading (log entry 43), and the translation that a post keeps is for acknowledgements
(R42, log entry 18). -/
def Obligations.Signals_are_posted_and_awaited : Prop :=
  (∀ (g : Pred) (m : MemS) (d c : SReg) (s : State), s.str.holds g = true →
     let cap := s.str.getC m.cap
     let off := s.str.getS m.idx + m.off.signExtend 64
     let k := s.str.getS c
     let va := canonical (cap.addr off)
     let chip : BitVec 8 := k.extractLsb' 0 8
     let queued (s1 : State) (peer : Bool) (addr : Word) (pa : Nat) (via : Option TlbEntry) : State :=
       let x := s1.here
       let post : SigPost :=
         { peer := peer, chip := chip, tile := k.extractLsb' 8 8, addr := addr, pa := pa, amount := s.str.getS d
           jobtag := (s.ctx s.ctxId).jobtag, need := x.pumps.map (·.issue), sent := none, via := via }
       s1.setTile s1.cur.tile { x with sigQ := x.sigQ ++ [post] }
     (∀ pa s1, cap.check .post off.toNat 8 = none → k.toNat < 2 ^ 16 →
       touches s cap .post off 8 .post va pa s1 → inCistern pa = true →
       (s1.here.sigQ.length < 8 →
         exec (.sigPost g m d c) s = wrote
           (queued s1 false va (swizzled (cap.mask s.str.xm) va.toNat pa 0)
             (s1.serving s.cur.tile (.control s.cur.side) s.str.ctxroot va .post s.isUser)) s.str) ∧
       (8 ≤ s1.here.sigQ.length →
         exec (.sigPost g m d c) s = .next (s1.setStr { s.str with state := .stalled, wait := .signalQueue }))) ∧
     (cap.check .post off.toNat 8 = none → k.getLsbD 16 = true → k.toNat < 2 ^ 17 → s.domainV = true →
       chip ≠ s.domainNum → va.toNat % 8 = 0 → s.here.sigQ.length < 8 →
       exec (.sigPost g m d c) s = wrote (queued s true (cap.addr off) 0 none) s.str) ∧
     (cap.check .post off.toNat 8 = none → s.cur.side = .user →
       (2 ^ 17 ≤ k.toNat ∨ (k.getLsbD 16 = true ∧ (s.domainV = false ∨ chip = s.domainNum))) →
       exec (.sigPost g m d c) s = trapped s Cause.signalTargetInvalid 0)) ∧
  (∀ (g : Pred) (m : MemS) (d : SReg) (va : Word) (pa : Nat) (s s1 : State), s.str.holds g = true →
     touches s (s.str.getC m.cap) .read (s.str.getS m.idx + m.off.signExtend 64) 8 .load va pa s1 →
     let at_ := swizzled ((s.str.getC m.cap).mask s.str.xm) va.toNat pa 0
     let v := s.str.getS d
     let word : Word := ofBytes 64 (s1.readBytes at_ 8)
     let waits := Host.Outcome.next (s1.setStr { s.str with state := .waiting, wait := .signal at_ va v })
     (inCistern pa = true → s1.lineEmpty (at_ / 128) = false → s1.linePoisoned (at_ / 128) = false →
       exec (.sigWait g m d) s = if v.toNat ≤ word.toNat then wrote s1 s.str else waits) ∧
     (inCistern pa = true → s1.lineEmpty (at_ / 128) = true → exec (.sigWait g m d) s = waits) ∧
     (inCistern pa = false → s.cur.side = .user → exec (.sigWait g m d) s = trapped s1 Cause.loadAccessFault va))


/-- R98, R217: a put adds its vector to the facing port of the virtual neighbour, or waits while that port holds four
entries or the neighbour's tile is frozen, where the neighbour's tile has still to start the node too: the port is then
kept beside its shadow bank (log entry 43). A get takes the oldest entry of its own port, or waits while it is empty; a
direction without a neighbour traps. Which port a put to a neighbour uses is the model's reading (log entry 43). -/
def Obligations.Forwarding_ports_move_vectors : Prop :=
  ∀ (g : Pred) (a : Port) (d b : VReg) (s : State), s.str.holds g = true →
    (∀ i t, neighbour s.str.vpos a = some i → s.memberTile s.cur.tile i = some t → t ≠ s.cur.tile →
      let k := portIndex (facingPort a)
      let x := s.tile t
      let v := s.str.getV b
      let waits := Host.Outcome.next (s.setStr { s.str with state := .waiting, wait := .put a v })
      (x.frozen = true → exec (.fwdPut g a b) s = waits) ∧
      (x.frozen = false → x.shadow = none →
        (x.user.ports[k].length < 4 → exec (.fwdPut g a b) s = wrote
          (s.setTile t { x with user := { x.user with ports := x.user.ports.set k (x.user.ports[k] ++ [v]) } }) s.str) ∧
        (4 ≤ x.user.ports[k].length → exec (.fwdPut g a b) s = waits)) ∧
      (∀ n sh, x.frozen = false → s.here.node.bind s.node? = some n → x.shadow = some sh → sh.serial = n.serial →
        s.node? sh.serial = some n → n.flags.getLsbD 42 = false →
        (sh.ports[k].length < 4 → exec (.fwdPut g a b) s = wrote
          (s.setTile t { x with shadow := some { sh with ports := sh.ports.set k (sh.ports[k] ++ [v]) } }) s.str) ∧
        (4 ≤ sh.ports[k].length → exec (.fwdPut g a b) s = waits))) ∧
    (∀ i, neighbour s.str.vpos a = some i →
      match s.str.ports[portIndex a] with
      | [] => exec (.fwdGet g d a) s = .next (s.setStr { s.str with state := .waiting, wait := .get a d })
      | v :: rest => exec (.fwdGet g d a) s =
          wrote s { s.str.setV d v with ports := s.str.ports.set (portIndex a) rest }) ∧
    (neighbour s.str.vpos a = none → s.cur.side = .user →
      exec (.fwdPut g a b) s = trapped s Cause.forwardingPortWithoutNeighbour 0 ∧
      exec (.fwdGet g d a) s = trapped s Cause.forwardingPortWithoutNeighbour 0)

/-- R103, R107, R219: a push that passes its checks enters its queue under the next number of its context and answers
with a true predicate; a queue that holds 32 commands answers with a false one and takes nothing. -/
def Obligations.Pump_pushes_number_their_commands : Prop :=
  ∀ (g : Pred) (d : PReg) (a b : CapReg) (c : SReg) (s : State), s.str.holds g = true →
    let dst := s.str.getC a
    let src := s.str.getC b
    let desc := s.str.getS c
    let good (store : Bool) : Prop :=
      dst.steps .write = none ∧ src.steps .read = none ∧ s.descOk store desc = true ∧
      dst.fields.rows = src.fields.rows ∧ dst.fields.rowbytes = src.fields.rowbytes ∧
      (descPeer desc = true → peerShapeOk dst.fields = true)
    let k := descCtx desc
    let n := (s.here.pump k).issue + 1
    let cmd : PumpCmd :=
      { k := k, number := n, dst := dst.bits, src := src.bits, desc := desc, jobtag := (s.ctx s.ctxId).jobtag
        row := 0, byte := 0, line := [], oweOut := false, oweIn := false, home := none, pages := [] }
    (good false → s.here.loadQ.length < 32 → ∃ t, exec (.pumpLd g d a b c) s = .next t ∧
      t.here.loadQ = s.here.loadQ ++ [cmd] ∧ (t.here.pump k).issue = n ∧ t.here.storeQ = s.here.storeQ ∧
      t.str = { s.str.setP d true with pc := s.str.pc + 8 } ∧ t.mem = s.mem) ∧
    (good true → s.here.storeQ.length < 32 → ∃ t, exec (.pumpSt g d a b c) s = .next t ∧
      t.here.storeQ = s.here.storeQ ++ [cmd] ∧ (t.here.pump k).issue = n ∧ t.here.loadQ = s.here.loadQ ∧
      t.str = { s.str.setP d true with pc := s.str.pc + 8 } ∧ t.mem = s.mem) ∧
    (good false → 32 ≤ s.here.loadQ.length → exec (.pumpLd g d a b c) s = wrote s (s.str.setP d false)) ∧
    (good true → 32 ≤ s.here.storeQ.length → exec (.pumpSt g d a b c) s = wrote s (s.str.setP d false))

/-! ### Control flow, routines and system instructions -/

/-- R138, R175, R176, R252, R330, R331, R345: the transfers of control. Every target is made canonical; a call writes
the link; `loop` counts; a register target that is no multiple of eight traps with nothing written; a user stream that
transfers to the exit address ends, and counts as ended for its node. That a `ret` inside a routine takes the innermost
call off, and only that one, is the model's reading of R252 (log entry 46); that it resumes native issue behind the
`rcall`, and that any other transfer ends a replay, is its reading of R296 (log entry 35). -/
def Obligations.Control_transfers_move_the_pc : Prop :=
  (∀ (g : Pred) (a : SReg) (imm : BitVec 37) (s : State), s.str.holds g = true →
     let x := s.str
     let label := x.pc + 8 * imm.signExtend 64
     let n := x.getS a - 1
     let free (t : Word) : Prop := ¬(s.cur.side = .user ∧ canonical t = 0xFFFFFFFFFFFFFFF8)
     (free label →
       exec (.br g imm) s = goes s x label ∧
       exec (.call g imm) s = goes s (x.setS 1 (x.pc + 8)) label ∧
       exec (.loop g a imm) s = if n = 0 then wrote s (x.setS a n) else goes s (x.setS a n) label) ∧
     (free (x.getS a) → (canonical (x.getS a)).toNat % 8 = 0 →
       exec (.jr g a) s = goes s x (x.getS a) ∧
       exec (.callr g a) s = goes s (x.setS 1 (x.pc + 8)) (x.getS a)) ∧
     (free (x.getS 1) → (canonical (x.getS 1)).toNat % 8 = 0 →
       (x.calls = [] → exec (.ret g) s = goes s x (x.getS 1)) ∧
       (∀ f rest, x.calls = f :: rest → f.number = none →
         exec (.ret g) s = arrives s { x with
           calls := rest, pc := canonical (x.getS 1)
           rejoin := if f.ret = canonical (x.getS 1) then f.rejoin else none })) ∧
     (s.cur.side = .user → (canonical (x.getS a)).toNat % 8 ≠ 0 →
       exec (.jr g a) s = trapped s Cause.misalignedInstructionAddress (canonical (x.getS a)) ∧
       exec (.callr g a) s = trapped s Cause.misalignedInstructionAddress (canonical (x.getS a))) ∧
     (s.cur.side = .user → (canonical (x.getS 1)).toNat % 8 ≠ 0 →
       exec (.ret g) s = trapped s Cause.misalignedInstructionAddress (canonical (x.getS 1)))) ∧
  (∀ (g : Pred) (s : State) (n : Node), s.str.holds g = true → s.cur.side = .user →
     canonical (s.str.getS 1) = 0xFFFFFFFFFFFFFFF8 → s.str.calls = [] →
     s.here.node = some n.serial → s.node? n.serial = some n →
     ∃ t, exec (.ret g) s = .next t ∧ t.str.state = .ended ∧ t.mem = s.mem ∧
       ∃ n', t.node? n.serial = some n' ∧ s.cur.tile ∈ n'.ended ∧
         ((∀ u ∈ n.tiles, u = s.cur.tile ∨ u ∈ n.ended) → n'.state = .draining))


/-- R220, R252, R253, R261, R356: a routine call writes the link and enters the routine: its definition at the first
word of the body, or with REFA clear the catalogue routine that its hash names, whose own step follows; an index beyond
the routine table traps. A call time that is pending is one inside the routine from then on. That the call and the first
unit of the routine are steps of their own is the model's granularity (log entry 10), and the frame that remembers the
call is its own: the command that the definition stands for (log entry 69), and where native issue resumes at the return
(log entry 35). -/
def Obligations.Routine_calls_enter_the_routine : Prop :=
  ∀ (g : Pred) (imm : BitVec 37) (s : State), s.str.holds g = true →
    let x := s.str
    let frame (k i : Nat) (e : RoutineEntry) (native : Option Routine) : CallFrame :=
      { native := native, body := e.body, ninsn := e.ninsn, ret := x.pc + 8, link := x.getS 1, asy := e.asy
        number := none, scratch := e.scratch, object := k, entry := i, prog := 0, aux := 0, rejoin := x.rejoin
        cmd := if native.isSome then none else ((s.catalogue e.hash).bind (matrixCommand · x)).bind Except.toOption }
    let inside : State :=
      if s.cur.side = .user then
        s.setTile s.cur.tile { s.here with callTime := s.here.callTime.map fun c => if c = 1 then 3 else c }
      else s
    (∀ k i e, s.callee imm = some (k, i, e) → e.asy = false →
      (x.ctxcfg.getLsbD 2 = true ∨ s.catalogue e.hash = none) →
      exec (.rcall g imm) s =
        arrives inside { x.setS 1 (x.pc + 8) with calls := frame k i e none :: x.calls, pc := e.body, rejoin := none }) ∧
    (∀ k i e r, s.callee imm = some (k, i, e) → x.ctxcfg.getLsbD 2 = false → s.catalogue e.hash = some r →
      M.matrixReady r s = .ok ⟨⟩ s →
      exec (.rcall g imm) s =
        .next (inside.setStr { x.setS 1 (x.pc + 8) with calls := frame k i e (some r) :: x.calls, rejoin := none })) ∧
    (s.callee imm = none → s.cur.side = .user → exec (.rcall g imm) s = trapped s Cause.routineIndex 0)

/-- R177: a stream that arrives last at a rendezvous goes on at once; one that arrives earlier waits with its arrival
made; inside a routine the instruction traps, and in the firmware context it has no effect. -/
def Obligations.Rendezvous_waits_for_every_member : Prop :=
  ∀ (g : Pred) (s : State), s.str.holds g = true →
    (s.cur.side = .firmware → exec (.rdv g) s = wrote s s.str) ∧
    (s.cur.side = .user → (s.str.calls ≠ [] ∨ ∃ m, s.str.native = some m ∧ m.bracket ≠ none) →
      exec (.rdv g) s = trapped s Cause.rendezvousInsideRoutine 0) ∧
    (∀ n, s.cur.side = .user → s.str.calls = [] → (∀ m, s.str.native = some m → m.bracket = none) →
      s.here.node = some n.serial → s.node? n.serial = some n →
      s.cur.tile ∈ n.tiles → s.cur.tile ∉ n.ended → s.cur.tile ∉ n.unstarted →
      let k := s.str.arrivals + 1
      let others := n.tiles.filter fun u => decide (u ≠ s.cur.tile ∧ u ∉ n.ended)
      ((∀ u ∈ others, u ∉ n.unstarted ∧ k ≤ (s.tile u).user.arrivals) →
        ∃ t, exec (.rdv g) s = .next t ∧ t.mem = s.mem ∧
          t.str = { s.str with arrivals := k, state := .running, wait := .none, pc := s.str.pc + 8 }) ∧
      ((∃ u ∈ others, u ∈ n.unstarted ∨ (s.tile u).user.arrivals < k) →
        ∃ t, exec (.rdv g) s = .next t ∧ t.mem = s.mem ∧
          t.str = { s.str with arrivals := k, state := .waiting, wait := .rendezvous k }))

/-- R150, R178, R224, R225, R226: the instructions whose effect is a trap take it with their cause, address and IMM; a
`sys` from the firmware context is delivered to the resident operating system; `eret` in the user context is a
privileged instruction. That a trap of the firmware context ends in a fault is the model's (log entry 16); no clause
rests on it. -/
def Obligations.Trapping_instructions_take_their_trap : Prop :=
  ∀ (g : Pred) (imm : BitVec 16) (s : State),
    let k := s.cur.tile
    (s.cur.side = .user → exec .illegalInstruction s = .next (s.takeTrap k Cause.illegalInstruction s.str.pc 0)) ∧
    (s.str.holds g = true → s.cur.side = .user →
      exec (.trap g imm) s = .next (s.takeTrap k Cause.softwareTrap 0 imm) ∧
      exec (.bkpt g) s = .next (s.takeTrap k Cause.breakpoint s.str.pc 0) ∧
      exec (.eret g) s = .next (s.takeTrap k Cause.privilegedInstruction 0 0) ∧
      (imm = 0x00 ∨ imm = 0x10 ∨ imm = 0x11 → exec (.sys g imm) s = .next (s.takeTrap k Cause.firmwareCall 0 imm))) ∧
    (s.str.holds g = true → s.cur.side = .firmware →
      exec (.sys g imm) s = wrote { s with outputs := s.outputs ++ [.interrupt k.toNat Cause.firmwareCall] } s.str)

/-- R372 to R374, R376 to R378: taking a trap outside native code. The stream is Trapped at the instruction with its
registers as they were; TPC, TADDR and TCAUSE hold its place, address and header, and the trap frame at TSAVE its
registers. A firmware call freezes nothing; a fault of the stream is recorded as the tile's first and freezes its
engines, a record of it awaits the composite ring, and an interrupt is sent; a further fault of a later cycle is only
counted. The fields of the log record are the model's reading (log entry 36). -/
def Obligations.Taking_a_trap_saves_the_stream : Prop :=
  (∀ (s : State) (k : TileId) (cause : BitVec 8) (addr : Word) (imm : BitVec 16),
     (s.tile k).user.native = none → (s.tile k).fault = none → Memory.wf s.mem = true → cause = Cause.firmwareCall →
     let u := (s.tile k).user
     let area := (s.tile k).tsave.toNat
     let t := s.takeTrap k cause addr imm
     let word (off : Nat) : Word := ofBytes 64 (t.readBytes (area + off) 8)
     (t.tile k).user = { u with state := .trapped, wait := .none, vamoTodo := [], woken := false, single := false } ∧
     (t.tile k).tpc = u.pc ∧ (t.tile k).taddr = addr ∧
     ((t.tile k).tcause.extractLsb' 0 8 = cause ∧ (t.tile k).tcause.extractLsb' 16 8 = k ∧
       (t.tile k).tcause.extractLsb' 24 6 = s.ctxOf k ∧ (t.tile k).tcause.extractLsb' 32 16 = imm) ∧
     (∀ n : Fin 64, n.val ≠ 0 → word (8 * n.val) = u.s[n.val]) ∧
     word 0x210 = u.pc ∧ word 0x218 = u.fpctl.setWidth 64 ∧ word 0x220 = u.dpc ∧ word 0x228 = (t.tile k).tcause ∧
     word 0x230 = addr ∧ (∀ n : Fin 16, word (0x250 + 8 * n.val) = u.xm[n.val]) ∧
     (t.tile k).fault = none ∧ (∀ j, j ≠ k → t.tile j = s.tile j) ∧
     (∀ a, a < area ∨ area + 0x300 ≤ a → t.readByte a = s.readByte a)) ∧
  (∀ (s : State) (k : TileId) (cause : BitVec 8) (addr : Word) (imm : BitVec 16),
     handlerOf cause ≠ .firmware → (s.tile k).user.native = none →
     let t := s.takeTrap k cause addr imm
     (t.tile k).user.state = .trapped ∧ (t.tile k).tpc = (s.tile k).user.pc ∧
     ((s.tile k).fault = none →
       (∃ f, (t.tile k).fault = some f ∧ f.cause = cause ∧ f.addr = addr ∧ f.nsec = 0 ∧ f.pending = false) ∧
       (t.tile k).held = true ∧ t.outputs = s.outputs ++ [.interrupt k.toNat cause] ∧ t.recordHeld k = true) ∧
     (∀ f, (s.tile k).fault = some f → ∃ f', (t.tile k).fault = some f' ∧ f'.nsec = f.nsec + 1 ∧
       (f.stamp ≠ s.timing.now ∨ f.src = 0 → f'.cause = f.cause)))


/-- R224, R226, R372, R378 to R380: the firmware context's return resumes the trapped user stream at the program counter
and with the registers that the trap frame holds, and ends the freeze; while a record of the tile is held it waits. The
flags that the matrix engine has raised since the trap stay raised (R62). At a program counter with no bundle and no
function the stream goes on with Juden instructions. That the tags come back from what was saved is the model's reading
of R380 (log entries 15 and 51). -/
def Obligations.Return_restores_the_trap_frame : Prop :=
  ∀ (g : Pred) (s : State), s.str.holds g = true → s.cur.side = .firmware →
    let k := s.cur.tile
    let x := s.here
    let area := x.tsave.toNat
    let word (off : Nat) : Word := ofBytes 64 (s.readBytes (area + off) 8)
    (s.recordHeld k = true → exec (.eret g) s = .next s) ∧
    (s.recordHeld k = false → x.user.state = .trapped → x.user.native = none → s.poisonedLine area 0x300 = none →
    x.user.rejoin = none → s.native? k (word 0x210) = none → s.functionAt k (word 0x210) = none →
    ∃ t, exec (.eret g) s = .next t ∧
      let u := (t.tile k).user
      u.state = .running ∧ u.wait = .none ∧ u.pc = word 0x210 ∧
      (∀ n : Fin 64, n.val ≠ 0 → u.s[n.val] = word (8 * n.val)) ∧
      (∀ r : PReg, r ≠ 0 → u.getP r = (word 0x208).getLsbD r.toNat) ∧
      u.fpctl.extractLsb' 0 5 = (word 0x218).extractLsb' 0 5 ||| x.user.late ∧
      u.cpv = x.user.cpv ∧ u.dpc = x.user.dpc ∧ u.v = x.user.v ∧ u.ports = x.user.ports ∧
      (t.tile k).held = x.frozen ∧ t.mem = s.mem ∧ (t.tile k).fw = { x.fw with pc := x.fw.pc + 8 })

/-- R226, R372, R380: what a trap saves its return restores: a stream that traps to the firmware context and is resumed
from the untouched frame has the registers, predicates, tags and program counter that it had. That the tags come back
from what was saved is the model's reading of R380 (log entry 15). -/
def Obligations.Trap_and_return_give_the_stream_back : Prop :=
  ∀ (s : State) (k : TileId) (addr : Word) (imm : BitVec 16) (cause : BitVec 8),
    let x := (s.tile k).user
    let area := (s.tile k).tsave.toNat
    x.native = none → (s.tile k).fault = none → Memory.wf s.mem = true → cause = Cause.firmwareCall →
    (∀ l, area / 128 ≤ l → l ≤ (area + 0x2FF) / 128 → s.linePoisoned l = false) →
    let y := (((s.takeTrap k cause addr imm).returnFromTrap k).tile k).user
    y.state = .running ∧ y.pc = x.pc ∧ (∀ r, y.getS r = x.getS r) ∧ (∀ r, y.getP r = x.getP r) ∧
    (∀ n : BitVec 5, (y.getC (.c n)) = x.getC (.c n)) ∧ y.getC .cpv = x.getC .cpv ∧ y.v = x.v ∧ y.ports = x.ports ∧
    y.fpctl.extractLsb' 0 5 = x.fpctl.extractLsb' 0 5 ||| x.late ∧ y.barrier = x.barrier ∧ y.dpc = x.dpc ∧
    (∀ i : Fin 16, maskValid x.xm[i.val] = true → maskValue x.xm[i.val] = x.xm[i.val] → y.xm[i.val] = x.xm[i.val])


/-- R224, R264, R309, R378: the firmware calls of version 1, made by a trapped stream: the version call answers with the
version, `sys 0x10` raises the cause in s10 with s11 as its address where the cause lies in 0x40 .. 0x9F and is not
reserved (R370, R371), and `sys 0x11` answers zero for a function of the job; each returns past the `sys`. A call that
the layer does not implement returns at once with s4 all ones and every other register as it was. A coded-stream cause
raised by the definition of a wellhead routine traps the stream with the status of the wellhead as it was (R83). That an
unknown call is served in the same step, and what `sys 0x11` needs, is the model's choice (log entry 51); that a
reserved code is answered as one outside the range, and how a coded-stream cause is reported, is log entry 69. -/
def Obligations.Firmware_calls_answer_in_s4 : Prop :=
  (∀ (k : TileId) (s : State),
     let x := s.tile k
     let area := x.tsave.toNat
     x.user.native = none → x.frozen = false → Memory.wf s.mem = true →
     (∀ l, area / 128 ≤ l → l ≤ (area + 0x2FF) / 128 → s.linePoisoned l = false) →
     let valid (c : Nat) : Prop := (0x40 ≤ c ∧ c ≤ 0x4E) ∨ (0x60 ≤ c ∧ c ≤ 0x61) ∨ (0x70 ≤ c ∧ c ≤ 0x77) ∨
       (0x80 ≤ c ∧ c ≤ 0x88)
     let answers (i : Instr) (v : Word) : Prop := ∃ t, exec i s = .next t ∧
       (t.tile k).user.state = .running ∧ (t.tile k).user.pc = x.tpc + 8 ∧ (t.tile k).user.getS 4 = v
     (x.call = some 0x00 → answers (.firmwareCallVersion k) 1) ∧
     let coded : Prop := x.user.wellCommand ≠ none ∧ 0x70 ≤ (x.user.getS 10).toNat ∧ (x.user.getS 10).toNat ≤ 0x77
     (x.call = some 0x10 → valid (x.user.getS 10).toNat → ¬ coded →
       exec (.sysRaiseCause k) s = .next (s.takeTrap k ((x.user.getS 10).setWidth 8) (x.user.getS 11) 0)) ∧
     (x.call = some 0x10 → coded → x.fault = none →
       ∃ t, exec (.sysRaiseCause k) s = .next t ∧ (t.tile k).user.state = .trapped ∧ (t.tile k).mx = x.mx ∧
         (t.tile k).tcause.extractLsb' 0 8 = (x.user.getS 10).setWidth 8 ∧ (t.tile k).taddr = x.user.getS 11) ∧
     (x.call = some 0x10 → ¬ valid (x.user.getS 10).toNat →
       answers (.sysRaiseCause k) (BitVec.allOnes 64)) ∧
     (x.call = some 0x11 →
       answers (.sysTranslateFunction k) (if s.isFunction k (x.user.getS 4) then 0 else BitVec.allOnes 64))) ∧
  (∀ (g : Pred) (imm : BitVec 16) (s : State), s.str.holds g = true → s.cur.side = .user →
     imm ≠ 0x00 → imm ≠ 0x10 → imm ≠ 0x11 →
     let x := s.str
     let area := s.here.tsave.toNat
     x.native = none → s.here.fault = none → Memory.wf s.mem = true →
     (∀ l, area / 128 ≤ l → l ≤ (area + 0x2FF) / 128 → s.linePoisoned l = false) →
     ∃ t, exec (.sys g imm) s = .next t ∧ t.str.state = .running ∧ t.str.pc = x.pc + 8 ∧
       t.str.getS 4 = BitVec.allOnes 64 ∧ (∀ r, r ≠ 4 → t.str.getS r = x.getS r) ∧
       (∀ r, t.str.getP r = x.getP r) ∧ t.str.v = x.v)

/-- R124, R125, R173, R222, R223, R376: control registers. A read gives the register, and a read of `DTIME` latches the
fraction; a write changes the one register it names, ignores reserved bits and read-only registers, and a write of a
privileged one by the user context traps, as does any access to an unassigned number. The deadline status word, and the
validity word stored at offset 0 of a capability as one aligned store. REMAIN of a time that does not fit its field is a
free value (log entry 5). -/
def Obligations.Control_registers_and_deadline_words : Prop :=
  (∀ (g : Pred) (d : SReg) (n : Ctl) (s : State), s.str.holds g = true →
     let x := s.str
     let v := x.getS d
     (¬(9 ≤ n.toNat ∧ n.toNat ≤ 15) → (s.cur.side = .user → n.toNat < 0x20) → n ≠ 2 →
       exec (.rdc g d n) s = wrote s (x.setS d (s.readCtl n))) ∧
     exec (.rdc g d 2) s = wrote s ({ x with dtimef := BitVec.ofNat 16 s.timing.now }.setS d
       (BitVec.ofNat 64 (s.timing.now / 65536))) ∧
     s.readCtl 0 = x.fpctl.setWidth 64 ∧ s.readCtl 3 = x.dtimef.setWidth 64 ∧ s.readCtl 6 = 0x010101FF000000FF ∧
     (∀ k : Fin 16, s.readCtl (BitVec.ofNat 6 (16 + k.val)) = x.xm[k.val]) ∧
     (exec (.wrc g 0 d) s = wrote s { x with fpctl :=
         (if 1 ≤ (v.extractLsb' 8 3 : BitVec 3).toNat ∧ (v.extractLsb' 8 3 : BitVec 3).toNat ≤ 5 then
           (v.extractLsb' 8 3).setWidth 32 else (x.fpctl.extractLsb' 8 3).setWidth 32) <<< 8 |||
         ((x.fpctl.extractLsb' 0 5) &&& ~~~(v.extractLsb' 0 5)).setWidth 32 }) ∧
     (∀ k : Fin 16, exec (.wrc g (BitVec.ofNat 6 (16 + k.val)) d) s =
       wrote s (if maskValid v then { x with xm := x.xm.set k.val (v &&& 0x83FF83FF83FF83FF) } else x)) ∧
     (s.cur.side = .firmware →
       exec (.wrc g 0x20 d) s = wrote s { x with ctxroot :=
         (if v.extractLsb' 60 4 = 0 ∨ v.extractLsb' 60 4 = 9 then v.extractLsb' 60 4 else x.ctxroot.extractLsb' 60 4) ++
           (v.extractLsb' 0 60 : BitVec 60) } ∧
       ∃ t, exec (.wrc g 0x28 d) s = .next t ∧ t.here.tsave = v ∧ t.str = { x with pc := x.pc + 8 } ∧ t.mem = s.mem) ∧
     (s.cur.side = .user → 9 ≤ n.toNat → n.toNat ≤ 15 →
       exec (.rdc g d n) s = trapped s Cause.illegalInstruction x.pc ∧
       exec (.wrc g n d) s = trapped s Cause.illegalInstruction x.pc) ∧
     (s.cur.side = .user → 0x20 ≤ n.toNat →
       exec (.rdc g d n) s = trapped s Cause.privilegedRegisterAccess 0 ∧
       exec (.wrc g n d) s = trapped s Cause.privilegedRegisterAccess 0) ∧
     (n = 2 ∨ n = 3 ∨ n = 4 ∨ n = 5 ∨ n = 6 ∨ n = 7 → exec (.wrc g n d) s = wrote s x)) ∧
  (∀ (g : Pred) (d : SReg) (a : CapReg) (s t : State), s.str.holds g = true →
     let now := s.timing.now / 65536 % 2 ^ 64
     let word (state : BitVec 2) (until_ : Word) : Word := state ++
       (if until_.toNat - now < 2 ^ 62 then BitVec.ofNat 62 (until_.toNat - now)
        else Config.farRemain (BitVec.ofNat 64 (until_.toNat - now)))
     exec (.dlRead g d) s = wrote s (s.str.setS d
       (if s.here.dlhard = BitVec.allOnes 64 then 0x3FFFFFFFFFFFFFFF
         else if s.here.user.diverted then word 2 s.here.dlhard
         else if now < s.here.dlcall.toNat then word 1 s.here.dlcall
         else word 3 s.here.dlhard)) ∧
     ((s.str.getS d).extractLsb' 0 2 ≠ (3 : BitVec 2) →
       stores s (s.str.getC a) 0 (toBytes 8 (s.str.getS d)) 8 t → exec (.vflagSet g a d) s = wrote t s.str) ∧
     ((s.str.getS d).extractLsb' 0 2 = (3 : BitVec 2) → s.cur.side = .user →
       exec (.vflagSet g a d) s = trapped s Cause.validityStateReserved 0))

/-! ### Native code, walks and engines -/

/-- R291, R292, R298, R300, R234, R275, R356: the native-only operations run in native code: the brackets of a routine,
where a call time that is pending becomes one inside the routine, and its yield point, the stub of a function, which the
firmware context translates (R301), the pushes to the compute queue, `nx.fill` and `nx.spill` at a home slot, the
elementwise functions. Where a native operation's results appear is the model's choice (log entries 33 and 34), and so
is that the firmware translates a function in one step (log entry 71). -/
def Obligations.Native_only_operations_run_in_native_code : Prop :=
  ∀ (g : Pred) (imm : BitVec 37) (op : PushOp) (fn : ElemFn) (a b : CapReg) (c : SReg) (d v : VReg) (n : Native)
    (s : State), s.str.holds g = true → s.str.native = some n →
    let x := s.str
    let slot : Word := s.here.spbase + 128 * imm.setWidth 64
    let sc := x.getS c
    let rm : BitVec 3 := sc.extractLsb' 24 3
    let bracket (k : Option Nat) : Stream := { x with native := some { n with bracket := k } }
    let push (k : MatCmd) : State := s.setTile s.cur.tile { s.here with mx := s.here.mx.push k }
    let cmd : MatCmd :=
      match op with
      | .wload => .wload (x.getC a) (x.getC b)
      | .wloadc => .wloadc (x.getC a) (sc.extractLsb' 0 24) (sc.extractLsb' 24 24) (x.getC b)
      | .decode => .decode (x.getC a) sc (x.getC b)
      | .swap => .swap
      | .act => .act (x.getC a) (x.getC b) sc
      | .zero => .zero ((sc.extractLsb' 0 11 : BitVec 11).setWidth 64) ((sc.extractLsb' 16 11 : BitVec 11).setWidth 64)
      | .drain => .drain (x.getC a) (x.getC b) ((sc.extractLsb' 0 11 : BitVec 11).setWidth 64) (drainMode x rm)
          (sc.getLsbD 27) (sc.getLsbD 28)
    exec (.nxRbeg g imm) s = wrote
      (s.setTile s.cur.tile { s.here with callTime := s.here.callTime.map fun c => if c = 1 then 3 else c })
      (bracket (some imm.toNat)) ∧
    exec (.nxRend g) s = wrote s { bracket none with calls := if n.bracket.isSome then x.calls.drop 1 else x.calls } ∧
    (∀ f rest, x.calls = f :: rest →
      exec (.nxRyld g imm) s = .next (s.setStr { x with pc := f.body + 8 * imm.setWidth 64 })) ∧
    (x.calls = [] → (n.bracket.bind fun j => s.callee (BitVec.ofNat 37 j)) = none →
      exec (.nxRyld g imm) s = wrote s x) ∧
    (∀ k i e, x.calls = [] → (n.bracket.bind fun j => s.callee (BitVec.ofNat 37 j)) = some (k, i, e) →
      ∃ f, exec (.nxRyld g imm) s = .next (s.setStr { x with calls := [f], pc := e.body + 8 * imm.setWidth 64 }) ∧
        f.native = none ∧ f.body = e.body ∧ f.ret = x.pc + 8 ∧ f.object = k ∧ f.entry = i) ∧
    (∀ f s2 npc, (s.nativeObject n.npc).bind (·.funcs[imm.toNat]?) = some f →
      let s1 := s.noteTranslation s.cur.tile f
      s1.here.tcause.extractLsb' 0 8 = Cause.translationRequired ∧ s1.here.taddr = f ∧
      (s1.translateAt s.cur.tile f = some s2 → s2.native? s.cur.tile f = some npc →
        let s3 := match n.site with
          | none => s2
          | some a => s2.patchSite s.cur.tile a npc
        exec (.nxStub g imm) s = .next (s3.setStr { s3.str with native := some { n with npc := npc, site := none } }))) ∧
    (s.here.mx.queue.length < 16 → (op = .wloadc → sc &&& 0x7FFF000000000000 = 0) →
      (op = .drain → rm ≠ 6 ∧ rm ≠ 7) → exec (.nxMpush g op a b c) s = wrote (push cmd) x) ∧
    (s.here.mx.queue.length < 16 → exec (.nxDtab g a) s = wrote (push (.table (x.getC a))) x) ∧
    (16 ≤ s.here.mx.queue.length →
      exec (.nxDtab g a) s = .next (s.setStr { x with state := .waiting, wait := .computeQueue })) ∧
    exec (.nxVfn g fn d v) s = wrote s (fpLanes x d fun i => elemFn fn (lane 32 (x.getV v) i)) ∧
    (x.cpvTag = true → x.region = some n → ∀ va pa s1, va = canonical (Cap.addr ⟨x.cpv, true⟩ slot) →
      (Cap.check ⟨x.cpv, true⟩ .write slot.toNat 128 = none → 128 ≤ room va →
        reachesAs s va .store false pa s1 →
        exec (.nxSpill g v imm) s = wrote s1
          { x with native := some { n with
            buffer := n.buffer ++ [⟨va, pa, Cap.mask ⟨x.cpv, true⟩ x.xm, toBytes 128 (x.getV v),
              s1.serving s.cur.tile (.control s.cur.side) x.ctxroot va .store s.isUser⟩] } }) ∧
      (Cap.check ⟨x.cpv, true⟩ .read slot.toNat 128 = none → 128 ≤ room va → n.buffer = [] →
        reachesAs s va .load false pa s1 → clean s1 pa 128 →
        exec (.nxFill g d imm) s = wrote s1
          (x.setV d (ofBytes 1024 (s1.readPart (Cap.mask ⟨x.cpv, true⟩ x.xm) va.toNat pa 128)))))

/-- R288, R294, R295, R298: a finished region commits: its buffered writes are performed, the Juden boundary moves to
the address that the position map gives it, each Juden vector comes from the place that its VLOC names, a native
register or its home slot, and the next region begins, with the registers that this one left as its undo copies, at the
bundle that follows or that the transfer of the RP bundle names. A region-ending operation is performed after the
buffered writes, at its Juden instruction, as that instruction, on the registers that its bundle read; its results are
then pending; where it waits, the region waits. The step at which a region commits, and when results land, are the
model's choices (log entries 31 and 33). -/
def Obligations.Finished_regions_commit : Prop :=
  ∀ (k : TileId) (n : Native) (f : Finished) (e : BitVec 256) (s : State),
    let x := s.tile k
    x.user.state = .running → x.rbusy = false → x.gated = false → x.held = false → x.user.native = some n →
    n.finished = some f → n.bracket = none → n.opened = false → s.position k f.pmi = some e →
    let jpc : Word := e.extractLsb' 0 64
    let u := n.buffer.foldl (fun u (w : BufferedWrite) => u.writePart w.mask w.va.toNat w.pa w.bytes) s
    let read := x.user.viewed n.view
    let begins (t : State) (m : Native) (pc npc : Word) : Prop :=
      exec (.regionCommit k) s = .next t ∧ t.cur = s.cur ∧ (t.tile k).user.native = some m ∧ (t.tile k).user.pc = pc ∧
        m.npc = npc ∧ m.finished = none ∧ m.buffer = [] ∧ m.writes = 0 ∧ m.atStart = true ∧ m.opened = false
    (f.ending = none → f.transfer = none → ∃ t m, begins t m jpc f.next ∧ m.pending = n.pending ∧
      m.undo = x.user.landed ∧ (t.tile k).user.s = x.user.s ∧ (t.tile k).user.nv = x.user.nv ∧
      (∀ j, j ≠ k → t.tile j = s.tile j) ∧ (∀ a, t.readByte a = u.readByte a) ∧
      (∀ r : Fin 32, let loc := (e.extractLsb' (64 + 5 * r.val) 5 : BitVec 5).toNat;
        (∀ h : loc < 16, (t.tile k).user.v[r.val] = x.user.landed.v[loc]) ∧
        (let va := canonical (x.user.cpv.setWidth 64) + x.spbase + BitVec.ofNat 64 (128 * r.val)
          ∀ pa, loc = 16 → 128 ≤ room va → u.peek x.user.ctxroot va = some pa →
            (∀ l ∈ linesOf pa 128, u.linePoisoned l = false) →
            (t.tile k).user.v[r.val] = ofBytes 1024 (u.readBytes pa 128)))) ∧
    (∀ g imm, f.ending = none → f.transfer = some (.br g imm) → ∃ t m,
      begins t m jpc (if read.holds g then f.next - 48 + 48 * imm.signExtend 64 else f.next) ∧
        ∀ a, t.readByte a = u.readByte a) ∧
    (∀ g a b, f.ending = none → f.transfer = some (.jr g a) → read.holds g = true →
      (canonical (read.getS a)).toNat % 8 = 0 → s.nativeFor k (canonical (read.getS a)) = some b →
      ∃ t m, begins t m jpc b ∧ ∀ a, t.readByte a = u.readByte a) ∧
    (∀ i w, f.ending = some i → f.transfer = none → slotOf i = some w → endsRegion w.op = true →
      w.op ∉ [Op.fwdGet, .rcall, .sys, .trap, .eret, .nxRend, .nxRyld] →
      let o := ({ s with cur := ⟨k, .user⟩ }).openRegion n f e
      o.mem = u.mem ∧ ∀ m0, o.str.native = some m0 →
      let y := { (o.str.viewed n.view).nativeView with pc := jpc - 8 }
      ∀ t, exec i (o.setStr y) = .next t →
        (t.str.state = .running → ∃ t' m, begins t' m t.str.pc f.next ∧ t'.mem = t.mem ∧
          (∀ j, j ≠ k → t'.tile j = t.tile j) ∧
          (read.holds w.f.guard = true → ∀ r ∈ w.writes, ∃ p ∈ m.pending, p.reg = r ∧ p.val = (pendingOf w t.str 0 r).val)) ∧
        (t.str.state = .waiting → ∃ t' m, exec (.regionCommit k) s = .next t' ∧ t'.mem = t.mem ∧
          (t'.tile k).user.state = .waiting ∧ (t'.tile k).user.wait = t.str.wait ∧ (t'.tile k).user.native = some m ∧
          m.finished = some f ∧ m.buffer = [] ∧ m.opened = true))

/-- R35, R37, R40 to R42: the walker serves the oldest request of its queue, through the root that the requester had; a
shoot-down takes the next generation number for every tile, removes on receipt the translations of its range and address
spaces, and completes once every tile has acknowledged it, which waits for the accesses that the tile has translated
under an entry that the shoot-down removes, and has not performed: buffered writes, lanes of a `vamo`, posts. That a
prefetch walk is checked as a load is the model's choice (log entry 63), and so are what a tile still owes and that a
shoot-down removes global walk entries whatever its space (log entries 18 and 59). -/
def Obligations.Walks_and_shoot_downs_change_the_caches : Prop :=
  ∀ (k : TileId) (v : Word) (s : State),
    let x := s.tile k
    (∃ t, exec (.walk k) s = .next t) ∧ (∃ t, exec (.shootdownReceive k) s = .next t) ∧
    (∃ t, exec (.shootdownAcknowledge k) s = .next t) ∧
    (∀ r rest, x.mmu.queue = r :: rest →
      let acc := if r.prefetch then .load else r.access
      let s0 := s.setTile k { x with mmu := { x.mmu with queue := rest } }
      (r.root.extractLsb' 60 4 = (0 : BitVec 4) → exec (.walk k) s = .next s0) ∧
      (r.root.extractLsb' 60 4 ≠ (0 : BitVec 4) → ∀ p s1,
        walkAndFill s0 k r.who r.root r.va acc (r.who != .control .firmware) = .ok (p, s1) →
        exec (.walk k) s = .next s1) ∧
      (r.root.extractLsb' 60 4 ≠ (0 : BitVec 4) → ∀ c,
        walkAndFill s0 k r.who r.root r.va acc (r.who != .control .firmware) = .error c → exec (.walk k) s = .next s0)) ∧
    (let gen := s.issued + 1;
      exec (.xinval v) s =
        .next { s with issued := gen, shoots := s.shoots ++ [(gen, v, tileIds, tileIds)] }) ∧
    (∀ gen w rs as rest, s.shoots = (gen, w, rs, as) :: rest → k ∈ rs →
      let size : BitVec 4 := w.extractLsb' 8 4
      let pages := if size = 0 then 1 else if size = 1 then 16 else if size = 2 then 2 ^ 9
        else if size = 3 then 2 ^ 18 else if size = 4 then 2 ^ 27 else 2 ^ 36
      let lo := (w.extractLsb' 12 36 : BitVec 36).toNat / pages * pages
      let space (a : BitVec 16) : Bool := w.getLsbD 0 || w.extractLsb' 48 16 == a
      let hit (e : TlbEntry) : Bool :=
        let first := e.vpn.toNat / 2 ^ e.span * 2 ^ e.span
        decide (first < lo + pages ∧ lo < first + 2 ^ e.span) && (if e.g then w.getLsbD 1 else space e.asid)
      ∃ t, exec (.shootdownReceive k) s = .next t ∧
        (t.tile k).mmu.l1 = x.mmu.l1.filter (fun e => !hit e) ∧ (t.tile k).mmu.l2 = x.mmu.l2.filter (fun e => !hit e) ∧
        (t.tile k).mmu.gen = gen ∧ (t.tile k).mmu.unacked = x.mmu.unacked ++ [gen] ∧
        (let again := { x.user with state := .running, wait := .none };
          (t.tile k).user = match x.user.wait with
            | .full _ => again
            | .barrier _ _ => again
            | .signal _ _ _ => again
            | _ => x.user) ∧
        (∀ j, j ≠ k → t.tile j = s.tile j) ∧ t.mem = s.mem) ∧
    let uses (w : Word) (e : Option TlbEntry) : Prop := ∃ t, e = some t ∧ t.removedBy w = true
    let owes (w : Word) : Prop :=
      (∃ l ∈ x.user.vamoTodo ++ x.fw.vamoTodo, uses w l.via) ∨ (∃ n, x.user.native = some n ∧ ∃ b ∈ n.buffer, uses w b.via) ∨
        ∃ p ∈ x.sigQ, uses w p.via
    (∀ gen w rs as rest, x.mmu.unacked = gen :: rest → s.shoots = [(gen, w, rs, as)] → owes w →
      exec (.shootdownAcknowledge k) s = .next s) ∧
    (∀ gen w rs as rest, x.mmu.unacked = gen :: rest → s.shoots = [(gen, w, rs, as)] → ¬ owes w →
      ∃ t, exec (.shootdownAcknowledge k) s = .next t ∧ (t.tile k).mmu.unacked = rest ∧ t.mem = s.mem ∧
        ((∀ j ∈ as, j = k) → t.shoots = [] ∧ t.completed = gen) ∧
        ((∃ j ∈ as, j ≠ k) → t.completed = s.completed))

/-- R101, R105 to R107: a pump context whose turn it is performs one unit of its head command between memory and the
tile's cistern: the bytes of the unit move from the source to the destination, no register of the stream changes, the
command goes on with its next unit or leaves the queue with its number on the timeline counter; a resumed context goes
on at its progress. One unit a step is the model's granularity (log entry 6). -/
def Obligations.Pumps_move_one_unit : Prop :=
  ∀ (k : TileId) (store : Bool) (p : BitVec 2) (c : PumpCmd) (va vb : Word) (pa pb : Nat) (so sp : Bool)
    (s s1 s2 : State),
    let x := s.tile k
    let s0 := s.setTile k (x.setTurn store p)
    let src : Cap := ⟨c.src, true⟩
    let dst : Cap := ⟨c.dst, true⟩
    let fs := src.fields
    let fd := dst.fields
    let offS := c.row * fs.stride + c.byte
    let offD := c.row * fd.stride + c.byte
    let n := min (fs.rowbytes - c.byte) (min (128 - (fs.base + offS) % 128) (128 - (fd.base + offD) % 128))
    let row' := if c.byte + n = fs.rowbytes then c.row + 1 else c.row
    let byte' := if c.byte + n = fs.rowbytes then 0 else c.byte + n
    let flags := c.desc.extractLsb' 2 3
    (s.pumpTurn k store = some p → x.mmu.queue.length ≤ 6 → x.headCmd store p = some c → x.rbusy = false →
      x.frozen = false → x.fault = none → (x.pump p).halt = none →
      (∀ o ∈ s.peerOut, o.tile ≠ k) → c.oweOut = false → c.oweIn = false → flags = (0 : BitVec 3) →
      c.row < fs.rows → c.byte < fs.rowbytes →
      src.check .read (BitVec.ofNat 64 offS).toNat n = none → va = canonical (src.addr (BitVec.ofNat 64 offS)) →
      translate s0 k (.pump p) x.user.ctxroot va .load true = .ok (⟨pa, so⟩, s1) →
      s0.heldUp k (.pump p) x.user.ctxroot va .load true pa = none →
      (regionOf pa = .hbm ∨ inCistern pa = true) →
      dst.check .write (BitVec.ofNat 64 offD).toNat n = none → vb = canonical (dst.addr (BitVec.ofNat 64 offD)) →
      translate s1 k (.pump p) x.user.ctxroot vb .store true = .ok (⟨pb, sp⟩, s2) →
      s1.heldUp k (.pump p) x.user.ctxroot vb .store true pb = none →
      (regionOf pb = .hbm ∨ inCistern pb = true) → clean s2 pa n →
      (if store then cisternTile pa = some k else cisternTile pb = some k) →
      ∃ t, exec (.pumpUnit k store p) s = .next t ∧ (t.tile k).user = x.user ∧
        (let bs := s2.readPart (src.mask x.user.xm) va.toNat pa n;
          ∀ a, t.readByte a = (s2.writePart (dst.mask x.user.xm) vb.toNat pb bs).readByte a) ∧
        (row' < fs.rows → ∃ c', (t.tile k).headCmd store p = some c' ∧ c'.row = row' ∧ c'.byte = byte' ∧
          ((t.tile k).pump p).tlp = (x.pump p).tlp) ∧
        (fs.rows ≤ row' → (x.pump p).done = [] → c.number = (x.pump p).tlp + 1 →
          (∀ d ∈ (cmdsOf (x.queue store) p).tail, d.number ≠ c.number) →
          ((t.tile k).pump p).tlp = c.number ∧ (t.tile k).headCmd store p = (cmdsOf (x.queue store) p)[1]?)) ∧
    (∀ h, (x.pump p).halt = some h → x.frozen = false → (∀ d, x.headCmd h.store p = some d → d.done = false) →
      exec (.pumpResume k p) s = .next (s.setTile k (x.setPump p { x.pump p with halt := none })))

/-- R93, R94, R109, R110, R215, R385, R406 to R408: what arrives from a peer and what a signal post does. Of the packets
that the links have brought, a granted line is written whole and set full, a granted decrement counts in its object,
each with an acceptance; one without a grant changes no memory and is answered with a refusal, which halts the sending
pump; the head post adds to its word. One line a step, and the fields of a refusal's record, are the model's choices
(log entries 36 and 48). -/
def Obligations.Peer_packets_and_posts_take_effect : Prop :=
  ∀ (p : PeerPacket) (s : State),
    let x := s.tile p.tile
    let grant (line : Nat) : Prop := line < 49152 ∧ ∃ e ∈ s.grants.toList, e.getLsbD 127 = true ∧ e.getLsbD 126 = true ∧
      e.extractLsb' 112 8 = p.chip ∧ e.extractLsb' 96 16 = p.job ∧
      (e.extractLsb' 80 8 : BitVec 8).toNat ≤ p.tile.toNat ∧ p.tile.toNat ≤ (e.extractLsb' 88 8 : BitVec 8).toNat ∧
      (e.extractLsb' 48 16 : BitVec 16).toNat ≤ line ∧ line ≤ (e.extractLsb' 64 16 : BitVec 16).toNat
    let answered (t : State) (a : PeerAnswer) : Prop :=
      t.outputs = s.outputs ++ [.answer p.chip p.seq a] ∧ (p.chip, p.seq) ∈ t.seqSeen
    (s.domainV = true → p ∈ s.inbox → (p.chip, p.seq) ∉ s.seqSeen → x.frozen = false → x.rbusy = false →
      (∀ line data, p.body = .line line data →
        let pa := cisternAddr p.tile (128 * line.toNat)
        (grant line.toNat → ∃ t, exec (.peerLineArrival p) s = .next t ∧ answered t .accepted ∧
          t.mem = memWriteBytes s.mem pa (toBytes 128 data) ∧ t.lineEmpty (pa / 128) = false ∧
          t.linePoisoned (pa / 128) = false ∧ t.tiles = s.tiles) ∧
        (¬ grant line.toNat → ∃ t, exec (.peerLineArrival p) s = .next t ∧ answered t .grantRefused ∧
          t.mem = s.mem ∧ t.empty = s.empty ∧ t.tiles = s.tiles)) ∧
      (∀ slot, p.body = .decrement slot →
        let pa := cisternAddr p.tile (16 * slot.toNat)
        let q : Quad := ofBytes 128 (s.readBytes pa 16)
        let inbound : BitVec 20 := q.extractLsb' 72 20
        grant (16 * slot.toNat / 128) → s.lineEmpty (pa / 128) = false → s.linePoisoned (pa / 128) = false →
        inbound ≠ 0 →
        ∃ t, exec (.remoteBarrierDecrement p) s = .next t ∧ answered t .accepted ∧ t.tiles = s.tiles ∧
          t.mem = memWriteBytes s.mem pa (toBytes 16
            (if inbound = 1 ∧ (q.extractLsb' 92 16 : BitVec 16) = 0 ∧ (q.extractLsb' 52 20 : BitVec 20) = 0 then
              ((q.extractLsb' 124 4 : BitVec 4) + 1) ++ q.extractLsb' 108 16 ++ q.extractLsb' 108 16 ++
                q.extractLsb' 32 20 ++ q.extractLsb' 12 20 ++ q.extractLsb' 32 20 ++ q.extractLsb' 12 20 ++
                q.extractLsb' 0 12
            else q.extractLsb' 92 36 ++ (inbound - 1) ++ q.extractLsb' 0 72 : Quad)))) ∧
    (∀ o, o ∈ s.peerOut → o.seq = p.seq → o.chip = p.chip →
      (∀ o' ∈ s.peerOut, o'.seq = p.seq → o'.chip = p.chip → o' = o) →
      (o.pump = none → (s.tile o.tile).frozen = false → ∃ t, exec (.peerErrorResponse p.seq p.chip .accepted) s = .next t ∧
        (t.tile o.tile).sigQ = (s.tile o.tile).sigQ.filter (fun q => q.sent ≠ some p.seq ∨ q.chip ≠ p.chip) ∧
        t.mem = s.mem ∧ o ∉ t.peerOut) ∧
      (∀ k store, o.pump = some (k, store) → (s.tile o.tile).frozen = false → (s.tile o.tile).fault = none →
        ((s.tile o.tile).pump k).halt = none → o.count = false →
        ∃ t, exec (.peerErrorResponse p.seq p.chip .grantRefused) s = .next t ∧ t.mem = s.mem ∧ o ∉ t.peerOut ∧
          ((t.tile o.tile).pump k).halt = some ⟨store, Cause.remoteGrantRefused, true, o.addr⟩)) ∧
    (∀ q rest k, x.sigQ = q :: rest → x.rbusy = false → x.frozen = false → x.fault = none → q.sent = none →
      q.peer = false → x.loadQ = [] → x.storeQ = [] → cisternTile q.pa = some k →
      (s.tile k).frozen = false → (s.tile k).rbusy = false → s.lineEmpty (q.pa / 128) = false →
      s.linePoisoned (q.pa / 128) = false →
      let word : Word := ofBytes 64 (s.readBytes q.pa 8)
      exec (.sigPostPerform p.tile) s =
        .next ((s.store q.pa (toBytes 8 (word + q.amount))).setTile p.tile { x with sigQ := rest }))

/-! ### The matrix engine and the catalogue -/

/-- R261, R268, R80, R244: the matrix routines push the command that their registers describe and return to their
caller; a halted command goes on where it was resumed. The unit of a routine is the model's granularity (log entry 10).
-/
def Obligations.Matrix_routines_push_their_command : Prop :=
  ∀ (k : TileId) (s : State),
    let x := s.str
    let c2 := x.getC (.c 2)
    let c3 := x.getC (.c 3)
    let s8 := x.getS 8
    let s9 := x.getS 9
    let rm : BitVec 3 := s9.extractLsb' 0 3
    let y := s.tile k
    (s8 &&& 0x7FFF000000000000 = 0 → s8.getLsbD 63 = false → pushes .mmWload .mmWload s (.wload c2 c3)) ∧
    (s8 &&& 0x7FFF000000000000 = 0 → s8.getLsbD 63 = true →
      pushes .mmWload .mmWload s (.wloadc c2 (s8.extractLsb' 0 24) (s8.extractLsb' 24 24) c3)) ∧
    (s8 = 0 → pushes .mmWdecode .mmWdecode s (.table c2)) ∧
    (s8 = 1 → pushes .mmWdecode .mmWdecode s (.decode c2 s9 c3)) ∧
    pushes .mmSwap .mmSwap s .swap ∧
    pushes .mmAct .mmAct s (.act c2 c3 s8) ∧
    (rm ≠ 6 → rm ≠ 7 → s9.extractLsb' 5 59 = (0 : BitVec 59) →
      pushes .mmDrain .mmDrain s (.drain c2 c3 s8 (drainMode x rm) (s9.getLsbD 3) (s9.getLsbD 4))) ∧
    pushes .mmZero .mmZero s (.zero (x.getS 4) (x.getS 5)) ∧
    (∀ h, y.mx.halt = some h → y.frozen = false → h.well = false → exec (.matrixResume k) s = .next (s.setTile k { y with
      mx := { y.mx with
        halt := none, begun := false
        rowp := match y.mx.queue.head?.map (·.cmd) with
          | some (MatCmd.wload _ _) => 0
          | _ => y.mx.rowp } })) ∧
    (∀ h, y.mx.halt = some h → y.frozen = false → h.well = true → exec (.decodeResume k) s = .next (s.setTile k { y with
      mx := { y.mx with halt := none, whCause := 0, whState := 1 } }))

/-- R85, R231 to R233, R236 to R241, R244, R320: one unit of the plain commands of the compute queue. WLOAD makes the
shadow bank invalid, stages the scale codes of its format and a zero bank, takes its columns into it one by one, and
with the last column the staged bank is the shadow bank, valid, with weights, format and scales together; SWAP exchanges
two banks of which the shadow is valid, or halts; ACT takes its AK codes, then adds the 128 sums of a row of activations
to an accumulator row; ZERO clears rows; DRAIN writes a row of codes and its scale byte, and then sets full the lines
that it writes no more. A null scale capability supplies 0x7F. No command changes a register, and each that completes
moves its counter. One unit a step, and the order of checks that the spec leaves open, are the model's choices (log
entries 6 and 53); OPND 0 of the halt of a SWAP is log entry 37. -/
def Obligations.Matrix_commands_perform_one_unit : Prop :=
  ∀ (k : TileId) (e : MatEntry) (w sc dst : Cap) (abase count : Word) (rm : Rm) (sat za : Bool) (s : State),
    let x := s.tile k
    let m := x.mx
    let shadow (n : Matrix) : Bank := if n.ab then n.bank0 else n.bank1
    let active : Bank := if m.ab then m.bank1 else m.bank0
    let null : Cap := ⟨0, false⟩
    let codes (f : Fmt) : Nat := if fmtBits f = 16 then 128 else if fmtBits f = 4 then 512 else 256
    let fmtOk (f : Fmt) : Prop := f ≠ 0 ∧ f.toNat < 11
    let invalid (s : State) : State := s.setTile k { x with mx := m.setShadow { shadow m with valid := false } }
    let scales {n : Nat} (xs : List Nat) : BitVec n := ofLanes 8 (xs.map (BitVec.ofNat 8))
    let i := m.rowp
    let row (t : State) (r : Nat) (h : r < 1024) : BitVec 4096 := (t.tile k).mx.acc[r]
    (heads s k .swap e → (shadow m).valid = true → ∃ t, exec (.swap k) s = .next t ∧ retires s t k e ∧
      (t.tile k).mx.ab = !m.ab ∧ (t.tile k).mx.bank0 = m.bank0 ∧ (t.tile k).mx.bank1 = m.bank1 ∧ t.mem = s.mem ∧
      (t.tile k).user.s = x.user.s) ∧
    (heads s k .swap e → (shadow m).valid = false → ∃ t, exec (.swap k) s = .next t ∧
      (t.tile k).mx.halt = some ⟨Cause.matrixBankNotLoaded, 0, 0, false⟩ ∧ (t.tile k).mx.queue = m.queue ∧
      (t.tile k).mx.ab = m.ab ∧ t.mem = s.mem) ∧
    (heads s k (.zero abase count) e → abase.toNat + count.toNat ≤ 1024 →
      ∃ t, exec (.zero k) s = .next t ∧ retires s t k e ∧ t.mem = s.mem ∧ (t.tile k).user.s = x.user.s ∧
        ∀ r (h : r < 1024), row t r h =
          if abase.toNat ≤ r ∧ r < abase.toNat + count.toNat then 0 else row s r h) ∧
    (∀ off n u, M.scaleBytes k null off n u = .ok (List.replicate n 0x7F) u) ∧
    (heads s k (.wload w sc) e → m.begun = false → m.rowp = 0 → fmtOk w.fields.fmt → w.fields.rows = 128 →
      w.fields.rowbytes * 8 = codes w.fields.fmt * fmtBits w.fields.fmt →
      let nk := codes w.fields.fmt / blockCodes w.fields.fmt
      ∀ wk wn s1 s2, M.scaleBytes k sc 0 nk (invalid s) = .ok wk s1 → M.scaleBytes k sc nk 128 s1 = .ok wn s2 →
      ∃ t, exec (.wload k) s = .next t ∧ stays s t k 0 ∧ (shadow (t.tile k).mx).valid = false ∧ t.mem = s2.mem ∧
        (t.tile k).user.s = x.user.s ∧
        (t.tile k).mx.stage = ⟨Vector.replicate 128 0, w.fields.fmt, scales wk, scales wn, true⟩) ∧
    (heads s k (.wload w sc) e → m.begun = true → ∀ bs s1, i ≤ 127 → M.engineRow k w i s = .ok bs s1 →
      let column (n : Nat) (h : n < 128) : BitVec 2048 :=
        if n = i then m.stage.w[n] ||| ofBytes 2048 bs else m.stage.w[n]
      ∃ t, exec (.wload k) s = .next t ∧ t.mem = s1.mem ∧ (t.tile k).user.s = x.user.s ∧
        (i < 127 → stays s t k (i + 1) ∧ (t.tile k).mx.stage = { m.stage with w := (t.tile k).mx.stage.w } ∧
          ∀ n (h : n < 128), (t.tile k).mx.stage.w[n] = column n h) ∧
        (i = 127 → retires s t k e ∧ (shadow (t.tile k).mx).valid = m.stage.valid ∧
          (shadow (t.tile k).mx).fmt = m.stage.fmt ∧ (shadow (t.tile k).mx).wk = m.stage.wk ∧
          (shadow (t.tile k).mx).wn = m.stage.wn ∧
          ∀ n (h : n < 128), (shadow (t.tile k).mx).w[n] = column n h)) ∧
    (heads s k (.act w sc abase) e → w.fields.rows = 0 →
      ∃ t, exec (.act k) s = .next t ∧ retires s t k e ∧ (t.tile k).mx.acc = m.acc ∧ t.mem = s.mem) ∧
    (heads s k (.act w sc abase) e → w.fields.rows ≠ 0 → m.begun = false → active.valid = true →
      fmtOk w.fields.fmt → pairFormat w.fields.fmt active.fmt ≠ none →
      w.fields.rowbytes * 8 = codes active.fmt * fmtBits w.fields.fmt → abase.toNat + w.fields.rows ≤ 1024 →
      ∀ ak s1, M.scaleBytes k sc 0 (codes active.fmt / blockCodes w.fields.fmt) s = .ok ak s1 →
      ∃ t, exec (.act k) s = .next t ∧ stays s t k i ∧ (t.tile k).mx.acc = m.acc ∧ t.mem = s1.mem ∧
        (t.tile k).user.s = x.user.s ∧ (t.tile k).mx.ak = scales ak) ∧
    (heads s k (.act w sc abase) e → m.begun = true → ∀ bs am s1 s2, i < w.fields.rows →
      M.engineRow k w i s = .ok bs s1 →
      M.scaleBytes k sc (codes active.fmt / blockCodes w.fields.fmt + i) 1 s1 = .ok [am] s2 →
      ∀ (ha : abase.toNat + i < 1024),
      let r := actRow active w.fields.fmt m.ak am (natOfBytes bs) (row s (abase.toNat + i) ha)
      ∃ t, exec (.act k) s = .next t ∧ t.mem = s2.mem ∧ row t (abase.toNat + i) ha = r.1 ∧
        (∀ n (h : n < 1024), n ≠ abase.toNat + i → row t n h = row s n h) ∧
        (i + 1 < w.fields.rows → stays s t k (i + 1) ∧ (t.tile k).mx.flags = m.flags ||| r.2) ∧
        (i + 1 = w.fields.rows → retires s t k e ∧
          (t.tile k).user.fpctl = x.user.fpctl ||| (m.flags ||| r.2).setWidth 32)) ∧
    (heads s k (.drain dst sc abase rm sat za) e → dst.fields.rows = 0 →
      ∃ t, exec (.drain k) s = .next t ∧ retires s t k e ∧ (t.tile k).mx.acc = m.acc ∧ t.mem = s.mem) ∧
    (heads s k (.drain dst sc abase rm sat za) e → dst.fields.rows ≠ 0 → m.begun = false → dst.fields.fmt.toNat < 11 →
      dst.fields.rowbytes * 8 = 128 * fmtBits dst.fields.fmt → abase.toNat + dst.fields.rows ≤ 1024 →
      ∃ t, exec (.drain k) s = .next t ∧ stays s t k i ∧ (t.tile k).mx.acc = m.acc ∧ t.mem = s.mem) ∧
    (heads s k (.drain dst sc abase rm sat za) e → m.begun = true → ∀ ls ls' s1 s2, i < dst.fields.rows →
      ∀ (ha : abase.toNat + i < 1024),
      let q := quantRow dst.fields.fmt (resolve rm 0) sat (rowValues (row s (abase.toNat + i) ha))
      let data := toBytes (16 * fmtBits dst.fields.fmt) (BitVec.ofNat 4096 (packCodes dst.fields.fmt q.2.1))
      M.drainWrite k dst (i * dst.fields.stride) data s = .ok ls s1 →
      (if sc.isNull then ls' = [] ∧ s2 = s1 else M.drainWrite k sc i [BitVec.ofNat 8 q.1] s1 = .ok ls' s2) →
      let later (l : Nat) : Bool := s2.rowsTouch x.user.ctxroot dst.fields (i + 1) dst.fields.rows l ||
        s2.scalesTouch x.user.ctxroot sc (i + 1) dst.fields.rows l
      ∃ t, exec (.drain k) s = .next t ∧ t.mem = s2.mem ∧
        (∀ l, t.lineEmpty l = true ↔ s2.lineEmpty l = true ∧ ¬(l ∈ ls ++ ls' ∧ later l = false)) ∧
        (∀ n (h : n < 1024), row t n h = if za ∧ n = abase.toNat + i then 0 else row s n h) ∧
        (i + 1 < dst.fields.rows → stays s t k (i + 1) ∧ (t.tile k).mx.flags = m.flags ||| q.2.2) ∧
        (i + 1 = dst.fields.rows → retires s t k e ∧
          (t.tile k).user.fpctl = x.user.fpctl ||| (m.flags ||| q.2.2).setWidth 32))

/-- R67, R68, R70, R73, R75, R77, R80, R81, R231, R233: one unit of the wellhead's commands. TABLE, WLOADC and DECODE
check the header of the coded tensor, and a bad one changes neither bank; TABLE then holds the tables that it has
loaded; WLOADC makes the shadow bank invalid and stages its scales and a zero bank of the tensor's format, and takes the
tables to decode with, as DECODE does; then both go on segment by segment. The sixteen rows of segment q of WLOADC's
first tile are the low part of columns 16q to 16q + 15, those of its second tile the part above it, and with the last
segment the staged bank is the shadow bank, valid; DECODE writes the rows of its destination. One unit a step, and the
widths of its reads, are the model's choices (log entries 6 and 53), that the tables are taken at the start is log entry
65. -/
def Obligations.Wellhead_commands_perform_one_unit : Prop :=
  ∀ (k : TileId) (e : MatEntry) (hdr sc dst : Cap) (t0 t1 : BitVec 24) (tile : Word) (h : BitVec 512) (s s0 s1 : State),
    let x := s.tile k
    let m := x.mx
    let shadow (n : Matrix) : Bank := if n.ab then n.bank0 else n.bank1
    let f := (codedHeader h).fmt
    (heads s k (.table hdr) e → M.wellStart k 0 s = .ok () s0 → M.wellHeader k hdr [] s0 = .ok h s1 →
      ∀ s2, ((List.range (codedHeader h).ntab).forM (M.loadTable k hdr (codedHeader h))) s1 = .ok () s2 →
      ∃ t, exec (.table k) s = .next t ∧ retires s t k e ∧ (t.tile k).mx.slots = (s2.tile k).mx.slots ∧
        (t.tile k).mx.mask = (s2.tile k).mx.mask ∧ (t.tile k).mx.header = h ∧ t.mem = s2.mem) ∧
    (heads s k (.wloadc hdr t0 t1 sc) e → m.begun = false → m.rowp = 0 →
      M.wellStart k t0 s = .ok () s0 → M.wellHeader k hdr [t0.toNat, t1.toNat] s0 = .ok h s1 →
      let m1 := (s1.tile k).mx
      let s1' := s1.setTile k { s1.tile k with mx := m1.setShadow { shadow m1 with valid := false } }
      let nk := (if fmtBits f = 16 then 128 else if fmtBits f = 4 then 512 else 256) / blockCodes f
      ∀ wk wn s2 s3, M.scaleBytes k sc 0 nk s1' = .ok wk s2 → M.scaleBytes k sc nk 128 s2 = .ok wn s3 →
      ∃ t, exec (.wloadc k) s = .next t ∧ stays s t k 0 ∧ (t.tile k).mx.header = h ∧
        (shadow (t.tile k).mx).valid = false ∧ t.mem = s3.mem ∧ (t.tile k).user.s = x.user.s ∧
        (t.tile k).mx.heldSlots = m.slots ∧ (t.tile k).mx.heldMask = m.mask ∧
        (t.tile k).mx.stage = ⟨Vector.replicate 128 0, f, ofLanes 8 (wk.map (BitVec.ofNat 8)),
          ofLanes 8 (wn.map (BitVec.ofNat 8)), true⟩) ∧
    (heads s k (.wloadc hdr t0 t1 sc) e → m.begun = false → M.wellStart k t0 s = .ok () s0 → ∀ cause addr o,
      M.wellHeader k hdr [t0.toNat, t1.toNat] s0 = .error (.trap cause addr o) s1 →
      ∃ t, exec (.wloadc k) s = .next t ∧ (t.tile k).mx.bank0 = m.bank0 ∧ (t.tile k).mx.bank1 = m.bank1 ∧
        (t.tile k).mx.acc = m.acc ∧ t.mem = s1.mem ∧
        (t.tile k).mx.halt = some ⟨cause, 2, addr, true⟩) ∧
    (heads s k (.wloadc hdr t0 t1 sc) e → m.begun = true → ∀ q rows,
      M.wellSegment k hdr (if m.whSecond then t1 else t0).toNat s = .ok (q, rows) s1 → q = m.whSeg.toNat →
      let up := if m.whSecond then 8 * (if fmtBits (codedHeader m.header).fmt = 6 then 96 else 128) else 0
      let column (n : Nat) (h : n < 128) : BitVec 2048 :=
        if 16 * q ≤ n ∧ n < 16 * q + 16 then m.stage.w[n] ||| (ofBytes 2048 (rows.getD (n - 16 * q) []) <<< up)
        else m.stage.w[n]
      let staged (b : Bank) : Prop := b = { m.stage with w := b.w } ∧ ∀ n (h : n < 128), b.w[n] = column n h
      ∃ t, exec (.wloadc k) s = .next t ∧ t.mem = s1.mem ∧ (t.tile k).user.s = x.user.s ∧
        (q < 7 → stays s t k m.rowp ∧ (t.tile k).mx.whSeg = m.whSeg + 1 ∧ staged (t.tile k).mx.stage) ∧
        (q = 7 → m.whSecond = false → stays s t k m.rowp ∧ (t.tile k).mx.whSecond = true ∧ (t.tile k).mx.whSeg = 0 ∧
          staged (t.tile k).mx.stage) ∧
        (q = 7 → m.whSecond = true → retires s t k e ∧ staged (shadow (t.tile k).mx))) ∧
    (heads s k (.decode hdr tile dst) e → m.begun = false → m.rowp = 0 →
      M.wellStart k (tile.setWidth 24) s = .ok () s0 → M.wellHeader k hdr [tile.toNat] s0 = .ok h s1 →
      dst.fields.rows = 128 → dst.fields.rowbytes = (if fmtBits f = 6 then 96 else 128) →
      ∃ t, exec (.decode k) s = .next t ∧ stays s t k 0 ∧ (t.tile k).mx.header = h ∧ t.mem = s1.mem ∧
        (t.tile k).mx.heldSlots = m.slots ∧ (t.tile k).mx.heldMask = m.mask) ∧
    (heads s k (.decode hdr tile dst) e → m.begun = true → ∀ q rows s2,
      M.wellSegment k hdr tile.toNat s = .ok (q, rows) s1 → q = m.whSeg.toNat →
      M.deliverRows k dst q rows s1 = .ok () s2 →
      ∃ t, exec (.decode k) s = .next t ∧ t.mem = s2.mem ∧ t.empty = s2.empty ∧
        (q < 7 → stays s t k m.rowp ∧ (t.tile k).mx.whSeg = m.whSeg + 1) ∧ (q = 7 → retires s t k e))

/-- R46, R253, R259, R263 to R265, R270 to R277, R279, R281, R284: the routines of the catalogue that make a row of one
row. Each of their units, from the entry or a yield point to the next yield point or the return, makes its rows in
order: each row reads the row of the source, writes the row that the routine's table gives to the destination, and
raises the flags. The first unit passes the entry checks, or raises the cause of one that fails, and stores the header;
one that is not the last stores its progress; the last returns. The unit of a routine is the model's granularity (log
entry 10), at which words checks are raised and that 0xF is raw bytes for a copy are its readings (log entries 19 and
68), and so are corner values (log entry 38). -/
def Obligations.Row_routines_write_their_row : Prop :=
  ∀ (s : State),
    let x := s.str
    let c2 := x.getC (.c 2)
    let c3 := x.getC (.c 3)
    let d := c2.fields
    let c := c3.fields
    let m := x.mode .dyn
    let s8 := x.getS 8
    let raw (f : Fmt) : Prop := isFormat f = true ∨ f = 0xF
    let shape : Prop := d.rows = c.rows ∧ d.rowbytes = c.rowbytes
    let rounds (v : Word) : Prop := v.extractLsb' 0 3 ≠ (6 : BitVec 3) ∧ v.extractLsb' 0 3 ≠ (7 : BitVec 3) ∧ v.toNat < 16
    let n := c.rowbytes * 8 / fmtBits c.fmt
    let fp (f : List (BitVec 32) → List Fp) (bs : List Byte) : List Byte × BitVec 5 :=
      (((f (words32 bs)).map fun r => r.1).flatMap (toBytes 4), (f (words32 bs)).foldl (fun u r => u ||| r.2) 0)
    let one (f : List (BitVec 32) → Fp) (bs : List Byte) : List Byte × BitVec 5 :=
      (toBytes 4 (f (words32 bs)).1, (f (words32 bs)).2)
    let reduces : Prop := d.rows = c.rows ∧ 4 ≤ d.rowbytes ∧ c.rowbytes ≠ 0 ∧ c.rowbytes % 128 = 0
    let elems : Prop := shape ∧ c.rowbytes % 4 = 0
    mapsRow .tileCopy .tileCopy s (raw d.fmt ∧ raw c.fmt ∧ shape) c2 c3 (fun bs => (bs, 0)) ∧
    mapsRow .tileCvt .tileCvt s (isFormat d.fmt = true ∧ isFormat c.fmt = true ∧ rounds s8 ∧ d.rows = c.rows ∧
      c.rowbytes * 8 = n * fmtBits c.fmt ∧ d.rowbytes * 8 = n * fmtBits d.fmt) c2 c3 (fun bs =>
        convertRow c.fmt d.fmt (x.mode (Rm.ofBits (s8.extractLsb' 0 3))) (s8.getLsbD 3) n bs) ∧
    mapsRow .scanAdd .scanAdd s (shape ∧ c.rowbytes % 128 = 0) c2 c3
      (fp fun xs => scanRow (scanAddChunk m) true 0 (rowChunks xs)) ∧
    mapsRow .redSum .redSum s reduces c2 c3 (one (reduceRow .add m)) ∧
    mapsRow .redMax .redMax s reduces c2 c3 (one (reduceRow .max m)) ∧
    mapsRow .redAmax .redAmax s reduces c2 c3 (one (reduceRow .amax m)) ∧
    mapsRow .ewExp .ewExp s elems c2 c3 (fp fun xs => xs.map (elemFn .exp)) ∧
    mapsRow .ewSigmoid .ewSigmoid s elems c2 c3 (fp fun xs => xs.map (elemFn .sigmoid)) ∧
    mapsRow .ewSilu .ewSilu s elems c2 c3 (fp fun xs => xs.map (elemFn .silu)) ∧
    mapsRow .ewGelu .ewGelu s elems c2 c3 (fp fun xs => xs.map (elemFn .gelu)) ∧
    mapsRow .ewRsqrt .ewRsqrt s elems c2 c3 (fp fun xs => xs.map (elemFn .rsqrt)) ∧
    mapsRow .softmaxRow .softmaxRow s (shape ∧ c.rowbytes % 128 = 0) c2 c3 (fun bs =>
      let top := reduceRow .max .rne (words32 bs)
      let es := (words32 bs).map fun v => thenFp (elemFn .exp) (fsub32 .rne v top.1)
      let sum := chunkSum (rowChunks es)
      let y := es.map fun (e : Fp) => fdiv32 .rne e.1 sum.1
      (bytes32 (values y), top.2 ||| sum.2 ||| flagsOf es ||| flagsOf y)) ∧
    mapsRow .hashMul .hashMul s ((x.getS 9).toNat ≤ 63 ∧ shape ∧ c.rowbytes % 8 = 0) c2 c3 (fun bs =>
      ((words64 bs).flatMap fun key => toBytes 8 (key * s8 ^^^ (key * s8) >>> (x.getS 9).toNat), 0)) ∧
    rowwise .accAddrow .accAddrow s d.rows (d.rowbytes = 512 ∧ s8.toNat + d.rows ≤ 1024) (fun k u v =>
      ∃ bs u1, M.readRow c2 k 0 d.rowbytes u = .ok bs u1 ∧
        let r := s8.toNat + k
        let y := List.zipWith (fadd32 .rne) (rowValues (u1.here.mx.row r)) (words32 bs)
        v = raised (u1.setTile s.cur.tile { u1.here with
          mx := u1.here.mx.setRow r (ofLanes 32 (y.map fun z => z.1)) }) (flagsOf y)) ∧
    unitOf .scaleFold .scaleFold 16 s d.rows (d.rowbytes ≠ 0 ∧ d.rowbytes % 128 = 0) (fun u v => v = u)
      (fun k a u b v => ∃ bs u1, M.readRow c2 k 0 d.rowbytes u = .ok bs u1 ∧
        let y := reduceRow .amax .rne (words32 bs)
        b = BitVec.ofNat 64 (max a.toNat y.1.toNat) ∧ v = raised u1 y.2)
      (fun a u v => ∃ p old u1, M.atomicPart c3 .atomic 0 4 4 .atomic u = .ok p u1 ∧
        let top : BitVec 32 := a.setWidth 32
        M.rmw p (fun bs => some (toBytes 4 (if (ofBytes 32 bs : BitVec 32).toNat < top.toNat then top else ofBytes 32 bs)))
          u1 = .ok old v)

/-- R46, R253, R259, R263 to R265, R270 to R272, R276, R278, R280, R282 to R284, R386: the routines of the catalogue
whose row comes from several operands, in each of their units as in the statement before, and the decoding of one
segment: reads in the order of their tables, then the writes. The unit of a routine is the model's granularity (log
entry 10), at which words checks are raised and that 0xF is raw bytes for a transpose, a gather and a scatter are its
readings (log entries 19 and 68), and so are corner values (log entry 38) and how an element of `tile.ldscale` that is
no byte is read (log entry 29). -/
def Obligations.Row_routines_of_several_operands : Prop :=
  ∀ (s : State),
    let x := s.str
    let cap (n : BitVec 5) : Cap := x.getC (.c n)
    let d := (cap 2).fields
    let c := (cap 3).fields
    let b := (cap 4).fields
    let m := x.mode .dyn
    let s8 := x.getS 8
    let s10 := x.getS 10
    let raw (f : Fmt) : Prop := isFormat f = true ∨ f = 0xF
    let shape (p q : CapFields) : Prop := p.rows = q.rows ∧ p.rowbytes = q.rowbytes
    let same (u v : State) : Prop := v = u
    let writes (k : Nat) (y : List Fp) (fl : BitVec 5) (u v : State) : Prop :=
      ∃ u1, M.writeRow (cap 2) k 0 (bytes32 (values y)) u = .ok () u1 ∧ v = raised u1 fl
    rowwise .tileTranspose .tileTranspose s d.rows (raw d.fmt ∧ raw c.fmt ∧
        (s8 = 1 ∨ s8 = 2 ∨ s8 = 4 ∨ s8 = 8) ∧ c.rowbytes % s8.toNat = 0 ∧ d.rows = c.rowbytes / s8.toNat ∧
        d.rowbytes = c.rows * s8.toNat) (fun k u v =>
      ∃ parts u1, ((List.range c.rows).mapM fun j => M.readRow (cap 3) j (k * s8.toNat) s8.toNat) u = .ok parts u1 ∧
        M.writeRow (cap 2) k 0 parts.flatten u1 = .ok () v) ∧
    rowwise .tileGather .tileGather s d.rows (raw d.fmt ∧ raw c.fmt ∧ d.rowbytes = c.rowbytes) (fun k u v =>
      ∃ (j : BitVec 32) (bs : List Byte) (u1 u2 : State), M.readWord (cap 4) k u = .ok j u1 ∧
        M.readRow (cap 3) j.toNat 0 c.rowbytes u1 = .ok bs u2 ∧ M.writeRow (cap 2) k 0 bs u2 = .ok () v) ∧
    rowwise .tileScatter .tileScatter s c.rows (raw d.fmt ∧ raw c.fmt ∧ d.rowbytes = c.rowbytes) (fun k u v =>
      ∃ (j : BitVec 32) (bs : List Byte) (u1 u2 : State), M.readWord (cap 4) k u = .ok j u1 ∧
        M.readRow (cap 3) k 0 c.rowbytes u1 = .ok bs u2 ∧ M.writeRow (cap 2) j.toNat 0 bs u2 = .ok () v) ∧
    unitOf .tileLdscale .tileLdscale 1 s c.rows (isFormat c.fmt = true ∧ d.rows = c.rows ∧ d.rowbytes % 4 = 0 ∧
        c.rowbytes * 8 = d.rowbytes / 4 * fmtBits c.fmt)
      (fun u v => stores u (x.getC .cpv) (x.getS 2 - 4080)
        (toBytes 8 (x.getS 12) ++ toBytes 8 (x.getS 13) ++ toBytes 8 (x.getS 14) ++ toBytes 8 (x.getS 15)) 1 v)
      (fun k a u b v => b = a ∧ rowsFrom (fun j (_ : Unit) u (_ : Unit) v =>
        let place := codePlace c.fmt j
        ∃ (code rs cs : List Byte) (u1 u2 u3 : State),
          M.readRow (cap 3) k place.1 place.2.1 u = .ok code u1 ∧ M.readAt (cap 4) k 1 u1 = .ok rs u2 ∧
          M.readAt (cap 5) j 1 u2 = .ok cs u3 ∧
          let r := expanded m (expandElem c.fmt (natOfBytes code / 2 ^ place.2.2 % 2 ^ fmtBits c.fmt) (natOfBytes rs)
            (natOfBytes cs))
          k < d.rows ∧ stores (raised u3 r.2) (cap 2) (BitVec.ofNat 64 (k * d.stride + 4 * j)) (toBytes 4 r.1) 1 v)
        (d.rowbytes / 4) 0 () u () v)
      (fun _ => same) ∧
    rowwise .scanAffine .scanAffine s c.rows (shape d c ∧ shape d b ∧ c.rowbytes % 128 = 0) (fun k u v =>
      ∃ (as bs : List Byte) (carry : BitVec 32) (u1 u2 u3 : State), M.readRow (cap 3) k 0 c.rowbytes u = .ok as u1 ∧
        M.readRow (cap 4) k 0 b.rowbytes u1 = .ok bs u2 ∧
        ((cap 5).isNull = true ∧ carry = 0 ∧ u3 = u2 ∨ (cap 5).isNull = false ∧ M.readWord (cap 5) k u2 = .ok carry u3) ∧
        let y := affineRow m (!(cap 5).isNull) carry
          (List.zipWith List.zip (rowChunks (words32 as)) (rowChunks (words32 bs)))
        writes k y (flagsOf y) u3 v) ∧
    rowwise .normRms .normRms s c.rows (shape d c ∧ c.rowbytes % 128 = 0 ∧ c.rowbytes ≤ b.rowbytes ∧ 1 ≤ b.rows) (fun k u v =>
      ∃ (as bs : List Byte) (u1 u2 : State), M.readRow (cap 3) k 0 c.rowbytes u = .ok as u1 ∧
        M.readRow (cap 4) 0 0 c.rowbytes u1 = .ok bs u2 ∧
        let xs := words32 as
        let r := normFactor (c.rowbytes / 4) (s10.setWidth 32) (squareSum ((rowChunks xs).map pure32))
        let y := List.zipWith (fun v g => thenFp (fun t => fmul32 .rne t g) (fmul32 .rne v r.1)) xs (words32 bs)
        writes k y (r.2 ||| flagsOf y) u2 v) ∧
    rowwise .normLayer .normLayer s c.rows (shape d c ∧ c.rowbytes % 128 = 0 ∧ c.rowbytes ≤ b.rowbytes ∧ 2 ≤ b.rows)
      (fun k u v =>
      ∃ (as bs ds : List Byte) (u1 u2 u3 : State), M.readRow (cap 3) k 0 c.rowbytes u = .ok as u1 ∧
        M.readRow (cap 4) 0 0 c.rowbytes u1 = .ok bs u2 ∧ M.readRow (cap 4) 1 0 c.rowbytes u2 = .ok ds u3 ∧
        let xs := words32 as
        let wide := (ofInt32 .rne (c.rowbytes / 4 : Nat)).1
        let mu := thenFp (fun t => fdiv32 .rne t wide) (chunkSum (rowChunks (pure32 xs)))
        let dif := xs.map fun v => fsub32 .rne v mu.1
        let r := normFactor (c.rowbytes / 4) (s10.setWidth 32) (squareSum (rowChunks dif))
        let y := List.zipWith (fun (v : Fp) (p : BitVec 32 × BitVec 32) =>
          thenFp (fun t => fma32 .rne t p.1 p.2) (fmul32 .rne v.1 r.1)) dif (List.zip (words32 bs) (words32 ds))
        writes k y (mu.2 ||| r.2 ||| flagsOf dif ||| flagsOf y) u3 v) ∧
    (let ok := shape d c ∧ shape d b ∧ d.rowbytes % 4 = 0 ∧ d.rowbytes ≤ (cap 5).fields.rowbytes
     refuses .ssmChunk .ssmChunk s ok ∧
     ∀ f rest hs y s0 s1 s2, s.str.calls = f :: rest → f.native = some .ssmChunk → starts s f ok s0 →
       (if f.prog = 0 then M.readRow (cap 5) 0 0 d.rowbytes s0 else M.readRow (cap 2) (f.prog - 1) 0 d.rowbytes s0)
         = .ok hs s1 →
       let last := min d.rows ((f.prog / 16 + 1) * 16)
       rowsFrom (fun k h u h' v => ∃ (as bs : List Byte) (u1 u2 : State), M.readRow (cap 3) k 0 c.rowbytes u = .ok as u1 ∧
         M.readRow (cap 4) k 0 b.rowbytes u1 = .ok bs u2 ∧
         let y := List.zipWith (fun (p : BitVec 32 × BitVec 32) v => fma32 .rne p.1 p.2 v)
           (List.zip (words32 as) h) (words32 bs)
         h' = values y ∧ writes k y (flagsOf y) u2 v) (last - f.prog) f.prog (words32 hs) s1 y s2 →
       ends .ssmChunk s f rest last d.rows 0 s2
         (fun t => if d.rows = 0 then t = s2 else M.writeRow (cap 5) 0 0 (bytes32 y) s2 = .ok () t)) ∧
    rowwise .quantRow .quantRow s b.rows (isFormat d.fmt = true ∧ s10.extractLsb' 0 3 ≠ (6 : BitVec 3) ∧
        s10.extractLsb' 0 3 ≠ (7 : BitVec 3) ∧ s10.toNat < 16 ∧ d.rows = b.rows ∧
        d.rowbytes * 8 = b.rowbytes / 4 * fmtBits d.fmt) (fun k u v =>
      ∃ (as : List Byte) (u1 u2 u3 : State), M.readRow (cap 4) k 0 b.rowbytes u = .ok as u1 ∧
        let q := quantRow d.fmt (x.mode (Rm.ofBits (s10.extractLsb' 0 3))) (s10.getLsbD 3) (words32 as)
        let n := (words32 as).length
        M.writeRow (cap 2) k 0 (toBytes (fmtBytes n d.fmt) (BitVec.ofNat (n * fmtBits d.fmt) (packCodes d.fmt q.2.1))) u1
          = .ok () u2 ∧
        ((cap 3).isNull = true ∧ u3 = u2 ∨
          (cap 3).isNull = false ∧ M.writeAt (cap 3) k [BitVec.ofNat 8 q.1] u2 = .ok () u3) ∧
        v = raised u3 q.2.2) ∧
    rowwise .topkRow .topkRow s b.rows (1 ≤ s10.toNat ∧ s10.toNat ≤ b.rowbytes / 4 ∧ d.rows = b.rows ∧ c.rows = b.rows ∧
        d.rowbytes = 4 * s10.toNat ∧ c.rowbytes = 4 * s10.toNat) (fun k u v =>
      ∃ (as : List Byte) (u1 u2 : State), M.readRow (cap 4) k 0 b.rowbytes u = .ok as u1 ∧
        let top := topRanks s10.toNat (words32 as)
        M.writeRow (cap 2) k 0 (bytes32 (top.map (·.1))) u1 = .ok () u2 ∧
        M.writeRow (cap 3) k 0 (bytes32 (top.map fun v => BitVec.ofNat 32 v.2)) u2 = .ok () v) ∧
    (∀ f rest s1 s2 s3 s4 s5, s.str.calls = f :: rest → f.native = some .decodeSeg → (x.getS 9).toNat ≤ 7 →
      header s 0 0 s1 → ∀ h e sym,
      let dec := streamCoder (cap 2)
      let g := (codedHeader h).fmt
      let q := (x.getS 9).toNat
      dec.header s1 = .ok h s2 → s8.toNat < (codedHeader h).trows * (codedHeader h).tcols → c.rows = 16 →
      c.rowbytes = (if fmtBits g = 6 then 96 else 128) → dec.entry h s8.toNat s2 = .ok e s3 →
      dec.segment s1.here.mx.slots s1.here.mx.mask g e q (segmentAt h e q) s3 = .ok sym s4 →
      ((List.range 16).forM fun r => M.writeRow (cap 3) r 0 (segmentRow g sym r)) s4 = .ok () s5 →
      exec .decodeSeg s = returns f rest s5 0)

/-! ### The well-house, deadlines and traps -/

/-- R93, R95, R332, R333, R337, R339, R350, R351: the registers of the well-house. `SUBMIT` queues a record or sets the
overflow bit, the event words set and clear events, `HOLD` returns the context's staged nodes to Admitted with their
wait bits or releases it, a group entry is refused where it may not be valid, only a firmware context writes a grant
entry, the gang slot of the present time comes into force, and pre-emption saves the carry registers under the virtual
position, which is the group and the virtual index, and withdraws the grants. That a valid entry takes writes of `MEM`
(log entry 41), that a gang register takes force at once (log entry 44), how carry registers are kept and which nodes
continue no more (log entry 54) are the model's readings. -/
def Obligations.Well_house_registers_act : Prop :=
  ∀ (cx : CtxId) (k : TileId) (w : BitVec 2) (e8 : BitVec 8) (e6 dbl : BitVec 6) (v : Word) (q : Quad) (agent : Agent)
    (s : State),
    let c := s.ctx cx
    let x := s.tile k
    let g := s.groups[e8.toNat]'e8.isLt
    let at_ : BitVec 256 := v.setWidth 256 <<< (64 * w.toNat)
    (exec (.submit cx v) s = .next (s.setCtx cx
      (if v.extractLsb' 48 16 = (0 : BitVec 16) ∧ v.extractLsb' 0 6 = (0 : BitVec 6) ∧ c.subQ.length < 64 then
        { c with subQ := c.subQ ++ [v] } else { c with ovf := true }))) ∧
    exec (.evset cx w v) s = .next (s.setCtx cx { c with events := c.events ||| at_ }) ∧
    exec (.evclr cx w v) s = .next (s.setCtx cx { c with events := c.events &&& ~~~at_ }) ∧
    (v.getLsbD 0 = false → s.gsperiod = 0 →
      exec (.hold cx v) s = .next (s.setCtx cx { c with hold := false, quiet := [] })) ∧
    (v.getLsbD 0 = true → ∃ t, exec (.hold cx v) s = .next t ∧ (t.ctx cx).hold = true ∧ t.mem = s.mem ∧
      ∀ n ∈ s.nodes, n.ctx = cx → n.state = .dispatched →
        (∃ m ∈ t.nodes, m.serial = n.serial ∧ m.state = .admitted ∧ m.tiles = []) ∧
        (t.ctx cx).events &&& n.wait = n.wait ∧
        ∀ j sh, (t.tile j).shadow = some sh → sh.serial ≠ n.serial) ∧
    (let g' : Group := { g with
        valid := v.getLsbD 63, err := false, ctx := v.extractLsb' 56 6, ghm1 := v.extractLsb' 8 8,
        gwm1 := v.extractLsb' 0 8 };
      let new : Group :=
        if v.getLsbD 63 = true ∧ s.groupOk e8 g' = false then { g' with valid := false, err := true } else g';
      exec (.groupTableWrite e8 0 v) s = .next { s with groups := s.groups.set e8.toNat new e8.isLt }) ∧
    (dbl ≠ 0 → ∃ t, exec (.groupTableWrite e8 dbl v) s = .next t ∧ t.tiles = s.tiles ∧ t.mem = s.mem ∧
      let g' := t.groups[e8.toNat]'e8.isLt
      g'.valid = g.valid ∧ g'.err = false ∧ g'.ctx = g.ctx ∧
      ∀ i (h : i < 256), g'.mem[i] = if i / 8 + 1 = dbl.toNat then v.extractLsb' (8 * (i % 8)) 8 else g.mem[i]) ∧
    exec (.grantTableWrite agent e6 q) s = .next
      (match agent with
        | .firmware _ =>
          { s with grants := s.grants.set e6.toNat (q &&& 0xE0FFFFFFFFFFFFFFFFFF000000000000) e6.isLt }
        | _ => s) ∧
    (∃ t, exec .gangSlotEdge s = .next t ∧ t.mem = s.mem ∧
      t.gslot = if s.gsperiod = 0 ∨ s.dtime.toNat < s.gsbase.toNat then 0
        else (s.dtime.toNat - s.gsbase.toNat) / s.gsperiod.toNat % 64) ∧
    (s.ctxHeld cx = true → x.lastCtx = some cx → x.node = none → x.shadow = none → x.loadQ = [] → x.storeQ = [] →
      x.mx.queue = [] → x.sigQ = [] → k ∉ c.quiet → x.frozen = false →
      ∃ t, exec (.preemption cx k) s = .next t ∧ k ∈ (t.ctx cx).quiet ∧ t.tiles = s.tiles ∧
        (∃ regs : Vector Word 8, (t.ctx cx).carry.head? = some (x.user.vpos.extractLsb' 32 16, regs) ∧
          ∀ i (h : i < 8), regs[i] = x.user.s[56 + i]) ∧
        t.mem = memWriteBytes s.mem (x.tsave.toNat + 0x1C0)
          ((List.range 8).flatMap fun i => toBytes 8 (x.user.s.toList.getD (56 + i) 0)) ∧
        (∀ i (h : i < 64), s.grants[i].extractLsb' 96 16 = c.jobtag → t.grants[i].getLsbD 127 = false) ∧
        ∀ n ∈ t.nodes, n.ctx = cx → k ∈ n.broken)

/-- R321, R329, R335, R337, R338, R342 to R347: the life of a node. A record that passes its checks is admitted, one
that does not is refused in its COMPL; a dispatched node consumes its wait bits and is staged on the tiles of its group;
the overlay swap starts its stream with the staged registers; a drained node completes with COMPL, CTIME and its SET
bits. Admission, dispatch and the swap are events of the model's agenda (log entries 2 and 46). -/
def Obligations.Nodes_are_admitted_dispatched_and_completed : Prop :=
  ∀ (cx : CtxId) (k : TileId) (va : Word) (n : Node) (s : State),
    let c := s.ctx cx
    let x := s.tile k
    let compl (state : BitVec 2) (hs dv : Bool) (cause : BitVec 8) (streams : Nat) : Word :=
      (0 : BitVec 39) ++ BitVec.ofNat 9 streams ++ cause ++ (0 : BitVec 4) ++ bit dv ++ bit hs ++ state
    (∀ rest r s1, c.subQ = va :: rest → (s.nodes.filter (·.state == .admitted)).length < 4096 → s.recordFrozen cx va = false →
      (s.setCtx cx { c with subQ := rest }).readRecord cx va = .ok (r, s1) →
      (s1.recordCheck cx r = none → exec (.nodeAdmission cx) s =
        .next { s1 with nodes := s1.nodes ++ [nodeOf s1.serial cx va none r], serial := s1.serial + 1 }) ∧
      (∀ e, s1.recordCheck cx r = some e → e ≠ Cause.poisonedRead →
        exec (.nodeAdmission cx) s = .next (s1.writeCompl cx va (compl 2 false false e 0)))) ∧
    (∀ g, s.node? n.serial = some n → n.next = 0 → s.groupFor n.ctx (n.flags.extractLsb' 32 8) = some g →
      s.dispatchable n = true → g.members.Nodup →
      ∃ t, exec (.nodeDispatch n.serial) s = .next t ∧ t.mem = s.mem ∧
        (t.ctx n.ctx).events = (s.ctx n.ctx).events &&& ~~~n.wait ∧
        (∃ m, t.node? n.serial = some m ∧ m.state = .dispatched ∧ m.tiles = g.members ∧ m.unstarted = g.members) ∧
        ∀ i j, g.members[i]? = some j → ∃ sh, (t.tile j).shadow = some sh ∧ sh.serial = n.serial ∧
          sh.vidx = BitVec.ofNat 8 i ∧ sh.entry = n.entry ∧ sh.s[1] = 0xFFFFFFFFFFFFFFF8 ∧
          sh.s[2] = BitVec.ofNat 64 (s.ctx n.ctx).priv ∧ sh.s[3] = BitVec.ofNat 64 (s.ctx n.ctx).priv ∧
          sh.ctxroot = (s.ctx n.ctx).root ∧ (t.tile j).user.s = (s.tile j).user.s) ∧
    (∀ sh, x.shadow = some sh → s.node? sh.serial = some n → x.rbusy = false → x.frozen = false → s.recordHeld k = false →
      (x.user.state = .idle ∨ x.user.state = .loaded ∨ x.user.state = .ended ∨ x.user.state = .stopped) →
      n.flags.getLsbD 42 = false → x.loadQ = [] → x.storeQ = [] → x.mx.queue = [] → x.sigQ = [] →
      (x.lastCtx = none ∨ x.lastCtx = some n.ctx) → n.hs = false →
      ∃ t, exec (.overlaySwap k) s = .next t ∧
        let u := (t.tile k).user
        u.state = .running ∧ u.pc = sh.entry ∧ u.cpv = sh.cpv ∧ u.cpvTag = true ∧ u.tags = sh.tags ∧ u.vpos = sh.vpos ∧
        (sh.ctxroot.extractLsb' 60 4 = (0 : BitVec 4) ∨ sh.ctxroot.extractLsb' 60 4 = (9 : BitVec 4) → u.ctxroot = sh.ctxroot) ∧
        (∀ r (h : r < 56), u.s[r] = sh.s[r]) ∧
        (t.tile k).node = some n.serial ∧ (t.tile k).shadow = none ∧ (t.tile k).dlcall = sh.dlcall ∧
        (t.tile k).dlhard = sh.dlhard ∧ (∀ r (h : r < 1024), (t.tile k).mx.acc[r] = 0) ∧
        (t.tile k).mx.bank0.valid = false ∧ (t.tile k).mx.mask = 0 ∧
        ∃ m, t.node? n.serial = some m ∧ k ∉ m.unstarted) ∧
    (∀ pa s1, s.node? n.serial = some n → n.state = .draining → s.recordFrozen n.ctx n.va = false →
      (s.ctx n.ctx).patched = [] → (regionOf pa = .hbm ∨ inCistern pa = true) →
      (∀ j ∈ n.tiles, (s.tile j).node ≠ some n.serial ∨
        ((s.tile j).loadQ = [] ∧ (s.tile j).storeQ = [] ∧ (s.tile j).mx.queue = [])) →
      s.agentParts (s.ctx n.ctx).root (n.va + 256) 16 .store = .ok ([(pa, 16)], s1) → s1.poisonedLine pa 16 = none →
      ∃ t, exec (.nodeCompletion n.serial) s = .next t ∧ t.node? n.serial = none ∧
        (t.ctx n.ctx).events = (s.ctx n.ctx).events ||| n.set ∧
        t.mem = memWriteBytes s1.mem pa (toBytes 8 (compl 1 n.hs n.dv 0 n.tiles.length) ++ toBytes 8 s1.dtime))

/-- R355 to R361, R345: deadlines. At a call time a diversion is noted for the node's stream, which has then to commit a
region first; at its point the stream goes on at the clearing entry with the place of the diversion in `DPC` and the
vector capability in c31; at the hard stop the node's streams are stopped with the work of their engines and the node
has HS. That every boundary outside a catalogue pattern is a recovery point, and what a stop leaves of an engine's work,
are the model's readings (log entries 20 and 49). -/
def Obligations.Deadlines_divert_and_stop : Prop :=
  ∀ (k : TileId) (n : Node) (s : State),
    let x := s.tile k
    let now := s.dtime.toNat
    (s.node? n.serial = some n → k ∈ n.tiles → x.node = some n.serial → n.state = .running → n.clear ≠ 0 →
      x.user.state = .running → x.callTime = none → x.user.diverted = false → x.dlcall ≠ BitVec.allOnes 64 →
      x.dlcall.toNat ≤ now →
      ∃ t, exec (.callTime n.serial) s = .next t ∧ t.mem = s.mem ∧ (t.tile k).user = { x.user with went := false } ∧
        (t.tile k).callTime = some (if x.user.inRoutine = true then 3 else if x.user.begun = false then 6 else 1)) ∧
    (∀ code pc, s.diversionPoint k = some (code, pc) → x.node = some n.serial → s.node? n.serial = some n →
      ∃ t, exec (.diversion k) s = .next t ∧
        let u := (t.tile k).user
        u.state = .running ∧ u.pc = n.clear ∧ u.diverted = true ∧ u.calls = [] ∧ (t.tile k).callTime = none ∧
        u.dpc = (1 : BitVec 1) ++ (0 : BitVec 7) ++ code ++ (pc.extractLsb' 3 45 : BitVec 45) ++ (0 : BitVec 3) ∧
        u.getC (.c 31) = ⟨n.vcap, n.vcap != 0⟩ ∧ ∃ m, t.node? n.serial = some m ∧ m.dv = true) ∧
    (s.node? n.serial = some n → n.hs = false → n.state = .running → k ∈ n.tiles → x.node = some n.serial →
      x.dlhard ≠ BitVec.allOnes 64 → x.dlhard.toNat ≤ now →
      (x.user.state = .running ∨ x.user.state = .waiting ∨ x.user.state = .stalled ∨ x.user.state = .trapped) →
      ∃ t, exec (.hardStop n.serial) s = .next t ∧ (t.tile k).user.state = .stopped ∧ (t.tile k).loadQ = [] ∧
        (t.tile k).storeQ = [] ∧ (t.tile k).sigQ = [] ∧ (t.tile k).mx.queue = [] ∧ (t.tile k).fault = none ∧
        ∃ m, t.node? n.serial = some m ∧ m.hs = true ∧ k ∈ m.ended)

/-- R98, R308, R345, R372 to R374, R379, R380, R382: on a tile that no correctable error freezes, an engine fault that
is passed on becomes the tile's fault, or is counted; a handler's resume gives the trapped stream back from its save
area, with the native section of its code object dropped where that is asked, its abandonment ends the node; a write to
`CFRTAIL` makes room in the composite ring, into which a held record moves. Which report is kept of two, and that a
source already counted is not counted again, are the model's readings (log entries 50 and 70). -/
def Obligations.Faults_are_passed_on_resumed_and_abandoned : Prop :=
  ∀ (k : TileId) (src : BitVec 4) (cause : BitVec 8) (addr v : Word) (n : Node) (drop : Bool) (s : State),
    let x := s.tile k
    let area := x.tsave.toNat
    let word (off : Nat) : Word := ofBytes 64 (s.readBytes (area + off) 8)
    (x.engineFault src = some (cause, addr) → x.frozen = false → x.fault = none → x.user.state = .running →
      exec (.engineFaultPassOn k src) s = .next (s.setTile k { x with
        fault := some ⟨true, cause, src, true, cause != Cause.tileStateLost, 0, addr, s.timing.now, 0, engineWords x, [src]⟩
        sigFault := if src = 7 then none else x.sigFault })) ∧
    (∀ f, x.engineFault src = some (cause, addr) → x.frozen = false → x.fault = some f →
      (src ∈ f.counted → exec (.engineFaultPassOn k src) s = .next s) ∧
      (f.pending = true → src ∉ f.counted → (f.stamp ≠ s.timing.now ∨ ¬ src < f.src) →
        exec (.engineFaultPassOn k src) s = .next (s.setTile k { x with
          fault := some { f with nsec := f.nsec + 1, counted := src :: f.counted } }))) ∧
    (x.user.state = .trapped → isFault (x.tcause.setWidth 8) = true → s.recordHeld k = false →
      x.frozen = false → x.user.rejoin = none → (∀ f, x.fault = some f → f.res = true) → s.poisonedLine area 0x3000 = none → x.user.ctxcfg.getLsbD 2 = false →
      s.native? k (word 0x210) = none → s.functionAt k (word 0x210) = none →
      ∃ t, exec (.streamResume ⟨k, drop⟩) s = .next t ∧ t.mem = s.mem ∧
        (drop = true → ∀ o ∈ (t.ctx (s.ctxOf k)).objects, inExtent o.code x.user.pc = true → o.dir = []) ∧
        let u := (t.tile k).user
        u.state = .running ∧ u.wait = .none ∧ u.pc = word 0x210 ∧
        (∀ r : Fin 64, r.val ≠ 0 → u.s[r.val] = word (8 * r.val)) ∧
        (∀ r : Fin 32, u.v[r.val] = ofBytes 1024 (s.readBytes (area + 0x400 + 128 * r.val) 128)) ∧
        u.cpv = x.user.cpv ∧ u.dpc = x.user.dpc ∧ (t.tile k).held = false) ∧
    (x.user.state = .trapped → isFault (x.tcause.setWidth 8) = true → s.recordHeld k = false →
      x.frozen = false → x.node = some n.serial → s.node? n.serial = some n → k ∈ n.tiles →
      ∃ t, exec (.streamAbandon k) s = .next t ∧ t.node? n.serial = none ∧ (t.tile k).node = none ∧
        (t.tile k).fault = none ∧ ((t.tile k).user.state = .idle ∨ (t.tile k).user.state = .stopped)) ∧
    (s.rings.cfPend = [] → exec (.cfrtail v) s = .next { s with rings := { s.rings with cftail := v } }) ∧
    (∀ e, s.rings.cfPend = [e] → e.1 < s.timing.now → (∀ j f, (s.tile j).fault = some f → f.pending = false) →
      let size := 2 ^ (s.rings.cfsize.toNat + 4)
      let head := s.rings.cfhead.toNat % size
      (s.rings.cfhead.toNat + 1) % size ≠ v.toNat % size →
      ∃ t, exec (.cfrtail v) s = .next t ∧ t.rings.cfPend = [] ∧ t.rings.cftail = v ∧
        t.rings.cfhead = BitVec.ofNat 64 ((head + 1) % size) ∧ t.tiles = s.tiles ∧
        t.mem = memWriteBytes s.mem (s.rings.cfbase.toNat + 256 * head) e.2.2)

/-! ### Resets, errors, boot, time and the edges -/

/-- R20, R21, R84, R98, R99, R348, R349, R381, R383, R409: tile reset and the errors that the SRAMs detect. A tile
enters reset only with nothing on it, with its cistern zero, full and free of poison; it leaves it with its firmware
context at the image's entry. A correctable error of a tile freezes it and is logged; an uncorrectable one poisons its
line, or loses the tile's state, is logged and interrupts. What firmware registers hold after tile reset is the model's
choice (log entry 45), and so are cause 0 and address 0 of the entry for a lost entry of a translation cache (log entry
36). -/
def Obligations.Tile_resets_and_detected_errors : Prop :=
  ∀ (k : TileId) (line : BitVec 16) (l : Nat) (c : CacheSite) (s : State),
    let x := s.tile k
    let pa := cisternAddr k (128 * line.toNat)
    let logged (t : State) (kind cause : BitVec 8) (src : Nat) (addr : Word) : Prop :=
      ∃ e ∈ t.rings.elPend, e.1 = s.timing.now ∧ e.2.1 = src ∧ e.2.2[12]? = some kind ∧ e.2.2[13]? = some cause ∧
        (e.2.2.drop 16).take 8 = toBytes 8 addr
    (Memory.wf s.mem = true → x.shadow = none → x.node = none → x.loadQ = [] → x.storeQ = [] →
      x.mx.queue = [] → ∃ t, exec (.tileReset k) s = .next t ∧
        (∀ a, t.readByte a = if cisternTile a = some k then 0 else s.readByte a) ∧
        (∀ a, cisternTile a = some k → t.lineEmpty (a / 128) = false ∧ t.linePoisoned (a / 128) = false) ∧
        (t.tile k).rst = true ∧ (t.tile k).rbusy = true ∧ (t.tile k).user = x.user.vacant ∧
        (t.tile k).fw = { x.fw with state := .idle, wait := .none } ∧
        (t.tile k).mx = { Matrix.reset with slots := x.mx.slots } ∧ (t.tile k).sigQ = [] ∧ (t.tile k).fwsh = x.fwsh ∧
        (t.tile k).mmu.l1 = [] ∧ (t.tile k).mmu.gen = x.mmu.gen ∧ ∀ j, j ≠ k → t.tile j = s.tile j) ∧
    ((x.shadow ≠ none ∨ x.node ≠ none ∨ x.loadQ ≠ [] ∨ x.storeQ ≠ [] ∨ x.mx.queue ≠ []) →
      exec (.tileReset k) s = .next s) ∧
    exec (.tileResetRelease k) s = .next (if s.boot.stage ≠ 0xF then s.setTile k { x with rst := false } else s) ∧
    exec (.tileResetExit k) s = .next
      (if x.rbusy = true ∧ x.rst = false ∧ s.boot.stage ≠ 0xF then
        s.setTile k { x with
          rbusy := false, fw := { x.fw with state := .running, wait := .none, pc := s.boot.fwEntry } }
      else s) ∧
    (∃ t, exec (.correctableError k (.cisternLine line)) s = .next t ∧
      t.tiles = (s.setTile k { x with frozen := true }).tiles ∧ t.mem = s.mem ∧
      logged t 0x01 0 k.toNat (BitVec.ofNat 64 (128 * (pa / 128)))) ∧
    (∃ t, exec (.correctableError k .tileState) s = .next t ∧
      t.tiles = (s.setTile k { x with frozen := true }).tiles ∧ t.mem = s.mem ∧ logged t 0x01 0 k.toNat 0) ∧
    (∃ t, exec (.correctableError k (.translation c l)) s = .next t ∧
      t.tiles = (s.setTile k { x with frozen := true }).tiles ∧ t.mem = s.mem ∧ logged t 0x01 0 k.toNat 0) ∧
    (∃ t, exec (.correctableError k (.hbmLine l)) s = .next t ∧ t.tiles = s.tiles ∧ t.mem = s.mem ∧
      logged t 0x02 0 (stackSource (128 * l)) (BitVec.ofNat 64 (128 * l))) ∧
    exec (.freezeEnd k) s = .next (s.setTile k { x with frozen := false }) ∧
    (∃ t, exec (.uncorrectableError k (.cisternLine line)) s = .next t ∧ t.tiles = s.tiles ∧ t.mem = s.mem ∧
      t.linePoisoned (pa / 128) = true ∧ logged t 0x04 0xA6 k.toNat (BitVec.ofNat 64 (128 * (pa / 128))) ∧
      t.outputs = s.outputs ++ [.interrupt k.toNat 0xA6]) ∧
    (∃ t, exec (.uncorrectableError k (.hbmLine l)) s = .next t ∧ t.tiles = s.tiles ∧ t.mem = s.mem ∧
      t.linePoisoned l = true ∧ logged t 0x03 0xA6 (stackSource (128 * l)) (BitVec.ofNat 64 (128 * l)) ∧
      t.outputs = s.outputs ++ [.interrupt (stackSource (128 * l)) 0xA6]) ∧
    (∃ t, exec (.uncorrectableError k (.translation c l)) s = .next t ∧
      t.tiles = (s.setTile k { x with mmu := x.mmu.discard c l }).tiles ∧ t.mem = s.mem ∧ t.outputs = s.outputs ∧
      logged t 0x04 0 k.toNat 0) ∧
    (∃ t, exec (.uncorrectableError k .tileState) s = .next t ∧ logged t 0x04 0xA7 k.toNat 0 ∧
      (x.node = none → t.tiles = (s.setTile k { x with lost := true }).tiles) ∧
      ∀ n, x.node = some n → t.node? n = none)

/-- R352 to R354, R396 to R400, R403, R409: device reset and boot, attestation, device time and power. Device reset
gives every register its reset value and keeps the content of high-bandwidth memory; an image that passes its checks is
loaded and started, one that fails is counted and tried again; the report goes where it was asked for; before its first
lock device time steps forward, afterwards a message changes the rate alone. The keys and signatures are functions with
no body (log entry 8); the memory and the registers that a reset keeps, the order of masters, the first message of a
clock, a failed image and the entry of an overheated module are the model's (log entries 25, 36, 45, 55 and 56). -/
def Obligations.Boot_time_and_power_events : Prop :=
  ∀ (k : TileId) (image : Image) (record : List Byte) (port : BitVec 2) (m : PtpMessage) (offset rate : Int)
    (clock : Nat) (v : Word) (s : State),
    let x := s.tile k
    let b := s.boot
    let more : BitVec 8 := if b.fails = 255 then 255 else b.fails + 1
    let clip (lo hi y : Int) : Int := max lo (min hi y)
    let second := s.timing.now / (65536 * 1000000000)
    let freq (y : Int) : BitVec 16 := BitVec.ofInt 16 (clip (-20000) 20000 y)
    let others := s.timing.masters.filter fun e => !(e.1 == port && e.2.sender == m.master.sender)
    let off (y : Int) : BitVec 32 := BitVec.ofInt 32 (clip (-2147483648) 2147483647 y)
    let fresh (r : List Byte) (u t : State) : Prop :=
      (∀ j, t.tile j =
        { Tile.reset with
          user := { Stream.reset with s := (u.tile j).user.s, cpv := (u.tile j).user.cpv }
          fw := { Stream.reset with s := (u.tile j).fw.s, cpv := (u.tile j).fw.cpv }
          mx := { Matrix.reset with slots := (u.tile j).mx.slots }
          tcause := (u.tile j).tcause, taddr := (u.tile j).taddr, tpc := (u.tile j).tpc }) ∧
      t.ctxs = State.reset.ctxs ∧ t.nodes = [] ∧ t.empty = [] ∧ t.boot.record = r ∧
      (t.boot.stage = 1 ∨ t.boot.stage = 0xF) ∧
      (Memory.wf u.mem = true → ∀ a, t.readByte a = if a < 0xC000000000 then u.readByte a else 0)
    (∃ t, exec (.deviceReset record) s = .next t ∧ fresh record s t) ∧
    (∃ t, exec .overheat s = .next t ∧ fresh b.record (s.logEvent 259).drainErrors t) ∧
    (b.stage = 1 → b.retryAt = none →
      exec (.bootImageFetch (some image)) s = .next { s with boot := { b with stage := 2, image := some image } }) ∧
    (b.stage = 2 → b.image = some image →
      let fails (cause : BitVec 8) : Boot :=
        { b with cause := cause, fails := more, image := none, retryAt := some (s.timing.now + 131072000000000) }
      let checked : Boot :=
        if image.ident ≠ 0x46494D01 ∨ image.signature.length ≠ 114 ∨
            Config.imageSignatureGood (imageHeader image) image.signature = false then fails 0x04
        else if image.length.toNat ≠ image.body.length ∨ image.bodyHash.toList ≠ shake256 image.body 32 then fails 0x05
        else if image.svn.toNat < b.minsvn.toNat then fails 0x06
        else { b with stage := 3 }
      exec (.bootImageFetch none) s = .next { s with boot := checked }) ∧
    (b.stage = 3 → b.image = some image → ∃ t, exec (.bootImageFetch none) s = .next t ∧ t.boot.stage = 4 ∧
        t.boot.imgver = image.imgver ∧ t.boot.svn = image.svn ∧ t.boot.fwEntry = image.fwEntry ∧
        t.boot.bodyHash = image.bodyHash ∧ (∀ h, (t.core h).running = true) ∧
        t.mem = memWriteBytes s.mem image.place.toNat image.body ∧
        ∀ j, t.tile j = { s.tile j with rst := false }) ∧
    (b.stage = 1 → b.retryAt = none → exec .networkTimeout s = .next { s with boot := { b with
      cause := 0x07, fails := more, image := none, retryAt := some (s.timing.now + 131072000000000) } }) ∧
    (∀ u, b.retryAt = some u → exec .bootRetry s = .next
      (if u ≤ s.timing.now then { s with boot := { b with stage := 1, retryAt := none } } else s)) ∧
    exec (.attreq v) s = .next (if b.attreq = none then { s with boot := { b with attreq := some v } } else s) ∧
    (∀ a, b.attreq = some a → a.toNat < 0xC000000000 → ∃ t, exec .attestationReport s = .next t ∧
      t.boot = { b with attreq := none } ∧ t.tiles = s.tiles ∧ t.mem = memWriteBytes s.mem a.toNat s.report) ∧
    ((∀ e ∈ others, (masterRank (port, m.master)).toNat < (masterRank e).toNat) →
      ∃ t, exec (.ptpMessage port m) s = .next t ∧ t.tiles = s.tiles ∧ t.timing.mode = 1 ∧
        t.timing.freq = freq m.rate ∧ t.timing.offset = off m.offset ∧
        t.timing.masters = (port, m.master) :: others ∧
        t.timing.now =
          if s.timing.mode = 0 ∧ m.offset < 0 then s.timing.now + (-m.offset).toNat * 65536 else s.timing.now) ∧
    ((∃ e ∈ others, (masterRank e).toNat < (masterRank (port, m.master)).toNat) →
      exec (.ptpMessage port m) s =
        .next { s with timing := { s.timing with masters := (port, m.master) :: others } }) ∧
    (∀ e ∈ s.timing.masters, (∀ o ∈ s.timing.masters, o ≠ e → (masterRank e).toNat < (masterRank o).toNat) →
      let left := s.timing.masters.filter fun o => o ≠ e
      exec .holdover s = .next { s with timing := { s.timing with
        masters := left
        mode := if s.timing.mode = 0 then 0 else if left = [] then 2 else s.timing.mode } }) ∧
    exec .pulsePerSecondOutput s = .next
      (if s.timing.pulsed < second then
        { s with timing := { s.timing with pulsed := second }, outputs := s.outputs ++ [.pulse second] } else s) ∧
    exec (.pulsePerSecondInput (.pulse offset)) s = .next
      (if s.timing.mode = 2 then { s with timing := { s.timing with offset := off offset } } else s) ∧
    exec (.pulsePerSecondInput (.reference rate)) s = .next
      (if s.timing.mode = 2 then { s with timing := { s.timing with freq := freq rate } } else s) ∧
    exec (.thermalThrottle clock) s = .next { s with clock := clock } ∧
    (x.rbusy = false → x.node = none → x.shadow = none → x.loadQ = [] → x.storeQ = [] → x.mx.queue = [] → x.sigQ = [] →
      exec (.powerGate k) s = .next (s.setTile k { x with gated := true }))

/-- R401, R402: the Ethernet ports. The host hands over descriptors by the tail registers of a port that it owns; a
transmit descriptor sends its frame with the frame check sequence, a received frame goes into the next buffer or sets
RXOVF, each with its status in the descriptor and the head moved on. What a frame does whose ring or buffer lies outside
memory is the model's reading (log entry 26). -/
def Obligations.Ethernet_ports_move_frames : Prop :=
  ∀ (p : BitVec 2) (v : Word) (f : Frame) (up : Bool) (s : State),
    let e := s.port p
    let tail (size : BitVec 4) (head : Word) : Prop :=
      v = head ∨ (v - head).toNat % 2 ^ (size.toNat + 4) ≠ 0
    let sizeT := 2 ^ (e.txsize.toNat + 4)
    let dT := e.txbase.toNat + 32 * (e.txhead.toNat % sizeT)
    let num (at_ n : Nat) : Nat := natOfBytes (s.readBytes at_ n)
    let sizeR := 2 ^ (e.rxsize.toNat + 4)
    let dR := e.rxbase.toNat + 32 * (e.rxhead.toNat % sizeR)
    let irq : List Output := if e.ctl.getLsbD 3 then [.interrupt (304 + p.toNat) 0] else []
    let next (size : Nat) (h : Word) : Word := BitVec.ofNat 64 ((h.toNat + 1) % size)
    (p ≠ 0 ∨ s.boot.stage = 4 →
      exec (.etctl p v) s = .next (s.setPort p { e with ctl := v &&& 0xF }) ∧
      (tail e.txsize e.txhead → exec (.ettxtail p v) s = .next (s.setPort p { e with txtail := v })) ∧
      (tail e.rxsize e.rxhead → exec (.etrxtail p v) s = .next (s.setPort p { e with rxtail := v }))) ∧
    (e.ctl.getLsbD 0 = true → e.ctl.getLsbD 1 = true → (e.txtail - e.txhead).toNat % sizeT ≠ 0 →
      dT + 32 ≤ 0xC000000000 →
      let a := num dT 8
      let n := num (dT + 8) 2
      60 ≤ n → n ≤ 9216 → a + n ≤ 0xC000000000 → s.poisonedLine a n = none → s.poisonedLine dT 16 = none →
      ∃ t, exec (.ethernetTransmit p) s = .next t ∧ (t.port p).txhead = next sizeT e.txhead ∧
        t.outputs = s.outputs ++ [.frame p (s.readBytes a n ++ toBytes 4 (crc32 (s.readBytes a n)))] ++ irq ∧
        t.tiles = s.tiles ∧ t.mem = memWriteBytes s.mem (dT + 16)
          (toBytes 8 (if (num (dT + 10) 2).testBit 0 then s.dtime else 0) ++ toBytes 8 (1 : Word))) ∧
    (f.ptp = none → f.bytes.length ≤ 9216 → e.ctl.getLsbD 0 = true → e.ctl.getLsbD 2 = true →
      (e.mac.getLsbD 63 = true ∨ f.dest = e.mac.setWidth 48 ∨ f.dest.getLsbD 40 = true) →
      ((e.rxtail - e.rxhead).toNat % sizeR = 0 →
        exec (.ethernetReceive p f) s = .next (s.setPort p { e with rxovf := true })) ∧
      ((e.rxtail - e.rxhead).toNat % sizeR ≠ 0 → dR + 32 ≤ 0xC000000000 →
        let a := num dR 8
        let room := num (dR + 8) 2
        a + room ≤ 0xC000000000 → s.poisonedLine dR 16 = none →
        ∃ t, exec (.ethernetReceive p f) s = .next t ∧ (t.port p).rxhead = next sizeR e.rxhead ∧
          t.outputs = s.outputs ++ irq ∧ t.tiles = s.tiles ∧
          t.mem = memWriteBytes (memWriteBytes s.mem a (f.bytes.take room)) (dR + 12)
            (toBytes 4 (BitVec.ofNat 32 f.bytes.length) ++ toBytes 8 s.dtime ++
              toBytes 8 ((0 : BitVec 61) ++ bit (decide (room < f.bytes.length)) ++ bit (!f.fcsGood) ++ (1 : BitVec 1) :
                Word)))) ∧
    (∀ m u, f.ptp = some m → f.fcsGood = true → f.bytes.length ≤ 9216 →
      exec (.ethernetReceive p { f with ptp := none }) s = .next u →
      exec (.ethernetReceive p f) s = exec (.ptpMessage p m) u) ∧
    (9216 < f.bytes.length → exec (.ethernetReceive p f) s = .next s) ∧
    exec (.ethernetLinkChange p up) s = .next (s.setPort p { e with link := up })

/-- R406 to R408, R410: scale-up links. Training gives the chip its domain number, or leaves a link of another number
down; a flit in order is taken, a damaged one is answered with a negative acknowledgement of the flit expected; a
negative acknowledgement has the named flit and every later one sent again. A flit's payload goes on with the packets of
the flits before it, and those that are whole now wait to be performed. The form of a flit, its check, the packet's
header, what training has sent again and what stands between packets are the model's (log entries 8, 24 and 57). -/
def Obligations.Links_take_and_resend_flits : Prop :=
  ∀ (p : BitVec 5) (number : BitVec 8) (flit : List Byte) (seq : BitVec 16) (s : State),
    let l := s.link p
    let good : Prop := flit.length = 256 ∧ flit.drop 248 = toBytes 8 (crc64 (flit.take 248))
    exec (.linkTraining p number) s = .next
      (if s.domainV = true ∧ s.domainNum ≠ number then s
        else
          let u := ({ s with domainV := true, domainNum := number } : State).setLink p { Link.reset with up := true }
          if l.up = true then (l.flying.map (fun x => x.2) ++ l.stream).foldl State.sendBytes u else u) ∧
    (l.up = true → good → ofBytes 16 (flit.take 2) = l.expect → (flit.getD 4 0).getLsbD 0 = false → l.stream = [] →
      ∃ t, exec (.flitReceive p flit) s = .next t ∧ t.tiles = s.tiles ∧ t.mem = s.mem ∧ t.outputs = s.outputs ∧
        (let bs := l.part ++ (flit.drop 16).take 232
          let got := readPackets (bs.length / 32 + 1) bs
          t.inbox = s.inbox ++ got.1 ∧ (t.link p).part = got.2) ∧
        (t.link p).expect = l.expect + 1 ∧ (t.link p).lost = false ∧ (t.link p).nacks = 0 ∧
        (∀ a, a ∈ (t.link p).retry → a ∈ l.retry) ∧
        (l.retry.head?.map (·.1) = some (ofBytes 16 ((flit.drop 2).take 2)) → (t.link p).retry = l.retry.drop 1)) ∧
    (l.up = true → ¬ good → (l.nackSeq ≠ l.expect ∨ l.nacks < 7) →
      ∃ t, exec (.flitReceive p flit) s = .next t ∧ t.outputs = s.outputs ++ [.nack p l.expect] ∧
        (t.link p).lost = true ∧ (t.link p).expect = l.expect ∧ (t.link p).up = true ∧
        (l.retry.length < 128 → ∃ f, (t.link p).retry = l.retry ++ [(l.next, f)] ∧ f.length = 256 ∧
          f.drop 248 = toBytes 8 (crc64 (f.take 248)) ∧ ofBytes 16 ((f.drop 2).take 2) = l.expect ∧
          (f.getD 4 0).getLsbD 0 = true)) ∧
    (∀ i, l.up = true → l.retry.findIdx? (fun f => f.1 == seq) = some i → (l.backSeq ≠ seq ∨ l.backs < 7) →
      ∃ t, exec (.negativeAcknowledgement p seq) s = .next t ∧ (t.link p).retry = l.retry.drop i ∧
        t.outputs = s.outputs ++ [.resend p ((l.retry.drop i).map fun f => f.2)] ∧ t.tiles = s.tiles ∧ t.mem = s.mem) ∧
    (l.up = true → l.retry.findIdx? (fun f => f.1 == seq) = none →
      exec (.negativeAcknowledgement p seq) s = .next s)

/-- R24, R25, R39, R302 to R305, R395, R404, R405: accesses from outside and the loader. A request to BAR2 reaches
memory through the window, one to BAR0 a device register; a host core that does not translate reads, writes and performs
atomics on memory, its store-conditional writes while its reservation stands, and a misaligned atomic traps; a judged
code object becomes one of its context's, and a refused one is reported with the step that refused it. What a host core
does with its own registers, when a reservation stands, the placing of a code object's sections and an access beyond the
window are the model's (log entries 27, 28 and 60). -/
def Obligations.Outside_accesses_and_loading : Prop :=
  ∀ (cx : CtxId) (off0 : BitVec 33) (off2 : BitVec 36) (n : Nat) (bs : List Byte) (agent : Agent) (a : BitVec 41)
    (width : Nat) (r : DevReg) (q : Quad) (base : BitVec 64) (obj : List Byte) (setup : LoadSetup) (w : Width)
    (op : AmoOp) (h : BitVec 4) (rd : BitVec 5) (signed : Bool) (pa v old : Word) (s : State),
    let window := s.pciwin.toNat * 2 ^ 36 + off2.toNat
    let host (o : HostOp) := exec (.hostCoreAccess ⟨h, pa⟩ o) s
    let core := s.core h
    let loaded (u : State) (y : Word) : State := (u.setCore h ((u.core h).setX rd y)).emit (.hostLoad y)
    let at_ : BitVec w.n := ofBytes w.n (s.readBytes pa.toNat w.bytes)
    let put (x : BitVec w.n) : State := s.store pa.toNat (toBytes w.bytes x)
    (devRegOf (0x18000000000 + off0.toNat) n = some r → exec (.pcieBar0Access off0 (.read n)) s =
      .next ((s.devRead r).2.emit (.pcie (some (toBytes n (s.devRead r).1))))) ∧
    (devRegOf (0x18000000000 + off0.toNat) bs.length = some r →
      exec (.pcieBar0Access off0 (.write bs)) s = .next (s.devWrite .pcie r (ofBytes 128 bs))) ∧
    (devRegOf (0x18000000000 + off0.toNat) n = none →
      exec (.pcieBar0Access off0 (.read n)) s = .next (s.emit (.pcie none))) ∧
    (s.pciwin.toNat < 12 → off2.toNat + n ≤ 2 ^ 36 → s.poisonedLine window n = none →
      exec (.pcieBar2Access off2 (.read n)) s = .next (s.emit (.pcie (some (s.readBytes window n))))) ∧
    (s.pciwin.toNat < 12 → off2.toNat + bs.length ≤ 2 ^ 36 →
      exec (.pcieBar2Access off2 (.write bs)) s = .next (s.store window bs)) ∧
    (12 ≤ s.pciwin.toNat → exec (.pcieBar2Access off2 (.read n)) s = .next (s.emit (.pcie none)) ∧
      exec (.pcieBar2Access off2 (.write bs)) s = .next s) ∧
    (0x18000000000 ≤ a.toNat → a.toNat < 0x18200000000 → devRegOf a.toNat width = some r →
      exec (.deviceRegisterWrite agent a width q) s = .next (s.devWrite agent r q)) ∧
    s.devWrite agent .pciwin q = { s with pciwin := q.setWidth 4 } ∧ s.devWrite agent .domain q = s ∧
    s.devWrite agent .xinvgen q = s ∧ s.devWrite agent .dtstat q = s ∧ s.devWrite agent .bootstat q = s ∧
    host .fence = .next s ∧
    (core.running = false → ∀ o, host o = .next s) ∧
    (core.running = true →
      host (.own (.x rd v)) = .next (s.setCore h (core.setX rd v)) ∧
      host (.sfenceVma none none) = .next (s.setCore h { core with tlb := [] })) ∧
    (core.running = true → core.translates = false → pa.toNat < 0xC000000000 → room pa ≥ w.bytes →
      host (.store w v) = .next (put (v.setWidth w.n)) ∧
      (s.poisonedLine pa.toNat w.bytes = none →
        host (.load w signed rd) = .next (loaded s (if signed then at_.signExtend 64 else at_.setWidth 64)) ∧
        (pa.toNat % w.bytes = 0 →
          host (.cas w rd old v) =
            .next (loaded (if at_ = old.setWidth w.n then put (v.setWidth w.n) else s) (at_.signExtend 64)) ∧
          host (.amo op w rd v) = .next (loaded (put (amoValue op at_ (v.setWidth w.n))) (at_.signExtend 64)) ∧
          host (.loadReserved w rd) = .next (loaded
            (s.setCore h { core with reserved := some (pa.toNat, w.bytes) }) (at_.signExtend 64)))) ∧
      (pa.toNat % w.bytes = 0 →
        (core.reserved = some (pa.toNat, w.bytes) → ∃ t, host (.storeConditional w rd v) = .next t ∧
          t.mem = (put (v.setWidth w.n)).mem ∧ t.tiles = s.tiles ∧ (t.core h).reserved = none ∧
          (rd ≠ 0 → (t.core h).x[rd.toNat]'rd.isLt = 0)) ∧
        (core.reserved ≠ some (pa.toNat, w.bytes) →
          host (.storeConditional w rd v) = .next (s.setCore h { core.setX rd 1 with reserved := none }))) ∧
      (pa.toNat % w.bytes ≠ 0 → host (.amo op w rd v) =
        .next ((s.setCore h (core.trap 6 pa)).emit (.hostFault Cause.misalignedAtomic)))) ∧
    (∀ step, judge base.toNat obj = .error step →
      exec (.codeObjectLoad cx base obj setup) s = .next (s.emit (.loaded cx (some step)))) ∧
    (∀ x, judge base.toNat obj = .ok x →
      let kept := if (s.ctx cx).objects = [] ∨ (s.ctx cx).root ≠ setup.root then [] else (s.ctx cx).objects
      ∃ t, exec (.codeObjectLoad cx base obj setup) s = .next t ∧ t.outputs = s.outputs ++ [.loaded cx none] ∧
        t.tiles = s.tiles ∧ (t.ctx cx).root = setup.root ∧ (t.ctx cx).areas = setup.areas ∧
        (t.ctx cx).events = (s.ctx cx).events ∧
        ∃ o, (t.ctx cx).objects = kept ++ [o] ∧ o.base = BitVec.ofNat 64 base.toNat ∧ o.caps = x.caps ∧
          o.routines = x.routines ∧ o.fclv = x.fclv ∧ o.made = [] ∧
          o.code = (x.placing.filter (·.1.type == 1)).map fun e => (e.2, e.1.size))

/-! ### The whole machine -/

/-- R135 to R148: words written out field by field from the formats decode to the instruction that the map gives them,
one or more of every class and format; words that meet a condition of R150 are refused. -/
def Obligations.Spec_words_decode : Prop :=
  decode (regWord 0 0x00 0 0 5 6 7 0 0 3 0 0 0 0 0 0 0) = .ok (.add ⟨0, false⟩ .w64 5 6 7) ∧
  decode (immWord 0 0x40 3 1 10 11 0x1FFFFFFFFF) = .ok (.addi ⟨3, true⟩ 10 11 0x1FFFFFFFFF) ∧
  decode (regWord 0 0x1B 0 0 2 8 9 0 0 2 0 0 0 0 0 0 6) = .ok (.cmp ⟨0, false⟩ .w32 .ltu 2 8 9) ∧
  decode (regWord 0 0x60 0 0 4 5 6 0 0 0 1 0 0 0 0 0 0) = .ok (.fadd ⟨0, false⟩ .rne 4 5 6) ∧
  decode (regWord 0 0x69 0 0 4 5 0 0 0 0 2 1 0 0 1 3 0) = .ok (.fcvt ⟨0, false⟩ .rtz true 1 3 4 5) ∧
  decode (regWord 0 0x80 0 0 1 2 3 0 0 0 0 0 0 0 0 0 0) = .ok (.pand ⟨0, false⟩ 1 2 3) ∧
  decode (regWord 0 0xA4 0 0 4 5 0 0 0 0 0 0 0 0 0 0 3) = .ok (.cnperm ⟨0, false⟩ (.c 4) (.c 5) 3) ∧
  decode (regWord 0 0xA0 0 0 32 5 0 0 0 0 0 0 0 0 0 0 0) = .ok (.cmov ⟨0, false⟩ .cpv (.c 5)) ∧
  decode (regWord 1 0x00 0 0 1 2 9 0 1 1 0 1 0 0 0 0 0) = .ok (.vadd ⟨0, false⟩ .w16 true 1 2 (.s 9)) ∧
  decode (regWord 1 0x00 0 0 1 2 9 0 0 1 0 0 0 0 0 0 0) = .ok (.vadd ⟨0, false⟩ .w16 false 1 2 (.v 9)) ∧
  decode (regWord 1 0x23 0 0 1 2 3 4 0 2 4 0 0 0 0 0 0) = .ok (.vfma ⟨0, false⟩ .rup 1 2 (.v 3) 4) ∧
  decode (regWord 1 0x50 0 0 9 2 0 0 0 0 0 0 0 0 0 0 7) = .ok (.vred ⟨0, false⟩ .w8 .xor 9 2) ∧
  decode (memWord 1 0x60 0 0 3 4 5 0 1 0 0 0 0 0x1FF8) = .ok (.vld ⟨0, false⟩ 3 ⟨.c 4, 5, 0x1FF8, .hn⟩) ∧
  decode (memWord 1 0x62 0 0 3 4 6 0 0 2 0 0 0 0) = .ok (.vgather ⟨0, false⟩ .w32 3 ⟨.c 4, 6, 0, .hn⟩) ∧
  decode (memWord 2 0x00 0 0 7 32 1 0 0 0 0 0 3 8) = .ok (.ld ⟨0, false⟩ .w8 7 ⟨.cpv, 1, 8, .hs⟩) ∧
  decode (memWord 2 0x07 0 0 5 6 0 8 0 2 1 2 0 16) =
    .ok (.amo ⟨0, false⟩ .w32 .add .tile 5 ⟨.c 6, 0, 16, .hn⟩ 8) ∧
  decode (regWord 2 0x24 0 0 0 4 9 0 0 0 0 0 0 2 0 0 0) = .ok (.tlWait ⟨0, false⟩ .hl .tlm 9) ∧
  decode (regWord 2 0x2C 0 0 0 2 7 0 0 0 0 0 0 0 0 0 0) = .ok (.fwdPut ⟨0, false⟩ .south 7) ∧
  decode (regWord 2 0x40 0 0 1 2 3 8 0 0 0 0 0 0 0 0 0) = .ok (.pumpLd ⟨0, false⟩ 1 (.c 2) (.c 3) 8) ∧
  decode (immWord 3 0x00 1 0 0 0 0x1FFFFFFFFE) = .ok (.br ⟨1, false⟩ 0x1FFFFFFFFE) ∧
  decode (immWord 3 0x20 0 0 0 0 5) = .ok (.rcall ⟨0, false⟩ 5) ∧
  decode (immWord 3 0x23 0 0 0 0 0x11) = .ok (.sys ⟨0, false⟩ 0x11) ∧
  decode (regWord 3 0x26 0 0 7 2 0 0 0 0 0 0 0 0 0 0 0) = .ok (.rdc ⟨0, false⟩ 7 2) ∧
  decodeSlot (immWord 3 0xF0 0 0 0 0 4) = .ok (.nxStub ⟨0, false⟩ 4) ∧
  decode (immWord 3 0xF0 0 0 0 0 4) = .error .opcode ∧
  decode (regWord 0 0x1D 0 0 0 0 0 0 0 0 0 0 0 0 0 0 0) = .error .opcode ∧
  decode (regWord 0 0x00 0 1 5 6 7 0 0 3 0 0 0 0 0 0 0) = .error .predicate ∧
  (∃ e, decode (regWord 3 0x2A 0 0 1 0 0 0 0 0 0 0 0 0 0 0 0) = .error e) ∧
  (∃ e, decode (regWord 0 0x00 0 0 5 6 7 0 0 1 0 0 0 0 0 0 0) = .error e)

/-- R142, R148, R287: every well-formed instruction that has a word is what its word decodes to, with every operand: in
Juden code, and in a native slot, where alone the native-only operations stand. -/
def Obligations.Encoded_instructions_decode_to_themselves : Prop :=
  ∀ i w, i.wf = true → encode i = some w →
    decodeSlot w = .ok i ∧ ((opOf w).toNat < 0x3F0 → decode w = .ok i) ∧
      (0x3F0 ≤ (opOf w).toNat → decode w = .error .opcode)

/-- R142, R150: a word that decodes has no other reading: its instruction is well formed, and that word is its one
encoding. -/
def Obligations.Decoded_words_are_the_one_encoding : Prop :=
  (∀ w i, decode w = .ok i → i.wf = true ∧ encode i = some w) ∧
  (∀ w w' i, decode w = .ok i → decode w' = .ok i → w = w')

/-- R15, R150, R176, R331, R355: what one step does. A deadline that is due comes first; then the next turn of the
agenda, which is the model's own interleaving of the concurrent units (log entry 2): an event, device time, or a context
that issues; an empty agenda lets the current context issue. A context that is ready, and does not enter native code
there (that it then runs its Juden words directly, and the firmware context always, is the model's choice, log entry
35), runs the instruction that the fetched word decodes to, takes *illegal instruction* for an unassigned word, and
inside a native routine performs its next unit. Around the instruction the step only lets native issue resume when a
replay is over. -/
def Obligations.Step_runs_the_decoded_instruction : Prop :=
  ∀ s,
    (∀ d, s.due = some d → step s = s.perfDue d) ∧
    (s.due = none →
      (s.agenda = [] → step s = issue s) ∧
      (∀ t side rest, s.agenda = .insn t side :: rest → step s = issue { s with agenda := rest, cur := ⟨t, side⟩ }) ∧
      (∀ i rest, s.agenda = .event i :: rest → isEvent i = true → step s = exec i { s with agenda := rest }) ∧
      (∀ d rest, s.agenda = .time d :: rest → step s = .next (({ s with agenda := rest }).pass d))) ∧
    (s.due = none → s.agenda = [] → readyToIssue s → ∀ w s1, fetches s w s1 →
      (∀ i, decode w = .ok i → step s = andThen (exec i s1) State.stepped) ∧
      (∀ e, decode w = .error e → step s = andThen (exec .illegalInstruction s1) State.stepped)) ∧
    (∀ t : State, t.stepped =
      if t.str.single = true ∧ t.str.state ≠ .stalled then t.setStr { t.str with single := false } else t) ∧
    (∀ f r, s.here.rbusy = false → s.here.frozen = false → s.here.gated = false → s.here.fault = none →
      s.str.state = .running → s.str.native = none → s.str.calls.head? = some f → f.native = some r →
      issue s = exec r.instr s)

/-- R118: an instruction whose predicate does not hold has no effect of any kind but that the stream goes on to the next
word; an instruction executes when the predicate register, exclusive-ORed with the negate bit, is true. An encoding that
is unassigned traps as *illegal instruction* whatever its predicate. -/
def Obligations.Unexecuted_instructions_only_advance : Prop :=
  (∀ s w i, decode w = .ok i → (s.str.getP (w.extractLsb' 50 4) ^^ w.getLsbD 49) = false →
    exec i s = .next (s.setStr { s.str with pc := s.str.pc + 8 })) ∧
  (∀ s w e s1, decode w = .error e → s.due = none → s.agenda = [] → readyToIssue s → fetches s w s1 →
    step s = andThen (exec .illegalInstruction s1) State.stepped)

/-- R20, R21, R84: every step keeps memory a list of bytes at strictly rising addresses none of which is zero, so that
equal memories are equal data (the form is the model's, log entry 1). -/
def Obligations.Memory_stays_canonical : Prop :=
  ∀ s t, Memory.wf s.mem = true → step s = .next t → Memory.wf t.mem = true

/-- The values that the spec gives for device reset, and the fixed registers. R84, R349: cisterns read zero, full and
not poisoned. R107, R112, R232, R234, R71, R78, R123, R33: the queues, ports, counters and caches of a tile are empty or
zero. R348: `TCFG` holds FWSH 2 and RST 1, with RBUSY. R63: `FPCTL` rounds to nearest even with no flag, as at context
initialisation. R332, R339, R93, R382, R351, R354, R399, R402, R404, R410, R26: the registers of the I/O dies and the
roots. `VPOS` 0 and the received generation 0 in `Mmu.reset` are the model's own (log entry 3). R117: s0 and c0 read
zero and p0 true, and a write to them is discarded. R119: a scalar write clears the tag of the capability that the
register belongs to, and a capability write sets both registers and the tag. The other registers that log entry 3 names
are left out. -/
def Obligations.Reset_values_and_fixed_registers : Prop :=
  let r := State.reset
  (∀ pa, inCistern pa = true → r.readByte pa = 0 ∧ r.lineEmpty (lineOf pa) = false ∧ r.linePoisoned (lineOf pa) = false) ∧
  (Memory.wf r.mem = true) ∧
  (∀ t : TileId,
    let x := r.tile t
    x.tcfg = 0x302 ∧ x.user.state = .idle ∧ x.queuesEmpty = true ∧ (∀ k, x.pump k = ⟨0, 0, [], none, false⟩) ∧
      x.mx.tlm = 0 ∧ x.mx.tlw = 0 ∧ x.mx.issueM = 0 ∧ x.mx.issueW = 0 ∧ x.mx.bank0.valid = false ∧
      x.mx.bank1.valid = false ∧ x.mx.ab = false ∧ (∀ k : Fin 1024, x.mx.acc[k] = 0) ∧ x.mx.mask = 0 ∧
      x.mx.halt = none ∧ x.mmu = Mmu.reset ∧ (∀ k : Fin 4, x.user.ports[k] = []) ∧ x.user.fpctl = 0x100 ∧
      x.user.ctxroot = 0 ∧ x.user.ctxcfg = 0 ∧ x.user.vpos = 0 ∧ x.shadow = none ∧ x.node = none ∧ x.fault = none) ∧
  (∀ c : CtxId,
    (r.readCtx c (.evvec 0) = 0 ∧ r.readCtx c (.evvec 1) = 0 ∧ r.readCtx c (.evvec 2) = 0 ∧
      r.readCtx c (.evvec 3) = 0 ∧ r.readCtx c .substat = 64 ∧ r.readCtx c .hold = 0 ∧
      r.readCtx c .gsmask = BitVec.allOnes 64 ∧ r.readCtx c .jobtag = 0 ∧ (r.ctx c).root = 0)) ∧
  (∀ g : BitVec 8, (r.groups[g.toNat]'g.isLt).read 0 = 0) ∧ (∀ e : BitVec 6, r.grants[e.toNat]'e.isLt = 0) ∧
  r.rings = ⟨0, 0, 0, 0, 0, 0, 0, 0, 0, [], []⟩ ∧ r.gsbase = 0 ∧ r.gsperiod = 0 ∧ r.timing.dtstat = 0 ∧
  r.boot.bootstat = 0 ∧ (∀ p q, (r.port p).read q = 0) ∧ r.pciwin = 0 ∧ r.domainV = false ∧ r.nodes = [] ∧
  r.issued = 0 ∧ r.completed = 0 ∧
  (∀ x : Stream,
    x.getS 0 = 0 ∧ x.getP 0 = true ∧ x.getC (.c 0) = ⟨0, false⟩ ∧ (∀ v, x.setS 0 v = x) ∧ (∀ b, x.setP 0 b = x) ∧
      (∀ c, x.setC (.c 0) c = x) ∧
      (∀ d v, d ≠ 0 → (x.setS d v).getS d = v) ∧ (∀ d e v, e ≠ d → (x.setS d v).getS e = x.getS e) ∧
      (∀ d v, d ≠ 0 → 2 ≤ d.toNat → ((x.setS d v).getC (.c (BitVec.ofNat 5 (d.toNat / 2)))).tag = false) ∧
      (∀ d v (n : BitVec 5), n.toNat ≠ d.toNat / 2 → (x.setS d v).getC (.c n) = x.getC (.c n)) ∧
      (∀ (n : BitVec 5) c, n ≠ 0 → (x.setC (.c n) c).getC (.c n) = c ∧
        (x.setC (.c n) c).getS (loReg n) = c.bits.extractLsb' 0 64 ∧
        (x.setC (.c n) c).getS (hiReg n) = c.bits.extractLsb' 64 64) ∧
      (∀ (n m : BitVec 5) c, m ≠ n → (x.setC (.c n) c).getC (.c m) = x.getC (.c m)) ∧
      (∀ d v, (x.setV d v).getV d = v) ∧ (∀ d e v, e ≠ d → (x.setV d v).getV e = x.getV e) ∧
      (∀ d b, d ≠ 0 → (x.setP d b).getP d = b) ∧ (∀ d e b, e ≠ d → (x.setP d b).getP e = x.getP e))

/-- The frame of the scalar and vector forms that name registers only (R117, R119, R152, R167, R180; classes 0b00 to
0x9F and 0b01 to 0x5F of R145 and R146): one that completes writes at most the one register that its field D names,
scalar, vector or predicate, and raises flags of `FPCTL`; every other register, memory and the rest of the machine stay
as they were. -/
def Obligations.Register_forms_change_one_register : Prop :=
  ∀ s w i t, decode w = .ok i → ((opOf w).toNat < 0xA0 ∨ (0x100 ≤ (opOf w).toNat ∧ (opOf w).toNat < 0x160)) →
    exec i s = .next t → t.str.state = .running →
    ∃ (y : Stream) (flags : BitVec 5),
      (y = s.str ∨ (∃ r, y = s.str.setS (fieldD w) r) ∨ (∃ r, y = s.str.setV ((fieldD w).setWidth 5) r) ∨
        ∃ b, y = s.str.setP ((fieldD w).setWidth 4) b) ∧
      t = s.setStr { y with pc := y.pc + 8, fpctl := y.fpctl ||| flags.setWidth 32 }

/-- R119, R122, R170, R380: no instruction of a user stream makes authority. After it, every capability register that is
tagged holds what a tagged capability register held before, or a capability narrower than one of those, or an entry of a
capability table of the stream's context; and the registers that only the firmware context writes stay as they were: the
private capability, the roots and areas of the tile, `VPOS`, `CTXCFG`, the deadlines, and the firmware context itself. A
trap of the firmware context and what it may do are no part of it (log entries 16 and 17). -/
def Obligations.User_instructions_make_no_authority : Prop :=
  ∀ s w i t, decode w = .ok i → s.cur.side = .user → s.str.native = none → s.here.node ≠ none → exec i s = .next t →
    (∀ c, (t.str.getC c).tag = true →
      (∃ c', (s.str.getC c').tag = true ∧
        (t.str.getC c = s.str.getC c' ∨ narrower (t.str.getC c).fields (s.str.getC c').fields = true)) ∨
      ∃ o ∈ (s.ctx s.ctxId).objects, (t.str.getC c).bits ∈ o.caps) ∧
    t.str.getC .cpv = s.str.getC .cpv ∧ t.str.ctxroot = s.str.ctxroot ∧ t.str.vpos = s.str.vpos ∧
    t.str.ctxcfg = s.str.ctxcfg ∧ t.here.fw = s.here.fw ∧ t.here.tsave = s.here.tsave ∧ t.here.pmbase = s.here.pmbase ∧
    t.here.spbase = s.here.spbase ∧ t.here.dlcall = s.here.dlcall ∧ t.here.dlhard = s.here.dlhard

end
end

