-- ==== Sys2Proof/Laws/State.lean ====
section
/-! SUPPORT. The fields of the state, of a tile and of a stream after each of their updates: one lemma per field and update. -/

namespace Sys2Proof.Machine

/-! ### `State.setTile` -/

@[simp] theorem State.setTile_mem (s : State) (t : TileId) (x : Tile) : (s.setTile t x).mem = s.mem := rfl
@[simp] theorem State.setTile_empty (s : State) (t : TileId) (x : Tile) : (s.setTile t x).empty = s.empty := rfl
@[simp] theorem State.setTile_poison (s : State) (t : TileId) (x : Tile) : (s.setTile t x).poison = s.poison := rfl
@[simp] theorem State.setTile_ctxs (s : State) (t : TileId) (x : Tile) : (s.setTile t x).ctxs = s.ctxs := rfl
@[simp] theorem State.setTile_groups (s : State) (t : TileId) (x : Tile) : (s.setTile t x).groups = s.groups := rfl
@[simp] theorem State.setTile_grants (s : State) (t : TileId) (x : Tile) : (s.setTile t x).grants = s.grants := rfl
@[simp] theorem State.setTile_nodes (s : State) (t : TileId) (x : Tile) : (s.setTile t x).nodes = s.nodes := rfl
@[simp] theorem State.setTile_serial (s : State) (t : TileId) (x : Tile) : (s.setTile t x).serial = s.serial := rfl
@[simp] theorem State.setTile_rings (s : State) (t : TileId) (x : Tile) : (s.setTile t x).rings = s.rings := rfl
@[simp] theorem State.setTile_timing (s : State) (t : TileId) (x : Tile) : (s.setTile t x).timing = s.timing := rfl
@[simp] theorem State.setTile_boot (s : State) (t : TileId) (x : Tile) : (s.setTile t x).boot = s.boot := rfl
@[simp] theorem State.setTile_hosts (s : State) (t : TileId) (x : Tile) : (s.setTile t x).hosts = s.hosts := rfl
@[simp] theorem State.setTile_eth (s : State) (t : TileId) (x : Tile) : (s.setTile t x).eth = s.eth := rfl
@[simp] theorem State.setTile_links (s : State) (t : TileId) (x : Tile) : (s.setTile t x).links = s.links := rfl
@[simp] theorem State.setTile_gsbase (s : State) (t : TileId) (x : Tile) : (s.setTile t x).gsbase = s.gsbase := rfl
@[simp] theorem State.setTile_gsperiod (s : State) (t : TileId) (x : Tile) : (s.setTile t x).gsperiod = s.gsperiod := rfl
@[simp] theorem State.setTile_gslot (s : State) (t : TileId) (x : Tile) : (s.setTile t x).gslot = s.gslot := rfl
@[simp] theorem State.setTile_issued (s : State) (t : TileId) (x : Tile) : (s.setTile t x).issued = s.issued := rfl
@[simp] theorem State.setTile_completed (s : State) (t : TileId) (x : Tile) : (s.setTile t x).completed = s.completed := rfl
@[simp] theorem State.setTile_shoots (s : State) (t : TileId) (x : Tile) : (s.setTile t x).shoots = s.shoots := rfl
@[simp] theorem State.setTile_pciwin (s : State) (t : TileId) (x : Tile) : (s.setTile t x).pciwin = s.pciwin := rfl
@[simp] theorem State.setTile_domainV (s : State) (t : TileId) (x : Tile) : (s.setTile t x).domainV = s.domainV := rfl
@[simp] theorem State.setTile_domainNum (s : State) (t : TileId) (x : Tile) : (s.setTile t x).domainNum = s.domainNum := rfl
@[simp] theorem State.setTile_inbox (s : State) (t : TileId) (x : Tile) : (s.setTile t x).inbox = s.inbox := rfl
@[simp] theorem State.setTile_seqNext (s : State) (t : TileId) (x : Tile) : (s.setTile t x).seqNext = s.seqNext := rfl
@[simp] theorem State.setTile_peerOut (s : State) (t : TileId) (x : Tile) : (s.setTile t x).peerOut = s.peerOut := rfl
@[simp] theorem State.setTile_seqSeen (s : State) (t : TileId) (x : Tile) : (s.setTile t x).seqSeen = s.seqSeen := rfl
@[simp] theorem State.setTile_hbar (s : State) (t : TileId) (x : Tile) : (s.setTile t x).hbar = s.hbar := rfl
@[simp] theorem State.setTile_clock (s : State) (t : TileId) (x : Tile) : (s.setTile t x).clock = s.clock := rfl
@[simp] theorem State.setTile_outputs (s : State) (t : TileId) (x : Tile) : (s.setTile t x).outputs = s.outputs := rfl
@[simp] theorem State.setTile_fresh (s : State) (t : TileId) (x : Tile) : (s.setTile t x).fresh = s.fresh := rfl
@[simp] theorem State.setTile_agenda (s : State) (t : TileId) (x : Tile) : (s.setTile t x).agenda = s.agenda := rfl
@[simp] theorem State.setTile_cur (s : State) (t : TileId) (x : Tile) : (s.setTile t x).cur = s.cur := rfl

@[simp] theorem State.tile_setTile (s : State) (t : TileId) (x : Tile) : (s.setTile t x).tile t = x := by
  simp [State.tile, State.setTile]

theorem State.tile_setTile_ne (s : State) (t u : TileId) (x : Tile) (h : u ≠ t) : (s.setTile t x).tile u = s.tile u := by
  have h' : t.toNat ≠ u.toNat := fun e => h (BitVec.eq_of_toNat_eq e.symm)
  simp [State.tile, State.setTile, Vector.getElem_set_ne _ _ h']

@[simp] theorem State.setTile_setTile (s : State) (t : TileId) (x y : Tile) :
    (s.setTile t x).setTile t y = s.setTile t y := by
  simp [State.setTile]

@[simp] theorem State.setTile_tile (s : State) (t : TileId) : s.setTile t (s.tile t) = s := by
  simp [State.setTile, State.tile]

@[simp] theorem State.ctx_setTile (s : State) (t : TileId) (x : Tile) (c : CtxId) : (s.setTile t x).ctx c = s.ctx c := rfl

/-! ### `State.setCtx` -/

@[simp] theorem State.setCtx_mem (s : State) (c : CtxId) (x : Ctx) : (s.setCtx c x).mem = s.mem := rfl
@[simp] theorem State.setCtx_empty (s : State) (c : CtxId) (x : Ctx) : (s.setCtx c x).empty = s.empty := rfl
@[simp] theorem State.setCtx_poison (s : State) (c : CtxId) (x : Ctx) : (s.setCtx c x).poison = s.poison := rfl
@[simp] theorem State.setCtx_tiles (s : State) (c : CtxId) (x : Ctx) : (s.setCtx c x).tiles = s.tiles := rfl
@[simp] theorem State.setCtx_groups (s : State) (c : CtxId) (x : Ctx) : (s.setCtx c x).groups = s.groups := rfl
@[simp] theorem State.setCtx_grants (s : State) (c : CtxId) (x : Ctx) : (s.setCtx c x).grants = s.grants := rfl
@[simp] theorem State.setCtx_nodes (s : State) (c : CtxId) (x : Ctx) : (s.setCtx c x).nodes = s.nodes := rfl
@[simp] theorem State.setCtx_serial (s : State) (c : CtxId) (x : Ctx) : (s.setCtx c x).serial = s.serial := rfl
@[simp] theorem State.setCtx_rings (s : State) (c : CtxId) (x : Ctx) : (s.setCtx c x).rings = s.rings := rfl
@[simp] theorem State.setCtx_timing (s : State) (c : CtxId) (x : Ctx) : (s.setCtx c x).timing = s.timing := rfl
@[simp] theorem State.setCtx_boot (s : State) (c : CtxId) (x : Ctx) : (s.setCtx c x).boot = s.boot := rfl
@[simp] theorem State.setCtx_hosts (s : State) (c : CtxId) (x : Ctx) : (s.setCtx c x).hosts = s.hosts := rfl
@[simp] theorem State.setCtx_eth (s : State) (c : CtxId) (x : Ctx) : (s.setCtx c x).eth = s.eth := rfl
@[simp] theorem State.setCtx_links (s : State) (c : CtxId) (x : Ctx) : (s.setCtx c x).links = s.links := rfl
@[simp] theorem State.setCtx_gsbase (s : State) (c : CtxId) (x : Ctx) : (s.setCtx c x).gsbase = s.gsbase := rfl
@[simp] theorem State.setCtx_gsperiod (s : State) (c : CtxId) (x : Ctx) : (s.setCtx c x).gsperiod = s.gsperiod := rfl
@[simp] theorem State.setCtx_gslot (s : State) (c : CtxId) (x : Ctx) : (s.setCtx c x).gslot = s.gslot := rfl
@[simp] theorem State.setCtx_issued (s : State) (c : CtxId) (x : Ctx) : (s.setCtx c x).issued = s.issued := rfl
@[simp] theorem State.setCtx_completed (s : State) (c : CtxId) (x : Ctx) : (s.setCtx c x).completed = s.completed := rfl
@[simp] theorem State.setCtx_shoots (s : State) (c : CtxId) (x : Ctx) : (s.setCtx c x).shoots = s.shoots := rfl
@[simp] theorem State.setCtx_pciwin (s : State) (c : CtxId) (x : Ctx) : (s.setCtx c x).pciwin = s.pciwin := rfl
@[simp] theorem State.setCtx_domainV (s : State) (c : CtxId) (x : Ctx) : (s.setCtx c x).domainV = s.domainV := rfl
@[simp] theorem State.setCtx_domainNum (s : State) (c : CtxId) (x : Ctx) : (s.setCtx c x).domainNum = s.domainNum := rfl
@[simp] theorem State.setCtx_inbox (s : State) (c : CtxId) (x : Ctx) : (s.setCtx c x).inbox = s.inbox := rfl
@[simp] theorem State.setCtx_seqNext (s : State) (c : CtxId) (x : Ctx) : (s.setCtx c x).seqNext = s.seqNext := rfl
@[simp] theorem State.setCtx_peerOut (s : State) (c : CtxId) (x : Ctx) : (s.setCtx c x).peerOut = s.peerOut := rfl
@[simp] theorem State.setCtx_seqSeen (s : State) (c : CtxId) (x : Ctx) : (s.setCtx c x).seqSeen = s.seqSeen := rfl
@[simp] theorem State.setCtx_hbar (s : State) (c : CtxId) (x : Ctx) : (s.setCtx c x).hbar = s.hbar := rfl
@[simp] theorem State.setCtx_clock (s : State) (c : CtxId) (x : Ctx) : (s.setCtx c x).clock = s.clock := rfl
@[simp] theorem State.setCtx_outputs (s : State) (c : CtxId) (x : Ctx) : (s.setCtx c x).outputs = s.outputs := rfl
@[simp] theorem State.setCtx_fresh (s : State) (c : CtxId) (x : Ctx) : (s.setCtx c x).fresh = s.fresh := rfl
@[simp] theorem State.setCtx_agenda (s : State) (c : CtxId) (x : Ctx) : (s.setCtx c x).agenda = s.agenda := rfl
@[simp] theorem State.setCtx_cur (s : State) (c : CtxId) (x : Ctx) : (s.setCtx c x).cur = s.cur := rfl

@[simp] theorem State.ctx_setCtx (s : State) (c : CtxId) (x : Ctx) : (s.setCtx c x).ctx c = x := by
  simp [State.ctx, State.setCtx]

theorem State.ctx_setCtx_ne (s : State) (c d : CtxId) (x : Ctx) (h : d ≠ c) : (s.setCtx c x).ctx d = s.ctx d := by
  have h' : c.toNat ≠ d.toNat := fun e => h (BitVec.eq_of_toNat_eq e.symm)
  simp [State.ctx, State.setCtx, Vector.getElem_set_ne _ _ h']

@[simp] theorem State.tile_setCtx (s : State) (c : CtxId) (x : Ctx) (t : TileId) : (s.setCtx c x).tile t = s.tile t := rfl

/-! ### `State.writeBytes` -/

@[simp] theorem State.writeBytes_empty (s : State) (a : Nat) (bs : List Byte) : (s.writeBytes a bs).empty = s.empty := rfl
@[simp] theorem State.writeBytes_poison (s : State) (a : Nat) (bs : List Byte) : (s.writeBytes a bs).poison = s.poison := rfl
@[simp] theorem State.writeBytes_tiles (s : State) (a : Nat) (bs : List Byte) : (s.writeBytes a bs).tiles = s.tiles := rfl
@[simp] theorem State.writeBytes_ctxs (s : State) (a : Nat) (bs : List Byte) : (s.writeBytes a bs).ctxs = s.ctxs := rfl
@[simp] theorem State.writeBytes_groups (s : State) (a : Nat) (bs : List Byte) : (s.writeBytes a bs).groups = s.groups := rfl
@[simp] theorem State.writeBytes_grants (s : State) (a : Nat) (bs : List Byte) : (s.writeBytes a bs).grants = s.grants := rfl
@[simp] theorem State.writeBytes_nodes (s : State) (a : Nat) (bs : List Byte) : (s.writeBytes a bs).nodes = s.nodes := rfl
@[simp] theorem State.writeBytes_serial (s : State) (a : Nat) (bs : List Byte) : (s.writeBytes a bs).serial = s.serial := rfl
@[simp] theorem State.writeBytes_rings (s : State) (a : Nat) (bs : List Byte) : (s.writeBytes a bs).rings = s.rings := rfl
@[simp] theorem State.writeBytes_timing (s : State) (a : Nat) (bs : List Byte) : (s.writeBytes a bs).timing = s.timing := rfl
@[simp] theorem State.writeBytes_boot (s : State) (a : Nat) (bs : List Byte) : (s.writeBytes a bs).boot = s.boot := rfl
@[simp] theorem State.writeBytes_eth (s : State) (a : Nat) (bs : List Byte) : (s.writeBytes a bs).eth = s.eth := rfl
@[simp] theorem State.writeBytes_links (s : State) (a : Nat) (bs : List Byte) : (s.writeBytes a bs).links = s.links := rfl
@[simp] theorem State.writeBytes_gsbase (s : State) (a : Nat) (bs : List Byte) : (s.writeBytes a bs).gsbase = s.gsbase := rfl
@[simp] theorem State.writeBytes_gsperiod (s : State) (a : Nat) (bs : List Byte) : (s.writeBytes a bs).gsperiod = s.gsperiod := rfl
@[simp] theorem State.writeBytes_gslot (s : State) (a : Nat) (bs : List Byte) : (s.writeBytes a bs).gslot = s.gslot := rfl
@[simp] theorem State.writeBytes_issued (s : State) (a : Nat) (bs : List Byte) : (s.writeBytes a bs).issued = s.issued := rfl
@[simp] theorem State.writeBytes_completed (s : State) (a : Nat) (bs : List Byte) : (s.writeBytes a bs).completed = s.completed := rfl
@[simp] theorem State.writeBytes_shoots (s : State) (a : Nat) (bs : List Byte) : (s.writeBytes a bs).shoots = s.shoots := rfl
@[simp] theorem State.writeBytes_pciwin (s : State) (a : Nat) (bs : List Byte) : (s.writeBytes a bs).pciwin = s.pciwin := rfl
@[simp] theorem State.writeBytes_domainV (s : State) (a : Nat) (bs : List Byte) : (s.writeBytes a bs).domainV = s.domainV := rfl
@[simp] theorem State.writeBytes_domainNum (s : State) (a : Nat) (bs : List Byte) : (s.writeBytes a bs).domainNum = s.domainNum := rfl
@[simp] theorem State.writeBytes_inbox (s : State) (a : Nat) (bs : List Byte) : (s.writeBytes a bs).inbox = s.inbox := rfl
@[simp] theorem State.writeBytes_seqNext (s : State) (a : Nat) (bs : List Byte) : (s.writeBytes a bs).seqNext = s.seqNext := rfl
@[simp] theorem State.writeBytes_peerOut (s : State) (a : Nat) (bs : List Byte) : (s.writeBytes a bs).peerOut = s.peerOut := rfl
@[simp] theorem State.writeBytes_seqSeen (s : State) (a : Nat) (bs : List Byte) : (s.writeBytes a bs).seqSeen = s.seqSeen := rfl
@[simp] theorem State.writeBytes_hbar (s : State) (a : Nat) (bs : List Byte) : (s.writeBytes a bs).hbar = s.hbar := rfl
@[simp] theorem State.writeBytes_clock (s : State) (a : Nat) (bs : List Byte) : (s.writeBytes a bs).clock = s.clock := rfl
@[simp] theorem State.writeBytes_outputs (s : State) (a : Nat) (bs : List Byte) : (s.writeBytes a bs).outputs = s.outputs := rfl
@[simp] theorem State.writeBytes_fresh (s : State) (a : Nat) (bs : List Byte) : (s.writeBytes a bs).fresh = s.fresh := rfl
@[simp] theorem State.writeBytes_agenda (s : State) (a : Nat) (bs : List Byte) : (s.writeBytes a bs).agenda = s.agenda := rfl
@[simp] theorem State.writeBytes_cur (s : State) (a : Nat) (bs : List Byte) : (s.writeBytes a bs).cur = s.cur := rfl

/-! ### `State.setFull` -/

@[simp] theorem State.setFull_mem (s : State) (l : Nat) : (s.setFull l).mem = s.mem := rfl
@[simp] theorem State.setFull_poison (s : State) (l : Nat) : (s.setFull l).poison = s.poison := rfl
@[simp] theorem State.setFull_tiles (s : State) (l : Nat) : (s.setFull l).tiles = s.tiles := rfl
@[simp] theorem State.setFull_ctxs (s : State) (l : Nat) : (s.setFull l).ctxs = s.ctxs := rfl
@[simp] theorem State.setFull_groups (s : State) (l : Nat) : (s.setFull l).groups = s.groups := rfl
@[simp] theorem State.setFull_grants (s : State) (l : Nat) : (s.setFull l).grants = s.grants := rfl
@[simp] theorem State.setFull_nodes (s : State) (l : Nat) : (s.setFull l).nodes = s.nodes := rfl
@[simp] theorem State.setFull_serial (s : State) (l : Nat) : (s.setFull l).serial = s.serial := rfl
@[simp] theorem State.setFull_rings (s : State) (l : Nat) : (s.setFull l).rings = s.rings := rfl
@[simp] theorem State.setFull_timing (s : State) (l : Nat) : (s.setFull l).timing = s.timing := rfl
@[simp] theorem State.setFull_boot (s : State) (l : Nat) : (s.setFull l).boot = s.boot := rfl
@[simp] theorem State.setFull_hosts (s : State) (l : Nat) : (s.setFull l).hosts = s.hosts := rfl
@[simp] theorem State.setFull_eth (s : State) (l : Nat) : (s.setFull l).eth = s.eth := rfl
@[simp] theorem State.setFull_links (s : State) (l : Nat) : (s.setFull l).links = s.links := rfl
@[simp] theorem State.setFull_gsbase (s : State) (l : Nat) : (s.setFull l).gsbase = s.gsbase := rfl
@[simp] theorem State.setFull_gsperiod (s : State) (l : Nat) : (s.setFull l).gsperiod = s.gsperiod := rfl
@[simp] theorem State.setFull_gslot (s : State) (l : Nat) : (s.setFull l).gslot = s.gslot := rfl
@[simp] theorem State.setFull_issued (s : State) (l : Nat) : (s.setFull l).issued = s.issued := rfl
@[simp] theorem State.setFull_completed (s : State) (l : Nat) : (s.setFull l).completed = s.completed := rfl
@[simp] theorem State.setFull_shoots (s : State) (l : Nat) : (s.setFull l).shoots = s.shoots := rfl
@[simp] theorem State.setFull_pciwin (s : State) (l : Nat) : (s.setFull l).pciwin = s.pciwin := rfl
@[simp] theorem State.setFull_domainV (s : State) (l : Nat) : (s.setFull l).domainV = s.domainV := rfl
@[simp] theorem State.setFull_domainNum (s : State) (l : Nat) : (s.setFull l).domainNum = s.domainNum := rfl
@[simp] theorem State.setFull_inbox (s : State) (l : Nat) : (s.setFull l).inbox = s.inbox := rfl
@[simp] theorem State.setFull_seqNext (s : State) (l : Nat) : (s.setFull l).seqNext = s.seqNext := rfl
@[simp] theorem State.setFull_peerOut (s : State) (l : Nat) : (s.setFull l).peerOut = s.peerOut := rfl
@[simp] theorem State.setFull_seqSeen (s : State) (l : Nat) : (s.setFull l).seqSeen = s.seqSeen := rfl
@[simp] theorem State.setFull_hbar (s : State) (l : Nat) : (s.setFull l).hbar = s.hbar := rfl
@[simp] theorem State.setFull_clock (s : State) (l : Nat) : (s.setFull l).clock = s.clock := rfl
@[simp] theorem State.setFull_outputs (s : State) (l : Nat) : (s.setFull l).outputs = s.outputs := rfl
@[simp] theorem State.setFull_fresh (s : State) (l : Nat) : (s.setFull l).fresh = s.fresh := rfl
@[simp] theorem State.setFull_agenda (s : State) (l : Nat) : (s.setFull l).agenda = s.agenda := rfl
@[simp] theorem State.setFull_cur (s : State) (l : Nat) : (s.setFull l).cur = s.cur := rfl

/-! ### `State.setEmpty` -/

@[simp] theorem State.setEmpty_mem (s : State) (l : Nat) : (s.setEmpty l).mem = s.mem := rfl
@[simp] theorem State.setEmpty_poison (s : State) (l : Nat) : (s.setEmpty l).poison = s.poison := rfl
@[simp] theorem State.setEmpty_tiles (s : State) (l : Nat) : (s.setEmpty l).tiles = s.tiles := rfl
@[simp] theorem State.setEmpty_ctxs (s : State) (l : Nat) : (s.setEmpty l).ctxs = s.ctxs := rfl
@[simp] theorem State.setEmpty_groups (s : State) (l : Nat) : (s.setEmpty l).groups = s.groups := rfl
@[simp] theorem State.setEmpty_grants (s : State) (l : Nat) : (s.setEmpty l).grants = s.grants := rfl
@[simp] theorem State.setEmpty_nodes (s : State) (l : Nat) : (s.setEmpty l).nodes = s.nodes := rfl
@[simp] theorem State.setEmpty_serial (s : State) (l : Nat) : (s.setEmpty l).serial = s.serial := rfl
@[simp] theorem State.setEmpty_rings (s : State) (l : Nat) : (s.setEmpty l).rings = s.rings := rfl
@[simp] theorem State.setEmpty_timing (s : State) (l : Nat) : (s.setEmpty l).timing = s.timing := rfl
@[simp] theorem State.setEmpty_boot (s : State) (l : Nat) : (s.setEmpty l).boot = s.boot := rfl
@[simp] theorem State.setEmpty_hosts (s : State) (l : Nat) : (s.setEmpty l).hosts = s.hosts := rfl
@[simp] theorem State.setEmpty_eth (s : State) (l : Nat) : (s.setEmpty l).eth = s.eth := rfl
@[simp] theorem State.setEmpty_links (s : State) (l : Nat) : (s.setEmpty l).links = s.links := rfl
@[simp] theorem State.setEmpty_gsbase (s : State) (l : Nat) : (s.setEmpty l).gsbase = s.gsbase := rfl
@[simp] theorem State.setEmpty_gsperiod (s : State) (l : Nat) : (s.setEmpty l).gsperiod = s.gsperiod := rfl
@[simp] theorem State.setEmpty_gslot (s : State) (l : Nat) : (s.setEmpty l).gslot = s.gslot := rfl
@[simp] theorem State.setEmpty_issued (s : State) (l : Nat) : (s.setEmpty l).issued = s.issued := rfl
@[simp] theorem State.setEmpty_completed (s : State) (l : Nat) : (s.setEmpty l).completed = s.completed := rfl
@[simp] theorem State.setEmpty_shoots (s : State) (l : Nat) : (s.setEmpty l).shoots = s.shoots := rfl
@[simp] theorem State.setEmpty_pciwin (s : State) (l : Nat) : (s.setEmpty l).pciwin = s.pciwin := rfl
@[simp] theorem State.setEmpty_domainV (s : State) (l : Nat) : (s.setEmpty l).domainV = s.domainV := rfl
@[simp] theorem State.setEmpty_domainNum (s : State) (l : Nat) : (s.setEmpty l).domainNum = s.domainNum := rfl
@[simp] theorem State.setEmpty_inbox (s : State) (l : Nat) : (s.setEmpty l).inbox = s.inbox := rfl
@[simp] theorem State.setEmpty_seqNext (s : State) (l : Nat) : (s.setEmpty l).seqNext = s.seqNext := rfl
@[simp] theorem State.setEmpty_peerOut (s : State) (l : Nat) : (s.setEmpty l).peerOut = s.peerOut := rfl
@[simp] theorem State.setEmpty_seqSeen (s : State) (l : Nat) : (s.setEmpty l).seqSeen = s.seqSeen := rfl
@[simp] theorem State.setEmpty_hbar (s : State) (l : Nat) : (s.setEmpty l).hbar = s.hbar := rfl
@[simp] theorem State.setEmpty_clock (s : State) (l : Nat) : (s.setEmpty l).clock = s.clock := rfl
@[simp] theorem State.setEmpty_outputs (s : State) (l : Nat) : (s.setEmpty l).outputs = s.outputs := rfl
@[simp] theorem State.setEmpty_fresh (s : State) (l : Nat) : (s.setEmpty l).fresh = s.fresh := rfl
@[simp] theorem State.setEmpty_agenda (s : State) (l : Nat) : (s.setEmpty l).agenda = s.agenda := rfl
@[simp] theorem State.setEmpty_cur (s : State) (l : Nat) : (s.setEmpty l).cur = s.cur := rfl

/-! ### `State.setPoison` -/

@[simp] theorem State.setPoison_mem (s : State) (l : Nat) : (s.setPoison l).mem = s.mem := rfl
@[simp] theorem State.setPoison_empty (s : State) (l : Nat) : (s.setPoison l).empty = s.empty := rfl
@[simp] theorem State.setPoison_tiles (s : State) (l : Nat) : (s.setPoison l).tiles = s.tiles := rfl
@[simp] theorem State.setPoison_ctxs (s : State) (l : Nat) : (s.setPoison l).ctxs = s.ctxs := rfl
@[simp] theorem State.setPoison_groups (s : State) (l : Nat) : (s.setPoison l).groups = s.groups := rfl
@[simp] theorem State.setPoison_grants (s : State) (l : Nat) : (s.setPoison l).grants = s.grants := rfl
@[simp] theorem State.setPoison_nodes (s : State) (l : Nat) : (s.setPoison l).nodes = s.nodes := rfl
@[simp] theorem State.setPoison_serial (s : State) (l : Nat) : (s.setPoison l).serial = s.serial := rfl
@[simp] theorem State.setPoison_rings (s : State) (l : Nat) : (s.setPoison l).rings = s.rings := rfl
@[simp] theorem State.setPoison_timing (s : State) (l : Nat) : (s.setPoison l).timing = s.timing := rfl
@[simp] theorem State.setPoison_boot (s : State) (l : Nat) : (s.setPoison l).boot = s.boot := rfl
@[simp] theorem State.setPoison_hosts (s : State) (l : Nat) : (s.setPoison l).hosts = s.hosts := rfl
@[simp] theorem State.setPoison_eth (s : State) (l : Nat) : (s.setPoison l).eth = s.eth := rfl
@[simp] theorem State.setPoison_links (s : State) (l : Nat) : (s.setPoison l).links = s.links := rfl
@[simp] theorem State.setPoison_gsbase (s : State) (l : Nat) : (s.setPoison l).gsbase = s.gsbase := rfl
@[simp] theorem State.setPoison_gsperiod (s : State) (l : Nat) : (s.setPoison l).gsperiod = s.gsperiod := rfl
@[simp] theorem State.setPoison_gslot (s : State) (l : Nat) : (s.setPoison l).gslot = s.gslot := rfl
@[simp] theorem State.setPoison_issued (s : State) (l : Nat) : (s.setPoison l).issued = s.issued := rfl
@[simp] theorem State.setPoison_completed (s : State) (l : Nat) : (s.setPoison l).completed = s.completed := rfl
@[simp] theorem State.setPoison_shoots (s : State) (l : Nat) : (s.setPoison l).shoots = s.shoots := rfl
@[simp] theorem State.setPoison_pciwin (s : State) (l : Nat) : (s.setPoison l).pciwin = s.pciwin := rfl
@[simp] theorem State.setPoison_domainV (s : State) (l : Nat) : (s.setPoison l).domainV = s.domainV := rfl
@[simp] theorem State.setPoison_domainNum (s : State) (l : Nat) : (s.setPoison l).domainNum = s.domainNum := rfl
@[simp] theorem State.setPoison_inbox (s : State) (l : Nat) : (s.setPoison l).inbox = s.inbox := rfl
@[simp] theorem State.setPoison_seqNext (s : State) (l : Nat) : (s.setPoison l).seqNext = s.seqNext := rfl
@[simp] theorem State.setPoison_peerOut (s : State) (l : Nat) : (s.setPoison l).peerOut = s.peerOut := rfl
@[simp] theorem State.setPoison_seqSeen (s : State) (l : Nat) : (s.setPoison l).seqSeen = s.seqSeen := rfl
@[simp] theorem State.setPoison_hbar (s : State) (l : Nat) : (s.setPoison l).hbar = s.hbar := rfl
@[simp] theorem State.setPoison_clock (s : State) (l : Nat) : (s.setPoison l).clock = s.clock := rfl
@[simp] theorem State.setPoison_outputs (s : State) (l : Nat) : (s.setPoison l).outputs = s.outputs := rfl
@[simp] theorem State.setPoison_fresh (s : State) (l : Nat) : (s.setPoison l).fresh = s.fresh := rfl
@[simp] theorem State.setPoison_agenda (s : State) (l : Nat) : (s.setPoison l).agenda = s.agenda := rfl
@[simp] theorem State.setPoison_cur (s : State) (l : Nat) : (s.setPoison l).cur = s.cur := rfl

/-! ### `State.clearPoison` -/

@[simp] theorem State.clearPoison_mem (s : State) (l : Nat) : (s.clearPoison l).mem = s.mem := rfl
@[simp] theorem State.clearPoison_empty (s : State) (l : Nat) : (s.clearPoison l).empty = s.empty := rfl
@[simp] theorem State.clearPoison_tiles (s : State) (l : Nat) : (s.clearPoison l).tiles = s.tiles := rfl
@[simp] theorem State.clearPoison_ctxs (s : State) (l : Nat) : (s.clearPoison l).ctxs = s.ctxs := rfl
@[simp] theorem State.clearPoison_groups (s : State) (l : Nat) : (s.clearPoison l).groups = s.groups := rfl
@[simp] theorem State.clearPoison_grants (s : State) (l : Nat) : (s.clearPoison l).grants = s.grants := rfl
@[simp] theorem State.clearPoison_nodes (s : State) (l : Nat) : (s.clearPoison l).nodes = s.nodes := rfl
@[simp] theorem State.clearPoison_serial (s : State) (l : Nat) : (s.clearPoison l).serial = s.serial := rfl
@[simp] theorem State.clearPoison_rings (s : State) (l : Nat) : (s.clearPoison l).rings = s.rings := rfl
@[simp] theorem State.clearPoison_timing (s : State) (l : Nat) : (s.clearPoison l).timing = s.timing := rfl
@[simp] theorem State.clearPoison_boot (s : State) (l : Nat) : (s.clearPoison l).boot = s.boot := rfl
@[simp] theorem State.clearPoison_hosts (s : State) (l : Nat) : (s.clearPoison l).hosts = s.hosts := rfl
@[simp] theorem State.clearPoison_eth (s : State) (l : Nat) : (s.clearPoison l).eth = s.eth := rfl
@[simp] theorem State.clearPoison_links (s : State) (l : Nat) : (s.clearPoison l).links = s.links := rfl
@[simp] theorem State.clearPoison_gsbase (s : State) (l : Nat) : (s.clearPoison l).gsbase = s.gsbase := rfl
@[simp] theorem State.clearPoison_gsperiod (s : State) (l : Nat) : (s.clearPoison l).gsperiod = s.gsperiod := rfl
@[simp] theorem State.clearPoison_gslot (s : State) (l : Nat) : (s.clearPoison l).gslot = s.gslot := rfl
@[simp] theorem State.clearPoison_issued (s : State) (l : Nat) : (s.clearPoison l).issued = s.issued := rfl
@[simp] theorem State.clearPoison_completed (s : State) (l : Nat) : (s.clearPoison l).completed = s.completed := rfl
@[simp] theorem State.clearPoison_shoots (s : State) (l : Nat) : (s.clearPoison l).shoots = s.shoots := rfl
@[simp] theorem State.clearPoison_pciwin (s : State) (l : Nat) : (s.clearPoison l).pciwin = s.pciwin := rfl
@[simp] theorem State.clearPoison_domainV (s : State) (l : Nat) : (s.clearPoison l).domainV = s.domainV := rfl
@[simp] theorem State.clearPoison_domainNum (s : State) (l : Nat) : (s.clearPoison l).domainNum = s.domainNum := rfl
@[simp] theorem State.clearPoison_inbox (s : State) (l : Nat) : (s.clearPoison l).inbox = s.inbox := rfl
@[simp] theorem State.clearPoison_seqNext (s : State) (l : Nat) : (s.clearPoison l).seqNext = s.seqNext := rfl
@[simp] theorem State.clearPoison_peerOut (s : State) (l : Nat) : (s.clearPoison l).peerOut = s.peerOut := rfl
@[simp] theorem State.clearPoison_seqSeen (s : State) (l : Nat) : (s.clearPoison l).seqSeen = s.seqSeen := rfl
@[simp] theorem State.clearPoison_hbar (s : State) (l : Nat) : (s.clearPoison l).hbar = s.hbar := rfl
@[simp] theorem State.clearPoison_clock (s : State) (l : Nat) : (s.clearPoison l).clock = s.clock := rfl
@[simp] theorem State.clearPoison_outputs (s : State) (l : Nat) : (s.clearPoison l).outputs = s.outputs := rfl
@[simp] theorem State.clearPoison_fresh (s : State) (l : Nat) : (s.clearPoison l).fresh = s.fresh := rfl
@[simp] theorem State.clearPoison_agenda (s : State) (l : Nat) : (s.clearPoison l).agenda = s.agenda := rfl
@[simp] theorem State.clearPoison_cur (s : State) (l : Nat) : (s.clearPoison l).cur = s.cur := rfl

/-! ### `State.emit` -/

@[simp] theorem State.emit_mem (s : State) (o : Output) : (s.emit o).mem = s.mem := rfl
@[simp] theorem State.emit_empty (s : State) (o : Output) : (s.emit o).empty = s.empty := rfl
@[simp] theorem State.emit_poison (s : State) (o : Output) : (s.emit o).poison = s.poison := rfl
@[simp] theorem State.emit_tiles (s : State) (o : Output) : (s.emit o).tiles = s.tiles := rfl
@[simp] theorem State.emit_ctxs (s : State) (o : Output) : (s.emit o).ctxs = s.ctxs := rfl
@[simp] theorem State.emit_groups (s : State) (o : Output) : (s.emit o).groups = s.groups := rfl
@[simp] theorem State.emit_grants (s : State) (o : Output) : (s.emit o).grants = s.grants := rfl
@[simp] theorem State.emit_nodes (s : State) (o : Output) : (s.emit o).nodes = s.nodes := rfl
@[simp] theorem State.emit_serial (s : State) (o : Output) : (s.emit o).serial = s.serial := rfl
@[simp] theorem State.emit_rings (s : State) (o : Output) : (s.emit o).rings = s.rings := rfl
@[simp] theorem State.emit_timing (s : State) (o : Output) : (s.emit o).timing = s.timing := rfl
@[simp] theorem State.emit_boot (s : State) (o : Output) : (s.emit o).boot = s.boot := rfl
@[simp] theorem State.emit_hosts (s : State) (o : Output) : (s.emit o).hosts = s.hosts := rfl
@[simp] theorem State.emit_eth (s : State) (o : Output) : (s.emit o).eth = s.eth := rfl
@[simp] theorem State.emit_links (s : State) (o : Output) : (s.emit o).links = s.links := rfl
@[simp] theorem State.emit_gsbase (s : State) (o : Output) : (s.emit o).gsbase = s.gsbase := rfl
@[simp] theorem State.emit_gsperiod (s : State) (o : Output) : (s.emit o).gsperiod = s.gsperiod := rfl
@[simp] theorem State.emit_gslot (s : State) (o : Output) : (s.emit o).gslot = s.gslot := rfl
@[simp] theorem State.emit_issued (s : State) (o : Output) : (s.emit o).issued = s.issued := rfl
@[simp] theorem State.emit_completed (s : State) (o : Output) : (s.emit o).completed = s.completed := rfl
@[simp] theorem State.emit_shoots (s : State) (o : Output) : (s.emit o).shoots = s.shoots := rfl
@[simp] theorem State.emit_pciwin (s : State) (o : Output) : (s.emit o).pciwin = s.pciwin := rfl
@[simp] theorem State.emit_domainV (s : State) (o : Output) : (s.emit o).domainV = s.domainV := rfl
@[simp] theorem State.emit_domainNum (s : State) (o : Output) : (s.emit o).domainNum = s.domainNum := rfl
@[simp] theorem State.emit_inbox (s : State) (o : Output) : (s.emit o).inbox = s.inbox := rfl
@[simp] theorem State.emit_seqNext (s : State) (o : Output) : (s.emit o).seqNext = s.seqNext := rfl
@[simp] theorem State.emit_peerOut (s : State) (o : Output) : (s.emit o).peerOut = s.peerOut := rfl
@[simp] theorem State.emit_seqSeen (s : State) (o : Output) : (s.emit o).seqSeen = s.seqSeen := rfl
@[simp] theorem State.emit_hbar (s : State) (o : Output) : (s.emit o).hbar = s.hbar := rfl
@[simp] theorem State.emit_clock (s : State) (o : Output) : (s.emit o).clock = s.clock := rfl
@[simp] theorem State.emit_fresh (s : State) (o : Output) : (s.emit o).fresh = s.fresh := rfl
@[simp] theorem State.emit_agenda (s : State) (o : Output) : (s.emit o).agenda = s.agenda := rfl
@[simp] theorem State.emit_cur (s : State) (o : Output) : (s.emit o).cur = s.cur := rfl

@[simp] theorem State.emit_outputs (s : State) (o : Output) : (s.emit o).outputs = s.outputs ++ [o] := rfl

/-! ### `State.store` -/

theorem State.foldl_clearPoison {α : Type} (p : State → α) (h : ∀ s l, p (State.clearPoison s l) = p s) (ls : List Nat)
    (s : State) : p (ls.foldl State.clearPoison s) = p s := by
  induction ls generalizing s with
  | nil => rfl
  | cons l ls ih => exact (ih (s.clearPoison l)).trans (h s l)

@[simp] theorem State.store_empty (s : State) (a : Nat) (bs : List Byte) : (s.store a bs).empty = s.empty :=
  State.foldl_clearPoison (·.empty) (fun _ _ => rfl) _ _
@[simp] theorem State.store_tiles (s : State) (a : Nat) (bs : List Byte) : (s.store a bs).tiles = s.tiles :=
  State.foldl_clearPoison (·.tiles) (fun _ _ => rfl) _ _
@[simp] theorem State.store_ctxs (s : State) (a : Nat) (bs : List Byte) : (s.store a bs).ctxs = s.ctxs :=
  State.foldl_clearPoison (·.ctxs) (fun _ _ => rfl) _ _
@[simp] theorem State.store_groups (s : State) (a : Nat) (bs : List Byte) : (s.store a bs).groups = s.groups :=
  State.foldl_clearPoison (·.groups) (fun _ _ => rfl) _ _
@[simp] theorem State.store_grants (s : State) (a : Nat) (bs : List Byte) : (s.store a bs).grants = s.grants :=
  State.foldl_clearPoison (·.grants) (fun _ _ => rfl) _ _
@[simp] theorem State.store_nodes (s : State) (a : Nat) (bs : List Byte) : (s.store a bs).nodes = s.nodes :=
  State.foldl_clearPoison (·.nodes) (fun _ _ => rfl) _ _
@[simp] theorem State.store_serial (s : State) (a : Nat) (bs : List Byte) : (s.store a bs).serial = s.serial :=
  State.foldl_clearPoison (·.serial) (fun _ _ => rfl) _ _
@[simp] theorem State.store_rings (s : State) (a : Nat) (bs : List Byte) : (s.store a bs).rings = s.rings :=
  State.foldl_clearPoison (·.rings) (fun _ _ => rfl) _ _
@[simp] theorem State.store_timing (s : State) (a : Nat) (bs : List Byte) : (s.store a bs).timing = s.timing :=
  State.foldl_clearPoison (·.timing) (fun _ _ => rfl) _ _
@[simp] theorem State.store_boot (s : State) (a : Nat) (bs : List Byte) : (s.store a bs).boot = s.boot :=
  State.foldl_clearPoison (·.boot) (fun _ _ => rfl) _ _
@[simp] theorem State.store_eth (s : State) (a : Nat) (bs : List Byte) : (s.store a bs).eth = s.eth :=
  State.foldl_clearPoison (·.eth) (fun _ _ => rfl) _ _
@[simp] theorem State.store_links (s : State) (a : Nat) (bs : List Byte) : (s.store a bs).links = s.links :=
  State.foldl_clearPoison (·.links) (fun _ _ => rfl) _ _
@[simp] theorem State.store_gsbase (s : State) (a : Nat) (bs : List Byte) : (s.store a bs).gsbase = s.gsbase :=
  State.foldl_clearPoison (·.gsbase) (fun _ _ => rfl) _ _
@[simp] theorem State.store_gsperiod (s : State) (a : Nat) (bs : List Byte) : (s.store a bs).gsperiod = s.gsperiod :=
  State.foldl_clearPoison (·.gsperiod) (fun _ _ => rfl) _ _
@[simp] theorem State.store_gslot (s : State) (a : Nat) (bs : List Byte) : (s.store a bs).gslot = s.gslot :=
  State.foldl_clearPoison (·.gslot) (fun _ _ => rfl) _ _
@[simp] theorem State.store_issued (s : State) (a : Nat) (bs : List Byte) : (s.store a bs).issued = s.issued :=
  State.foldl_clearPoison (·.issued) (fun _ _ => rfl) _ _
@[simp] theorem State.store_completed (s : State) (a : Nat) (bs : List Byte) : (s.store a bs).completed = s.completed :=
  State.foldl_clearPoison (·.completed) (fun _ _ => rfl) _ _
@[simp] theorem State.store_shoots (s : State) (a : Nat) (bs : List Byte) : (s.store a bs).shoots = s.shoots :=
  State.foldl_clearPoison (·.shoots) (fun _ _ => rfl) _ _
@[simp] theorem State.store_pciwin (s : State) (a : Nat) (bs : List Byte) : (s.store a bs).pciwin = s.pciwin :=
  State.foldl_clearPoison (·.pciwin) (fun _ _ => rfl) _ _
@[simp] theorem State.store_domainV (s : State) (a : Nat) (bs : List Byte) : (s.store a bs).domainV = s.domainV :=
  State.foldl_clearPoison (·.domainV) (fun _ _ => rfl) _ _
@[simp] theorem State.store_domainNum (s : State) (a : Nat) (bs : List Byte) : (s.store a bs).domainNum = s.domainNum :=
  State.foldl_clearPoison (·.domainNum) (fun _ _ => rfl) _ _
@[simp] theorem State.store_inbox (s : State) (a : Nat) (bs : List Byte) : (s.store a bs).inbox = s.inbox :=
  State.foldl_clearPoison (·.inbox) (fun _ _ => rfl) _ _
@[simp] theorem State.store_seqNext (s : State) (a : Nat) (bs : List Byte) : (s.store a bs).seqNext = s.seqNext :=
  State.foldl_clearPoison (·.seqNext) (fun _ _ => rfl) _ _
@[simp] theorem State.store_peerOut (s : State) (a : Nat) (bs : List Byte) : (s.store a bs).peerOut = s.peerOut :=
  State.foldl_clearPoison (·.peerOut) (fun _ _ => rfl) _ _
@[simp] theorem State.store_seqSeen (s : State) (a : Nat) (bs : List Byte) : (s.store a bs).seqSeen = s.seqSeen :=
  State.foldl_clearPoison (·.seqSeen) (fun _ _ => rfl) _ _
@[simp] theorem State.store_hbar (s : State) (a : Nat) (bs : List Byte) : (s.store a bs).hbar = s.hbar :=
  State.foldl_clearPoison (·.hbar) (fun _ _ => rfl) _ _
@[simp] theorem State.store_clock (s : State) (a : Nat) (bs : List Byte) : (s.store a bs).clock = s.clock :=
  State.foldl_clearPoison (·.clock) (fun _ _ => rfl) _ _
@[simp] theorem State.store_outputs (s : State) (a : Nat) (bs : List Byte) : (s.store a bs).outputs = s.outputs :=
  State.foldl_clearPoison (·.outputs) (fun _ _ => rfl) _ _
@[simp] theorem State.store_fresh (s : State) (a : Nat) (bs : List Byte) : (s.store a bs).fresh = s.fresh :=
  State.foldl_clearPoison (·.fresh) (fun _ _ => rfl) _ _
@[simp] theorem State.store_agenda (s : State) (a : Nat) (bs : List Byte) : (s.store a bs).agenda = s.agenda :=
  State.foldl_clearPoison (·.agenda) (fun _ _ => rfl) _ _
@[simp] theorem State.store_cur (s : State) (a : Nat) (bs : List Byte) : (s.store a bs).cur = s.cur :=
  State.foldl_clearPoison (·.cur) (fun _ _ => rfl) _ _
@[simp] theorem State.store_mem (s : State) (a : Nat) (bs : List Byte) :
    (s.store a bs).mem = memWriteBytes s.mem a bs := State.foldl_clearPoison (·.mem) (fun _ _ => rfl) _ _

/-! ### `Tile.setStream` -/

@[simp] theorem Tile.setStream_loadQ (x : Tile) (k : Side) (y : Stream) : (x.setStream k y).loadQ = x.loadQ := by cases k <;> rfl
@[simp] theorem Tile.setStream_storeQ (x : Tile) (k : Side) (y : Stream) : (x.setStream k y).storeQ = x.storeQ := by cases k <;> rfl
@[simp] theorem Tile.setStream_pumps (x : Tile) (k : Side) (y : Stream) : (x.setStream k y).pumps = x.pumps := by cases k <;> rfl
@[simp] theorem Tile.setStream_turnLoad (x : Tile) (k : Side) (y : Stream) : (x.setStream k y).turnLoad = x.turnLoad := by cases k <;> rfl
@[simp] theorem Tile.setStream_turnStore (x : Tile) (k : Side) (y : Stream) : (x.setStream k y).turnStore = x.turnStore := by cases k <;> rfl
@[simp] theorem Tile.setStream_mx (x : Tile) (k : Side) (y : Stream) : (x.setStream k y).mx = x.mx := by cases k <;> rfl
@[simp] theorem Tile.setStream_sigQ (x : Tile) (k : Side) (y : Stream) : (x.setStream k y).sigQ = x.sigQ := by cases k <;> rfl
@[simp] theorem Tile.setStream_sigFault (x : Tile) (k : Side) (y : Stream) : (x.setStream k y).sigFault = x.sigFault := by cases k <;> rfl
@[simp] theorem Tile.setStream_mmu (x : Tile) (k : Side) (y : Stream) : (x.setStream k y).mmu = x.mmu := by cases k <;> rfl
@[simp] theorem Tile.setStream_hbarArrived (x : Tile) (k : Side) (y : Stream) : (x.setStream k y).hbarArrived = x.hbarArrived := by cases k <;> rfl
@[simp] theorem Tile.setStream_shadow (x : Tile) (k : Side) (y : Stream) : (x.setStream k y).shadow = x.shadow := by cases k <;> rfl
@[simp] theorem Tile.setStream_node (x : Tile) (k : Side) (y : Stream) : (x.setStream k y).node = x.node := by cases k <;> rfl
@[simp] theorem Tile.setStream_lastNode (x : Tile) (k : Side) (y : Stream) : (x.setStream k y).lastNode = x.lastNode := by cases k <;> rfl
@[simp] theorem Tile.setStream_lastCtx (x : Tile) (k : Side) (y : Stream) : (x.setStream k y).lastCtx = x.lastCtx := by cases k <;> rfl
@[simp] theorem Tile.setStream_vidx (x : Tile) (k : Side) (y : Stream) : (x.setStream k y).vidx = x.vidx := by cases k <;> rfl
@[simp] theorem Tile.setStream_callTime (x : Tile) (k : Side) (y : Stream) : (x.setStream k y).callTime = x.callTime := by cases k <;> rfl
@[simp] theorem Tile.setStream_fault (x : Tile) (k : Side) (y : Stream) : (x.setStream k y).fault = x.fault := by cases k <;> rfl
@[simp] theorem Tile.setStream_lost (x : Tile) (k : Side) (y : Stream) : (x.setStream k y).lost = x.lost := by cases k <;> rfl
@[simp] theorem Tile.setStream_savedS (x : Tile) (k : Side) (y : Stream) : (x.setStream k y).savedS = x.savedS := by cases k <;> rfl
@[simp] theorem Tile.setStream_savedTags (x : Tile) (k : Side) (y : Stream) : (x.setStream k y).savedTags = x.savedTags := by cases k <;> rfl
@[simp] theorem Tile.setStream_pmbase (x : Tile) (k : Side) (y : Stream) : (x.setStream k y).pmbase = x.pmbase := by cases k <;> rfl
@[simp] theorem Tile.setStream_spbase (x : Tile) (k : Side) (y : Stream) : (x.setStream k y).spbase = x.spbase := by cases k <;> rfl
@[simp] theorem Tile.setStream_dlcall (x : Tile) (k : Side) (y : Stream) : (x.setStream k y).dlcall = x.dlcall := by cases k <;> rfl
@[simp] theorem Tile.setStream_dlhard (x : Tile) (k : Side) (y : Stream) : (x.setStream k y).dlhard = x.dlhard := by cases k <;> rfl
@[simp] theorem Tile.setStream_tcause (x : Tile) (k : Side) (y : Stream) : (x.setStream k y).tcause = x.tcause := by cases k <;> rfl
@[simp] theorem Tile.setStream_taddr (x : Tile) (k : Side) (y : Stream) : (x.setStream k y).taddr = x.taddr := by cases k <;> rfl
@[simp] theorem Tile.setStream_tpc (x : Tile) (k : Side) (y : Stream) : (x.setStream k y).tpc = x.tpc := by cases k <;> rfl
@[simp] theorem Tile.setStream_tsave (x : Tile) (k : Side) (y : Stream) : (x.setStream k y).tsave = x.tsave := by cases k <;> rfl
@[simp] theorem Tile.setStream_fwsh (x : Tile) (k : Side) (y : Stream) : (x.setStream k y).fwsh = x.fwsh := by cases k <;> rfl
@[simp] theorem Tile.setStream_rst (x : Tile) (k : Side) (y : Stream) : (x.setStream k y).rst = x.rst := by cases k <;> rfl
@[simp] theorem Tile.setStream_rbusy (x : Tile) (k : Side) (y : Stream) : (x.setStream k y).rbusy = x.rbusy := by cases k <;> rfl
@[simp] theorem Tile.setStream_frozen (x : Tile) (k : Side) (y : Stream) : (x.setStream k y).frozen = x.frozen := by cases k <;> rfl
@[simp] theorem Tile.setStream_gated (x : Tile) (k : Side) (y : Stream) : (x.setStream k y).gated = x.gated := by cases k <;> rfl

@[simp] theorem Tile.stream_setStream (x : Tile) (k : Side) (y : Stream) : (x.setStream k y).stream k = y := by
  cases k <;> rfl

@[simp] theorem Tile.setStream_setStream (x : Tile) (k : Side) (y z : Stream) :
    (x.setStream k y).setStream k z = x.setStream k z := by
  cases k <;> rfl

@[simp] theorem Tile.setStream_stream (x : Tile) (k : Side) : x.setStream k (x.stream k) = x := by cases k <;> rfl

/-! ### `State.setStr` -/

@[simp] theorem State.setStr_mem (s : State) (y : Stream) : (s.setStr y).mem = s.mem := rfl
@[simp] theorem State.setStr_empty (s : State) (y : Stream) : (s.setStr y).empty = s.empty := rfl
@[simp] theorem State.setStr_poison (s : State) (y : Stream) : (s.setStr y).poison = s.poison := rfl
@[simp] theorem State.setStr_ctxs (s : State) (y : Stream) : (s.setStr y).ctxs = s.ctxs := rfl
@[simp] theorem State.setStr_groups (s : State) (y : Stream) : (s.setStr y).groups = s.groups := rfl
@[simp] theorem State.setStr_grants (s : State) (y : Stream) : (s.setStr y).grants = s.grants := rfl
@[simp] theorem State.setStr_nodes (s : State) (y : Stream) : (s.setStr y).nodes = s.nodes := rfl
@[simp] theorem State.setStr_serial (s : State) (y : Stream) : (s.setStr y).serial = s.serial := rfl
@[simp] theorem State.setStr_rings (s : State) (y : Stream) : (s.setStr y).rings = s.rings := rfl
@[simp] theorem State.setStr_timing (s : State) (y : Stream) : (s.setStr y).timing = s.timing := rfl
@[simp] theorem State.setStr_boot (s : State) (y : Stream) : (s.setStr y).boot = s.boot := rfl
@[simp] theorem State.setStr_hosts (s : State) (y : Stream) : (s.setStr y).hosts = s.hosts := rfl
@[simp] theorem State.setStr_eth (s : State) (y : Stream) : (s.setStr y).eth = s.eth := rfl
@[simp] theorem State.setStr_links (s : State) (y : Stream) : (s.setStr y).links = s.links := rfl
@[simp] theorem State.setStr_gsbase (s : State) (y : Stream) : (s.setStr y).gsbase = s.gsbase := rfl
@[simp] theorem State.setStr_gsperiod (s : State) (y : Stream) : (s.setStr y).gsperiod = s.gsperiod := rfl
@[simp] theorem State.setStr_gslot (s : State) (y : Stream) : (s.setStr y).gslot = s.gslot := rfl
@[simp] theorem State.setStr_issued (s : State) (y : Stream) : (s.setStr y).issued = s.issued := rfl
@[simp] theorem State.setStr_completed (s : State) (y : Stream) : (s.setStr y).completed = s.completed := rfl
@[simp] theorem State.setStr_shoots (s : State) (y : Stream) : (s.setStr y).shoots = s.shoots := rfl
@[simp] theorem State.setStr_pciwin (s : State) (y : Stream) : (s.setStr y).pciwin = s.pciwin := rfl
@[simp] theorem State.setStr_domainV (s : State) (y : Stream) : (s.setStr y).domainV = s.domainV := rfl
@[simp] theorem State.setStr_domainNum (s : State) (y : Stream) : (s.setStr y).domainNum = s.domainNum := rfl
@[simp] theorem State.setStr_inbox (s : State) (y : Stream) : (s.setStr y).inbox = s.inbox := rfl
@[simp] theorem State.setStr_seqNext (s : State) (y : Stream) : (s.setStr y).seqNext = s.seqNext := rfl
@[simp] theorem State.setStr_peerOut (s : State) (y : Stream) : (s.setStr y).peerOut = s.peerOut := rfl
@[simp] theorem State.setStr_seqSeen (s : State) (y : Stream) : (s.setStr y).seqSeen = s.seqSeen := rfl
@[simp] theorem State.setStr_hbar (s : State) (y : Stream) : (s.setStr y).hbar = s.hbar := rfl
@[simp] theorem State.setStr_clock (s : State) (y : Stream) : (s.setStr y).clock = s.clock := rfl
@[simp] theorem State.setStr_outputs (s : State) (y : Stream) : (s.setStr y).outputs = s.outputs := rfl
@[simp] theorem State.setStr_fresh (s : State) (y : Stream) : (s.setStr y).fresh = s.fresh := rfl
@[simp] theorem State.setStr_agenda (s : State) (y : Stream) : (s.setStr y).agenda = s.agenda := rfl
@[simp] theorem State.setStr_cur (s : State) (y : Stream) : (s.setStr y).cur = s.cur := rfl

@[simp] theorem State.str_setStr (s : State) (y : Stream) : (s.setStr y).str = y := by
  simp [State.str, State.setStr, State.here]

@[simp] theorem State.setStr_setStr (s : State) (y z : Stream) : (s.setStr y).setStr z = s.setStr z := by
  simp [State.setStr, State.here]

@[simp] theorem State.setStr_str (s : State) : s.setStr s.str = s := by
  simp [State.setStr, State.str, State.here]

/-- The other stream of the tile, and every stream of another tile, stay as they were. -/
theorem State.tile_setStr_ne (s : State) (y : Stream) (t : TileId) (h : t ≠ s.cur.tile) : (s.setStr y).tile t = s.tile t :=
  State.tile_setTile_ne s _ _ _ h

@[simp] theorem State.ctx_setStr (s : State) (y : Stream) (c : CtxId) : (s.setStr y).ctx c = s.ctx c := rfl

/-! ### `State.advance` -/

@[simp] theorem State.advance_mem (s : State) : (s.advance).mem = s.mem := rfl
@[simp] theorem State.advance_empty (s : State) : (s.advance).empty = s.empty := rfl
@[simp] theorem State.advance_poison (s : State) : (s.advance).poison = s.poison := rfl
@[simp] theorem State.advance_ctxs (s : State) : (s.advance).ctxs = s.ctxs := rfl
@[simp] theorem State.advance_groups (s : State) : (s.advance).groups = s.groups := rfl
@[simp] theorem State.advance_grants (s : State) : (s.advance).grants = s.grants := rfl
@[simp] theorem State.advance_nodes (s : State) : (s.advance).nodes = s.nodes := rfl
@[simp] theorem State.advance_serial (s : State) : (s.advance).serial = s.serial := rfl
@[simp] theorem State.advance_rings (s : State) : (s.advance).rings = s.rings := rfl
@[simp] theorem State.advance_timing (s : State) : (s.advance).timing = s.timing := rfl
@[simp] theorem State.advance_boot (s : State) : (s.advance).boot = s.boot := rfl
@[simp] theorem State.advance_hosts (s : State) : (s.advance).hosts = s.hosts := rfl
@[simp] theorem State.advance_eth (s : State) : (s.advance).eth = s.eth := rfl
@[simp] theorem State.advance_links (s : State) : (s.advance).links = s.links := rfl
@[simp] theorem State.advance_gsbase (s : State) : (s.advance).gsbase = s.gsbase := rfl
@[simp] theorem State.advance_gsperiod (s : State) : (s.advance).gsperiod = s.gsperiod := rfl
@[simp] theorem State.advance_gslot (s : State) : (s.advance).gslot = s.gslot := rfl
@[simp] theorem State.advance_issued (s : State) : (s.advance).issued = s.issued := rfl
@[simp] theorem State.advance_completed (s : State) : (s.advance).completed = s.completed := rfl
@[simp] theorem State.advance_shoots (s : State) : (s.advance).shoots = s.shoots := rfl
@[simp] theorem State.advance_pciwin (s : State) : (s.advance).pciwin = s.pciwin := rfl
@[simp] theorem State.advance_domainV (s : State) : (s.advance).domainV = s.domainV := rfl
@[simp] theorem State.advance_domainNum (s : State) : (s.advance).domainNum = s.domainNum := rfl
@[simp] theorem State.advance_inbox (s : State) : (s.advance).inbox = s.inbox := rfl
@[simp] theorem State.advance_seqNext (s : State) : (s.advance).seqNext = s.seqNext := rfl
@[simp] theorem State.advance_peerOut (s : State) : (s.advance).peerOut = s.peerOut := rfl
@[simp] theorem State.advance_seqSeen (s : State) : (s.advance).seqSeen = s.seqSeen := rfl
@[simp] theorem State.advance_hbar (s : State) : (s.advance).hbar = s.hbar := rfl
@[simp] theorem State.advance_clock (s : State) : (s.advance).clock = s.clock := rfl
@[simp] theorem State.advance_outputs (s : State) : (s.advance).outputs = s.outputs := rfl
@[simp] theorem State.advance_fresh (s : State) : (s.advance).fresh = s.fresh := rfl
@[simp] theorem State.advance_agenda (s : State) : (s.advance).agenda = s.agenda := rfl
@[simp] theorem State.advance_cur (s : State) : (s.advance).cur = s.cur := rfl

@[simp] theorem State.str_advance (s : State) : s.advance.str = s.str.advance := by simp [State.advance]

/-! ### `Stream.advance` -/

@[simp] theorem Stream.advance_state (x : Stream) : (x.advance).state = x.state := rfl
@[simp] theorem Stream.advance_wait (x : Stream) : (x.advance).wait = x.wait := rfl
@[simp] theorem Stream.advance_diverted (x : Stream) : (x.advance).diverted = x.diverted := rfl
@[simp] theorem Stream.advance_begun (x : Stream) : (x.advance).begun = x.begun := rfl
@[simp] theorem Stream.advance_s (x : Stream) : (x.advance).s = x.s := rfl
@[simp] theorem Stream.advance_tags (x : Stream) : (x.advance).tags = x.tags := rfl
@[simp] theorem Stream.advance_cpv (x : Stream) : (x.advance).cpv = x.cpv := rfl
@[simp] theorem Stream.advance_cpvTag (x : Stream) : (x.advance).cpvTag = x.cpvTag := rfl
@[simp] theorem Stream.advance_v (x : Stream) : (x.advance).v = x.v := rfl
@[simp] theorem Stream.advance_nv (x : Stream) : (x.advance).nv = x.nv := rfl
@[simp] theorem Stream.advance_p (x : Stream) : (x.advance).p = x.p := rfl
@[simp] theorem Stream.advance_xm (x : Stream) : (x.advance).xm = x.xm := rfl
@[simp] theorem Stream.advance_ports (x : Stream) : (x.advance).ports = x.ports := rfl
@[simp] theorem Stream.advance_fpctl (x : Stream) : (x.advance).fpctl = x.fpctl := rfl
@[simp] theorem Stream.advance_dpc (x : Stream) : (x.advance).dpc = x.dpc := rfl
@[simp] theorem Stream.advance_dtimef (x : Stream) : (x.advance).dtimef = x.dtimef := rfl
@[simp] theorem Stream.advance_vpos (x : Stream) : (x.advance).vpos = x.vpos := rfl
@[simp] theorem Stream.advance_ctxcfg (x : Stream) : (x.advance).ctxcfg = x.ctxcfg := rfl
@[simp] theorem Stream.advance_ctxroot (x : Stream) : (x.advance).ctxroot = x.ctxroot := rfl
@[simp] theorem Stream.advance_barrier (x : Stream) : (x.advance).barrier = x.barrier := rfl
@[simp] theorem Stream.advance_arrivals (x : Stream) : (x.advance).arrivals = x.arrivals := rfl
@[simp] theorem Stream.advance_calls (x : Stream) : (x.advance).calls = x.calls := rfl
@[simp] theorem Stream.advance_vamoTodo (x : Stream) : (x.advance).vamoTodo = x.vamoTodo := rfl
@[simp] theorem Stream.advance_woken (x : Stream) : (x.advance).woken = x.woken := rfl
@[simp] theorem Stream.advance_single (x : Stream) : (x.advance).single = x.single := rfl
@[simp] theorem Stream.advance_rejoin (x : Stream) : (x.advance).rejoin = x.rejoin := rfl
@[simp] theorem Stream.advance_went (x : Stream) : (x.advance).went = x.went := rfl
@[simp] theorem Stream.advance_late (x : Stream) : (x.advance).late = x.late := rfl
@[simp] theorem Stream.advance_native (x : Stream) : (x.advance).native = x.native := rfl

@[simp] theorem Stream.advance_pc (x : Stream) : x.advance.pc = x.pc + 8 := rfl

/-! ### `Stream.setS` -/

@[simp] theorem Stream.setS_state (x : Stream) (r : SReg) (w : Word) : (x.setS r w).state = x.state := by
  unfold Stream.setS; split <;> rfl
@[simp] theorem Stream.setS_wait (x : Stream) (r : SReg) (w : Word) : (x.setS r w).wait = x.wait := by
  unfold Stream.setS; split <;> rfl
@[simp] theorem Stream.setS_diverted (x : Stream) (r : SReg) (w : Word) : (x.setS r w).diverted = x.diverted := by
  unfold Stream.setS; split <;> rfl
@[simp] theorem Stream.setS_begun (x : Stream) (r : SReg) (w : Word) : (x.setS r w).begun = x.begun := by
  unfold Stream.setS; split <;> rfl
@[simp] theorem Stream.setS_pc (x : Stream) (r : SReg) (w : Word) : (x.setS r w).pc = x.pc := by
  unfold Stream.setS; split <;> rfl
@[simp] theorem Stream.setS_cpv (x : Stream) (r : SReg) (w : Word) : (x.setS r w).cpv = x.cpv := by
  unfold Stream.setS; split <;> rfl
@[simp] theorem Stream.setS_cpvTag (x : Stream) (r : SReg) (w : Word) : (x.setS r w).cpvTag = x.cpvTag := by
  unfold Stream.setS; split <;> rfl
@[simp] theorem Stream.setS_v (x : Stream) (r : SReg) (w : Word) : (x.setS r w).v = x.v := by
  unfold Stream.setS; split <;> rfl
@[simp] theorem Stream.setS_nv (x : Stream) (r : SReg) (w : Word) : (x.setS r w).nv = x.nv := by
  unfold Stream.setS; split <;> rfl
@[simp] theorem Stream.setS_p (x : Stream) (r : SReg) (w : Word) : (x.setS r w).p = x.p := by
  unfold Stream.setS; split <;> rfl
@[simp] theorem Stream.setS_xm (x : Stream) (r : SReg) (w : Word) : (x.setS r w).xm = x.xm := by
  unfold Stream.setS; split <;> rfl
@[simp] theorem Stream.setS_ports (x : Stream) (r : SReg) (w : Word) : (x.setS r w).ports = x.ports := by
  unfold Stream.setS; split <;> rfl
@[simp] theorem Stream.setS_fpctl (x : Stream) (r : SReg) (w : Word) : (x.setS r w).fpctl = x.fpctl := by
  unfold Stream.setS; split <;> rfl
@[simp] theorem Stream.setS_dpc (x : Stream) (r : SReg) (w : Word) : (x.setS r w).dpc = x.dpc := by
  unfold Stream.setS; split <;> rfl
@[simp] theorem Stream.setS_dtimef (x : Stream) (r : SReg) (w : Word) : (x.setS r w).dtimef = x.dtimef := by
  unfold Stream.setS; split <;> rfl
@[simp] theorem Stream.setS_vpos (x : Stream) (r : SReg) (w : Word) : (x.setS r w).vpos = x.vpos := by
  unfold Stream.setS; split <;> rfl
@[simp] theorem Stream.setS_ctxcfg (x : Stream) (r : SReg) (w : Word) : (x.setS r w).ctxcfg = x.ctxcfg := by
  unfold Stream.setS; split <;> rfl
@[simp] theorem Stream.setS_ctxroot (x : Stream) (r : SReg) (w : Word) : (x.setS r w).ctxroot = x.ctxroot := by
  unfold Stream.setS; split <;> rfl
@[simp] theorem Stream.setS_barrier (x : Stream) (r : SReg) (w : Word) : (x.setS r w).barrier = x.barrier := by
  unfold Stream.setS; split <;> rfl
@[simp] theorem Stream.setS_arrivals (x : Stream) (r : SReg) (w : Word) : (x.setS r w).arrivals = x.arrivals := by
  unfold Stream.setS; split <;> rfl
@[simp] theorem Stream.setS_calls (x : Stream) (r : SReg) (w : Word) : (x.setS r w).calls = x.calls := by
  unfold Stream.setS; split <;> rfl
@[simp] theorem Stream.setS_vamoTodo (x : Stream) (r : SReg) (w : Word) : (x.setS r w).vamoTodo = x.vamoTodo := by
  unfold Stream.setS; split <;> rfl
@[simp] theorem Stream.setS_woken (x : Stream) (r : SReg) (w : Word) : (x.setS r w).woken = x.woken := by
  unfold Stream.setS; split <;> rfl
@[simp] theorem Stream.setS_single (x : Stream) (r : SReg) (w : Word) : (x.setS r w).single = x.single := by
  unfold Stream.setS; split <;> rfl
@[simp] theorem Stream.setS_rejoin (x : Stream) (r : SReg) (w : Word) : (x.setS r w).rejoin = x.rejoin := by
  unfold Stream.setS; split <;> rfl
@[simp] theorem Stream.setS_went (x : Stream) (r : SReg) (w : Word) : (x.setS r w).went = x.went := by
  unfold Stream.setS; split <;> rfl
@[simp] theorem Stream.setS_late (x : Stream) (r : SReg) (w : Word) : (x.setS r w).late = x.late := by
  unfold Stream.setS; split <;> rfl
@[simp] theorem Stream.setS_native (x : Stream) (r : SReg) (w : Word) : (x.setS r w).native = x.native := by
  unfold Stream.setS; split <;> rfl

/-! ### `Stream.setV` -/

@[simp] theorem Stream.setV_state (x : Stream) (r : VReg) (w : Vec) : (x.setV r w).state = x.state := rfl
@[simp] theorem Stream.setV_wait (x : Stream) (r : VReg) (w : Vec) : (x.setV r w).wait = x.wait := rfl
@[simp] theorem Stream.setV_diverted (x : Stream) (r : VReg) (w : Vec) : (x.setV r w).diverted = x.diverted := rfl
@[simp] theorem Stream.setV_begun (x : Stream) (r : VReg) (w : Vec) : (x.setV r w).begun = x.begun := rfl
@[simp] theorem Stream.setV_pc (x : Stream) (r : VReg) (w : Vec) : (x.setV r w).pc = x.pc := rfl
@[simp] theorem Stream.setV_s (x : Stream) (r : VReg) (w : Vec) : (x.setV r w).s = x.s := rfl
@[simp] theorem Stream.setV_tags (x : Stream) (r : VReg) (w : Vec) : (x.setV r w).tags = x.tags := rfl
@[simp] theorem Stream.setV_cpv (x : Stream) (r : VReg) (w : Vec) : (x.setV r w).cpv = x.cpv := rfl
@[simp] theorem Stream.setV_cpvTag (x : Stream) (r : VReg) (w : Vec) : (x.setV r w).cpvTag = x.cpvTag := rfl
@[simp] theorem Stream.setV_nv (x : Stream) (r : VReg) (w : Vec) : (x.setV r w).nv = x.nv := rfl
@[simp] theorem Stream.setV_p (x : Stream) (r : VReg) (w : Vec) : (x.setV r w).p = x.p := rfl
@[simp] theorem Stream.setV_xm (x : Stream) (r : VReg) (w : Vec) : (x.setV r w).xm = x.xm := rfl
@[simp] theorem Stream.setV_ports (x : Stream) (r : VReg) (w : Vec) : (x.setV r w).ports = x.ports := rfl
@[simp] theorem Stream.setV_fpctl (x : Stream) (r : VReg) (w : Vec) : (x.setV r w).fpctl = x.fpctl := rfl
@[simp] theorem Stream.setV_dpc (x : Stream) (r : VReg) (w : Vec) : (x.setV r w).dpc = x.dpc := rfl
@[simp] theorem Stream.setV_dtimef (x : Stream) (r : VReg) (w : Vec) : (x.setV r w).dtimef = x.dtimef := rfl
@[simp] theorem Stream.setV_vpos (x : Stream) (r : VReg) (w : Vec) : (x.setV r w).vpos = x.vpos := rfl
@[simp] theorem Stream.setV_ctxcfg (x : Stream) (r : VReg) (w : Vec) : (x.setV r w).ctxcfg = x.ctxcfg := rfl
@[simp] theorem Stream.setV_ctxroot (x : Stream) (r : VReg) (w : Vec) : (x.setV r w).ctxroot = x.ctxroot := rfl
@[simp] theorem Stream.setV_barrier (x : Stream) (r : VReg) (w : Vec) : (x.setV r w).barrier = x.barrier := rfl
@[simp] theorem Stream.setV_arrivals (x : Stream) (r : VReg) (w : Vec) : (x.setV r w).arrivals = x.arrivals := rfl
@[simp] theorem Stream.setV_calls (x : Stream) (r : VReg) (w : Vec) : (x.setV r w).calls = x.calls := rfl
@[simp] theorem Stream.setV_vamoTodo (x : Stream) (r : VReg) (w : Vec) : (x.setV r w).vamoTodo = x.vamoTodo := rfl
@[simp] theorem Stream.setV_woken (x : Stream) (r : VReg) (w : Vec) : (x.setV r w).woken = x.woken := rfl
@[simp] theorem Stream.setV_single (x : Stream) (r : VReg) (w : Vec) : (x.setV r w).single = x.single := rfl
@[simp] theorem Stream.setV_rejoin (x : Stream) (r : VReg) (w : Vec) : (x.setV r w).rejoin = x.rejoin := rfl
@[simp] theorem Stream.setV_went (x : Stream) (r : VReg) (w : Vec) : (x.setV r w).went = x.went := rfl
@[simp] theorem Stream.setV_late (x : Stream) (r : VReg) (w : Vec) : (x.setV r w).late = x.late := rfl
@[simp] theorem Stream.setV_native (x : Stream) (r : VReg) (w : Vec) : (x.setV r w).native = x.native := rfl

/-! ### `Stream.setP` -/

@[simp] theorem Stream.setP_state (x : Stream) (r : PReg) (b : Bool) : (x.setP r b).state = x.state := by
  unfold Stream.setP; split <;> rfl
@[simp] theorem Stream.setP_wait (x : Stream) (r : PReg) (b : Bool) : (x.setP r b).wait = x.wait := by
  unfold Stream.setP; split <;> rfl
@[simp] theorem Stream.setP_diverted (x : Stream) (r : PReg) (b : Bool) : (x.setP r b).diverted = x.diverted := by
  unfold Stream.setP; split <;> rfl
@[simp] theorem Stream.setP_begun (x : Stream) (r : PReg) (b : Bool) : (x.setP r b).begun = x.begun := by
  unfold Stream.setP; split <;> rfl
@[simp] theorem Stream.setP_pc (x : Stream) (r : PReg) (b : Bool) : (x.setP r b).pc = x.pc := by
  unfold Stream.setP; split <;> rfl
@[simp] theorem Stream.setP_s (x : Stream) (r : PReg) (b : Bool) : (x.setP r b).s = x.s := by
  unfold Stream.setP; split <;> rfl
@[simp] theorem Stream.setP_tags (x : Stream) (r : PReg) (b : Bool) : (x.setP r b).tags = x.tags := by
  unfold Stream.setP; split <;> rfl
@[simp] theorem Stream.setP_cpv (x : Stream) (r : PReg) (b : Bool) : (x.setP r b).cpv = x.cpv := by
  unfold Stream.setP; split <;> rfl
@[simp] theorem Stream.setP_cpvTag (x : Stream) (r : PReg) (b : Bool) : (x.setP r b).cpvTag = x.cpvTag := by
  unfold Stream.setP; split <;> rfl
@[simp] theorem Stream.setP_v (x : Stream) (r : PReg) (b : Bool) : (x.setP r b).v = x.v := by
  unfold Stream.setP; split <;> rfl
@[simp] theorem Stream.setP_nv (x : Stream) (r : PReg) (b : Bool) : (x.setP r b).nv = x.nv := by
  unfold Stream.setP; split <;> rfl
@[simp] theorem Stream.setP_xm (x : Stream) (r : PReg) (b : Bool) : (x.setP r b).xm = x.xm := by
  unfold Stream.setP; split <;> rfl
@[simp] theorem Stream.setP_ports (x : Stream) (r : PReg) (b : Bool) : (x.setP r b).ports = x.ports := by
  unfold Stream.setP; split <;> rfl
@[simp] theorem Stream.setP_fpctl (x : Stream) (r : PReg) (b : Bool) : (x.setP r b).fpctl = x.fpctl := by
  unfold Stream.setP; split <;> rfl
@[simp] theorem Stream.setP_dpc (x : Stream) (r : PReg) (b : Bool) : (x.setP r b).dpc = x.dpc := by
  unfold Stream.setP; split <;> rfl
@[simp] theorem Stream.setP_dtimef (x : Stream) (r : PReg) (b : Bool) : (x.setP r b).dtimef = x.dtimef := by
  unfold Stream.setP; split <;> rfl
@[simp] theorem Stream.setP_vpos (x : Stream) (r : PReg) (b : Bool) : (x.setP r b).vpos = x.vpos := by
  unfold Stream.setP; split <;> rfl
@[simp] theorem Stream.setP_ctxcfg (x : Stream) (r : PReg) (b : Bool) : (x.setP r b).ctxcfg = x.ctxcfg := by
  unfold Stream.setP; split <;> rfl
@[simp] theorem Stream.setP_ctxroot (x : Stream) (r : PReg) (b : Bool) : (x.setP r b).ctxroot = x.ctxroot := by
  unfold Stream.setP; split <;> rfl
@[simp] theorem Stream.setP_barrier (x : Stream) (r : PReg) (b : Bool) : (x.setP r b).barrier = x.barrier := by
  unfold Stream.setP; split <;> rfl
@[simp] theorem Stream.setP_arrivals (x : Stream) (r : PReg) (b : Bool) : (x.setP r b).arrivals = x.arrivals := by
  unfold Stream.setP; split <;> rfl
@[simp] theorem Stream.setP_calls (x : Stream) (r : PReg) (b : Bool) : (x.setP r b).calls = x.calls := by
  unfold Stream.setP; split <;> rfl
@[simp] theorem Stream.setP_vamoTodo (x : Stream) (r : PReg) (b : Bool) : (x.setP r b).vamoTodo = x.vamoTodo := by
  unfold Stream.setP; split <;> rfl
@[simp] theorem Stream.setP_woken (x : Stream) (r : PReg) (b : Bool) : (x.setP r b).woken = x.woken := by
  unfold Stream.setP; split <;> rfl
@[simp] theorem Stream.setP_single (x : Stream) (r : PReg) (b : Bool) : (x.setP r b).single = x.single := by
  unfold Stream.setP; split <;> rfl
@[simp] theorem Stream.setP_rejoin (x : Stream) (r : PReg) (b : Bool) : (x.setP r b).rejoin = x.rejoin := by
  unfold Stream.setP; split <;> rfl
@[simp] theorem Stream.setP_went (x : Stream) (r : PReg) (b : Bool) : (x.setP r b).went = x.went := by
  unfold Stream.setP; split <;> rfl
@[simp] theorem Stream.setP_late (x : Stream) (r : PReg) (b : Bool) : (x.setP r b).late = x.late := by
  unfold Stream.setP; split <;> rfl
@[simp] theorem Stream.setP_native (x : Stream) (r : PReg) (b : Bool) : (x.setP r b).native = x.native := by
  unfold Stream.setP; split <;> rfl

/-! ### Reading a register after a write -/

/-- s0 reads as zero and its writes are discarded (R117). -/
@[simp] theorem Stream.getS_zero (x : Stream) : x.getS 0 = 0 := by simp [Stream.getS]

@[simp] theorem Stream.setS_zero (x : Stream) (w : Word) : x.setS 0 w = x := by simp [Stream.setS]

theorem Stream.getS_setS (x : Stream) (r : SReg) (w : Word) (h : r ≠ 0) : (x.setS r w).getS r = w := by
  unfold Stream.getS Stream.setS
  rw [if_neg h, if_neg h]
  exact Vector.getElem_set_self _

theorem Stream.getS_setS_ne (x : Stream) (r q : SReg) (w : Word) (h : q ≠ r) : (x.setS r w).getS q = x.getS q := by
  have h' : r.toNat ≠ q.toNat := fun e => h (BitVec.eq_of_toNat_eq e.symm)
  unfold Stream.getS Stream.setS
  by_cases hq : q = 0
  · rw [if_pos hq, if_pos hq]
  · rw [if_neg hq, if_neg hq]
    by_cases hr : r = 0
    · rw [if_pos hr]
    · rw [if_neg hr]
      exact Vector.getElem_set_ne r.isLt q.isLt h'

@[simp] theorem Stream.getV_setV (x : Stream) (r : VReg) (w : Vec) : (x.setV r w).getV r = w := by
  simp [Stream.getV, Stream.setV]

theorem Stream.getV_setV_ne (x : Stream) (r q : VReg) (w : Vec) (h : q ≠ r) : (x.setV r w).getV q = x.getV q := by
  have h' : r.toNat ≠ q.toNat := fun e => h (BitVec.eq_of_toNat_eq e.symm)
  simp [Stream.getV, Stream.setV, Vector.getElem_set_ne _ _ h']

/-- p0 reads as true and its writes are discarded (R117). -/
@[simp] theorem Stream.getP_zero (x : Stream) : x.getP 0 = true := by simp [Stream.getP]

@[simp] theorem Stream.setP_zero (x : Stream) (b : Bool) : x.setP 0 b = x := by simp [Stream.setP]

@[simp] theorem Stream.getS_advance (x : Stream) (r : SReg) : x.advance.getS r = x.getS r := rfl

@[simp] theorem Stream.getV_advance (x : Stream) (r : VReg) : x.advance.getV r = x.getV r := rfl

@[simp] theorem Stream.getP_advance (x : Stream) (r : PReg) : x.advance.getP r = x.getP r := rfl

/-- A write to a scalar register sets no tag (R119). -/
theorem Stream.setS_tags_le (x : Stream) (r : SReg) (w : Word) (n : Nat) (h : (x.setS r w).tags.getLsbD n = true) :
    x.tags.getLsbD n = true := by
  unfold Stream.setS at h
  split at h
  · exact h
  · simp only [BitVec.getLsbD_and, Bool.and_eq_true] at h
    exact h.1

end Sys2Proof.Machine
end

