-- ==== Sys2Proof/Laws/Memory.lean ====
section
/-! SUPPORT. The laws of memory: a read after a write, and that every operation on memory keeps its canonical form. -/

namespace Sys2Proof.Machine

/-! ### Reading after writing -/

/-- An address below every listed one reads as the default. -/
theorem memRead_above {m : List Host.Cell} {x : Nat} (h : memAbove x m = true) : memRead m x = memDefault := by
  cases m with
  | nil => rfl
  | cons c m =>
    obtain ⟨a, b⟩ := c
    simp only [memAbove, List.all_cons, Bool.and_eq_true, decide_eq_true_eq] at h
    have hne : x ≠ a := by omega
    simp [memRead, hne, h.1]

theorem memAbove_of_lt {m : List Host.Cell} {x y : Nat} (h : memAbove y m = true) (hxy : x ≤ y) : memAbove x m = true := by
  simp only [memAbove, List.all_eq_true, decide_eq_true_eq] at h ⊢
  exact fun c hc => Nat.lt_of_le_of_lt hxy (h c hc)

/-- A canonical list is its head below and its tail canonical. -/
theorem wf_cons {a : Nat} {b : Byte} {m : List Host.Cell} :
    Memory.wf ((a, b) :: m) = true ↔ memAbove a m = true ∧ b ≠ memDefault ∧ Memory.wf m = true := by
  simp [Memory.wf, and_assoc]

/-- The byte written is the byte read. -/
theorem memRead_memWrite_self (m : List Host.Cell) (x : Nat) (b : Byte) (h : Memory.wf m = true) :
    memRead (memWrite m x b) x = b := by
  induction m with
  | nil => unfold memWrite; split <;> simp_all [memRead]
  | cons c m ih =>
    obtain ⟨a, d⟩ := c
    obtain ⟨ha, -, hm⟩ := wf_cons.mp h
    unfold memWrite
    split
    · rename_i hlt
      have hne : x ≠ a := by omega
      split <;> simp_all [memRead]
    · split
      · rename_i heq
        split
        · rename_i hb
          rw [memRead_above (memAbove_of_lt ha (Nat.le_of_eq heq)), hb]
        · simp [memRead, heq]
      · rename_i hlt hne
        simp only [memRead, hne, hlt, if_false]
        exact ih hm

/-- Every other byte reads as before. -/
theorem memRead_memWrite_ne (m : List Host.Cell) (x y : Nat) (b : Byte) (h : Memory.wf m = true) (hne : y ≠ x) :
    memRead (memWrite m x b) y = memRead m y := by
  induction m with
  | nil => unfold memWrite; split <;> simp_all [memRead]
  | cons c m ih =>
    obtain ⟨a, d⟩ := c
    obtain ⟨ha, -, hm⟩ := wf_cons.mp h
    unfold memWrite
    split
    · rename_i hlt
      split
      · rfl
      · by_cases hy : y < x
        · have h1 : y ≠ a := by omega
          have h2 : y < a := by omega
          simp [memRead, hne, hy, h1, h2]
        · simp [memRead, hne, hy]
    · split
      · rename_i heq
        subst heq
        split
        · by_cases hy : y < x
          · simp [memRead, hne, hy, memRead_above (memAbove_of_lt ha (Nat.le_of_lt hy))]
          · simp [memRead, hne, hy]
        · simp [memRead, hne]
      · rename_i hlt hne'
        simp only [memRead]
        rw [ih hm]

/-! ### The canonical form is kept -/

theorem memAbove_memWrite {m : List Host.Cell} {x y : Nat} {b : Byte} (h : memAbove y m = true) (hyx : y < x) :
    memAbove y (memWrite m x b) = true := by
  induction m with
  | nil => unfold memWrite; split <;> simp [memAbove, hyx]
  | cons c m ih =>
    obtain ⟨a, d⟩ := c
    simp only [memAbove, List.all_cons, Bool.and_eq_true, decide_eq_true_eq] at h ih
    unfold memWrite
    split
    · split <;> simp [memAbove, List.all_cons, h.1, hyx] <;> simpa using h.2
    · split
      · split
        · simpa [memAbove] using h.2
        · simp only [memAbove, List.all_cons, Bool.and_eq_true, decide_eq_true_eq]
          exact ⟨h.1, h.2⟩
      · simp only [memAbove, List.all_cons, Bool.and_eq_true, decide_eq_true_eq]
        exact ⟨h.1, ih h.2⟩

theorem wf_memWrite {m : List Host.Cell} (x : Nat) (b : Byte) (h : Memory.wf m = true) :
    Memory.wf (memWrite m x b) = true := by
  induction m with
  | nil => unfold memWrite; split <;> simp_all [Memory.wf, memAbove]
  | cons c m ih =>
    obtain ⟨a, d⟩ := c
    obtain ⟨ha, hd, hm⟩ := wf_cons.mp h
    unfold memWrite
    split
    · rename_i hlt
      split
      · exact h
      · rename_i hb
        refine wf_cons.mpr ⟨?_, hb, h⟩
        simp only [memAbove, List.all_cons, Bool.and_eq_true, decide_eq_true_eq]
        exact ⟨hlt, memAbove_of_lt ha (Nat.le_of_lt hlt)⟩
    · split
      · split
        · exact hm
        · rename_i hb
          exact wf_cons.mpr ⟨ha, hb, hm⟩
      · exact wf_cons.mpr ⟨memAbove_memWrite ha (by omega), hd, ih hm⟩

theorem wf_memWriteBytes {m : List Host.Cell} (x : Nat) (bs : List Byte) (h : Memory.wf m = true) :
    Memory.wf (memWriteBytes m x bs) = true := by
  induction bs generalizing m x with
  | nil => exact h
  | cons b bs ih => exact ih _ (wf_memWrite x b h)

theorem wf_memWriteAt {m : List Host.Cell} (cells : List (Nat × Byte)) (h : Memory.wf m = true) :
    Memory.wf (memWriteAt m cells) = true := by
  induction cells generalizing m with
  | nil => exact h
  | cons c cs ih => exact ih (wf_memWrite c.1 c.2 h)

/-- Dropping cells keeps the canonical form: reset, power-up and the zeroing of an area do so. -/
theorem wf_filter {m : List Host.Cell} (p : Host.Cell → Bool) (h : Memory.wf m = true) : Memory.wf (m.filter p) = true := by
  induction m with
  | nil => rfl
  | cons c m ih =>
    obtain ⟨a, d⟩ := c
    obtain ⟨ha, hd, hm⟩ := wf_cons.mp h
    rw [List.filter_cons]
    split
    · refine wf_cons.mpr ⟨?_, hd, ih hm⟩
      simp only [memAbove, List.all_eq_true, decide_eq_true_eq] at ha ⊢
      exact fun c hc => ha c (List.mem_filter.mp hc).1
    · exact ih hm

/-- A write of bytes leaves every byte outside them alone. -/
theorem memRead_memWriteBytes_of_not_mem (m : List Host.Cell) (x y : Nat) (bs : List Byte) (h : Memory.wf m = true)
    (hy : y < x ∨ x + bs.length ≤ y) : memRead (memWriteBytes m x bs) y = memRead m y := by
  induction bs generalizing m x with
  | nil => rfl
  | cons b bs ih =>
    simp only [List.length_cons] at hy
    have hne : y ≠ x := by omega
    unfold memWriteBytes
    rw [ih _ _ (wf_memWrite x b h) (by omega), memRead_memWrite_ne m x y b h hne]

/-- The k-th byte written is read at the k-th address. -/
theorem memRead_memWriteBytes_mem (m : List Host.Cell) (x k : Nat) (bs : List Byte) (h : Memory.wf m = true)
    (hk : k < bs.length) : memRead (memWriteBytes m x bs) (x + k) = bs[k] := by
  induction bs generalizing m x k with
  | nil => simp at hk
  | cons b bs ih =>
    unfold memWriteBytes
    cases k with
    | zero =>
      show memRead (memWriteBytes (memWrite m x b) (x + 1) bs) x = b
      rw [memRead_memWriteBytes_of_not_mem _ _ _ _ (wf_memWrite x b h) (Or.inl (Nat.lt_succ_self x)),
        memRead_memWrite_self m x b h]
    | succ k =>
      have e : x + (k + 1) = x + 1 + k := by omega
      rw [e, ih _ _ _ (wf_memWrite x b h) (by simpa using hk)]
      rfl

/-! ### The machine's operations on memory -/

/-- The memory of a state is in canonical form. -/
abbrev State.memWf (s : State) : Prop := Memory.wf s.mem = true

theorem State.writeBytes_memWf {s : State} (a : Nat) (bs : List Byte) (h : s.memWf) : (s.writeBytes a bs).memWf :=
  wf_memWriteBytes a bs h

theorem State.store_memWf {s : State} (a : Nat) (bs : List Byte) (h : s.memWf) : (s.store a bs).memWf := by
  unfold State.memWf
  rw [State.store_mem]
  exact wf_memWriteBytes a bs h

theorem State.writePart_memWf {s : State} (mask : Option Word) (va pa : Nat) (bs : List Byte) (h : s.memWf) :
    (s.writePart mask va pa bs).memWf := by
  unfold State.writePart
  split
  · exact State.store_memWf pa bs h
  · unfold State.memWf
    rw [State.foldl_clearPoison (·.mem) (fun _ _ => rfl)]
    exact wf_memWriteAt _ h

/-- The memory after reset lists nothing. -/
theorem State.reset_memWf : State.reset.memWf := rfl

end Sys2Proof.Machine
end

