-- ==== Sys2Proof/Laws/Ops.lean ====
section
/-! SUPPORT. How a computation of the machine runs: one lemma for each way to sequence it, and one for each shared operation
that says what it answers. -/

namespace Sys2Proof.Machine

/-! ### Running a computation -/

@[simp] theorem M.pure_apply {α : Type} (a : α) (s : State) : (pure a : M α) s = .ok a s := rfl

@[simp] theorem M.get_apply (s : State) : (get : M State) s = .ok s s := rfl

@[simp] theorem M.set_apply (s s' : State) : (set s' : M PUnit) s = .ok ⟨⟩ s' := rfl

@[simp] theorem M.modify_apply (f : State → State) (s : State) : (modify f : M PUnit) s = .ok ⟨⟩ (f s) := rfl

@[simp] theorem M.throw_apply {α : Type} (e : Stop) (s : State) : (throw e : M α) s = .error e s := rfl

@[simp] theorem M.trap_apply {α : Type} (c : BitVec 8) (a : Word) (s : State) :
    (M.trap c a : M α) s = .error (.trap c a 0) s := rfl

@[simp] theorem M.str_apply (s : State) : M.str s = .ok s.str s := rfl

@[simp] theorem M.mod_apply (f : Stream → Stream) (s : State) : M.mod f s = .ok ⟨⟩ (s.setStr (f s.str)) := rfl

@[simp] theorem M.next_apply (s : State) : M.next s = .ok ⟨⟩ s.advance := rfl

@[simp] theorem M.getS_apply (r : SReg) (s : State) : M.getS r s = .ok (s.str.getS r) s := rfl

@[simp] theorem M.getC_apply (c : CapReg) (s : State) : M.getC c s = .ok (s.str.getC c) s := rfl

@[simp] theorem M.getV_apply (r : VReg) (s : State) : M.getV r s = .ok (s.str.getV r) s := rfl

@[simp] theorem M.modTile_apply (f : Tile → Tile) (s : State) :
    M.modTile f s = .ok ⟨⟩ (s.setTile s.cur.tile (f s.here)) := rfl

@[simp] theorem M.mask_apply (c : Cap) (s : State) : M.mask c s = .ok (c.mask s.str.xm) s := rfl

/-- A sequence runs its first part, and goes on from where that part answered. -/
theorem M.bind_apply {α β : Type} (x : M α) (f : α → M β) (s : State) :
    (x >>= f) s = match x s with
      | .ok a s' => f a s'
      | .error e s' => .error e s' := by
  show EStateM.bind x f s = _
  unfold EStateM.bind
  cases x s <;> rfl

theorem M.bind_ok {α β : Type} {x : M α} {f : α → M β} {s s' : State} {a : α} (h : x s = .ok a s') :
    (x >>= f) s = f a s' := by rw [M.bind_apply, h]

theorem M.bind_error {α β : Type} {x : M α} {f : α → M β} {s s' : State} {e : Stop} (h : x s = .error e s') :
    (x >>= f) s = .error e s' := by rw [M.bind_apply, h]

/-- A sequence that answers: both of its parts did. -/
theorem M.bind_eq_ok {α β : Type} {x : M α} {f : α → M β} {s t : State} {b : β} :
    (x >>= f) s = .ok b t ↔ ∃ a s', x s = .ok a s' ∧ f a s' = .ok b t := by
  rw [M.bind_apply]
  cases x s with
  | ok a s' => exact ⟨fun h => ⟨a, s', rfl, h⟩, fun ⟨_, _, h, h'⟩ => by cases h; exact h'⟩
  | error e s' => simp

/-- A sequence that stops: one of its parts did. -/
theorem M.bind_eq_error {α β : Type} {x : M α} {f : α → M β} {s t : State} {e : Stop} :
    (x >>= f) s = .error e t ↔ x s = .error e t ∨ ∃ a s', x s = .ok a s' ∧ f a s' = .error e t := by
  rw [M.bind_apply]
  cases x s with
  | ok a s' => exact ⟨fun h => .inr ⟨a, s', rfl, h⟩, fun h => by
      obtain h | ⟨_, _, h, h'⟩ := h
      · cases h
      · cases h; exact h'⟩
  | error e s' => simp

@[simp] theorem M.map_apply {α β : Type} (f : α → β) (x : M α) (s : State) :
    (f <$> x) s = match x s with
      | .ok a s' => .ok (f a) s'
      | .error e s' => .error e s' := by
  show EStateM.map f x s = _
  unfold EStateM.map
  cases x s <;> rfl

/-! ### A guarded check -/

theorem M.check_pass {α : Type} {c : Bool} {e : M PUnit} {f : PUnit → M α} {s : State} (h : c = false) :
    ((if c = true then e else pure ⟨⟩) >>= f) s = f ⟨⟩ s := by
  rw [if_neg (by simp [h])]; rfl

/-! ### How an instruction ends -/

@[simp] theorem finish_ok (a : Unit) (s : State) : finish (.ok a s) = .next s := rfl

theorem finish_trap_user {cause : BitVec 8} {addr : Word} {imm : BitVec 16} {s : State} (h : s.cur.side = .user) :
    finish (.error (.trap cause addr imm) s) = .next (s.takeTrap s.cur.tile cause addr imm) := by
  simp [finish, h]

theorem finish_trap_firmware {cause : BitVec 8} {addr : Word} {imm : BitVec 16} {s : State} (h : s.cur.side = .firmware)
    (hc : cause ≠ Cause.poisonedRead) :
    finish (.error (.trap cause addr imm) s) = .fault (.firmwareFault s.cur.tile cause) := by
  simp [finish, h, hc]

theorem finish_poison_firmware {addr : Word} {imm : BitVec 16} {s : State} (h : s.cur.side = .firmware) :
    finish (.error (.trap Cause.poisonedRead addr imm) s) = .next (s.firmwarePoison s.cur.tile addr) := by
  simp [finish, h]

@[simp] theorem finish_wait (st : StreamState) (w : Wait) (s : State) :
    finish (.error (.wait st w) s) = .next (s.setStr { s.str with state := st, wait := w }) := rfl

/-- An instruction whose predicate holds does what its body does (R118). -/
theorem perform_holds {g : Pred} {body : M Unit} {s : State} (h : s.str.holds g = true) :
    perform g body s = finish (body s) := by
  rw [perform, if_pos h]

/-- An instruction whose predicate does not hold only moves past its word (R118). -/
theorem perform_skips {g : Pred} {body : M Unit} {s : State} (h : s.str.holds g = false) :
    perform g body s = .next s.advance := by
  rw [perform, if_neg (by simp [h])]

/-- A body that answers without a stop gives the next state. -/
theorem perform_ok {g : Pred} {body : M Unit} {s t : State} (h : s.str.holds g = true) (hb : body s = .ok ⟨⟩ t) :
    perform g body s = .next t := by
  rw [perform_holds h, hb, finish_ok]

/-- A body that traps in the user context takes the trap. -/
theorem perform_trap {g : Pred} {body : M Unit} {s t : State} {c : BitVec 8} {a : Word} {i : BitVec 16}
    (h : s.str.holds g = true) (hb : body s = .error (.trap c a i) t) (hu : t.cur.side = .user) :
    perform g body s = .next (t.takeTrap t.cur.tile c a i) := by
  rw [perform_holds h, hb, finish_trap_user hu]

/-- A body that starts to wait leaves the stream at the instruction. -/
theorem perform_wait {g : Pred} {body : M Unit} {s t : State} {st : StreamState} {w : Wait}
    (h : s.str.holds g = true) (hb : body s = .error (.wait st w) t) :
    perform g body s = .next (t.setStr { t.str with state := st, wait := w }) := by
  rw [perform_holds h, hb, finish_wait]

/-- What an instruction that ends in a next state did: it was skipped, or its body answered, trapped the user stream, met a
poisoned line in the firmware context or started a wait. -/
theorem perform_next {g : Pred} {body : M Unit} {s t : State} (h : perform g body s = .next t) :
    (s.str.holds g = false ∧ t = s.advance) ∨
    (s.str.holds g = true ∧
      (body s = .ok ⟨⟩ t ∨
        (∃ c a i u, body s = .error (.trap c a i) u ∧ u.cur.side = .user ∧ t = u.takeTrap u.cur.tile c a i) ∨
        (∃ a i u, body s = .error (.trap Cause.poisonedRead a i) u ∧ u.cur.side = .firmware ∧
          t = u.firmwarePoison u.cur.tile a) ∨
        (∃ st w u, body s = .error (.wait st w) u ∧ t = u.setStr { u.str with state := st, wait := w }))) := by
  cases hg : s.str.holds g with
  | false => exact .inl ⟨rfl, by rw [perform_skips hg] at h; injection h with h; exact h.symm⟩
  | true =>
    rw [perform_holds hg] at h
    refine .inr ⟨rfl, ?_⟩
    cases hb : body s with
    | ok a u => rw [hb] at h; injection h with h; exact .inl (by rw [h])
    | error e u =>
      rw [hb] at h
      cases e with
      | trap c a i =>
        cases hs : u.cur.side with
        | user => rw [finish_trap_user hs] at h; injection h with h; exact .inr (.inl ⟨c, a, i, u, rfl, hs, h.symm⟩)
        | firmware =>
          by_cases hc : c = Cause.poisonedRead
          · subst hc
            rw [finish_poison_firmware hs] at h; injection h with h
            exact .inr (.inr (.inl ⟨a, i, u, rfl, hs, h.symm⟩))
          · rw [finish_trap_firmware hs hc] at h; cases h
      | wait st w => rw [finish_wait] at h; injection h with h; exact .inr (.inr (.inr ⟨st, w, u, rfl, h.symm⟩))

/-- An instruction is refused never. -/
theorem perform_not_refused (g : Pred) (body : M Unit) (s : State) (r : Refusal) : perform g body s ≠ .refused r := by
  unfold perform finish
  split
  · split
    · simp
    · split
      · simp
      · split <;> simp
    · simp
  · simp

/-- The instruction forms that change only their own stream. -/
theorem register_holds {g : Pred} {f : Stream → Stream} {s : State} (h : s.str.holds g = true) :
    register g f s = .next (s.setStr (f s.str).advance) := by
  rw [register, if_pos h]

theorem register_skips {g : Pred} {f : Stream → Stream} {s : State} (h : s.str.holds g = false) :
    register g f s = .next s.advance := by
  rw [register, if_neg (by simp [h])]

/-- Changing the stream and moving past the word are one change of the stream. -/
@[simp] theorem State.advance_setStr (s : State) (y : Stream) : (s.setStr y).advance = s.setStr y.advance := by
  simp [State.advance]

/-! ### Registers -/

theorem Stream.getP_setP {x : Stream} {r : PReg} {b : Bool} (h : r ≠ 0) : (x.setP r b).getP r = b := by
  have hr : (r == 0) = false := by simpa using h
  have hlt : r.toNat < 16 := Nat.lt_of_lt_of_le r.isLt (by decide)
  unfold Stream.setP Stream.getP
  rw [if_neg h, hr]
  cases b <;> simp [hlt]

theorem Stream.getP_setP_ne {x : Stream} {r q : PReg} {b : Bool} (h : q ≠ r) : (x.setP r b).getP q = x.getP q := by
  unfold Stream.setP
  split
  · rfl
  · have h' : r.toNat ≠ q.toNat := fun e => h (BitVec.eq_of_toNat_eq e.symm)
    have hlt : q.toNat < 16 := Nat.lt_of_lt_of_le q.isLt (by decide)
    unfold Stream.getP
    cases b <;> simp [hlt, Ne.symm h']

@[simp] theorem Stream.getC_null (x : Stream) : x.getC (.c 0) = Cap.null := rfl

@[simp] theorem Stream.setC_null (x : Stream) (v : Cap) : x.setC (.c 0) v = x := rfl

/-! ### The checks of an access -/

theorem M.capCheck_ok {c : Cap} {k : Need} {off : Word} {n : Nat} {s : State} (h : c.check k off.toNat n = none) :
    M.capCheck c k off n s = .ok ⟨⟩ s := by
  unfold M.capCheck; rw [h]; rfl

theorem M.capCheck_fails {c : Cap} {k : Need} {off : Word} {n : Nat} {s : State} {cause : BitVec 8}
    (h : c.check k off.toNat n = some cause) : M.capCheck c k off n s = .error (.trap cause (c.addr off) 0) s := by
  unfold M.capCheck; rw [h]; rfl

theorem M.aligned_ok {va : Word} {align : Nat} {s : State} (h : va.toNat % align = 0) :
    M.aligned va align s = .ok ⟨⟩ s := by
  unfold M.aligned; rw [if_neg (by simp [h])]; rfl

theorem M.aligned_fails {va : Word} {align : Nat} {s : State} (h : va.toNat % align ≠ 0) :
    M.aligned va align s = .error (.trap Cause.misalignedAtomic va 0) s := by
  unfold M.aligned; rw [if_pos h]; rfl

/-- Checks 1 and 2 pass: the access lies at the canonical sum of base and offset. -/
theorem M.locate_ok {c : Cap} {k : Need} {off : Word} {n align : Nat} {s : State}
    (h : c.check k off.toNat n = none) (ha : (canonical (c.addr off)).toNat % align = 0) :
    M.locate c k off n align s = .ok (canonical (c.addr off)) s := by
  unfold M.locate
  rw [M.bind_ok (M.capCheck_ok h), M.bind_ok (M.aligned_ok ha)]
  rfl

/-- Check 1 fails: the access traps before anything else is looked at. -/
theorem M.locate_fails {c : Cap} {k : Need} {off : Word} {n align : Nat} {s : State} {cause : BitVec 8}
    (h : c.check k off.toNat n = some cause) :
    M.locate c k off n align s = .error (.trap cause (c.addr off) 0) s := by
  unfold M.locate
  rw [M.bind_error (M.capCheck_fails h)]

/-- A load that answers went through its four parts. -/
theorem M.load_ok {c : Cap} {off va : Word} {n align : Nat} {s s1 s2 : State} {ps : List Part} {bs : List Byte}
    (hl : M.locate c .read off n align s = .ok va s) (hp : M.loadParts (c.mask s.str.xm) va n s = .ok ps s1)
    (hr : M.readParts ps s1 = .ok bs s2) : M.load c off n align s = .ok bs s2 := by
  unfold M.load
  rw [M.bind_ok hl, M.bind_ok (M.mask_apply c s), M.bind_ok hp, hr]

/-- A store that answers went through its four parts. -/
theorem M.store_ok {c : Cap} {off va : Word} {align : Nat} {s s1 s2 : State} {ps : List Part} {bs : List Byte}
    (hl : M.locate c .write off bs.length align s = .ok va s)
    (hp : M.storeParts (c.mask s.str.xm) va bs.length s = .ok ps s1)
    (hw : M.writeParts ps bs s1 = .ok ⟨⟩ s2) : M.store c off bs align s = .ok ⟨⟩ s2 := by
  unfold M.store
  rw [M.bind_ok hl, M.bind_ok (M.mask_apply c s), M.bind_ok hp, hw]

end Sys2Proof.Machine
end

