-- ==== Sys2Proof/Laws/Shared.lean ====
section
/-! SUPPORT. What the shared operations over pages, native code and steps do, one lemma each: the firmware's and the loader's
writes keep the canonical form of memory, and a stream that cannot enter native code is left alone. -/

namespace Sys2Proof.Machine

/-! ### Writes of the firmware and of the loader keep memory canonical -/

/-- Every byte that the firmware writes through a root is written by `store`. -/
theorem State.pokeBytes_memWf (fuel : Nat) {s : State} (root va : Word) (bs : List Byte) (h : s.memWf) :
    (State.pokeBytes fuel s root va bs).memWf := by
  induction fuel generalizing s va bs with
  | zero => exact h
  | succ fuel ih =>
    simp only [State.pokeBytes]
    split
    · exact h
    · refine ih _ _ ?_
      split
      · exact h
      · split
        · exact State.store_memWf _ _ h
        · exact h

theorem State.zeroRange_memWf {s : State} (pa n : Nat) (h : s.memWf) : (s.zeroRange pa n).memWf := wf_filter _ h

theorem State.clearCistern_memWf {s : State} (t : TileId) (h : s.memWf) : (s.clearCistern t).memWf := wf_filter _ h

theorem State.deviceReset_memWf {s : State} (h : s.memWf) : s.deviceReset.memWf := wf_filter _ h

/-- The loader maps a page by writes of entries and of fresh frames alone. -/
theorem mapPage_memWf (va rights : Word) (n table : Nat) {s : State} (frames : List (BitVec 44)) (h : s.memWf) :
    (mapPage va rights n table s frames).1.memWf := by
  induction n generalizing table s frames with
  | zero => exact h
  | succ level ih =>
    simp only [mapPage]
    split
    · split
      · exact State.store_memWf _ _ h
      · split
        · exact h
        · exact State.store_memWf _ _ (State.store_memWf _ _ h)
    · split
      · exact ih _ _ h
      · split
        · exact h
        · refine ih _ _ (State.store_memWf _ _ ?_)
          split
          · exact State.store_memWf _ _ h
          · exact State.store_memWf _ _ h

/-! ### Entering native code -/

/-- A stream inside native code or inside a routine, and one that does not run, stays where it is. -/
theorem State.land_of_not_mayEnter {s : State} {t : TileId} (h : (s.tile t).user.mayEnter = false) : s.land t = s := by
  simp only [State.land, h, Bool.not_false, if_true]

/-- Outside the replay of a region, with neither a bundle for its address nor a function to translate, a stream goes on with
Juden instructions. -/
theorem State.land_of_no_bundle {s : State} {t : TileId} (hr : (s.tile t).user.rejoin = none)
    (hn : s.native? t (s.tile t).user.pc = none) (hf : s.functionAt t (s.tile t).user.pc = none) : s.land t = s := by
  have ht : s.translateAt t (s.tile t).user.pc = none := by simp only [State.translateAt, hf, Option.bind_none]
  have hc : s.comesTo t = .misses s := by simp only [State.comesTo, hr, State.nativeFor, hn, ite_self]
  simp only [State.land, hc, ht, ite_self]

/-! ### Around an instruction -/

@[simp] theorem andThen_next (s : State) (f : State → State) : andThen (.next s) f = .next (f s) := rfl

/-- Outside a replay nothing is done after an instruction. -/
theorem State.stepped_of_not_single {s : State} (h : s.str.single = false) : s.stepped = s := by
  simp only [State.stepped, h, Bool.false_and, Bool.false_eq_true, if_false]

@[simp] theorem State.stepped_mem (s : State) : s.stepped.mem = s.mem := by
  unfold State.stepped
  split
  · exact State.setStr_mem ..
  · rfl

/-! ### The entry checks of a routine -/

/-- Checks that all hold let the routine go on. -/
theorem M.entry_ok {checks : List (Bool × BitVec 8 × Word)} (h : ∀ c ∈ checks, c.1 = true) (s : State) :
    M.entry checks s = .ok ⟨⟩ s := by
  have : (checks.zipIdx.find? fun e => !e.1.1) = none := by
    rw [List.find?_eq_none]
    intro e he
    have := h _ (List.fst_mem_of_mem_zipIdx he)
    simp only [this, Bool.not_true, Bool.false_eq_true, not_false_eq_true]
  simp only [M.entry, this]
  rfl

end Sys2Proof.Machine
end

