-- ==== Sys2Proof/Tests/Slice0.lean ====
section
/-! SUPPORT. The model's own tests: ill-formed terms that WellFormed refuses, words written out from the encodings, and for
every statement with hypotheses a state and operands that meet them. -/

namespace Sys2Proof.Tests

set_option Elab.async false

open Sys2Proof.Machine Sys2Proof.Claims

/-! ### Small states -/

/-- Always. -/
def on : Pred := ⟨0, false⟩

/-- Tile 0 out of reset, its firmware context current and running at address 0x1000 without translation (R26), with the
given registers. -/
def fwState (f : Stream → Stream) : State :=
  State.reset.setTile 0
    { Tile.reset with rst := false, rbusy := false, fw := f { Stream.reset with state := .running, pc := 0x1000 } }
    |> fun s => { s with cur := ⟨0, .firmware⟩ }

/-- The page 0x10000 of every context, on physical page 16: readable, writable, executable, dirty. -/
def pageTlb : TlbEntry := ⟨16, 0, 0, true, true, true, true, true, true, 0, 16⟩

/-- Tile 0 out of reset, its user context current and running at address 0x10000 under Sv48, with the given tile. -/
def userTile (f : Tile → Tile) : State :=
  State.reset.setTile 0
    (f { Tile.reset with
      rst := false, rbusy := false, mmu := { Mmu.reset with l1 := [pageTlb] }
      user := { Stream.reset with state := .running, pc := 0x10000, ctxroot := 0x9000000000000000 } })

/-- The same, with the given stream. -/
def userState (f : Stream → Stream) : State := userTile fun x => { x with user := f x.user }

/-- The page 0x11000, on the first page of the cistern of tile 0. -/
def cisternTlb : TlbEntry := ⟨17, 0, 0, true, true, true, true, true, true, 0, 0x10000000⟩

/-- A tagged capability of one row of n bytes at a base, with permissions. -/
def capOf (base rowbytes : Nat) (perm : BitVec 4) : Cap := ⟨CapFields.bits ⟨base, 0, 1, rowbytes, 0, perm, 0, 0⟩, true⟩

/-- A user stream whose c2 is that of the page. -/
def holder : State := userState fun x => x.setC (.c 2) (capOf 0x10000 4096 7)

/-- A user stream whose c2 is that of the cistern page, in a memory with the given bytes. -/
def banked (mem : List Host.Cell) (f : Stream → Stream) : State :=
  { userTile fun x => { x with
      mmu := { Mmu.reset with l1 := [pageTlb, cisternTlb] }
      user := f (x.user.setC (.c 2) (capOf 0x11000 4096 7)) } with
    mem := mem }

/-- A computation that the kernel evaluates answers, with a property of its answer. -/
def okWith {α : Type} (r : EStateM.Result Stop State α) (p : α → State → Bool) : Bool :=
  match r with
  | .ok a s => p a s
  | .error _ _ => false

/-- A computation that the kernel evaluates answers. -/
def runs {α : Type} (r : EStateM.Result Stop State α) : Bool := okWith r fun _ _ => true

theorem of_okWith {α : Type} {r : EStateM.Result Stop State α} {p : α → State → Bool} (h : okWith r p = true) :
    ∃ a s, r = .ok a s ∧ p a s = true := by
  cases r with
  | ok a s => exact ⟨a, s, rfl, h⟩
  | error e s => exact absurd h Bool.false_ne_true

/-- A computation that the kernel evaluates stops at a trap. -/
def trapWith {α : Type} (r : EStateM.Result Stop State α) : Bool :=
  match r with
  | .error (.trap _ _ _) _ => true
  | _ => false

theorem of_trapWith {α : Type} {r : EStateM.Result Stop State α} (h : trapWith r = true) :
    ∃ e s, r = .error e s ∧ ∃ cause addr o, e = .trap cause addr o := by
  unfold trapWith at h
  split at h
  · exact ⟨_, _, rfl, _, _, _, rfl⟩
  · exact absurd h Bool.false_ne_true

theorem of_isOk {ε α : Type} {r : Except ε α} (h : r.isOk = true) : ∃ a, r = .ok a := by
  cases r with
  | ok a => exact ⟨a, rfl⟩
  | error e => exact absurd h Bool.false_ne_true

/-- The same for a computation that answers or names a cause. -/
def okThen {ε α : Type} (r : Except ε α) (p : α → Bool) : Bool :=
  match r with
  | .ok a => p a
  | .error _ => false

theorem of_okThen {ε α : Type} {r : Except ε α} {p : α → Bool} (h : okThen r p = true) : ∃ a, r = .ok a ∧ p a = true := by
  cases r with
  | ok a => exact ⟨a, rfl, h⟩
  | error e => exact absurd h Bool.false_ne_true

/-- A store of n bytes through a capability, in one page of memory or of a cistern, passes every check of R29. -/
def storable (s : State) (c : Cap) (off : Word) (n : Nat) : Bool :=
  let va := canonical (c.addr off)
  s.str.native.isNone && (c.check .write off.toNat n).isNone && decide (n ≤ room va) &&
    okThen (translate s s.cur.tile (.control s.cur.side) s.str.ctxroot va .store s.isUser) fun r =>
      (s.heldUp s.cur.tile (.control s.cur.side) s.str.ctxroot va .store s.isUser r.1.pa).isNone &&
        (decide (regionOf r.1.pa = .hbm) || inCistern r.1.pa)

theorem stores_of_storable {s : State} {c : Cap} {off : Word} {bs : List Byte} (h : storable s c off bs.length = true) :
    ∃ t, stores s c off bs 1 t := by
  simp only [storable, Bool.and_eq_true, Option.isNone_iff_eq_none, decide_eq_true_eq] at h
  obtain ⟨⟨⟨hn, hc⟩, hr⟩, ht⟩ := h
  obtain ⟨⟨⟨pa, so⟩, s1⟩, h1, h2⟩ := of_okThen ht
  simp only [Bool.and_eq_true, Option.isNone_iff_eq_none, Bool.or_eq_true, decide_eq_true_eq] at h2
  exact ⟨_, _, ⟨hn, hc, rfl, Nat.mod_one _⟩, .inl ⟨hr, pa, s1, ⟨so, h1, h2⟩, rfl⟩⟩

/-! ### Witnesses: the hypotheses of the statements are met together -/

/-- Always executes. -/
theorem witness_Integer_forms_write_their_table_result :
    let s := userState fun x => (x.setS 4 (BitVec.intMin 64)).setS 5 (BitVec.allOnes 64)
    s.str.holds on = true ∧ (s.str.getS 4).setWidth 64 = BitVec.intMin 64 ∧
      (s.str.getS 5).setWidth 64 = BitVec.allOnes 64 := by decide

theorem witness_Bit_compare_select_immediate_and_predicate_forms : holder.str.holds on = true := by decide

theorem witness_Scalar_fp_forms_write_code_and_flags : holder.str.holds ⟨0, false⟩ = true := by decide

/-- Every class of special operand exists: a quiet and a signalling NaN, an infinity, a zero, a finite number. -/
theorem witness_Fp_special_values :
    let nan (a : BitVec 32) : Prop := a.extractLsb' 23 8 = 255 ∧ a.extractLsb' 0 23 ≠ 0
    nan 0x7FC00001 ∧ (0x7FC00001 : BitVec 32).getLsbD 22 = true ∧ nan 0x7F800001 ∧
      (0x7F800001 : BitVec 32).getLsbD 22 = false ∧ (0xFF800000 : BitVec 32).extractLsb' 0 31 = 0x7F800000 ∧
      (0x80000000 : BitVec 32).extractLsb' 0 31 = 0 ∧ (0xBF800000 : BitVec 32).extractLsb' 23 8 ≠ 255 ∧
      (0xBF800000 : BitVec 32).msb = true ∧ isNan32 0x7FC00001 = true ∧ isSnan32 0x7F800001 = true := by decide

/-- Assigned and reserved formats, a dot product of no group and of one. -/
theorem witness_Conversions_complete_or_trap_on_format :
    let s := userState fun x => x.setS 9 0x100000000
    s.str.holds on = true ∧ s.cur.side = .user ∧ ((3 : Fmt).toNat < 11 ∧ (3 : Fmt) ≠ 0) ∧ ¬((11 : Fmt).toNat < 11) ∧
      min ((s.str.getS 9).extractLsb' 32 4 : BitVec 4).toNat 8 ≠ 0 ∧
      min ((s.str.getS 8).extractLsb' 32 4 : BitVec 4).toNat 8 = 0 := by decide

theorem witness_Integer_lanes_receive_their_result : holder.str.holds on = true := by decide
theorem witness_Fp_lanes_are_the_scalar_forms : holder.str.holds on = true := by decide
theorem witness_Permutes_move_lanes : holder.str.holds on = true := by decide
theorem witness_Reductions_and_scans_combine_in_order : holder.str.holds on = true := by decide

/-- A user stream with a tagged and an untagged source, cut to fit, past the end and as an oversized field, and the firmware
context, for which cpv is a destination; a code object with one entry of its capability table. -/
theorem witness_Capability_forms_derive_read_and_load :
    let o : CodeObject := ⟨0x10000, 1, [(0x10000, 4096)], [], [], [5], [], [], [], [], (0, 0), 0⟩
    let s := holder.setCtx 0 { holder.ctx 0 with objects := [o] }
    let f := (s.str.getC (.c 2)).fields
    s.str.holds on = true ∧ s.cur.side = .user ∧ (s.str.getC (.c 2)).tag = true ∧ (s.str.getC (.c 3)).tag = false ∧
      f.fits = true ∧ narrower f f = true ∧ narrower { f with rowbytes := 4097 } f = false ∧
      CapFields.fits { f with rows := 65536 } = false ∧ (fwState id).cur.side = .firmware ∧
      (fwState id).str.holds on = true ∧ s.objectAt s.str.pc = some (0, o) ∧ o.caps[(0 : BitVec 37).toNat]? = some 5 ∧
      o.caps.length ≤ (1 : BitVec 37).toNat ∧ (11 : Fmt).toNat ≥ 11 := by decide


/-- Loads of every size within the page, and one that crosses into the next physical page under a bare root. -/
theorem witness_Loads_complete_with_their_bytes :
    holder.str.holds on = true ∧
    (∃ s1, reads holder (holder.str.getC (.c 2)) 8 4 4 [0, 0, 0, 0] s1) ∧
    (∃ s1, reads holder (holder.str.getC (.c 2)) 8 16 1 (List.replicate 16 0) s1) ∧
    (∃ s1, reads holder (holder.str.getC (.c 2)) 8 128 1 (List.replicate 128 0) s1) ∧
    let s := fwState fun x => x.setC (.c 2) (capOf 0x1000 8192 7)
    ∃ s1, reads s (s.str.getC (.c 2)) 4094 4 1 [0, 0, 0, 0] s1 :=
  ⟨by decide,
    ⟨_, 0x10008, by unfold admitted; decide, .inl ⟨by decide, 0x10008, ⟨false, rfl, by decide⟩, by unfold clean; decide,
      by decide⟩⟩,
    ⟨_, 0x10008, by unfold admitted; decide, .inl ⟨by decide, 0x10008, ⟨false, rfl, by decide⟩, by unfold clean; decide,
      by decide⟩⟩,
    ⟨_, 0x10008, by unfold admitted; decide, .inl ⟨by decide, 0x10008, ⟨false, rfl, by decide⟩, by unfold clean; decide,
      by decide⟩⟩,
    ⟨_, 0x1FFE, by unfold admitted; decide, .inr ⟨by decide, 0x1FFE, 0x2000, _, ⟨false, rfl, by decide⟩,
      by unfold clean; decide, ⟨false, rfl, by decide⟩, by unfold clean; decide, by decide⟩⟩⟩

/-- The same for stores. -/
theorem witness_Stores_write_their_bytes_and_no_others :
    holder.str.holds on = true ∧ Memory.wf holder.mem = true ∧
    (∃ t, stores holder (holder.str.getC (.c 2)) 8 (List.replicate 4 0) 4 t) ∧
    (∃ t, stores holder (holder.str.getC (.c 2)) 8 (List.replicate 16 0) 1 t) ∧
    (∃ t, stores holder (holder.str.getC (.c 2)) 8 (List.replicate 128 0) 1 t) ∧
    let s := fwState fun x => x.setC (.c 2) (capOf 0x1000 8192 7)
    ∃ t, stores s (s.str.getC (.c 2)) 4094 (List.replicate 4 0) 1 t :=
  ⟨by decide, by decide,
    ⟨_, 0x10008, by unfold admitted; decide, .inl ⟨by decide, 0x10008, _, ⟨false, rfl, by decide⟩, rfl⟩⟩,
    ⟨_, 0x10008, by unfold admitted; decide, .inl ⟨by decide, 0x10008, _, ⟨false, rfl, by decide⟩, rfl⟩⟩,
    ⟨_, 0x10008, by unfold admitted; decide, .inl ⟨by decide, 0x10008, _, ⟨false, rfl, by decide⟩, rfl⟩⟩,
    ⟨_, 0x1FFE, by unfold admitted; decide, .inr ⟨by decide, 0x1FFE, 0x2000, _, _, ⟨false, rfl, by decide⟩,
      ⟨false, rfl, by decide⟩, rfl⟩⟩⟩

/-- Page tables of four levels at page 1, which map the page 0x10000. -/
def tables : List Host.Cell :=
  [(0x1000, 0x01), (0x1001, 0x08), (0x2000, 0x01), (0x2001, 0x0C), (0x3000, 0x01), (0x3001, 0x10), (0x4080, 0x1F),
    (0x4081, 0x40)]

/-- A user stream under the root of the page tables, whose caches hold nothing. -/
def walking : State :=
  { userTile fun x => { x with
      mmu := Mmu.reset, user := { x.user with ctxroot := 0x9000000000000001 } } with
    mem := tables }

/-- A translation that a cache serves and one that walks; a bare root and an address of memory. -/
theorem witness_Translation_changes_caches_and_accessed_bits :
    (∃ p s1, translate holder 0 (.control .user) holder.str.ctxroot 0x10008 .store true = .ok (p, s1)) ∧
    ((holder.tile 0).mmu.queue = [] ∧ holder.str.ctxroot.extractLsb' 60 4 ≠ (0 : BitVec 4) ∧
      tlbLookup (holder.tile 0).mmu (.control .user) 0 0x10008 .store true = some pageTlb) ∧
    (walking.tile 0).mmu.queue = [] ∧ (0x9000000000000001 : Word).extractLsb' 60 4 ≠ (0 : BitVec 4) ∧
    (tlbLookup (walking.tile 0).mmu (.control .user) 0 0x10008 .load true = none ∧
      okThen (translate walking 0 (.control .user) 0x9000000000000001 0x10008 .load true) (fun r => r.1.pa == 0x10008) = true) ∧
    (0 : Word).extractLsb' 60 4 = (0 : BitVec 4) ∧ regionOf (canonical 0x1000).toNat = .hbm :=
  ⟨⟨_, _, rfl⟩, by and_intros <;> decide +kernel⟩

/-- Each check fails for some capability: an untagged one, a row longer than its stride, no permission, an offset beyond the
row; and one that passes them lies at an odd address. -/
theorem witness_Capability_checks_come_first :
    let s := userState fun x =>
      ((x.setC (.c 2) (capOf 0x10000 4096 7)).setC (.c 3) ⟨CapFields.bits ⟨0, 1, 2, 4, 0, 7, 0, 0⟩, true⟩).setC (.c 4)
        (capOf 0x10000 4096 0)
    s.str.holds on = true ∧ s.cur.side = .user ∧ (s.str.getC (.c 5)).tag = false ∧
      (s.str.getC (.c 3)).fields.wellFormed = false ∧ (s.str.getC (.c 4)).fields.grants .read = false ∧
      (s.str.getC (.c 4)).fields.wellFormed = true ∧ (s.str.getC (.c 2)).fields.covers 4093 4 = false ∧
      (s.str.getC (.c 2)).fields.covers 4092 4 = true ∧ (s.str.getC (.c 2)).fields.grants .write = true ∧
      (canonical ((s.str.getC (.c 2)).addr 1)).toNat % 4 ≠ 0 := by decide

/-- An aligned word of the page. -/
theorem witness_Atomics_read_modify_write :
    holder.str.holds on = true ∧
      ∃ s1, touches holder (holder.str.getC (.c 2)) .atomic 8 4 .atomic 0x10008 0x10008 s1 ∧ clean s1 0x10008 4 :=
  ⟨by decide, _, ⟨by unfold admitted; decide, ⟨false, rfl, by decide⟩⟩, by unfold clean; decide⟩

/-- The one part of a word at the first word of the page. -/
def wordPart : Part := ⟨0x10000, 0x10000, 4, none, none, some pageTlb⟩

/-- A stream whose lanes all lie at the first word of the page. -/
theorem witness_Lane_accesses_go_in_ascending_order :
    let m : MemV := ⟨.c 2, 0, 0, .hn⟩
    holder.str.holds on = true ∧ holder.str.native = none ∧ holder.str.vamoTodo = [] ∧
    (∃ lanes s1, M.laneParts .w32 m .read .load holder = .ok lanes s1 ∧
      ∀ ps ∈ lanes, ∀ p ∈ ps, p.dev = none ∧ clean s1 p.pa p.n) ∧
    (∃ (parts : List Part) (s1 : State), M.laneParts .w32 m .write .store holder = .ok (parts.map fun p => [p]) s1 ∧
      ∀ p ∈ parts, p.dev = none ∧ p.n = Width.bytes .w32) ∧
    ∃ (parts : List Part) (s1 : State),
      ((List.range (Width.count .w32)).mapM fun i => do
        let p ← M.atomicPart (holder.str.getC m.cap) .atomic (holder.str.offV 32 m i) 4 4 .atomic
        pure (i, p)) holder = .ok (parts.zipIdx.map fun p => (p.2, p.1)) s1 ∧
      ∀ p ∈ parts, p.dev = none ∧ p.n = 4 ∧ clean s1 p.pa p.n := by
  refine ⟨by decide, by decide, by decide, ?_, ?_, ?_⟩
  · obtain ⟨ls, s1, h, p⟩ := of_okWith (r := M.laneParts .w32 ⟨.c 2, 0, 0, .hn⟩ .read .load holder)
      (p := fun ls s1 => decide (∀ ps ∈ ls, ∀ p ∈ ps, p.dev = none ∧
        ∀ l ∈ linesOf p.pa p.n, s1.lineEmpty l = false ∧ s1.linePoisoned l = false)) (by decide +kernel)
    have q := of_decide_eq_true p
    exact ⟨ls, s1, h, q⟩
  · obtain ⟨ls, s1, h, p⟩ := of_okWith (r := M.laneParts .w32 ⟨.c 2, 0, 0, .hn⟩ .write .store holder)
      (p := fun ls _ => decide (ls = (List.replicate 32 wordPart).map fun p => [p])) (by decide +kernel)
    exact ⟨List.replicate 32 wordPart, s1, (of_decide_eq_true p) ▸ h, by decide⟩
  · obtain ⟨ls, s1, h, p⟩ := of_okWith
      (r := ((List.range (Width.count .w32)).mapM fun i => do
        let p ← M.atomicPart (holder.str.getC (.c 2)) .atomic (holder.str.offV 32 ⟨.c 2, 0, 0, .hn⟩ i) 4 4 .atomic
        pure (i, p)) holder)
      (p := fun ls s1 => decide (ls = (List.replicate 32 wordPart).zipIdx.map fun p => (p.2, p.1)) &&
        decide (∀ l ∈ linesOf 0x10000 4, s1.lineEmpty l = false ∧ s1.linePoisoned l = false)) (by decide +kernel)
    have q := Bool.and_eq_true_iff.mp p
    refine ⟨List.replicate 32 wordPart, s1, (of_decide_eq_true q.1) ▸ h, fun p hp => ?_⟩
    rw [List.eq_of_mem_replicate hp]
    have r := of_decide_eq_true q.2
    exact ⟨rfl, rfl, r⟩


/-- A byte of the cistern, full and empty, and a byte outside every cistern. -/
theorem witness_Full_empty_and_plain_forms :
    (banked [] id).str.holds on = true ∧ (banked [] id).cur.side = .user ∧
    (∃ s1, touches (banked [] id) ((banked [] id).str.getC (.c 2)) .write 0 1 .store 0x11000 0x10000000000 s1 ∧
      inCistern 0x10000000000 = true) ∧
    (∃ s1, touches (banked [] id) ((banked [] id).str.getC (.c 2)) .read 0 1 .load 0x11000 0x10000000000 s1 ∧
      s1.lineEmpty (0x10000000000 / 128) = false) ∧
    (∃ s1, touches holder (holder.str.getC (.c 2)) .write 0 1 .store 0x10000 0x10000 s1 ∧ inCistern 0x10000 = false) ∧
    ∃ s1, touches holder (holder.str.getC (.c 2)) .read 0 1 .load 0x10000 0x10000 s1 ∧ inCistern 0x10000 = false :=
  ⟨by decide, by decide,
    ⟨_, ⟨by unfold admitted; decide, ⟨false, rfl, by decide⟩⟩, by decide⟩,
    ⟨_, ⟨by unfold admitted; decide, ⟨false, rfl, by decide⟩⟩, by decide⟩,
    ⟨_, ⟨by unfold admitted; decide, ⟨false, rfl, by decide⟩⟩, by decide⟩,
    ⟨_, ⟨by unfold admitted; decide, ⟨false, rfl, by decide⟩⟩, by decide⟩⟩

/-- A user stream in a wait. -/
def waiting (st : StreamState) (w : Wait) : State := userState fun x => { x with state := st, wait := w }

/-- A wait beyond the issue number, one reached (0 of 0) and one not yet reached (1 of 1 issued); every kind of wait, over. -/
theorem witness_Timelines_are_read_and_waits_end :
    let s := userTile fun x => { x with mx := { x.mx with issueM := 1 }, user := (x.user.setS 4 1).setS 5 2 }
    (s.str.holds on = true ∧ s.cur.side = .user ∧ (s.here.issue .tlm).toNat < (s.str.getS 5).toNat ∧
      (s.str.getS 0).toNat ≤ (s.here.counter .tlm).toNat ∧ (s.str.getS 4).toNat ≤ (s.here.issue .tlm).toNat ∧
      (s.here.counter .tlm).toNat < (s.str.getS 4).toNat) ∧
    (s.tile 0).frozen = false ∧
    ((waiting .stalled (.line 5)).lineEmpty 5 = false ∧ ((waiting .stalled (.line 5)).tile 0).user.wait = .line 5) ∧
    (((waiting .stalled (.thaw 0)).tile 0).user.wait = .thaw 0 ∧ ((waiting .stalled (.thaw 0)).tile 0).frozen = false) ∧
    ((waiting .stalled .signalQueue).tile 0).sigQ.length < 8 ∧
    (waiting .waiting (.full 5)).lineEmpty 5 = false ∧
    (0 : Word).toNat ≤ (((waiting .waiting (.timeline .tlw 0)).tile 0).counter .tlw).toNat ∧
    ((ofBytes 128 ((waiting .waiting (.barrier 0 1)).readBytes 0 16) : Quad).extractLsb' 124 4) ≠ (1 : BitVec 4) ∧
    (0 : Word).toNat ≤ (ofBytes 64 ((waiting .waiting (.signal 0 0 0)).readBytes 0 8) : Word).toNat ∧
    let u := userState fun x => { x with
      state := .waiting, wait := .get .east 3, vpos := 0x10000, ports := x.ports.set 1 [7] }
    neighbour (u.tile 0).user.vpos .east = some 1 ∧ (u.tile 0).user.ports[portIndex .east] = [7] := by decide +kernel

/-- A stream with a barrier record of the object at 0x11000, in a memory with the given bytes. -/
def arrived (mem : List Host.Cell) : State := banked mem fun x => { x with barrier := some ⟨0x11000, 0⟩ }

/-- The PENDING field of the object. -/
def pendingOf (s : State) : BitVec 16 := (ofBytes 128 (s.readBytes 0x10000000000 16) : Quad).extractLsb' 92 16

/-- A barrier object with no arrival pending, with one and with sixteen; a barrier record of this object, of another, and
none. -/
theorem witness_Barrier_objects_count_and_rearm :
    (∃ s1, touches (arrived []) ((arrived []).str.getC (.c 2)) .readWrite 0 16 .atomic 0x11000 0x10000000000 s1 ∧
      inCistern 0x10000000000 = true ∧ clean s1 0x10000000000 16) ∧
    (∃ s1, touches (arrived [(0x1000000000B, 0x10)]) ((arrived []).str.getC (.c 2)) .readWrite 0 16 .atomic 0x11000
        0x10000000000 s1 ∧ inCistern 0x10000000000 = true ∧ clean s1 0x10000000000 16) ∧
    ((arrived []).str.holds on = true ∧ (arrived []).cur.side = .user ∧
      (arrived []).str.barrier = some ⟨0x11000, 0⟩ ∧ (holder).str.barrier = none ∧
      (⟨0x12000, 0⟩ : BarrierRecord).va ≠ (0x11000 : Word).setWidth 48 ∧
      (ofBytes 128 ((arrived []).readBytes 0x10000000000 16) : Quad).extractLsb' 124 4 = (0 : BitVec 4) ∧
      pendingOf (arrived []) = 0 ∧ pendingOf (arrived [(0x1000000000B, 0x10)]) = 1 ∧
      pendingOf (arrived [(0x1000000000C, 1)]) = 16) :=
  ⟨⟨_, ⟨by unfold admitted; decide, ⟨false, rfl, by decide⟩⟩, by decide, by unfold clean; decide⟩,
    ⟨_, ⟨by unfold admitted; decide, ⟨false, rfl, by decide⟩⟩, by decide, by unfold clean; decide⟩,
    by decide +kernel⟩

/-- The firmware and the user context; a route tag of two members that have arrived, and one of a member that has not. -/
theorem witness_Route_tags_wait_for_every_member :
    (fwState id).str.holds on = true ∧ (fwState id).cur.side = .firmware ∧ holder.cur.side = .user ∧
    let x : Tile := { Tile.reset with hbarArrived := 1 }
    let s : State := { (State.reset.setTile 0 x).setTile 1 x with
      hbar := ((Vector.replicate 8 []).set 0 [0, 1]).set 1 [0] }
    (s.hbar[0] = [0, 1] ∧ (s.hbar[0]).Nodup) ∧
    (∀ t ∈ s.hbar[0], (s.tile t).hbarArrived.getLsbD 0 = true ∧ (s.tile t).frozen = false) ∧
    ∃ t ∈ s.hbar[1], (s.tile t).hbarArrived.getLsbD 1 = false ∨ (s.tile t).frozen = true := by decide +kernel

/-- A target in the cistern with room in the queue, a full queue, a target on another chip, and two bad targets; a word that
is reached, one that is not, one in an empty line, and one outside every cistern. -/
theorem witness_Signals_are_posted_and_awaited :
    let s := banked [] fun x => (x.setS 8 0x10003).setS 9 0x20000
    (s.str.holds on = true ∧ s.cur.side = .user ∧ (s.str.getC (.c 2)).check .post 0 8 = none ∧ inCistern 0x10000000000 = true ∧
    (s.str.getS 0).toNat < 2 ^ 16 ∧
    (let p : SigPost := ⟨false, 0, 0, 0, 0, 0, 0, Vector.replicate 4 0, none, none⟩
     8 ≤ (userTile fun x => { x with sigQ := List.replicate 8 p }).here.sigQ.length) ∧
    ((s.str.getS 8).getLsbD 16 = true ∧ (s.str.getS 8).toNat < 2 ^ 17 ∧
      (s.str.getS 8).extractLsb' 0 8 ≠ { s with domainV := true }.domainNum ∧ s.domainV = false) ∧
    2 ^ 17 ≤ (s.str.getS 9).toNat) ∧
    (∃ s1, touches s (s.str.getC (.c 2)) .post 0 8 .post 0x11000 0x10000000000 s1 ∧ s1.here.sigQ.length < 8) ∧
    (∃ s1, touches s (s.str.getC (.c 2)) .read 0 8 .load 0x11000 0x10000000000 s1 ∧
      s1.lineEmpty (0x10000000000 / 128) = false ∧ s1.linePoisoned (0x10000000000 / 128) = false) ∧
    (∃ s1, touches (s.setEmpty (0x10000000000 / 128)) (s.str.getC (.c 2)) .read 0 8 .load 0x11000 0x10000000000 s1 ∧
      s1.lineEmpty (0x10000000000 / 128) = true) ∧
    ∃ s1, touches holder (holder.str.getC (.c 2)) .read 0 8 .load 0x10000 0x10000 s1 ∧ inCistern 0x10000 = false :=
  ⟨by decide, ⟨_, ⟨by unfold admitted; decide, ⟨false, rfl, by decide⟩⟩, by decide⟩,
    ⟨_, ⟨by unfold admitted; decide, ⟨false, rfl, by decide⟩⟩, by decide⟩,
    ⟨_, ⟨by unfold admitted; decide, ⟨false, rfl, by decide⟩⟩, by decide⟩,
    ⟨_, ⟨by unfold admitted; decide, ⟨false, rfl, by decide⟩⟩, by decide⟩⟩

/-- A node of two tiles side by side. -/
def pairNode : Node :=
  { serial := 1, ctx := 0, va := 0, state := .running, flags := 0, entry := 0, next := 0, deadline := 0, budget := 0
    estim := 0, clear := 0, vcap := 0, wait := 0, set := 0, cargs := Vector.replicate 4 0, sargs := Vector.replicate 8 0
    pred := none, tiles := [0, 1], gwm1 := 1, ghm1 := 0, unstarted := [], ended := [], rdv := 0, hs := false
    dv := false, broken := [] }

/-- The stream of its first tile, whose neighbour to the east is tile 1. -/
def pairState (f : Stream → Stream) : State :=
  { userTile fun x => { x with node := some 1, user := f { x.user with vpos := 0x10000 } } with nodes := [pairNode] }

/-- A neighbour with room, one that is frozen and one whose port is full; a port with an entry and an empty one; no neighbour to the west. -/
theorem witness_Forwarding_ports_move_vectors :
    let s := pairState fun x => { x with ports := x.ports.set 1 [7] }
    s.str.holds on = true ∧ s.cur.side = .user ∧ neighbour s.str.vpos .east = some 1 ∧
      s.memberTile s.cur.tile 1 = some 1 ∧ (1 : TileId) ≠ s.cur.tile ∧
      ((s.tile 1).user.ports[portIndex (facingPort .east)]).length < 4 ∧
      4 ≤ ((s.setTile 1 { Tile.reset with user := { Stream.reset with
        ports := Vector.replicate 4 [1, 2, 3, 4] } }).tile 1).user.ports[portIndex (facingPort .east)].length ∧
      s.str.ports[portIndex .east] = [7] ∧ s.str.ports[portIndex .south] = [] ∧
      neighbour s.str.vpos .west = none ∧ (s.tile 1).shadow = none ∧ (s.tile 1).frozen = false ∧
      ((s.setTile 1 { Tile.reset with frozen := true }).tile 1).frozen = true ∧
      (let sh := stageOf (State.reset.ctx 0) pairNode 1 1
       let full := { sh with ports := Vector.replicate 4 [1, 2, 3, 4] }
       s.here.node.bind s.node? = some pairNode ∧ sh.serial = pairNode.serial ∧ s.node? sh.serial = some pairNode ∧
         pairNode.flags.getLsbD 42 = false ∧ sh.ports[portIndex (facingPort .east)].length < 4 ∧
         4 ≤ full.ports[portIndex (facingPort .east)].length ∧
         ((s.setTile 1 { Tile.reset with shadow := some sh }).tile 1).shadow = some sh) := by decide +kernel

/-- A command of pump context 0 that fills a line of the cistern from the page. -/
def fill : PumpCmd :=
  { k := 0, number := 1, dst := (capOf 0x11000 128 7).bits, src := (capOf 0x10000 128 7).bits, desc := 0, jobtag := 0
    row := 0, byte := 0, line := [], oweOut := false, oweIn := false, home := none, pages := [] }

/-- Two capabilities of equal shape and a descriptor of zeros; a queue with room and a full one. -/
theorem witness_Pump_pushes_number_their_commands :
    let s := userState fun x => (x.setC (.c 2) (capOf 0x10000 128 7)).setC (.c 3) (capOf 0x20000 128 7)
    let c : PumpCmd := { fill with dst := 0, src := 0, number := 0 }
    s.str.holds on = true ∧ (s.str.getC (.c 2)).steps .write = none ∧ (s.str.getC (.c 3)).steps .read = none ∧
      s.descOk false 0 = true ∧ s.descOk true 0 = true ∧
      (s.str.getC (.c 2)).fields.rows = (s.str.getC (.c 3)).fields.rows ∧
      (s.str.getC (.c 2)).fields.rowbytes = (s.str.getC (.c 3)).fields.rowbytes ∧ descPeer 0 = false ∧
      s.here.loadQ.length < 32 ∧ s.here.storeQ.length < 32 ∧
      32 ≤ (userTile fun x => { x with loadQ := List.replicate 32 c }).here.loadQ.length := by decide +kernel


/-- A routine call on the definition path. -/
def frameOf (native : Option Routine) : CallFrame := ⟨native, 0x10000, 64, 0x10008, 0, false, none, 0, 0, 0, 0, 0, none, none⟩

/-- A branch, a zero and a nonzero loop count, an aligned and a misaligned register target, a return outside and inside a
routine, and the return to the exit address of the last stream of a node. -/
theorem witness_Control_transfers_move_the_pc :
    let s := userState fun x => ((x.setS 1 0x10100).setS 8 0x10100).setS 9 0x10101
    let e := pairState fun x => x.setS 1 0xFFFFFFFFFFFFFFF8
    (s.str.holds on = true ∧ s.cur.side = .user ∧ canonical (s.str.pc + 8 * (1 : BitVec 37).signExtend 64) ≠ exitAddress ∧
      canonical (s.str.getS 8) ≠ exitAddress ∧ (canonical (s.str.getS 8)).toNat % 8 = 0 ∧
      canonical (s.str.getS 1) ≠ exitAddress ∧ (canonical (s.str.getS 1)).toNat % 8 = 0 ∧ s.str.calls = [] ∧
      (frameOf none).number = none ∧ (canonical (s.str.getS 9)).toNat % 8 ≠ 0) ∧
    (e.str.holds on = true ∧ e.cur.side = .user ∧ canonical (e.str.getS 1) = 0xFFFFFFFFFFFFFFF8 ∧ e.str.calls = [] ∧
      e.here.node = some pairNode.serial ∧ e.node? pairNode.serial = some pairNode) := by decide +kernel

/-- A code object with a routine that is in the catalogue and one that is not, in reference mode and outside it. -/
theorem witness_Routine_calls_enter_the_routine :
    let o : CodeObject := ⟨0x10000, 1, [(0x10000, 4096)], [], [⟨5, 0x10800, 4, false, 0, []⟩, ⟨6, 0x10900, 4, false, 0, []⟩],
      [], [], [], [], [], (0, 0), 0⟩
    let s0 := userState id
    let s : State := { s0.setCtx 0 { s0.ctx 0 with objects := [o] } with boot := { Boot.reset with table := [9, 9, 9, 9, 9, 9, 5] } }
    (s.str.holds on = true ∧ s.cur.side = .user ∧ s.callee 0 = some (0, 0, ⟨5, 0x10800, 4, false, 0, []⟩) ∧
      s.callee 1 = some (0, 1, ⟨6, 0x10900, 4, false, 0, []⟩) ∧ s.callee 2 = none ∧ s.str.ctxcfg.getLsbD 2 = false ∧
      s.catalogue 5 = some .tileCopy ∧ s.catalogue 6 = none) ∧
    ∀ u, M.matrixReady .tileCopy u = .ok ⟨⟩ u := ⟨by decide +kernel, fun _ => rfl⟩

/-- The firmware context; a stream inside a routine; a member whose partner has not arrived, and one whose partner has. -/
theorem witness_Rendezvous_waits_for_every_member :
    let s := pairState id
    let t := s.setTile 1 { Tile.reset with user := { Stream.reset with arrivals := 1 } }
    ((fwState id).str.holds on = true ∧ (fwState id).cur.side = .firmware) ∧
    ((pairState fun x => { x with calls := [frameOf none] }).str.calls ≠ []) ∧ s.str.native = none ∧
    (let m : Native := { npc := 0, cycle := 0, pending := [], buffer := [], writes := 0, atStart := true
                         undo := Stream.reset.undoCopy, finished := none, view := Stream.reset.undoCopy, opened := false
                         bracket := some 0, site := none }
     (pairState fun x => { x with native := some m }).str.native = some m ∧ m.bracket ≠ none) ∧
    (s.str.holds on = true ∧ s.cur.side = .user ∧ s.str.calls = [] ∧ s.here.node = some pairNode.serial ∧
      s.node? pairNode.serial = some pairNode ∧ s.cur.tile ∈ pairNode.tiles ∧ s.cur.tile ∉ pairNode.ended ∧
      s.cur.tile ∉ pairNode.unstarted) ∧
    (s.tile 1).user.arrivals < s.str.arrivals + 1 ∧
    t.node? pairNode.serial = some pairNode ∧ t.str.arrivals + 1 ≤ (t.tile 1).user.arrivals := by decide +kernel

theorem witness_Trapping_instructions_take_their_trap :
    holder.cur.side = .user ∧ holder.str.holds on = true ∧ (fwState id).cur.side = .firmware ∧
      (fwState id).str.holds on = true := by decide

/-- A tile fault. -/
def someFault : TileFault := ⟨false, 0x40, 0, false, true, 0, 0, 0, 0, [], [0]⟩

/-- A stream without a fault and one with; a cause that the firmware context handles and one that it does not. -/
theorem witness_Taking_a_trap_saves_the_stream :
    (holder.tile 0).user.native = none ∧ (holder.tile 0).fault = none ∧ Memory.wf holder.mem = true ∧
      handlerOf Cause.softwareTrap ≠ .firmware ∧
      ((userTile fun x => { x with fault := some someFault }).tile 0).fault = some someFault := by decide

/-- A firmware context current on a tile whose user stream is trapped. -/
def trappedTile (f : Tile → Tile) : State :=
  { userTile (fun x => f { x with
      user := { x.user with state := .trapped }, fw := { Stream.reset with state := .running, pc := 0x1000 } }) with
    cur := ⟨0, .firmware⟩ }

theorem witness_Return_restores_the_trap_frame :
    let s := trappedTile id
    s.str.holds on = true ∧ s.cur.side = .firmware ∧ s.here.user.state = .trapped ∧ s.here.user.native = none ∧
      s.poisonedLine s.here.tsave.toNat 0x300 = none ∧ s.recordHeld 0 = false ∧ s.here.user.rejoin = none ∧
      s.native? 0 (ofBytes 64 (s.readBytes 0x210 8)) = none ∧ s.functionAt 0 (ofBytes 64 (s.readBytes 0x210 8)) = none ∧
      ({ s with rings := { s.rings with cfPend := [(0, 0, [])] } } : State).recordHeld 0 = true := by decide +kernel

theorem witness_Trap_and_return_give_the_stream_back :
    ((holder.tile 0).user.native = none ∧ (holder.tile 0).fault = none ∧ Memory.wf holder.mem = true) ∧
      ∀ l, holder.linePoisoned l = false :=
  ⟨by decide, fun _ => rfl⟩

/-- A stream trapped by a firmware call, with 0x40 in s10. -/
def calling (n : BitVec 16) : State :=
  trappedTile fun x =>
    { x with tcause := n.setWidth 64 <<< 32 ||| Cause.firmwareCall.setWidth 64, user := x.user.setS 10 0x40 }

/-- A stream trapped by each of the three calls, with a cause that it may raise and one that it may not, and inside the
definition of a wellhead routine with a coded-stream cause; a stream that makes a call which the layer does not hold. -/
theorem witness_Firmware_calls_answer_in_s4 :
    (let s := calling 0x10
     let c : State := trappedTile fun x => { x with
       tcause := 0x1000000000 ||| Cause.firmwareCall.setWidth 64
       user := { x.user.setS 10 0x70 with calls := [{ frameOf none with cmd := some (.table ⟨0, false⟩) }] } }
     ((calling 0).tile 0).call = some 0x00 ∧ (s.tile 0).call = some 0x10 ∧ ((calling 0x11).tile 0).call = some 0x11 ∧
       (s.tile 0).user.native = none ∧ (s.tile 0).frozen = false ∧ Memory.wf s.mem = true ∧
       0x40 ≤ ((s.tile 0).user.getS 10).toNat ∧ ((s.tile 0).user.getS 10).toNat ≤ 0x4E ∧
       (s.tile 0).user.wellCommand = none ∧ ¬(0x40 ≤ (((trappedTile id).tile 0).user.getS 10).toNat) ∧
       (c.tile 0).call = some 0x10 ∧ (c.tile 0).user.wellCommand ≠ none ∧ ((c.tile 0).user.getS 10).toNat = 0x70 ∧
       (c.tile 0).fault = none) ∧
    (∀ l, (trappedTile id).linePoisoned l = false) ∧
    (holder.str.holds on = true ∧ holder.cur.side = .user ∧ holder.str.native = none ∧ holder.here.fault = none ∧
      Memory.wf holder.mem = true) ∧ ∀ l, holder.linePoisoned l = false :=
  ⟨by decide +kernel, fun _ => rfl, by decide, fun _ => rfl⟩

/-- Both contexts; a register that both may read, one that only the firmware context may, one that is unassigned; a validity
word that may be stored and one that may not. -/
theorem witness_Control_registers_and_deadline_words :
    let s := userState fun x => (x.setC (.c 2) (capOf 0x10000 4096 7)).setS 8 3
    (s.str.holds on = true ∧ s.cur.side = .user ∧ (fwState id).cur.side = .firmware ∧
      (fwState id).str.holds on = true ∧ (s.str.getS 8).extractLsb' 0 2 = (3 : BitVec 2) ∧
      (s.str.getS 0).extractLsb' 0 2 ≠ (3 : BitVec 2)) ∧
    ∃ t, stores s (s.str.getC (.c 2)) 0 (toBytes 8 (s.str.getS 0)) 8 t :=
  ⟨by decide, _, 0x10000, by unfold admitted; decide, .inl ⟨by decide, 0x10000, _, ⟨false, rfl, by decide⟩, rfl⟩⟩


/-- A native stream at the start of a region. -/
def native0 : Native :=
  { npc := 0x10000, cycle := 0, pending := [], buffer := [], writes := 0, atStart := true, undo := Stream.reset.undoCopy
    finished := none, view := Stream.reset.undoCopy, opened := false, bracket := none, site := none }

/-- The code object of the page, with a function that is translated at 0x10060, a routine that is not in the catalogue, and
its bundles in the same page. -/
def nativeCode : CodeObject :=
  ⟨0x10000, 1, [(0x10000, 4096)], [], [⟨6, 0x10900, 4, false, 0, []⟩], [], [0x10000], [], [], [(0x10000, 0x10060)],
    (0x10000, 4096), 0⟩

/-- The user stream in native code, with cpv that of the page. -/
def nativeState (n : Native) (f : Stream → Stream) : State :=
  let s := userState fun x => f { x with native := some n, cpv := (capOf 0x10000 4096 7).bits, cpvTag := true }
  s.setCtx 0 { s.ctx 0 with objects := [nativeCode] }

/-- Every form at the start of a region: outside a routine, in an open bracket, inside a routine call; room in the compute
queue and none; a home slot of the page. -/
theorem witness_Native_only_operations_run_in_native_code :
    let s := nativeState native0 id
    let b := nativeState { native0 with bracket := some 0 } id
    let r := nativeState native0 fun x => { x with calls := [frameOf none] }
    (s.str.holds on = true ∧ s.str.native = some native0 ∧ r.str.calls = [frameOf none] ∧ s.str.calls = [] ∧
      (native0.bracket.bind fun j => s.callee (BitVec.ofNat 37 j)) = none ∧
      (((some 0 : Option Nat).bind fun j => b.callee (BitVec.ofNat 37 j)).map (·.1)) = some 0 ∧
      (s.nativeObject native0.npc).bind (·.funcs[(0 : BitVec 37).toNat]?) = some 0x10000 ∧ native0.atStart = true ∧
      s.here.mx.queue.length < 16 ∧ (s.str.getS 0) &&& 0x7FFF000000000000 = 0 ∧
      ((s.str.getS 0).extractLsb' 24 3 : BitVec 3) ≠ 6 ∧
      16 ≤ (userTile fun x => { x with mx := { x.mx with queue := List.replicate 16 ⟨.swap, 0⟩ } }).here.mx.queue.length ∧
      s.str.cpvTag = true ∧ s.str.region = some native0 ∧
      canonical (Cap.addr ⟨s.str.cpv, true⟩ (s.here.spbase + 128 * (1 : BitVec 37).setWidth 64)) = 0x10080 ∧
      Cap.check ⟨s.str.cpv, true⟩ .write (128 : Word).toNat 128 = none ∧
      Cap.check ⟨s.str.cpv, true⟩ .read (128 : Word).toNat 128 = none ∧ 128 ≤ room 0x10080 ∧
      (Cap.mask ⟨s.str.cpv, true⟩ s.str.xm) = none ∧ native0.buffer = []) ∧
    (∃ s1, reachesAs s 0x10080 .store false 0x10080 s1) ∧
    (∃ s1, reachesAs s 0x10080 .load false 0x10080 s1 ∧ clean s1 0x10080 128) ∧
    ∃ s2, (s.noteTranslation s.cur.tile 0x10000).translateAt s.cur.tile 0x10000 = some s2 ∧
      s2.native? s.cur.tile 0x10000 = some 0x10060 :=
  ⟨by decide +kernel, ⟨_, rfl, by decide +kernel⟩, ⟨_, ⟨rfl, by decide +kernel⟩, by unfold clean; decide⟩, _, rfl,
    by decide +kernel⟩

/-- A region that is finished with one store in its buffer. -/
def finished0 : Native :=
  { native0 with
    buffer := [⟨0x10000, 0x10000, none, [1], some pageTlb⟩], writes := 1, atStart := false
    finished := some ⟨none, none, 0, 0, 0x10030⟩, view := ((Stream.reset.setS 4 0x10000).setS 5 1).undoCopy }

/-- The user stream at the end of a region with the given operation and transfer, whose position entry leads to 0x10008, under
the root of the page tables. -/
def ending (i tr : Option Instr) : State :=
  let f : Native := { finished0 with finished := some ⟨i, tr, 0, 0, 0x10030⟩ }
  { nativeState f fun x => (x.setS 4 0x10000).setS 5 1 with
      mem := memWriteBytes tables 0 (toBytes 32 (placement 0x10008)) }
    |> fun s => s.setTile 0 { s.tile 0 with
      mx := { (s.tile 0).mx with issueM := 1 }, user := { (s.tile 0).user with ctxroot := 0x9000000000000001 } }

/-- The state in which a region-ending operation is performed. -/
def opened (i : Instr) : State :=
  let s := ending (some i) none
  let n : Native := { finished0 with finished := some ⟨some i, none, 0, 0, 0x10030⟩ }
  let o := s.openRegion n ⟨some i, none, 0, 0, 0x10030⟩ (placement 0x10008)
  o.setStr { (o.str.viewed n.view).nativeView with pc := 0x10000 }

/-- The state of the stream after an instruction that completes. -/
def runsTo (r : Host.Outcome State Fault Refusal) : Option StreamState :=
  match r with
  | .next t => some t.str.state
  | .fault _ => none
  | .refused _ => none

theorem of_runsTo {r : Host.Outcome State Fault Refusal} {x : StreamState} (h : runsTo r = some x) :
    ∃ t, r = .next t ∧ t.str.state = x := by
  cases r with
  | next t => exact ⟨t, rfl, Option.some.inj h⟩
  | fault f => exact absurd h nofun
  | refused f => exact absurd h nofun

/-- A region that ends plainly, with home slots whose page is mapped; with a branch; with a jump to translated code; with an
operation that completes, and with one that waits. -/
theorem witness_Finished_regions_commit :
    (∀ p ∈ [((none, none) : Option Instr × Option Instr), (none, some (.br on 1)), (none, some (.jr on 4)),
        (some (.tlWait on .hn .tlm 0), none), (some (.tlWait on .hn .tlm 5), none)],
      let s := ending p.1 p.2
      let x := s.tile 0
      x.user.state = .running ∧ x.rbusy = false ∧ x.gated = false ∧ x.held = false ∧
        x.user.native = some { finished0 with finished := some ⟨p.1, p.2, 0, 0, 0x10030⟩ } ∧
        finished0.bracket = none ∧ finished0.opened = false ∧ s.position 0 0 = some (placement 0x10008)) ∧
    (let s := ending none none
     let u := s.writePart none 0x10000 0x10000 [1]
     let va := canonical ((s.tile 0).user.cpv.setWidth 64) + (s.tile 0).spbase + BitVec.ofNat 64 (128 * 12)
     ((placement 0x10008).extractLsb' (64 + 5 * 11) 5 : BitVec 5) = 11 ∧
       ((placement 0x10008).extractLsb' (64 + 5 * 12) 5 : BitVec 5) = 16 ∧ 128 ≤ room va ∧
       u.peek 0x9000000000000001 va = some 0x10600 ∧ u.linePoisoned (0x10600 / 128) = false) ∧
    (let s := ending none (some (.jr on 4))
     let read := (s.tile 0).user.viewed finished0.view
     read.holds on = true ∧ (canonical (read.getS 4)).toNat % 8 = 0 ∧
       s.nativeFor 0 (canonical (read.getS 4)) = some 0x10060) ∧
    (∀ b ∈ [(0 : SReg), 5], ∃ w, slotOf (.tlWait on .hn .tlm b) = some w ∧ endsRegion w.op = true ∧
      w.op ∉ [Op.fwdGet, .rcall, .sys, .trap, .eret, .nxRend, .nxRyld]) ∧
    (∀ b ∈ [(0 : SReg), 5], (opened (.tlWait on .hn .tlm b)).str.native.isSome = true) ∧
    (∃ t, exec (.tlWait on .hn .tlm 0) (opened (.tlWait on .hn .tlm 0)) = .next t ∧ t.str.state = .running) ∧
    ∃ t, exec (.tlWait on .hn .tlm 5) (opened (.tlWait on .hn .tlm 5)) = .next t ∧ t.str.state = .waiting :=
  ⟨by decide +kernel, by decide +kernel, by decide +kernel, by
    intro b hb
    rcases List.mem_cons.mp hb with rfl | h
    · exact ⟨_, rfl, by decide +kernel⟩
    · obtain rfl := List.mem_singleton.mp h
      exact ⟨_, rfl, by decide +kernel⟩, by decide +kernel,
    of_runsTo (by decide +kernel), of_runsTo (by decide +kernel)⟩

/-- A tile whose walker has a request, and a root with and without translation. -/
def walkState (root : Word) : State :=
  { userTile (fun x => { x with
      user := { x.user with ctxroot := root }
      mmu := { Mmu.reset with queue := [⟨.control .user, root, 0x10000, .load, false⟩] } }) with mem := tables }

/-- A request of the walker that succeeds; a shoot-down to be received by a tile, and two to be acknowledged, by the last
tile and not by the last. -/
theorem witness_Walks_and_shoot_downs_change_the_caches :
    (((walkState 0x9000000000000001).tile 0).mmu.queue = [⟨.control .user, 0x9000000000000001, 0x10000, .load, false⟩] ∧
      (0x9000000000000001 : Word).extractLsb' 60 4 ≠ (0 : BitVec 4) ∧ (0 : Word).extractLsb' 60 4 = (0 : BitVec 4)) ∧
    (∃ r, walkAndFill (walkState 0x9000000000000001) 0 (.control .user) 0x9000000000000001 0x10000 .load true = .ok r) ∧
    (let s : State := { State.reset with shoots := [(1, 0, [0], [0])] }
     s.shoots = [(1, 0, [0], [0])] ∧ (0 : TileId) ∈ [(0 : TileId)]) ∧
    (let x := (userTile fun x => { x with mmu := { x.mmu with unacked := [1] } }).tile 0
     x.mmu.unacked = [1] ∧ x.user.vamoTodo ++ x.fw.vamoTodo = [] ∧ x.user.native = none ∧ x.sigQ = []) ∧
    (let x := (nativeState finished0 id).tile 0
     (∃ n, x.user.native = some n ∧ ∃ b ∈ n.buffer, ∃ e, b.via = some e ∧ e.removedBy 0x10003 = true) ∧
       pageTlb.removedBy 0x20003 = false) ∧
    (∃ j ∈ [(0 : TileId), 1], j ≠ 0) ∧ ∀ j ∈ [(0 : TileId)], j = 0 :=
  ⟨by decide, of_isOk (by decide +kernel), by decide, by decide +kernel,
    ⟨⟨finished0, rfl, _, List.mem_singleton.mpr rfl, pageTlb, rfl, by decide⟩, by decide⟩, by decide, by decide⟩

/-- A tile with that command at the head of its load queue and both pages in the stream TLBs. -/
def pumpState : State :=
  userTile fun x => { x with
    loadQ := [fill], mmu := { x.mmu with streams := Vector.replicate 5 [pageTlb, cisternTlb] } }

theorem witness_Pumps_move_one_unit :
    (pumpState.pumpTurn 0 false = some 0 ∧ (pumpState.tile 0).mmu.queue.length ≤ 6 ∧
      (pumpState.tile 0).headCmd false 0 = some fill ∧ (pumpState.tile 0).rbusy = false ∧
      (pumpState.tile 0).frozen = false ∧ (pumpState.tile 0).fault = none ∧ ((pumpState.tile 0).pump 0).halt = none ∧
      pumpState.peerOut = [] ∧ (fill.desc.extractLsb' 2 3 : BitVec 3) = 0 ∧ fill.row < 1 ∧
      (capOf 0x10000 128 7).check .read 0 128 = none ∧ (capOf 0x11000 128 7).check .write 0 128 = none ∧
      inCistern 0x10000000000 = true ∧ regionOf 0x10000 = .hbm ∧ cisternTile 0x10000000000 = some 0 ∧
      ((pumpState.tile 0).pump 0).done = [] ∧ fill.number = ((pumpState.tile 0).pump 0).tlp + 1 ∧
      (cmdsOf ((pumpState.tile 0).queue false) 0).tail = []) ∧
    (let s0 := pumpState.setTile 0 ((pumpState.tile 0).setTurn false 0)
     ∃ s1, translate s0 0 (.pump 0) (pumpState.tile 0).user.ctxroot 0x10000 .load true =
        .ok (⟨0x10000, false⟩, s1) ∧
      s0.heldUp 0 (.pump 0) (pumpState.tile 0).user.ctxroot 0x10000 .load true 0x10000 = none ∧
      s1.heldUp 0 (.pump 0) (pumpState.tile 0).user.ctxroot 0x11000 .store true 0x10000000000 = none ∧
      ∃ s2, translate s1 0 (.pump 0) (pumpState.tile 0).user.ctxroot 0x11000 .store true =
        .ok (⟨0x10000000000, false⟩, s2) ∧ clean s2 0x10000 128) ∧
    (let s := userTile fun x => { x.setPump 0 { x.pump 0 with halt := some ⟨false, 0x40, false, 0⟩ } with loadQ := [fill] }
     ((s.tile 0).pump 0).halt = some ⟨false, 0x40, false, 0⟩ ∧ (s.tile 0).headCmd false 0 = some fill ∧
      fill.done = false) :=
  ⟨by decide +kernel, ⟨_, rfl, by decide +kernel, by decide +kernel, _, rfl, by unfold clean; decide⟩, by decide +kernel⟩

/-- A grant of chip 3, job 5, tiles 0 to 0, lines 0 to 7. -/
def grantEntry : Quad :=
  (6 : BitVec 3) ++ (0 : BitVec 5) ++ (3 : BitVec 8) ++ (5 : BitVec 16) ++ (0 : BitVec 8) ++ (0 : BitVec 8) ++
    (7 : BitVec 16) ++ (0 : BitVec 16) ++ (0 : BitVec 48)

/-- A line and a decrement from chip 3. -/
def arrivedLine : PeerPacket := ⟨3, 5, 7, 0, .line 7 1⟩
def arrivedCount : PeerPacket := ⟨3, 5, 7, 0, .decrement 0⟩

/-- A domain in which chip 3 may write lines 0 to 7 of tile 0, with one packet of each kind not yet answered. -/
def peerState (mem : List Host.Cell) : State :=
  { userTile id with
    domainV := true, inbox := [arrivedLine, arrivedCount], grants := (Vector.replicate 64 0).set 0 grantEntry, mem := mem
    peerOut := [⟨9, 3, 0, none, 0, false⟩, ⟨8, 3, 0, some (0, true), 0, false⟩] }

/-- A granted line at both ends of its range, the first line beyond every cistern, a decrement of an object with one inbound transfer, an
answer for a post and one for a pump, and a post at the head of the queue. -/
theorem witness_Peer_packets_and_posts_take_effect :
    let s := peerState [(0x10000000009, 1)]
    let post : SigPost := ⟨false, 0, 0, 0x11000, 0x10000000000, 1, 0, Vector.replicate 4 0, none, none⟩
    (s.domainV = true ∧ arrivedLine ∈ s.inbox ∧ arrivedCount ∈ s.inbox ∧ (3, 7) ∉ s.seqSeen ∧ (s.tile 0).frozen = false ∧ (s.tile 0).rbusy = false ∧
      grantEntry.getLsbD 127 = true ∧ grantEntry.getLsbD 126 = true ∧
      grantEntry.extractLsb' 112 8 = (3 : BitVec 8) ∧ grantEntry.extractLsb' 96 16 = (5 : BitVec 16) ∧
      (grantEntry.extractLsb' 80 8 : BitVec 8).toNat ≤ 0 ∧ (grantEntry.extractLsb' 48 16 : BitVec 16).toNat ≤ 0 ∧
      7 ≤ (grantEntry.extractLsb' 64 16 : BitVec 16).toNat ∧
      ¬((0xC000 : BitVec 16).toNat < 49152) ∧
      ((ofBytes 128 (s.readBytes 0x10000000000 16) : Quad).extractLsb' 72 20 : BitVec 20) = 1 ∧
      s.lineEmpty (0x10000000000 / 128) = false ∧ s.linePoisoned (0x10000000000 / 128) = false ∧
      s.peerOut = [⟨9, 3, 0, none, 0, false⟩, ⟨8, 3, 0, some (0, true), 0, false⟩] ∧
      ((s.tile 0).pump 0).halt = none) ∧
    (∃ e ∈ s.grants.toList, e = grantEntry) ∧
    (((userTile fun x => { x with sigQ := [post] }).tile 0).sigQ = [post] ∧ post.sent = none ∧ post.peer = false ∧
      cisternTile post.pa = some 0 ∧ ((userTile id).tile 0).frozen = false ∧ ((userTile id).tile 0).rbusy = false) :=
  ⟨by decide +kernel, ⟨grantEntry, by decide +kernel, rfl⟩, by decide +kernel⟩


/-- A stream at the unit of a native routine. -/
def inRoutine (r : Routine) (f : Stream → Stream) : State :=
  userState fun x => f { x with calls := [frameOf (some r)] }

/-- Every matrix routine with arguments that its checks admit, both forms of `mm.wload` and of `mm.wdecode`; a halted command
of each kind. -/
theorem witness_Matrix_routines_push_their_command :
    let s := inRoutine .mmWload id
    let c := inRoutine .mmWload fun x => x.setS 8 0x8000000000000000
    s.str.calls = [frameOf (some .mmWload)] ∧ (frameOf (some .mmWload)).native = some .mmWload ∧
      (inRoutine .mmZero id).str.calls = [frameOf (some .mmZero)] ∧ s.here.mx.queue.length < 16 ∧
      (s.str.getS 8) &&& 0x7FFF000000000000 = 0 ∧ (s.str.getS 8).getLsbD 63 = false ∧
      (c.str.getS 8) &&& 0x7FFF000000000000 = 0 ∧ (c.str.getS 8).getLsbD 63 = true ∧
      (inRoutine .mmWdecode id).str.getS 8 = 0 ∧ (inRoutine .mmWdecode fun x => x.setS 8 1).str.getS 8 = 1 ∧
      ((s.str.getS 9).extractLsb' 0 3 : BitVec 3) ≠ 6 ∧ (s.str.getS 9).extractLsb' 5 59 = (0 : BitVec 59) ∧
      ((userTile fun x => { x with mx := { x.mx with halt := some ⟨0x40, 0, 0, false⟩ } }).tile 0).mx.halt =
        some ⟨0x40, 0, 0, false⟩ := by decide +kernel

/-- The first two MiB of every address space, on themselves, for the engines. -/
def bigTlb : TlbEntry := ⟨0, 9, 0, true, true, true, true, true, true, 0, 0⟩

/-- A tile with a command at the head of its compute queue. -/
def mxState (mem : List Host.Cell) (c : MatCmd) (f : Matrix → Matrix) : State :=
  { userTile fun x => { x with
      mmu := { x.mmu with streams := Vector.replicate 5 [bigTlb] }
      mx := f { x.mx with queue := [⟨c, 1⟩] } } with
    mem := mem }

/-- A tagged capability of rows of a format. -/
def rowsOf (base stride rows rowbytes : Nat) (fmt : Fmt) : Cap :=
  ⟨CapFields.bits ⟨base, stride, rows, rowbytes, fmt, 7, 0, 0⟩, true⟩

/-- A valid bank of zeros in format 3. -/
def fullBank : Bank := { Bank.reset with fmt := 3, valid := true }

/-- The null capability. -/
def noCap : Cap := ⟨0, false⟩

/-- Scale bytes in the page at 0x12000. -/
def scaleCap : Cap := capOf 0x12000 4096 7

/-- A SWAP with a valid and with an invalid shadow bank, a ZERO, a WLOAD that starts, with and without scales, its first and
last column, an ACT and a DRAIN of no row, that start, and that stand at their one row, with and without scales: the reads and
writes of each answer one after the other (`okWith`: what `of_okWith` says). -/
theorem witness_Matrix_commands_perform_one_unit :
    let w := rowsOf 0x10000 256 128 256 3
    let a := rowsOf 0x10000 256 1 256 3
    let d := rowsOf 0x10000 512 1 512 0
    let none_ := mxState [] .swap id
    let has := mxState [] .swap fun m => { m with bank1 := fullBank }
    let zero := mxState [] (.zero 1 1023) id
    (heads has 0 .swap ⟨.swap, 1⟩ ∧ (has.tile 0).mx.bank1.valid = true ∧ heads none_ 0 .swap ⟨.swap, 1⟩ ∧
      (none_.tile 0).mx.bank1.valid = false ∧ heads zero 0 (.zero 1 1023) ⟨.zero 1 1023, 1⟩ ∧
      (1 : Word).toNat + (1023 : Word).toNat ≤ 1024) ∧
    (∀ sc ∈ [noCap, scaleCap], let s := mxState [] (.wload w sc) id
      heads s 0 (.wload w sc) ⟨.wload w sc, 1⟩ ∧ (s.tile 0).mx.begun = false ∧ (s.tile 0).mx.rowp = 0 ∧ w.fields.fmt = 3 ∧
        w.fields.rows = 128 ∧ w.fields.rowbytes * 8 = 256 * fmtBits 3 ∧
        okWith (M.scaleBytes 0 sc 0 (256 / blockCodes 3) s) (fun _ s1 =>
          okWith (M.scaleBytes 0 sc (256 / blockCodes 3) 128 s1) fun _ _ => true) = true) ∧
    (∀ i ∈ [0, 127], let s := mxState [] (.wload w noCap) fun m => { m with begun := true, rowp := i }
      heads s 0 (.wload w noCap) ⟨.wload w noCap, 1⟩ ∧ (s.tile 0).mx.begun = true ∧
        okWith (M.engineRow 0 w i s) (fun _ _ => true) = true) ∧
    (let s := mxState [] (.act noCap noCap 0) id
     heads s 0 (.act noCap noCap 0) ⟨.act noCap noCap 0, 1⟩ ∧ noCap.fields.rows = 0) ∧
    (∀ sc ∈ [noCap, scaleCap],
      let s := mxState [] (.act a sc 0) fun m => { m with bank0 := fullBank }
      heads s 0 (.act a sc 0) ⟨.act a sc 0, 1⟩ ∧ a.fields.rows ≠ 0 ∧ (s.tile 0).mx.begun = false ∧ fullBank.valid = true ∧
        pairFormat 3 3 ≠ none ∧ a.fields.rowbytes * 8 = 256 * fmtBits a.fields.fmt ∧
        (0 : Word).toNat + a.fields.rows ≤ 1024 ∧
        okWith (M.scaleBytes 0 sc 0 (256 / blockCodes 3) s) (fun _ _ => true) = true) ∧
    (∀ sc ∈ [noCap, scaleCap],
      let s := mxState [] (.act a sc 0) fun m => { m with bank0 := fullBank, begun := true }
      heads s 0 (.act a sc 0) ⟨.act a sc 0, 1⟩ ∧ (s.tile 0).mx.begun = true ∧ 0 < a.fields.rows ∧
        okWith (M.engineRow 0 a 0 s) (fun _ s1 =>
          okWith (M.scaleBytes 0 sc (256 / blockCodes 3 + 0) 1 s1) fun am _ => am.length == 1) = true) ∧
    (let s := mxState [] (.drain noCap noCap 0 .rne false true) id
     heads s 0 (.drain noCap noCap 0 .rne false true) ⟨.drain noCap noCap 0 .rne false true, 1⟩) ∧
    (let s := mxState [] (.drain d noCap 0 .rne false true) id
     heads s 0 (.drain d noCap 0 .rne false true) ⟨.drain d noCap 0 .rne false true, 1⟩ ∧ d.fields.rows ≠ 0 ∧
       (s.tile 0).mx.begun = false ∧ d.fields.fmt.toNat < 11 ∧ d.fields.rowbytes * 8 = 128 * fmtBits d.fields.fmt) ∧
    (∀ sc ∈ [noCap, scaleCap],
      let s := mxState [] (.drain d sc 0 .rne false true) fun m => { m with begun := true }
      let q := quantRow 0 (resolve .rne 0) false (rowValues (((s.tile 0).mx.acc)[0]))
      heads s 0 (.drain d sc 0 .rne false true) ⟨.drain d sc 0 .rne false true, 1⟩ ∧ 0 < d.fields.rows ∧
        okWith (M.drainWrite 0 d (0 * d.fields.stride) (toBytes 512 (BitVec.ofNat 4096 (packCodes 0 q.2.1))) s) (fun _ s1 =>
          sc.isNull || okWith (M.drainWrite 0 sc 0 [BitVec.ofNat 8 q.1] s1) fun _ _ => true) = true) := by
  unfold heads
  and_intros <;> decide +kernel


/-- A coded tensor of one row of two tiles in format 3, at 0x10000. -/
def tensor : List Host.Cell :=
  [(0x10000, 0x01), (0x10001, 0x57), (0x10002, 0x43), (0x10003, 0x4D), (0x10004, 3), (0x10008, 1), (0x1000C, 2),
    (0x10010, 0x40), (0x10018, 0x40), (0x10020, 0x80), (0x10029, 0x10)]

/-- Its capability. -/
def tensorCap : Cap := capOf 0x10000 4096 7

/-- Segment q of 2,048 symbols 0, whose eight states fall to 65,536 with no byte read. -/
def segmentMem (q : Nat) : List Host.Cell :=
  memWriteBytes [] (0x10080 + 36 * q)
    ([BitVec.ofNat 8 (0xC0 + q), 0xD1, 0, 0] ++ (List.replicate 8 [0x01, 0x10, 0x01, 0x00]).flatten)

/-- A command that stands at segment q, with the table of frequencies 4,095 and 1. -/
def atSegment (q : Nat) (c : MatCmd) (f : Matrix → Matrix) : State :=
  mxState (segmentMem q) c fun m => f { m with
    begun := true, heldMask := 1, heldSlots := m.heldSlots.set 0 (BitVec.ofNat 4096 (4095 + 2 ^ 16)), whSeg := BitVec.ofNat 3 q
    header := BitVec.ofNat 512 (3 * 2 ^ 32 + 0x80 * 2 ^ 256)
    entry := some (BitVec.ofNat 256 (2 ^ 64 * (36 * ((2 ^ 128 - 1) / (2 ^ 16 - 1))))) }

/-- The destination of a DECODE of format 3. -/
def decodeTo : Cap := rowsOf 0x20000 128 128 128 3

set_option maxRecDepth 1000000 in
/-- The header of a TABLE and its tables, of a WLOADC with and without scales, and of a DECODE pass, and that of a WLOADC fails;
segment 0 of a WLOADC's first tile and the last segment of either tile, and segment 0 of a DECODE with its rows delivered,
decode. -/
theorem witness_Wellhead_commands_perform_one_unit :
    (let s := mxState tensor (.table tensorCap) id
     heads s 0 (.table tensorCap) ⟨.table tensorCap, 1⟩ ∧
       okWith (M.wellStart 0 0 s) (fun _ s0 => okWith (M.wellHeader 0 tensorCap [] s0) fun h s1 =>
         runs (((List.range (codedHeader h).ntab).forM (M.loadTable 0 tensorCap (codedHeader h))) s1)) = true) ∧
    (∀ sc ∈ [noCap, scaleCap],
      let c : MatCmd := .wloadc tensorCap 0 1 sc
      let s := mxState tensor c id
      heads s 0 c ⟨c, 1⟩ ∧ (s.tile 0).mx.begun = false ∧ (s.tile 0).mx.rowp = 0 ∧
        okWith (M.wellStart 0 0 s) (fun _ s0 => okWith (M.wellHeader 0 tensorCap [0, 1] s0) fun h s1 =>
          (codedHeader h).fmt == 3 && okWith (M.scaleBytes 0 sc 0 (256 / blockCodes 3) s1) fun _ s2 =>
            runs (M.scaleBytes 0 sc (256 / blockCodes 3) 128 s2)) = true) ∧
    (let c : MatCmd := .wloadc tensorCap 0 1 noCap
     let s := mxState [] c id
     heads s 0 c ⟨c, 1⟩ ∧ (s.tile 0).mx.begun = false ∧
       okWith (M.wellStart 0 0 s) (fun _ s0 => trapWith (M.wellHeader 0 tensorCap [0, 1] s0)) = true) ∧
    (let c : MatCmd := .decode tensorCap 0 decodeTo
     let s := mxState tensor c id
     heads s 0 c ⟨c, 1⟩ ∧ (s.tile 0).mx.begun = false ∧ (s.tile 0).mx.rowp = 0 ∧ decodeTo.fields.rows = 128 ∧
       decodeTo.fields.rowbytes = 128 ∧ fmtBits 3 ≠ 6 ∧
       okWith (M.wellStart 0 0 s) (fun _ s0 => runs (M.wellHeader 0 tensorCap [0] s0)) = true) ∧
    (∀ x ∈ [(0, false), (7, false), (7, true)],
      let c : MatCmd := .wloadc tensorCap 0 1 noCap
      let s := atSegment x.1 c fun m => { m with whSecond := x.2 }
      heads s 0 c ⟨c, 1⟩ ∧ (s.tile 0).mx.begun = true ∧ (s.tile 0).mx.whSecond = x.2 ∧
        okWith (M.wellSegment 0 tensorCap (if x.2 then 1 else 0) s) (fun r _ =>
          decide (r.1 = (s.tile 0).mx.whSeg.toNat) && decide (r.1 = x.1)) = true) ∧
    (let c : MatCmd := .decode tensorCap 0 decodeTo
     let s := atSegment 0 c id
     heads s 0 c ⟨c, 1⟩ ∧ (s.tile 0).mx.begun = true ∧
       okWith (M.wellSegment 0 tensorCap 0 s) (fun r s1 => decide (r.1 = (s.tile 0).mx.whSeg.toNat) &&
         runs (M.deliverRows 0 decodeTo r.1 r.2 s1)) = true) := by
  unfold heads
  and_intros <;> decide +kernel


/-- A stream at the last row of a native routine of two rows, with capabilities of two rows in the page: c2 and c3 of n bytes a
row and of the given formats, c4 and c5 of 32-bit words. -/
def atLast (r : Routine) (d c : Fmt) (n : Nat) : State :=
  userState fun x => { x with
      calls := [{ frameOf (some r) with prog := 1 }], cpv := (capOf 0x10000 4096 7).bits, cpvTag := true }
    |>.setC (.c 2) (rowsOf 0x10000 128 2 n d) |>.setC (.c 3) (rowsOf 0x10200 128 2 n c)
    |>.setC (.c 4) (rowsOf 0x10400 128 2 128 0) |>.setC (.c 5) (rowsOf 0x10600 128 2 128 0) |>.setS 2 0x1F00

/-- The capability cn of the stream. -/
def cap (s : State) (n : BitVec 5) : Cap := s.str.getC (.c n)

/-- The stream stands at the last row of a routine that has a row for each of cn. -/
def standsAtLast (s : State) (r : Routine) (n : BitVec 5) : Prop :=
  s.str.calls = [{ frameOf (some r) with prog := 1 }] ∧ (cap s n).fields.rows = 2

/-- A routine of one source row at its last row: it reads the row and writes the row that `out` gives. -/
def maps (r : Routine) (s : State) (out : List Byte → List Byte) : Prop :=
  standsAtLast s r 3 ∧
    okWith (M.readRow (cap s 3) 1 0 128 s) (fun bs s1 => runs (M.writeRow (cap s 2) 1 0 (out bs) s1)) = true

/-- Rows that a computation makes one after another. -/
def makeRows {α : Type} (f : Nat → α → M α) : Nat → Nat → α → M α
  | 0, _, a => pure a
  | n + 1, i, a => do
    let c ← f i a
    makeRows f n (i + 1) c

theorem rowsFrom_of_makeRows {α : Type} {f : Nat → α → M α} {step : Nat → α → State → α → State → Prop}
    (hf : ∀ i a s c u, f i a s = .ok c u → step i a s c u) :
    ∀ n i a s b t, makeRows f n i a s = .ok b t → rowsFrom step n i a s b t
  | 0, _, _, _, _, _, h => by
    injection h with h1 h2
    exact ⟨h1.symm, h2.symm⟩
  | n + 1, i, a, s, b, t, h => by
    obtain ⟨c, u, h1, h2⟩ := M.bind_eq_ok.mp h
    exact ⟨c, u, hf i a s c u h1, rowsFrom_of_makeRows hf n (i + 1) c u b t h2⟩

/-- A stream at the entry of a copy of rows of sixteen bytes, into as many rows or not. -/
def copying (dst rows : Nat) : State :=
  userState fun x => { x with
      calls := [frameOf (some .tileCopy)], cpv := (capOf 0x10000 4096 7).bits, cpvTag := true }
    |>.setC (.c 2) (rowsOf 0x10000 16 dst 16 0) |>.setC (.c 3) (rowsOf 0x10200 16 rows 16 0) |>.setS 2 0x1F00

/-- The entry checks of a copy. -/
def copyOk (s : State) : Prop :=
  let raw (f : Fmt) : Prop := isFormat f = true ∨ f = 0xF
  let d := (cap s 2).fields
  let c := (cap s 3).fields
  raw d.fmt ∧ raw c.fmt ∧ d.rows = c.rows ∧ d.rowbytes = c.rowbytes

/-- One row of a copy. -/
def copies (s : State) (k : Nat) (a : Word) (u : State) (b : Word) (v : State) : Prop :=
  b = a ∧ ∃ bs u1 u2, M.readRow (cap s 3) k 0 16 u = .ok bs u1 ∧ M.writeRow (cap s 2) k 0 bs u1 = .ok () u2 ∧
    v = raised u2 0

/-- The same, as a computation. -/
def copyRow (s : State) (k : Nat) (a : Word) : M Word := do
  let bs ← M.readRow (cap s 3) k 0 16
  M.writeRow (cap s 2) k 0 bs
  modify (raised · 0)
  pure a

theorem copies_of_copyRow (s : State) (k : Nat) (a : Word) (u : State) (b : Word) (v : State)
    (h : copyRow s k a u = .ok b v) : copies s k a u b v := by
  obtain ⟨bs, u1, h1, h⟩ := M.bind_eq_ok.mp h
  obtain ⟨_, u2, h2, h⟩ := M.bind_eq_ok.mp h
  injection h with h3 h4
  exact ⟨h3.symm, bs, u1, u2, h1, h2, h4.symm⟩

/-- A copy of 17 rows from its entry: its checks pass, its header is stored, sixteen rows are made, and its progress is stored;
and one of a single row, which is over at its first unit. -/
theorem copy_starts_yields_and_ends :
    (∃ s0 b s1 t, starts (copying 17 17) (frameOf (some .tileCopy)) (copyOk (copying 17 17)) s0 ∧
      rowsFrom (copies (copying 17 17)) 16 0 0 s0 b s1 ∧ header s1 16 b t) ∧
    ∃ s0 b s1, starts (copying 1 1) (frameOf (some .tileCopy)) (copyOk (copying 1 1)) s0 ∧
      rowsFrom (copies (copying 1 1)) 1 0 0 s0 b s1 := by
  constructor
  · obtain ⟨b, s1, h1, q⟩ := of_okWith
      (r := makeRows (copyRow (copying 17 17)) 16 0 0 ((copying 17 17).writePart none 0x10F00 0x10F00 (List.replicate 16 0)))
      (p := fun _ s1 => storable s1 (s1.str.getC .cpv) (s1.str.getS 2 - 4096) 16) (by decide +kernel)
    obtain ⟨t, ht⟩ := stores_of_storable
      (bs := toBytes 8 (BitVec.ofNat 64 16) ++ toBytes 8 b) q
    exact ⟨_, b, s1, t, ⟨by unfold copyOk; decide +kernel, 0x10F00, by unfold admitted; decide +kernel,
      .inl ⟨by decide +kernel, 0x10F00, _, ⟨false, rfl, by decide +kernel⟩, rfl⟩⟩,
      rowsFrom_of_makeRows (copies_of_copyRow _) _ _ _ _ _ _ h1, ht⟩
  · obtain ⟨b, s1, h1, -⟩ := of_okWith
      (r := makeRows (copyRow (copying 1 1)) 1 0 0 ((copying 1 1).writePart none 0x10F00 0x10F00 (List.replicate 16 0)))
      (p := fun _ _ => true) (by decide +kernel)
    exact ⟨_, b, s1, ⟨by unfold copyOk; decide +kernel, 0x10F00, by unfold admitted; decide +kernel,
      .inl ⟨by decide +kernel, 0x10F00, _, ⟨false, rfl, by decide +kernel⟩, rfl⟩⟩,
      rowsFrom_of_makeRows (copies_of_copyRow _) _ _ _ _ _ _ h1⟩

/-- The units of a routine from its entry (`copy_starts_yields_and_ends`), a check that fails, and every routine that makes a row
of one row at its last row of 32 numbers; `acc.addrow` and `scale.fold` with their further access. -/
theorem witness_Row_routines_write_their_row :
    let fp (f : List (BitVec 32) → List Fp) (bs : List Byte) : List Byte :=
      ((f (words32 bs)).map fun r => r.1).flatMap (toBytes 4)
    let one (f : List (BitVec 32) → Fp) (bs : List Byte) : List Byte := toBytes 4 (f (words32 bs)).1
    (let s := copying 2 1
     s.str.calls = [frameOf (some .tileCopy)] ∧ ¬ copyOk s ∧ s.cur.side = .user ∧ s.str.native = none ∧
       s.here.fault = none) ∧
    (∀ p ∈ [(Routine.tileCopy, (id : List Byte → List Byte)),
        (.scanAdd, fp fun xs => scanRow (scanAddChunk .rne) true 0 (rowChunks xs)), (.redSum, one (reduceRow .add .rne)),
        (.redMax, one (reduceRow .max .rne)), (.redAmax, one (reduceRow .amax .rne)),
        (.ewExp, fp fun xs => xs.map (elemFn .exp)), (.ewSigmoid, fp fun xs => xs.map (elemFn .sigmoid)),
        (.ewSilu, fp fun xs => xs.map (elemFn .silu)), (.ewGelu, fp fun xs => xs.map (elemFn .gelu)),
        (.ewRsqrt, fp fun xs => xs.map (elemFn .rsqrt)),
        (.hashMul, fun bs => (words64 bs).flatMap fun (key : Word) =>
          toBytes 8 (key * (3 : Word) ^^^ (key * (3 : Word)) >>> 7)),
        (.softmaxRow, fun bs =>
          let top := reduceRow .max .rne (words32 bs)
          let es := (words32 bs).map fun v => thenFp (elemFn .exp) (fsub32 .rne v top.1)
          let sum := chunkSum (rowChunks es)
          bytes32 (values (es.map fun e => fdiv32 .rne e.1 sum.1)))], maps p.1 (atLast p.1 0 0 128) p.2) ∧
    maps .tileCvt (atLast .tileCvt 1 0 128) (fun bs => (convertRow 0 1 .rne false 32 bs).1) ∧
    (let s := atLast .accAddrow 0 0 128
     standsAtLast s .accAddrow 2 ∧ runs (M.readRow (cap s 2) 1 0 128 s) = true) ∧
    (let s := atLast .scaleFold 0 0 128
     standsAtLast s .scaleFold 2 ∧ okWith (M.readRow (cap s 2) 1 0 128 s) (fun bs s1 =>
       let y := reduceRow .amax .rne (words32 bs)
       let top := BitVec.ofNat 32 (max ((0 : BitVec 128).setWidth 64 : Word).toNat y.1.toNat)
       okWith (M.atomicPart (cap s 3) .atomic 0 4 4 .atomic (raised s1 y.2)) fun p s3 =>
         runs (M.rmw p (fun bs => some (toBytes 4
           (if (ofBytes 32 bs : BitVec 32).toNat < top.toNat then top else ofBytes 32 bs))) s3)) = true) := by
  unfold maps standsAtLast copyOk
  and_intros <;> decide +kernel

/-- A stream at `decode.seg` on segment 0 of tile 0 of the coded tensor, into 16 rows of the page. -/
def segmentRoutine : State :=
  let mem := (tensor ++ (0x1005B, 3) :: (List.range 8).map fun q => ((0x10048 + 2 * q, 36) : Host.Cell)).foldl
    (fun m c => memWriteBytes m c.1 [c.2]) (segmentMem 0)
  { userTile fun x => { x with
      mx := { x.mx with mask := 1, slots := x.mx.slots.set 0 (BitVec.ofNat 4096 (4095 + 2 ^ 16)) }
      user := { x.user with
        calls := [frameOf (some .decodeSeg)], cpv := (capOf 0x10000 4096 7).bits, cpvTag := true }
        |>.setC (.c 2) (capOf 0x10000 4096 7) |>.setC (.c 3) (rowsOf 0x10800 128 16 128 3) |>.setS 2 0x1700
        |>.setC (.c 4) noCap } with
    mem := mem }

/-- Every routine of several operands at its last row, both forms of `scan.affine` and `quant.row`, and a segment that
decodes: the reads and writes of each answer one after the other (`okWith`: what `of_okWith` says). -/
theorem witness_Row_routines_of_several_operands :
    let at_ (r : Routine) : State := atLast r 0 0 128
    let row (n : BitVec 5) (i : Nat) (s : State) := M.readRow (cap s n) i 0 128 s
    let put (n : BitVec 5) (i : Nat) (bs : List Byte) (s : State) : Bool := runs (M.writeRow (cap s n) i 0 bs s)
    (∀ r ∈ [Routine.tileTranspose, .tileGather, .tileScatter, .tileLdscale, .scanAffine, .normRms, .normLayer, .ssmChunk,
        .quantRow, .topkRow], ∀ n ∈ [(2 : BitVec 5), 3, 4], standsAtLast (at_ r) r n) ∧
    okWith (((List.range 2).mapM fun j => M.readRow (cap (at_ .tileTranspose) 3) j 4 4) (at_ .tileTranspose))
      (fun ps s1 => put 2 1 ps.flatten s1) = true ∧
    okWith (M.readWord (cap (at_ .tileGather) 4) 1 (at_ .tileGather)) (fun k s1 =>
      okWith (M.readRow (cap s1 3) k.toNat 0 128 s1) fun bs s2 => put 2 1 bs s2) = true ∧
    okWith (M.readWord (cap (at_ .tileScatter) 4) 1 (at_ .tileScatter)) (fun k s1 =>
      okWith (row 3 1 s1) fun bs s2 => put 2 k.toNat bs s2) = true ∧
    (let s := atLast .tileLdscale 0 0 4
     standsAtLast s .tileLdscale 3 ∧ storable s (s.str.getC .cpv) (s.str.getS 2 - 4080) 32 = true ∧
       okWith (M.readRow (cap s 3) 1 0 4 (s.writePart none 0x10F10 0x10F10 (List.replicate 32 0))) (fun code s1 =>
         okWith (M.readAt (cap s 4) 1 1 s1) fun rs s2 => okWith (M.readAt (cap s 5) 0 1 s2) fun cs s3 =>
           let r := expanded .rne (expandElem 0 (natOfBytes code) (natOfBytes rs) (natOfBytes cs))
           storable (raised s3 r.2) (cap s 2) 128 4) = true) ∧
    okWith (row 3 1 (at_ .scanAffine)) (fun as s1 => okWith (row 4 1 s1) fun bs s2 =>
      let y (u : Bool) (k : BitVec 32) := affineRow .rne u k (List.zipWith List.zip (rowChunks (words32 as)) (rowChunks (words32 bs)))
      (cap s2 5).tag && put 2 1 (bytes32 (values (y false 0))) s2 &&
        okWith (M.readWord (cap s2 5) 1 s2) fun k s3 => put 2 1 (bytes32 (values (y true k))) s3) = true ∧
    ((cap ((at_ .scanAffine).setStr ((at_ .scanAffine).str.setC (.c 5) noCap)) 5) = noCap) ∧
    okWith (row 3 1 (at_ .normRms)) (fun as s1 => okWith (row 4 0 s1) fun bs s2 =>
      put 2 1 (bytes32 (List.zipWith (fun _ g => g) (words32 as) (words32 bs))) s2) = true ∧
    okWith (row 3 1 (at_ .normLayer)) (fun _ s1 => okWith (row 4 0 s1) fun _ s2 => okWith (row 4 1 s2) fun ds s3 =>
      put 2 1 (bytes32 (words32 ds)) s3) = true ∧
    okWith (row 2 0 (at_ .ssmChunk)) (fun _ s1 => okWith (row 3 1 s1) fun _ s2 => okWith (row 4 1 s2) fun bs s3 =>
      okWith (M.writeRow (cap s3 2) 1 0 bs s3) fun _ s4 => put 5 0 bs s4) = true ∧
    okWith (row 4 1 (at_ .quantRow)) (fun as s1 =>
      let q := quantRow 0 .rne false (words32 as)
      okWith (M.writeRow (cap s1 2) 1 0 (toBytes 128 (BitVec.ofNat 1024 (packCodes 0 q.2.1))) s1) fun _ s2 =>
        runs (M.writeAt (cap s2 3) 1 [BitVec.ofNat 8 q.1] s2)) = true ∧
    okWith (row 4 1 (at_ .topkRow)) (fun as s1 =>
      let top := topRanks 4 (words32 as)
      okWith (M.writeRow (cap s1 2) 1 0 (bytes32 (top.map (·.1))) s1) fun _ s2 =>
        put 3 1 (bytes32 (top.map fun v => BitVec.ofNat 32 v.2)) s2) = true ∧
    (let s := segmentRoutine
     let dec := streamCoder (cap s 2)
     s.str.calls = [frameOf (some .decodeSeg)] ∧ (s.str.getS 9).toNat ≤ 7 ∧ (cap s 3).fields.rows = 16 ∧
       (cap s 3).fields.rowbytes = 128 ∧ storable s (s.str.getC .cpv) (s.str.getS 2 - 4096) 16 = true ∧
     okWith (dec.header (s.writePart none 0x10700 0x10700 (List.replicate 16 0))) (fun h s2 =>
       decide (0 < (codedHeader h).trows * (codedHeader h).tcols) && (codedHeader h).fmt == 3 &&
       okWith (dec.entry h 0 s2) fun e s3 =>
         okWith (dec.segment s.here.mx.slots s.here.mx.mask 3 e 0 (segmentAt h e 0) s3) fun sym s4 =>
           runs (((List.range 16).forM fun r => M.writeRow (cap s 3) r 0 (segmentRow 3 sym r)) s4)) = true) := by
  unfold standsAtLast
  and_intros <;> decide +kernel


/-- The node with the given fields. -/
def nodeState (n : Node) (f : Tile → Tile) (g : State → State) : State :=
  g { userTile f with nodes := [n] }

/-- A register written in each way; a held context with a dispatched node staged; a held context whose last node on tile 0 is over. -/
theorem witness_Well_house_registers_act :
    let staged : Shadow := stageOf (State.reset.ctx 0) { pairNode with state := .dispatched } 0 0
    let s := nodeState { pairNode with state := .dispatched, wait := 5 } (fun x => { x with shadow := some staged }) id
    let p := (userTile fun x => { x with lastCtx := some 0 }).setCtx 0 { State.reset.ctx 0 with hold := true }
    ((0 : Word).getLsbD 0 = false ∧ (1 : Word).getLsbD 0 = true ∧ s.gsperiod = 0 ∧ (1 : BitVec 6) ≠ 0 ∧
      (∃ n ∈ s.nodes, n.ctx = 0 ∧ n.state = .dispatched) ∧ (s.tile 0).shadow = some staged ∧ staged.serial = 1) ∧
      p.ctxHeld 0 = true ∧ (p.tile 0).lastCtx = some 0 ∧ (p.tile 0).node = none ∧ (p.tile 0).shadow = none ∧
      (p.tile 0).loadQ = [] ∧ (p.tile 0).storeQ = [] ∧ (p.tile 0).mx.queue = [] ∧ (p.tile 0).sigQ = [] ∧
      (0 : TileId) ∉ (p.ctx 0).quiet ∧ (p.tile 0).frozen = false := by
  and_intros <;> decide +kernel

/-- A context with the root of the page tables, a group of tiles 0 and 1, a code section in the page, and the record at
0x10400 submitted: the magic word, with the entry in the code. -/
def submitted (record : List Host.Cell) (f : State → State) : State :=
  let s := f { userTile id with
    mem := record.foldl (fun m c => memWriteBytes m c.1 [c.2]) tables
    groups := State.reset.groups.set 0 { valid := true, err := false, ctx := 0, ghm1 := 0, gwm1 := 1, mem := (Vector.replicate 256 0).set 1 1 } }
  s.setCtx 0 { s.ctx 0 with root := 0x9000000000000001, subQ := [0x10400], objects := [nativeCode] }

/-- The first words of a node record. -/
def goodRecord : List Host.Cell :=
  [(0x10400, 0x01), (0x10401, 0x44), (0x10402, 0x4F), (0x10403, 0x4E), (0x1040A, 0x01)]

theorem witness_Nodes_are_admitted_dispatched_and_completed :
    (∀ record ∈ [goodRecord, []], let s := submitted record id
     (s.ctx 0).subQ = [0x10400] ∧ (s.nodes.filter (·.state == .admitted)).length < 4096 ∧ s.recordFrozen 0 0x10400 = false) ∧
    (let s := submitted goodRecord id
     ∃ r s1, (s.setCtx 0 { s.ctx 0 with subQ := [] }).readRecord 0 0x10400 = .ok (r, s1) ∧
        s1.recordCheck 0 r = none) ∧
    (let s := submitted [] id
     ∃ r s1 e, (s.setCtx 0 { s.ctx 0 with subQ := [] }).readRecord 0 0x10400 = .ok (r, s1) ∧
        s1.recordCheck 0 r = some e ∧ e ≠ Cause.poisonedRead) ∧
    (let n := { pairNode with state := .admitted, tiles := [] }
     let s := submitted [] fun s => { s with nodes := [n], tiles := s.tiles.set 1 { Tile.reset with rbusy := false } }
     (s.node? n.serial = some n ∧ n.next = 0 ∧ s.dispatchable n = true) ∧
      ∃ g, s.groupFor n.ctx (n.flags.extractLsb' 32 8) = some g ∧ g.members.Nodup) ∧
    (let n := { pairNode with state := .dispatched }
     let sh := stageOf (State.reset.ctx 0) n 0 0
     let s := nodeState n (fun x => { x with shadow := some sh, user := { x.user with state := .loaded } }) id
     (s.tile 0).shadow = some sh ∧ s.node? sh.serial = some n ∧ (s.tile 0).rbusy = false ∧ (s.tile 0).frozen = false ∧
      s.recordHeld 0 = false ∧ sh.ctxroot.extractLsb' 60 4 = (0 : BitVec 4) ∧ (s.tile 0).user.state = .loaded ∧ n.flags.getLsbD 42 = false ∧ (s.tile 0).loadQ = [] ∧ (s.tile 0).storeQ = [] ∧
      (s.tile 0).mx.queue = [] ∧ (s.tile 0).sigQ = [] ∧ (s.tile 0).lastCtx = none ∧ n.hs = false) ∧
    (let n := { pairNode with state := .draining, va := 0x10400 }
     let s := submitted [] fun s => { s with nodes := [n] }
     (s.node? n.serial = some n ∧ n.state = .draining ∧ s.recordFrozen n.ctx n.va = false ∧ (s.ctx n.ctx).patched = [] ∧
      ∀ j ∈ n.tiles, (s.tile j).node ≠ some n.serial ∨
        ((s.tile j).loadQ = [] ∧ (s.tile j).storeQ = [] ∧ (s.tile j).mx.queue = [])) ∧
      ∃ pa s1, s.agentParts (s.ctx n.ctx).root (n.va + 256) 16 .store = .ok ([(pa, 16)], s1) ∧
        (regionOf pa = .hbm ∨ inCistern pa = true) ∧ s1.poisonedLine pa 16 = none) := by
  refine ⟨by decide +kernel, ?_, ?_, ⟨by decide +kernel, ?_⟩, by decide +kernel, by decide +kernel, ?_⟩
  · obtain ⟨⟨r, s1⟩, h, q⟩ := of_okThen
      (r := ((submitted goodRecord id).setCtx 0 { (submitted goodRecord id).ctx 0 with subQ := [] }).readRecord 0 0x10400)
      (p := fun a => a.2.recordCheck 0 a.1 == none) (by decide +kernel)
    exact ⟨r, s1, h, eq_of_beq q⟩
  · obtain ⟨⟨r, s1⟩, h, q⟩ := of_okThen
      (r := ((submitted [] id).setCtx 0 { (submitted [] id).ctx 0 with subQ := [] }).readRecord 0 0x10400)
      (p := fun a => a.2.recordCheck 0 a.1 == some Cause.nodeRecordInvalid) (by decide +kernel)
    exact ⟨r, s1, _, h, eq_of_beq q, by decide⟩
  · exact ⟨_, rfl, by decide +kernel⟩
  · obtain ⟨⟨ps, s1⟩, h, q⟩ := of_okThen
      (r := (submitted [] fun s => { s with nodes := [{ pairNode with state := .draining, va := 0x10400 }] }).agentParts
        0x9000000000000001 (0x10400 + 256) 16 .store)
      (p := fun a => a.1 == [(0x10500, 16)] && a.2.poisonedLine 0x10500 16 == none) (by decide +kernel)
    obtain ⟨h1, h2⟩ := Bool.and_eq_true_iff.mp q
    obtain rfl := eq_of_beq h1
    exact ⟨0x10500, s1, h, .inl (by decide), eq_of_beq h2⟩

/-- A stream at a call time, one at its diversion point, one at its hard stop. -/
theorem witness_Deadlines_divert_and_stop :
    let n := { pairNode with clear := 0x10100, vcap := (capOf 0x10000 4096 7).bits }
    let s := nodeState n (fun x => { x with node := some 1, dlcall := 0, dlhard := 0 }) id
    let d := nodeState n (fun x => { x with node := some 1, callTime := some 1 }) id
    (s.node? n.serial = some n ∧ (0 : TileId) ∈ n.tiles ∧ (s.tile 0).node = some n.serial ∧ n.state = .running ∧
      n.clear ≠ 0 ∧ (s.tile 0).user.state = .running ∧ (s.tile 0).callTime = none ∧ (s.tile 0).user.diverted = false ∧
      (s.tile 0).dlcall ≠ BitVec.allOnes 64 ∧ (s.tile 0).dlcall.toNat ≤ s.dtime.toNat) ∧
      (∃ c, d.diversionPoint 0 = some c) ∧ (d.tile 0).node = some n.serial ∧ d.node? n.serial = some n ∧
      n.hs = false ∧ (s.tile 0).dlhard ≠ BitVec.allOnes 64 ∧ (s.tile 0).dlhard.toNat ≤ s.dtime.toNat :=
  ⟨by decide +kernel, ⟨_, rfl⟩, by decide +kernel⟩

/-- A halted pump of a running stream, on a tile with a fault and without; a stream trapped by a fault; a ring with no held
record and with one. -/
theorem witness_Faults_are_passed_on_resumed_and_abandoned :
    let s := userTile fun x => x.setPump 0 { x.pump 0 with halt := some ⟨false, 0x40, false, 0⟩ }
    let f := userTile fun x => { x.setPump 0 { x.pump 0 with halt := some ⟨false, 0x40, false, 0⟩ } with fault := some someFault }
    let h := nodeState pairNode (fun x => { x with
      node := some 1, tcause := 0x40, tsave := 0x20000, fault := some someFault, user := { x.user with state := .trapped } }) id
    let r (p : List (Nat × Nat × List Byte)) : State :=
      { h with rings := { h.rings with cfPend := p }, timing := { h.timing with now := 1 } }
    let p := { someFault with pending := true }
    let word : Word := ofBytes 64 (h.readBytes ((h.tile 0).tsave.toNat + 0x210) 8)
    (0 ∈ p.counted ∧ 1 ∉ p.counted ∧ p.pending = true ∧ ¬ (1 : BitVec 4) < p.src) ∧
      h.native? 0 word = none ∧ h.functionAt 0 word = none ∧
      (∃ o ∈ ((h.setCtx 0 { h.ctx 0 with objects := [nativeCode] }).ctx 0).objects,
        inExtent o.code (h.tile 0).user.pc = true) ∧
      ((r [(0, 0, [])]).tiles.toList.all fun x => x.fault.all fun f => !f.pending) = true ∧
      (s.tile 0).engineFault 1 = some (0x40, 0) ∧ (s.tile 0).fault = none ∧ (s.tile 0).user.state = .running ∧
      (f.tile 0).engineFault 1 = some (0x40, 0) ∧ (f.tile 0).fault = some someFault ∧
      (h.tile 0).user.state = .trapped ∧ isFault ((h.tile 0).tcause.setWidth 8) = true ∧ h.recordHeld 0 = false ∧
      (h.tile 0).fault = some someFault ∧ someFault.res = true ∧ (h.tile 0).frozen = false ∧ (h.tile 0).user.rejoin = none ∧
      (s.tile 0).frozen = false ∧ (f.tile 0).frozen = false ∧
      h.poisonedLine (h.tile 0).tsave.toNat 0x3000 = none ∧ (h.tile 0).user.ctxcfg.getLsbD 2 = false ∧
      (h.tile 0).node = some pairNode.serial ∧ h.node? pairNode.serial = some pairNode ∧ (0 : TileId) ∈ pairNode.tiles ∧
      (r []).rings.cfPend = [] ∧ (r [(0, 0, [])]).rings.cfPend = [(0, 0, [])] ∧ 0 < (r [(0, 0, [])]).timing.now ∧
      ((r [(0, 0, [])]).rings.cfhead.toNat + 1) % 2 ^ ((r [(0, 0, [])]).rings.cfsize.toNat + 4) ≠ 0 := by decide +kernel


/-- A tile out of reset with nothing on it, tile 0 in reset, and a tile that holds a node. -/
theorem witness_Tile_resets_and_detected_errors :
    let s := userTile id
    let r := State.reset
    Memory.wf s.mem = true ∧ (s.tile 0).rst = false ∧ s.boot.stage ≠ 0xF ∧ (s.tile 0).shadow = none ∧ (s.tile 0).node = none ∧
      (s.tile 0).loadQ = [] ∧ (s.tile 0).storeQ = [] ∧ (s.tile 0).mx.queue = [] ∧
      (r.tile 0).rst = true ∧ (r.tile 0).rbusy = true ∧ ((pairState id).tile 0).node = some 1 := by decide +kernel

/-- Port 0 with the given registers, of a chip that has booted. -/
def portState (mem : List Host.Cell) (e : EthPort) : State :=
  ({ State.reset with mem := mem, boot := { State.reset.boot with stage := 4 } } : State).setPort 0 e

/-- A port that runs both rings in every mode, with rings at 0x1000 and 0x2000, each of 16 descriptors. -/
def ringing (tx rx : Word) : EthPort :=
  ⟨7, true, false, 0x8000000000000000, 0x1000, 0, 0, tx, 0x2000, 0, 0, rx⟩

/-- A transmit descriptor of 60 bytes at 0x3000, a receive descriptor of 60 bytes at 0x4000. -/
def rings : List Host.Cell := [(0x1001, 0x30), (0x1008, 60), (0x2001, 0x40), (0x2008, 60)]

/-- A frame. -/
def someFrame : Frame := ⟨0, List.replicate 60 1, true, none⟩

/-- An image with a wrong IDENT. -/
def someImage : Image := ⟨0, 0, 0, 0, Vector.replicate 32 0, [], [], [], 0, 0⟩

/-- A better master and a worse one. -/
def master (p : BitVec 8) : PtpMaster := ⟨p, 0, 0, 0, 0, 0, 0, p.setWidth 80⟩

/-- A chip whose boot unit fetches, checks, starts an image, waits, has a report to write; a clock with no master, and two of
which one is better; tile 0 idle out of reset. -/
theorem witness_Boot_time_and_power_events :
    let b (f : Boot → Boot) : State := { userTile id with boot := f { State.reset.boot with stage := 1 } }
    (b id).boot.stage = 1 ∧ (b id).boot.retryAt = none ∧ Memory.wf (b id).mem = true ∧
      (b fun x => { x with retryAt := some 5 }).boot.retryAt = some 5 ∧
      (let c := b fun x => { x with stage := 2, image := some someImage }
       c.boot.stage = 2 ∧ c.boot.image = some someImage ∧ someImage.ident ≠ 0x46494D01) ∧
      (let c := b fun x => { x with stage := 3, image := some someImage }
       c.boot.stage = 3 ∧ c.boot.image = some someImage) ∧
      (b id).timing.masters = [] ∧
      (masterRank (0, master 1)).toNat < (masterRank (1, master 2)).toNat ∧
      (∀ e ∈ [(0, master 1), (1, master 2)], e ≠ (0, master 1) → (masterRank (0, master 1)).toNat < (masterRank e).toNat) ∧
      (b fun x => { x with attreq := some 0x1000 }).boot.attreq = some 0x1000 ∧ (0x1000 : Word).toNat < 0xC000000000 ∧
      ((b id).tile 0).rbusy = false ∧ ((b id).tile 0).node = none ∧ ((b id).tile 0).shadow = none ∧
      ((b id).tile 0).loadQ = [] ∧ ((b id).tile 0).storeQ = [] ∧ ((b id).tile 0).mx.queue = [] ∧
      ((b id).tile 0).sigQ = [] := by decide +kernel

theorem witness_Ethernet_ports_move_frames :
    let s := portState rings (ringing 1 1)
    let z := portState rings (ringing 0 0)
    let e := s.port 0
    let num (at_ n : Nat) : Nat := natOfBytes (s.readBytes at_ n)
    s.boot.stage = 4 ∧ ((5 - e.txhead).toNat % 16 ≠ 0) ∧ e.ctl.getLsbD 0 = true ∧ e.ctl.getLsbD 1 = true ∧
      e.ctl.getLsbD 2 = true ∧ (e.txtail - e.txhead).toNat % 16 ≠ 0 ∧ num 0x1000 8 = 0x3000 ∧ num 0x1008 2 = 60 ∧
      s.poisonedLine 0x1000 16 = none ∧ s.poisonedLine 0x2000 16 = none ∧ someFrame.ptp = none ∧
      someFrame.bytes.length ≤ 9216 ∧
      s.poisonedLine 0x3000 60 = none ∧ e.mac.getLsbD 63 = true ∧ ((z.port 0).rxtail - (z.port 0).rxhead).toNat % 16 = 0 ∧
      (e.rxtail - e.rxhead).toNat % 16 ≠ 0 ∧ num 0x2000 8 = 0x4000 ∧ num 0x2008 2 = 60 := by decide +kernel

/-- A flit of zeros, whose sequence number is 0. -/
def zeroFlit : List Byte := List.replicate 256 0

theorem crc_of_zeros (n : Nat) : crc64 (List.replicate n 0) = 0 := by
  unfold crc64
  induction n with
  | zero => rfl
  | succ n ih =>
    have h : (msbFirst 0).foldl (crcStep 0x42F0E1EBA9EA3693) (0 : Word) = 0 := by decide
    simp only [List.replicate_succ, List.flatMap_cons, List.foldl_append, h]
    exact ih

/-- Link 0, up, with the given flits not yet acknowledged. -/
def linkState (retry : List (BitVec 16 × List Byte)) : State :=
  State.reset.setLink 0 { Link.reset with up := true, retry := retry }

/-- A good flit in order that acknowledges the one flit kept, a bad flit, a kept flit named and one not kept. -/
theorem witness_Links_take_and_resend_flits :
    let s := linkState [(0, zeroFlit), (1, zeroFlit)]
    let l := s.link 0
    (l.up = true ∧ ofBytes 16 (zeroFlit.take 2) = l.expect ∧ (zeroFlit.getD 4 0).getLsbD 0 = false ∧ l.stream = [] ∧
      l.retry.length < 128 ∧
      l.retry.head?.map (·.1) = some (ofBytes 16 ((zeroFlit.drop 2).take 2)) ∧ ([] : List Byte).length ≠ 256 ∧
      l.nacks < 7 ∧ l.retry.findIdx? (fun f => f.1 == 1) = some 1 ∧ l.backs < 7 ∧
      l.retry.findIdx? (fun f => f.1 == 2) = none) ∧
    zeroFlit.length = 256 ∧ zeroFlit.drop 248 = toBytes 8 (crc64 (zeroFlit.take 248)) := by
  refine ⟨by decide +kernel, List.length_replicate, ?_⟩
  rw [show zeroFlit.take 248 = List.replicate 248 0 from List.take_replicate, crc_of_zeros]
  decide +kernel

/-- A code object of one code section of one word. -/
def smallObject : List Byte :=
  toBytes 8 (0x00010000_4A434F01 : Word) ++ toBytes 12 (32 : BitVec 96) ++ toBytes 12 (1 : BitVec 96) ++
    toBytes 8 (1 : Word) ++ toBytes 8 (64 : Word) ++ toBytes 16 (8 : BitVec 128) ++ toBytes 8 (0 : Word)

theorem witness_Outside_accesses_and_loading :
    (let s := State.reset
     let w := { State.reset with pciwin := 12 }
     devRegOf (0x18000000000 + 0x70000) 8 = some .pciwin ∧ devRegOf (0x18000000000 + 0x70000) 4 = none ∧
      s.pciwin.toNat < 12 ∧ s.poisonedLine (s.pciwin.toNat * 2 ^ 36 + 0x1000) 8 = none ∧ 12 ≤ w.pciwin.toNat ∧
      room 0x1000 ≥ Width.w64.bytes ∧ s.poisonedLine 0x1000 8 = none ∧ 0x1000 % Width.w64.bytes = 0 ∧
      0x1001 % Width.w64.bytes ≠ 0 ∧
      (let c : HostCore := { s.core 0 with running := true }
       c.running = true ∧ c.translates = false ∧ (s.core 0).running = false ∧
       { c with reserved := some (0x1000, 8) }.reserved = some (0x1000, Width.w64.bytes) ∧
       c.reserved ≠ some (0x1000, Width.w64.bytes))) ∧
      judge 0 [] = .error 1 ∧ ∃ o, judge 0 smallObject = .ok o :=
  ⟨by decide +kernel, rfl, of_isOk (by decide +kernel)⟩


/-- The word of `add s5, s6, s7`, written out from the register format: class 0b00, OPC 0x00, p0, D 5, A 6, B 7, W 3. -/
def addWord : Word := regWord 0 0x00 0 0 5 6 7 0 0 3 0 0 0 0 0 0 0

/-- The same with predicate p1. -/
def skippedWord : Word := regWord 0 0x00 1 0 5 6 7 0 0 3 0 0 0 0 0 0 0

/-- An instruction of each side of the round trip, a Juden form and a native-only operation. -/
theorem witness_Encoded_instructions_decode_to_themselves :
    (Instr.add ⟨0, false⟩ .w64 5 6 7).wf = true ∧ encode (.add ⟨0, false⟩ .w64 5 6 7) = some addWord ∧
      (opOf addWord).toNat < 0x3F0 ∧ (Instr.nxStub ⟨0, false⟩ 4).wf = true ∧
      encode (.nxStub ⟨0, false⟩ 4) = some (immWord 3 0xF0 0 0 0 0 4) ∧
      0x3F0 ≤ (opOf (immWord 3 0xF0 0 0 0 0 4)).toNat := by decide +kernel

theorem witness_Decoded_words_are_the_one_encoding : decode addWord = .ok (.add ⟨0, false⟩ .w64 5 6 7) := rfl

/-- An unassigned word. -/
def hole : Word := regWord 0 0x1D 0 0 0 0 0 0 0 0 0 0 0 0 0 0 0

/-- An outcome is a next state with a property. -/
def nextWith (r : Host.Outcome State Fault Refusal) (p : State → Bool) : Bool :=
  match r with
  | .next t => p t
  | _ => false

theorem of_nextWith {r : Host.Outcome State Fault Refusal} {p : State → Bool} (h : nextWith r p = true) :
    ∃ t, r = .next t ∧ p t = true := by
  cases r with
  | next t => exact ⟨t, rfl, h⟩
  | fault f => exact absurd h Bool.false_ne_true
  | refused f => exact absurd h Bool.false_ne_true

/-- A user stream at a word of a code section of the page. -/
def fetching (w : Word) : State :=
  { holder.setCtx 0 { holder.ctx 0 with objects := [{ nativeCode with made := [] }] } with mem := memWriteBytes [] 0x10000 (toBytes 8 w) }

/-- A stream outside native code and every routine is ready where the directory names no bundle. -/
theorem ready_of {s : State}
    (h : (s.here.rbusy = false ∧ s.here.frozen = false ∧ s.here.gated = false) ∧ s.here.fault = none ∧
      (s.str.state = .running ∧ s.str.native = none) ∧ s.str.calls = [] ∧
      (s.str.rejoin = none ∧ s.nativeFor s.cur.tile s.str.pc = none)) : readyToIssue s :=
  ⟨h.1.1, h.1.2.1, h.1.2.2, h.2.1, h.2.2.1.1, h.2.2.1.2,
    fun f hf => absurd (h.2.2.2.1 ▸ hf) (by simp), .inr (.inr (.inl h.2.2.2.2))⟩

theorem of_isSome {α : Type} {o : Option α} (h : o.isSome = true) : ∃ a, o = some a := Option.isSome_iff_exists.mp h

/-- With nothing due, the stream at a word is ready and fetches it. -/
def runsHere (w : Word) : Prop :=
  ((fetching w).due = none ∧ (fetching w).agenda = []) ∧ readyToIssue (fetching w) ∧ ∃ s1, fetches (fetching w) w s1

theorem addWord_runsHere : runsHere addWord :=
  ⟨by decide +kernel, ready_of (by decide +kernel), _, by decide +kernel, by decide +kernel, _, _,
    ⟨false, rfl, by decide +kernel⟩, by decide +kernel, by decide +kernel, rfl⟩

theorem hole_runsHere : runsHere hole :=
  ⟨by decide +kernel, ready_of (by decide +kernel), _, by decide +kernel, by decide +kernel, _, _,
    ⟨false, rfl, by decide +kernel⟩, by decide +kernel, by decide +kernel, rfl⟩

/-- A due deadline; each kind of turn with none due; a stream that fetches a word that decodes and one that does not; a stream
inside a native routine. -/
theorem witness_Step_runs_the_decoded_instruction :
    let d := nodeState { pairNode with clear := 0x10100 } (fun x => { x with node := some 1, callTime := some 1 }) id
    let a (x : Turn) : State := { holder with agenda := [x] }
    let r := inRoutine .tileCopy id
    (∃ e, d.due = some e) ∧
      (holder.due = none ∧ holder.agenda = [] ∧ (a (.insn 0 .user)).due = none ∧ (a (.event .holdover)).due = none ∧
        isEvent .holdover = true ∧ (a (.time 5)).due = none) ∧
      (∀ w ∈ [addWord, hole], runsHere w) ∧
      (∃ i, decode addWord = .ok i) ∧ (∃ e, decode hole = .error e) ∧
      (r.here.rbusy = false ∧ r.here.frozen = false ∧ r.here.gated = false ∧ r.here.fault = none ∧
        r.str.state = .running ∧ r.str.native = none ∧ r.str.calls.head? = some (frameOf (some .tileCopy)) ∧
        (frameOf (some .tileCopy)).native = some .tileCopy) := by
  refine ⟨of_isSome (by decide +kernel), by decide +kernel, ?_, ⟨_, rfl⟩, ⟨_, rfl⟩, by decide +kernel⟩
  intro w hw
  rcases List.mem_cons.mp hw with rfl | hw
  · exact addWord_runsHere
  · obtain rfl := List.mem_singleton.mp hw
    exact hole_runsHere

theorem witness_Unexecuted_instructions_only_advance :
    decode skippedWord = .ok (.add ⟨1, false⟩ .w64 5 6 7) ∧
      (holder.str.getP (skippedWord.extractLsb' 50 4) ^^ skippedWord.getLsbD 49) = false ∧
      (∃ e, decode hole = .error e) ∧ runsHere hole :=
  ⟨rfl, by decide +kernel, ⟨_, rfl⟩, hole_runsHere⟩

theorem witness_Memory_stays_canonical : Memory.wf (fetching addWord).mem = true ∧ ∃ t, step (fetching addWord) = .next t := by
  obtain ⟨t, h, -⟩ := of_nextWith (r := step (fetching addWord)) (p := fun _ => true) (by decide +kernel)
  exact ⟨by decide +kernel, t, h⟩

theorem witness_Register_forms_change_one_register :
    decode addWord = .ok (.add ⟨0, false⟩ .w64 5 6 7) ∧ (opOf addWord).toNat < 0xA0 ∧
      ∃ t, exec (.add ⟨0, false⟩ .w64 5 6 7) holder = .next t ∧ t.str.state = .running := by
  obtain ⟨t, h, q⟩ := of_nextWith (r := exec (.add ⟨0, false⟩ .w64 5 6 7) holder)
    (p := fun t => t.str.state == .running) (by decide +kernel)
  exact ⟨rfl, by decide +kernel, t, h, eq_of_beq q⟩

/-- A stream of a node, with a tagged capability. -/
theorem witness_User_instructions_make_no_authority :
    let s := pairState fun x => x.setC (.c 2) (capOf 0x10000 4096 7)
    decode addWord = .ok (.add ⟨0, false⟩ .w64 5 6 7) ∧ s.cur.side = .user ∧ s.str.native = none ∧ s.here.node ≠ none ∧
      (∃ t, exec (.add ⟨0, false⟩ .w64 5 6 7) s = .next t) ∧ (s.str.getC (.c 2)).tag = true := by
  obtain ⟨t, h, -⟩ := of_nextWith
    (r := exec (.add ⟨0, false⟩ .w64 5 6 7) (pairState fun x => x.setC (.c 2) (capOf 0x10000 4096 7)))
    (p := fun _ => true) (by decide +kernel)
  exact ⟨rfl, by decide +kernel, by decide +kernel, by decide +kernel, ⟨t, h⟩, by decide +kernel⟩


/-! ### Ill-formed terms -/

/-- A term for each check of WellFormed that the check refuses: the predicate `(!p0)`, a scalar form of width 16, a vector form
of width 64, an unassigned control register, a stub index of 2^24, a native vector register 16, a home slot 32. -/
theorem test_ill_formed :
    (Instr.nop ⟨0, true⟩).wf = false ∧ (Instr.add on .w16 1 2 3).wf = false ∧ (Instr.vabs on .w64 1 2).wf = false ∧
      (Instr.rdc on 1 9).wf = false ∧ (Instr.wrc on 15 1).wf = false ∧ (Instr.nxStub on 0x1000000).wf = false ∧
      (Instr.nxSpill on 16 0).wf = false ∧ (Instr.nxSpill on 0 32).wf = false ∧ (Instr.nxFill on 31 0).wf = false ∧
      (Instr.nxVfn on .exp 0 16).wf = false := by decide +kernel

/-- Their neighbours on the other side of each bound are well formed. -/
theorem test_well_formed :
    (Instr.nop ⟨1, true⟩).wf = true ∧ (Instr.add on .w32 1 2 3).wf = true ∧ (Instr.vabs on .w32 1 2).wf = true ∧
      (Instr.rdc on 1 8).wf = true ∧ (Instr.wrc on 16 1).wf = true ∧ (Instr.nxStub on 0xFFFFFF).wf = true ∧
      (Instr.nxSpill on 15 31).wf = true ∧ (Instr.nxVfn on .exp 15 15).wf = true := by decide +kernel

/-! ### Words -/


/-- The word is a Juden instruction: this one. -/
def decodesTo (w : Word) (i : Instr) : Bool :=
  match decode w with
  | .ok j => decide (j = i)
  | .error _ => false

/-- The word is a native-only operation: this one. -/
def slotDecodesTo (w : Word) (i : Instr) : Bool :=
  match decode w, decodeSlot w with
  | .error _, .ok j => decide (j = i)
  | _, _ => false

/-- Words of every form of R145: scalar integer forms, field by field, decode to it. -/
theorem test_words_scalar_integer :
    let g : Pred := ⟨3, true⟩
    decodesTo 0x000F6ECD80800000 (.add g .w32 45 54 27) ∧
    decodesTo 0x004F6ECD80C00000 (.sub g .w64 45 54 27) ∧
    decodesTo 0x008F6ECD80800000 (.mul g .w32 45 54 27) ∧
    decodesTo 0x00CF6ECD80C00000 (.mulh g .w64 45 54 27) ∧
    decodesTo 0x010F6ECD80800000 (.mulhu g .w32 45 54 27) ∧
    decodesTo 0x014F6ECD80C00000 (.div g .w64 45 54 27) ∧
    decodesTo 0x018F6ECD80800000 (.divu g .w32 45 54 27) ∧
    decodesTo 0x01CF6ECD80C00000 (.rem g .w64 45 54 27) ∧
    decodesTo 0x020F6ECD80800000 (.remu g .w32 45 54 27) ∧
    decodesTo 0x024F6ECD80C00000 (.and g .w64 45 54 27) ∧
    decodesTo 0x028F6ECD80800000 (.or g .w32 45 54 27) ∧
    decodesTo 0x02CF6ECD80C00000 (.xor g .w64 45 54 27) ∧
    decodesTo 0x030F6ECD80800000 (.sll g .w32 45 54 27) ∧
    decodesTo 0x034F6ECD80C00000 (.srl g .w64 45 54 27) ∧
    decodesTo 0x038F6ECD80800000 (.sra g .w32 45 54 27) ∧
    decodesTo 0x03CF6ECD80C00000 (.min g .w64 45 54 27) ∧
    decodesTo 0x040F6ECD80800000 (.max g .w32 45 54 27) ∧
    decodesTo 0x044F6ECD80C00000 (.minu g .w64 45 54 27) ∧
    decodesTo 0x048F6ECD80800000 (.maxu g .w32 45 54 27) ∧
    decodesTo 0x04CF6EC000800000 (.clz g .w32 45 54) ∧
    decodesTo 0x050F6EC000800000 (.ctz g .w32 45 54) ∧
    decodesTo 0x054F6EC000800000 (.popc g .w32 45 54) ∧
    decodesTo 0x058F6EC000800000 (.brev g .w32 45 54) ∧
    decodesTo 0x05CF6EC000800000 (.bswap g .w32 45 54) ∧
    decodesTo 0x060F6ECDC8C00000 (.bfx g .w64 45 54 27 36) ∧
    decodesTo 0x064F6ECDC8C00000 (.bfxu g .w64 45 54 27 36) ∧
    decodesTo 0x068F6ECDC8C00000 (.bfi g .w64 45 54 27 36) ∧
    decodesTo 0x06CE6ECD80C00009 (.cmp g .w64 .gtu 13 54 27) ∧
    decodesTo 0x070F6ECD9A000000 (.sel g 45 54 27 13) := by decide +kernel

/-- Words of every form of R145: immediate forms, field by field, decode to it. -/
theorem test_words_scalar_immediate :
    let g : Pred := ⟨3, true⟩
    decodesTo 0x100F6EDFFFFFFFFD (.addi g 45 54 0x1ffffffffd) ∧
    decodesTo 0x104F6EDFFFFFFFFC (.andi g 45 54 0x1ffffffffc) ∧
    decodesTo 0x108F6EDFFFFFFFFB (.ori g 45 54 0x1ffffffffb) ∧
    decodesTo 0x10CF6EDFFFFFFFFA (.xori g 45 54 0x1ffffffffa) ∧
    decodesTo 0x110F6EC00000003F (.slli g 45 54 63) ∧
    decodesTo 0x114F6EC00000003E (.srli g 45 54 62) ∧
    decodesTo 0x118F6EC00000003D (.srai g 45 54 61) ∧
    decodesTo 0x11CF6EC2DFDC1C35 (.muli g 45 54 12345678901) ∧
    decodesTo 0x120F681FFFFFFFFD (.li g 45 0x1ffffffffd) ∧
    decodesTo 0x124F6EC007FFFFFF (.lhi g 45 54 134217727) := by decide +kernel

/-- Words of every form of R145: scalar floating point, field by field, decode to it. -/
theorem test_words_scalar_floating_point :
    let g : Pred := ⟨3, true⟩
    decodesTo 0x180F6ECD80080000 (.fadd g .rne 45 54 27) ∧
    decodesTo 0x184F6ECD80100000 (.fsub g .rtz 45 54 27) ∧
    decodesTo 0x188F6ECD80180000 (.fmul g .rdn 45 54 27) ∧
    decodesTo 0x18CF6ECD80200000 (.fdiv g .rup 45 54 27) ∧
    decodesTo 0x190F6EC000280000 (.fsqrt g .rna 45 54) ∧
    decodesTo 0x194F6ECDC8000000 (.fma g .dyn 45 54 27 36) ∧
    decodesTo 0x198F6ECD80000000 (.fmin g 45 54 27) ∧
    decodesTo 0x19CF6ECD80000000 (.fmax g 45 54 27) ∧
    decodesTo 0x1A0E6ECD8000000B (.fcmp g .ord 13 54 27) ∧
    decodesTo 0x1A4F6EC000141380 (.fcvt g .rtz true 9 12 45 54) ∧
    decodesTo 0x1A8F6EC000D40000 (.fcvti g .w64 .rtz true 45 54) ∧
    decodesTo 0x1ACF6EC000980000 (.icvtf g .w32 .rdn 45 54) ∧
    decodesTo 0x1B0F6EC000000000 (.fclass g 45 54) ∧
    decodesTo 0x1B4F6ECD80000002 (.fsgn g .xor 45 54 27) := by decide +kernel

/-- Words of every form of R145: predicate and capability forms, field by field, decode to it. -/
theorem test_words_predicates_and_capabilities :
    let g : Pred := ⟨3, true⟩
    decodesTo 0x200E68C480000000 (.pand g 13 6 9) ∧
    decodesTo 0x204E68C480000000 (.por g 13 6 9) ∧
    decodesTo 0x208E68C480000000 (.pxor g 13 6 9) ∧
    decodesTo 0x20CE68C480000000 (.pandn g 13 6 9) ∧
    decodesTo 0x210E6EC000000000 (.ptest g 13 54) ∧
    decodesTo 0x214F68C000000000 (.pget g 45 6) ∧
    decodesTo 0x280F03A000000000 (.cmov g .cpv (.c 29)) ∧
    decodesTo 0x284EF40DC8000000 (.cnrow g (.c 30) .cpv 27 36) ∧
    decodesTo 0x288EF3ADC8000000 (.cnbyte g (.c 30) (.c 29) 27 36) ∧
    decodesTo 0x28CEF3AD80000000 (.cnstride g (.c 30) (.c 29) 27) ∧
    decodesTo 0x290EF3A000000005 (.cnperm g (.c 30) (.c 29) 5) ∧
    decodesTo 0x294EF3A000001400 (.cfmt g (.c 30) (.c 29) 10) ∧
    decodesTo 0x298F6BA000000006 (.cget g .swz 45 (.c 29)) ∧
    decodesTo 0x29CEF00000011170 (.ctab g (.c 30) 70000) := by decide +kernel

/-- Words of every form of R146: vector integer forms, field by field, decode to it. -/
theorem test_words_vector_integer :
    let g : Pred := ⟨3, true⟩
    decodesTo 0x400EEAC580440000 (.vadd g .w16 true 29 22 (.v 11)) ∧
    decodesTo 0x404EEACD81000000 (.vsub g .w8 false 29 22 (.s 27)) ∧
    decodesTo 0x408EEAC580000000 (.vmul g .w8 29 22 (.v 11)) ∧
    decodesTo 0x40CEEACD81400000 (.vmulh g .w16 29 22 (.s 27)) ∧
    decodesTo 0x410EEAC580800000 (.vmin g .w32 29 22 (.v 11)) ∧
    decodesTo 0x414EEACD81000000 (.vmax g .w8 29 22 (.s 27)) ∧
    decodesTo 0x418EEAC580400000 (.vminu g .w16 29 22 (.v 11)) ∧
    decodesTo 0x41CEEACD81800000 (.vmaxu g .w32 29 22 (.s 27)) ∧
    decodesTo 0x420EEAC580000000 (.vand g .w8 29 22 (.v 11)) ∧
    decodesTo 0x424EEACD81400000 (.vor g .w16 29 22 (.s 27)) ∧
    decodesTo 0x428EEAC580800000 (.vxor g .w32 29 22 (.v 11)) ∧
    decodesTo 0x42CEEACD81000000 (.vsll g .w8 29 22 (.s 27)) ∧
    decodesTo 0x430EEAC580400000 (.vsrl g .w16 29 22 (.v 11)) ∧
    decodesTo 0x434EEACD81800000 (.vsra g .w32 29 22 (.s 27)) ∧
    decodesTo 0x438EEAC000800000 (.vabs g .w32 29 22) ∧
    decodesTo 0x43CEEAC580800006 (.vcmp g .w32 .ltu 29 22 (.v 11)) ∧
    decodesTo 0x440EEACDA9400000 (.vsel g .w16 29 22 (.s 27) 20) := by decide +kernel

/-- Words of every form of R146: vector floating point, field by field, decode to it. -/
theorem test_words_vector_floating_point :
    let g : Pred := ⟨3, true⟩
    decodesTo 0x480EEAC580880000 (.vfadd g .rne 29 22 (.v 11)) ∧
    decodesTo 0x484EEAC580900000 (.vfsub g .rtz 29 22 (.v 11)) ∧
    decodesTo 0x488EEAC580980000 (.vfmul g .rdn 29 22 (.v 11)) ∧
    decodesTo 0x490EEAC580A00000 (.vfdiv g .rup 29 22 (.v 11)) ∧
    decodesTo 0x48CE20A48D880000 (.vfma ⟨3, true⟩ .rne 4 5 (.s 9) 6) ∧
    decodesTo 0x494EEAC000A80000 (.vfsqrt g .rna 29 22) ∧
    decodesTo 0x498EEACD81800000 (.vfmin g 29 22 (.s 27)) ∧
    decodesTo 0x49CEEAC580800000 (.vfmax g 29 22 (.v 11)) ∧
    decodesTo 0x4A0EEAC58080000A (.vfcmp g .un 29 22 (.v 11)) ∧
    decodesTo 0x4A4EEAC0002407E0 (.vcvt g .rup true 3 15 29 22) ∧
    decodesTo 0x4A8EEAC5C8000C00 (.vfdot g 6 29 22 11 36) ∧
    decodesTo 0x4ACEEACD81800001 (.vfsgn g .neg 29 22 (.s 27)) := by decide +kernel

/-- Words of every form of R146: permutes, reductions and scans, field by field, decode to it. -/
theorem test_words_permutes_reductions_scans :
    let g : Pred := ⟨3, true⟩
    decodesTo 0x500EEAC580400000 (.vperm g .w16 29 22 11) ∧
    decodesTo 0x508EEAC580400000 (.vzip g .w16 29 22 11) ∧
    decodesTo 0x50CEEAC580400000 (.vunzip g .w16 29 22 11) ∧
    decodesTo 0x504EEACD81800000 (.vslide g .w32 29 22 27) ∧
    decodesTo 0x510EEACD81000000 (.vbcast g .w8 29 22 27) ∧
    decodesTo 0x514F6ACD81800000 (.vext g .w32 45 22 27) ∧
    decodesTo 0x518EEECD81400000 (.vins g .w16 29 54 27) ∧
    decodesTo 0x51CEE80000400000 (.viota g .w16 29) ∧
    decodesTo 0x520EE80D81800000 (.vmov g .w32 29 (.s 27)) ∧
    decodesTo 0x540F6AC000000007 (.vred g .w8 .xor 45 22) ∧
    decodesTo 0x544F6AC000880003 (.vfred g .rne .amax 45 22) ∧
    decodesTo 0x548EEAC000400002 (.vscan g .w16 .max 29 22) ∧
    decodesTo 0x54CEEAC000900001 (.vfscan g .rtz .max 29 22) ∧
    decodesTo 0x550EEAC580980000 (.vfaffine g .rdn 29 22 11) := by decide +kernel

/-- Words of every form of R146, R147: loads, stores and atomics, field by field, decode to it. -/
theorem test_words_memory :
    let g : Pred := ⟨3, true⟩
    decodesTo 0x580EEBAD81003FF8 (.vld g 29 ⟨.c 29, 27, 0x1ff8, .hr⟩) ∧
    decodesTo 0x584EEBAD81005FF8 (.vst g ⟨.c 29, 27, 0x1ff8, .hl⟩ 29) ∧
    decodesTo 0x588EEC0580406FFF (.vgather g .w16 29 ⟨.cpv, 11, 0xFFF, .hs⟩) ∧
    decodesTo 0x58CEEC0580006FFF (.vscatter g .w8 ⟨.cpv, 11, 0xFFF, .hs⟩ 29) ∧
    decodesTo 0x590EEC058086EFFF (.vamo g .w32 .add .domain ⟨.cpv, 11, 0xFFF, .hs⟩ 29) ∧
    decodesTo 0x800F6BAD80401FF8 (.ld g .w16 45 ⟨.c 29, 27, 0x1ff8, .hn⟩) ∧
    decodesTo 0x804F6BAD80003FF8 (.ldu g .w8 45 ⟨.c 29, 27, 0x1ff8, .hr⟩) ∧
    decodesTo 0x808F6BAD80C05FF8 (.st g .w64 ⟨.c 29, 27, 0x1ff8, .hl⟩ 45) ∧
    decodesTo 0x80CEF3AD80007FF8 (.ldq g 30 ⟨.c 29, 27, 0x1ff8, .hs⟩) ∧
    decodesTo 0x810EF3AD80001FF8 (.stq g ⟨.c 29, 27, 0x1ff8, .hn⟩ 30) ∧
    decodesTo 0x8140508600810040 (.ldacq ⟨0, false⟩ .w32 .tile 10 ⟨.c 4, 12, 0x40, .hn⟩) ∧
    decodesTo 0x818F6BAD80C33FF8 (.strel g .w64 .system ⟨.c 29, 27, 0x1ff8, .hr⟩ 45) ∧
    decodesTo 0x81CF6BADC8A25FF8 (.amo g .w32 .maxu .chip 45 ⟨.c 29, 27, 0x1ff8, .hl⟩ 36) ∧
    decodesTo 0x820F6BADC8C1FFF8 (.amoCas g .w64 .grove 45 ⟨.c 29, 27, 0x1ff8, .hs⟩ 36) := by decide +kernel

/-- Words of every form of R147: synchronisation, ports and pumps, field by field, decode to it. -/
theorem test_words_synchronisation_and_engines :
    let g : Pred := ⟨3, true⟩
    decodesTo 0x880E000000034000 (.fence g .system .hl) ∧
    decodesTo 0x884E03AD80001FF8 (.feClear g ⟨.c 29, 27, 0x1ff8, .hn⟩) ∧
    decodesTo 0x888E03AD80003FF8 (.feSet g ⟨.c 29, 27, 0x1ff8, .hr⟩) ∧
    decodesTo 0x88CE03AD80005FF8 (.feWait g ⟨.c 29, 27, 0x1ff8, .hl⟩) ∧
    decodesTo 0x890E00AD80004000 (.tlWait g .hl .tlw 27) ∧
    decodesTo 0x894F686000000000 (.tlRead g 45 (.tlp 3)) ∧
    decodesTo 0x898F6BAD80003FF8 (.barInit g ⟨.c 29, 27, 0x1ff8, .hr⟩ 45) ∧
    decodesTo 0x89CE03AD80003FF8 (.barArrive g ⟨.c 29, 27, 0x1ff8, .hr⟩) ∧
    decodesTo 0x8A0E03AD80005FF8 (.barWait g ⟨.c 29, 27, 0x1ff8, .hl⟩) ∧
    decodesTo 0x8A4E000000004006 (.hbar g 6 .hl) ∧
    decodesTo 0x8A8F6BADC8003FF8 (.sigPost g ⟨.c 29, 27, 0x1ff8, .hr⟩ 45 36) ∧
    decodesTo 0x8ACF6BAD80005FF8 (.sigWait g ⟨.c 29, 27, 0x1ff8, .hl⟩ 45) ∧
    decodesTo 0x8B0E006580000000 (.fwdPut g .west 11) ∧
    decodesTo 0x8B4EE82000000000 (.fwdGet g 29 .east) ∧
    decodesTo 0x900E6BB048000000 (.pumpLd g 13 (.c 29) .cpv 36) ∧
    decodesTo 0x904E6BAF48000000 (.pumpSt g 13 (.c 29) (.c 30) 36) := by decide +kernel

/-- Words of every form of R148: control and system forms, field by field, decode to it. -/
theorem test_words_control_and_system :
    let g : Pred := ⟨3, true⟩
    decodesTo 0xC00E001FFFFFFFFE (.br g 0x1ffffffffe) ∧
    decodesTo 0xC04E000000000005 (.call g 5) ∧
    decodesTo 0xC088029FFFFFFFFE (.loop ⟨2, false⟩ 20 0x1ffffffffe) ∧
    decodesTo 0xC20E06C000000000 (.jr g 54) ∧
    decodesTo 0xC24E06C000000000 (.callr g 54) ∧
    decodesTo 0xC28E000000000000 (.ret g) ∧
    decodesTo 0xC80E001FFFFFFFFF (.rcall g 0x1fffffffff) ∧
    decodesTo 0xC84E000000000000 (.yield g) ∧
    decodesTo 0xC88E000000000000 (.rdv g) ∧
    decodesTo 0xC8CE00000000FFFF (.sys g 65535) ∧
    decodesTo 0xC90E000000000102 (.trap g 258) ∧
    decodesTo 0xC94E000000000000 (.eret g) ∧
    decodesTo 0xC98F6DE000000000 (.rdc g 45 0x2F) ∧
    decodesTo 0xC9CF0EC000000000 (.wrc g 0x21 54) ∧
    decodesTo 0xCA0F680000000000 (.dlRead g 45) ∧
    decodesTo 0xCA4E03AD80000000 (.vflagSet g (.c 29) 27) ∧
    decodesTo 0xCA80000000000000 (.nop ⟨0, false⟩) ∧
    decodesTo 0xCACE000000000000 (.bkpt g) := by decide +kernel

/-- The native-only operations stand in a bundle slot, and nowhere else (R291, R148). -/
theorem test_words_native_only :
    let g : Pred := ⟨3, true⟩
    slotDecodesTo 0xFC00000000000005 (.nxStub ⟨0, false⟩ 5) ∧
    slotDecodesTo 0xFC4E000000000009 (.nxRbeg g 9) ∧
    slotDecodesTo 0xFC8E000000000000 (.nxRend g) ∧
    slotDecodesTo 0xFCCE000000000007 (.nxRyld g 7) ∧
    slotDecodesTo 0xFD0E03B048000006 (.nxMpush g .drain (.c 29) .cpv 36) ∧
    slotDecodesTo 0xFD4E03A000000000 (.nxDtab g (.c 29)) ∧
    slotDecodesTo 0xFD8E01600000001F (.nxSpill g 11 31) ∧
    slotDecodesTo 0xFDCE68000000001E (.nxFill g 13 30) ∧
    slotDecodesTo 0xFE0E696000000004 (.nxVfn g .rsqrt 13 11) := by decide +kernel

/-- Words that meet a condition of R150 are refused: the all-zeros word: `add` with W 0; the all-ones word; `fadd`
with RM 0b110; `vfma` with C 40; `(!p0) nop`; an absent opcode; a field that the form lacks; an OP not listed; a shift
of 64; an unassigned control register; `sys 65536`; `amo.w16`; SCOPE 0b111; `vfcmp` with OP 6; `vld` with BC 0. -/
theorem test_words_unassigned :
    (decode 0x0000000000000000).isOk = false ∧
    (decode 0xFFFFFFFFFFFFFFFF).isOk = false ∧
    (decode 0x180020A300300000).isOk = false ∧
    (decode 0x48CE20A4D1880000).isOk = false ∧
    (decode 0xCA82000000000000).isOk = false ∧
    (decode 0x0740000000C00000).isOk = false ∧
    (decode 0x0000084182C00000).isOk = false ∧
    (decode 0x06C0084180C0000A).isOk = false ∧
    (decode 0x1100084000000040).isOk = false ∧
    (decode 0xC980092000000000).isOk = false ∧
    (decode 0xC8C0000000010000).isOk = false ∧
    (decode 0x81C0000000400000).isOk = false ∧
    (decode 0x8800000000038000).isOk = false ∧
    (decode 0x4A00000000800006).isOk = false ∧
    (decode 0x5800084180000000).isOk = false := by decide +kernel


/-! ### Known answers -/

/-- The check values of the two polynomials for the digits 1 to 9 (published catalogues of CRCs). -/
theorem test_check_values :
    let digits : List Byte := [0x31, 0x32, 0x33, 0x34, 0x35, 0x36, 0x37, 0x38, 0x39]
    crc32 digits = 0xCBF43926 ∧ crc64 digits = 0x6C40DF5F0B497347 := by decide +kernel

/-- SHAKE256 of no bytes (FIPS 202). -/
theorem test_shake_of_nothing : shake256 [] 8 = [0x46, 0xB9, 0xDD, 0x2B, 0x0B, 0xA8, 0x8D, 0x13] := by decide +kernel


/-! ### The worked examples of the spec -/

/-- An instruction that leaves a value in s10 and raises flags in `FPCTL`. -/
def gives (i : Instr) (s : State) (v : Word) (flags : BitVec 5) : Bool :=
  nextWith (exec i s) fun t => t.str.getS 10 == v && t.str.fpctl.extractLsb' 0 5 == flags && t.str.pc == s.str.pc + 8

/-- A stream with a value in s11. -/
def sourceOf (v : Word) : State := userState fun x => x.setS 11 v

/-- R154: division by zero, and the quotient that overflows. -/
theorem test_division_corners :
    let s := userState fun x => (x.setS 11 0x80000000).setS 12 0xFFFFFFFF
    gives (.div on .w32 10 11 0) s 0xFFFFFFFFFFFFFFFF 0 ∧ gives (.remu on .w32 10 11 0) s 0xFFFFFFFF80000000 0 ∧
      gives (.div on .w32 10 11 12) s 0xFFFFFFFF80000000 0 ∧
      gives (.rem on .w32 10 11 12) s 0 0 := by decide +kernel

/-- The example of R158: `li`, then `lhi`. -/
theorem test_wide_constant :
    let s := userState fun x => x.setS 11 0xFFFFFFF89ABCDEF0
    gives (.li on 10 0x189ABCDEF0) s 0xFFFFFFF89ABCDEF0 0 ∧ gives (.lhi on 10 11 0x91A2B3) s 0x123456789ABCDEF0 0 := by
  decide +kernel

/-- The conversions at the edges of chapter 9, a row each. The flags are NV 16, OF 4 and NX 1 (R63). -/
theorem test_conversions_at_the_edges :
    gives (.fcvt on .rne false 0 10 10 11) (sourceOf 0x40533333) 0x5A 1 ∧
      gives (.fcvt on .dyn false 10 0 10 11) (sourceOf 0x7F) 0x7FC00000 0 ∧
      gives (.fcvt on .dyn false 4 0 10 11) (sourceOf 0xFF) 0xFFFC0000 0 ∧
      gives (.fcvt on .dyn false 0 2 10 11) (sourceOf 0x7FC00001) 0x7E00 0 ∧
      gives (.fcvt on .dyn false 0 4 10 11) (sourceOf 0xFF800000) 0xFF 16 ∧
      gives (.fcvt on .dyn false 0 5 10 11) (sourceOf 0x7FC00000) 0x00 16 ∧
      gives (.fcvt on .dyn false 8 0 10 11) (sourceOf 0x80) 0xC3000000 0 ∧
      gives (.fcvti on .w64 .rna false 10 11) (sourceOf 0x40200000) 3 1 ∧
      gives (.fcvti on .w64 .rne false 10 11) (sourceOf 0x40200000) 2 1 ∧
      gives (.fcvti on .w32 .dyn false 10 11) (sourceOf 0x7F800000) 0x7FFFFFFF 16 := by decide +kernel

/-- The example of R55 to R57: FP32 to T8 under each mode. -/
theorem test_tapered_codes :
    gives (.fcvt on .rup false 0 10 10 11) (sourceOf 0x40533333) 0x5B 1 ∧
      gives (.fcvt on .rtz false 0 10 10 11) (sourceOf 0x40580000) 0x5B 0 ∧
      gives (.fcvt on .rne false 0 10 10 11) (sourceOf 0x40540000) 0x5A 1 ∧
      gives (.fcvt on .rna false 0 10 10 11) (sourceOf 0x40540000) 0x5B 1 ∧
      gives (.fcvt on .dyn true 0 10 10 11) (sourceOf 0x44FA0000) 0x7E 5 := by decide +kernel

/-- The example of R166 to R171: narrowing step by step. -/
theorem test_narrowing :
    let c : Cap := ⟨CapFields.bits ⟨0x40000000, 0x400, 64, 512, 0xF, 3, 0, 0⟩, true⟩
    let s := userState fun x => ((((x.setC (.c 2) c).setS 20 8).setS 21 4).setS 24 3)
    let d : Cap := ⟨CapFields.bits ⟨0x40002080, 0x400, 4, 256, 0xF, 1, 0, 0⟩, true⟩
    let n := userState fun x => ((x.setC (.c 8) d).setS 26 200).setS 23 256
    nextWith (exec (.cnrow on (.c 8) (.c 2) 20 21) s) (fun t =>
        (t.str.getC (.c 8)).tag && (t.str.getC (.c 8)).fields.base == 0x40002000 &&
        (t.str.getC (.c 8)).fields.rows == 4 && (t.str.getC (.c 8)).fields.rowbytes == 512) ∧
      nextWith (exec (.cnstride on (.c 9) (.c 2) 24) s) (fun t =>
        (t.str.getC (.c 9)).tag && (t.str.getC (.c 9)).fields.stride == 0xC00 &&
        (t.str.getC (.c 9)).fields.rows == 22) ∧
      nextWith (exec (.cnbyte on (.c 10) (.c 8) 26 23) n) (fun t =>
        (t.tile 0).tcause.extractLsb' 0 8 == Cause.capabilityWidening && t.str.state != .running) ∧
      nextWith (exec (.addi on 16 16 0) n) (fun t =>
        !(t.str.getC (.c 8)).tag && (t.str.getC (.c 8)).bits == d.bits) := by decide +kernel

/-- The example of R189: the window drops fifteen products. -/
theorem test_dot_window :
    let row (x : BitVec 8) (y : BitVec 8) : Vec := mkLanes 8 fun i => if i = 0 then x else if i < 16 then y else 0
    let s := userState fun x => ((x.setV 8 (row 0x7E 0x34)).setV 9 (row 0x7E 0x04)).setS 12 0x000000017F7F7F7F
    nextWith (exec (.vfdot on 4 2 8 9 12) s) (fun t =>
      lane 32 (t.str.getV 2) 0 == 0x48440000 && t.str.fpctl == s.str.fpctl) := by decide +kernel

end Sys2Proof.Tests
end

/-! ## Translation: what an address translation leaves alone, and the checks of an access that it passes. -/

namespace Sys2Proof.Machine

/-! ### The frame of a translation -/

/-- Two states that differ at most in memory, in the reservations of the host cores that a write of memory ends, and in the
memory-management units of the tiles (R33, R38). -/
structure State.SameButMmu (s s' : State) : Prop where
  rest : s' = { s with mem := s'.mem, hosts := s'.hosts, tiles := s'.tiles }
  tile : ∀ t, ∃ m, s'.tile t = { s.tile t with mmu := m }

theorem State.SameButMmu.refl (s : State) : s.SameButMmu s := ⟨rfl, fun _ => ⟨_, rfl⟩⟩

theorem State.SameButMmu.trans {s s' s'' : State} (h : s.SameButMmu s') (h' : s'.SameButMmu s'') : s.SameButMmu s'' where
  rest := h'.rest.trans
    (congrArg (fun u : State => { u with mem := s''.mem, hosts := s''.hosts, tiles := s''.tiles }) h.rest)
  tile t := by
    obtain ⟨m, hm⟩ := h.tile t
    obtain ⟨m', hm'⟩ := h'.tile t
    exact ⟨m', by rw [hm', hm]⟩

theorem State.SameButMmu.cur {s s' : State} (h : s.SameButMmu s') : s'.cur = s.cur := by rw [h.rest]

/-- No stream changes. -/
theorem State.SameButMmu.stream {s s' : State} (h : s.SameButMmu s') (t : TileId) (side : Side) :
    (s'.tile t).stream side = (s.tile t).stream side := by
  obtain ⟨m, hm⟩ := h.tile t
  rw [hm]
  cases side <;> rfl

theorem State.SameButMmu.str {s s' : State} (h : s.SameButMmu s') : s'.str = s.str := by
  rw [State.str, State.here, h.cur, h.stream]
  rfl

theorem State.sameButMmu_setMmu (s : State) (t : TileId) (m : Mmu) :
    s.SameButMmu (s.setTile t { s.tile t with mmu := m }) where
  rest := rfl
  tile u := by
    by_cases hu : u = t
    · subst hu
      exact ⟨m, State.tile_setTile ..⟩
    · exact ⟨_, State.tile_setTile_ne s t u _ hu⟩

theorem State.sameButMmu_writeBytes (s : State) (pa : Nat) (bs : List Byte) : s.SameButMmu (s.writeBytes pa bs) :=
  ⟨rfl, fun _ => ⟨_, rfl⟩⟩

/-- A and D are bits of memory (R38). -/
theorem setAccessed_sameButMmu (s : State) (k : Walked) (acc : Access) : s.SameButMmu (setAccessed s k acc).1 := by
  unfold setAccessed
  generalize k.pte ||| 0x40 ||| _ = pte
  dsimp only
  split
  · exact .refl s
  · exact State.sameButMmu_writeBytes ..

theorem walkAndFill_sameButMmu {s s' : State} {t : TileId} {who : Walker} {root : Word} {va : BitVec 48} {acc : Access}
    {user : Bool} {e : TlbEntry} (h : walkAndFill s t who root va acc user = .ok (e, s')) : s.SameButMmu s' := by
  unfold walkAndFill at h
  dsimp only at h
  split at h
  · cases h
  · split at h
    · cases h
    · cases h
      exact (setAccessed_sameButMmu ..).trans (State.sameButMmu_setMmu ..)

theorem State.serveWalk_sameButMmu (s : State) (t : TileId) (r : WalkReq) : s.SameButMmu (s.serveWalk t r) := by
  unfold State.serveWalk
  dsimp only
  split
  · exact .refl s
  · split
    · exact .refl s
    · next h => exact walkAndFill_sameButMmu h

theorem State.walkHead_sameButMmu (s : State) (t : TileId) : s.SameButMmu (s.walkHead t) := by
  unfold State.walkHead
  dsimp only
  split
  · exact .refl s
  · exact (State.sameButMmu_setMmu ..).trans (State.serveWalk_sameButMmu ..)

theorem State.walkAll_sameButMmu (s : State) (t : TileId) : s.SameButMmu (s.walkAll t) := by
  unfold State.walkAll
  generalize (s.tile t).mmu.queue = queue
  induction queue generalizing s with
  | nil => exact .refl s
  | cons r rest ih => exact (s.walkHead_sameButMmu t).trans (ih _)

theorem State.beforeWalk_sameButMmu (s : State) (t : TileId) (who : Walker) (root va : Word) (acc : Access) (user : Bool) :
    s.SameButMmu (s.beforeWalk t who root va acc user) := by
  unfold State.beforeWalk
  split
  · exact s.walkAll_sameButMmu t
  · exact .refl s

theorem State.entryFor_sameButMmu {s s' : State} {t : TileId} {who : Walker} {root va : Word} {acc : Access} {user : Bool}
    {e : TlbEntry} (h : s.entryFor t who root va acc user = .ok (e, s')) : s.SameButMmu s' := by
  unfold State.entryFor at h
  dsimp only at h
  refine (s.beforeWalk_sameButMmu t who root va acc user).trans ?_
  split at h
  · cases h
    exact State.sameButMmu_setMmu ..
  · exact walkAndFill_sameButMmu h

/-- A translation changes memory, by A and D, and caches and the walker's queue (R33, R37, R38). -/
theorem translate_sameButMmu {s s' : State} {t : TileId} {who : Walker} {root va : Word} {acc : Access} {user : Bool}
    {p : Phys} (h : translate s t who root va acc user = .ok (p, s')) : s.SameButMmu s' := by
  unfold translate at h
  dsimp only at h
  split at h
  · split at h
    · cases h
    · split at h
      · cases h
      · cases h
        exact .refl s
  · split at h
    · cases h
    · next he =>
      split at h
      · cases h
      · cases h
        exact State.entryFor_sameButMmu he

/-! ### An access outside native code -/

theorem M.translated_ok {s s' : State} {t : TileId} {who : Walker} {root va : Word} {acc : Access} {user : Bool} {p : Phys}
    (h : translate s t who root va acc user = .ok (p, s')) (hh : s.heldUp t who root va acc user p.pa = none) :
    M.translated t who root va acc user s = .ok p s' := by
  unfold M.translated
  rw [M.bind_ok (M.get_apply s)]
  simp only [h, hh]
  rfl

/-- Outside native code an SO page ends no region. -/
theorem M.single_ok {s : State} (p : Phys) (h : s.str.native = none) : M.single p s = .ok ⟨⟩ s := by
  unfold M.single
  rw [M.bind_ok (M.get_apply s), Stream.region, h]
  simp

theorem State.buffer_of_native_none {s : State} (h : s.str.native = none) : s.buffer = [] := by
  rw [State.buffer, Stream.region, h]
  rfl

theorem regionOf_of_inCistern {pa : Nat} (h : inCistern pa = true) : ∃ t off, regionOf pa = .cistern t off := by
  unfold inCistern at h
  split at h
  · next t off hr => exact ⟨t, off, hr⟩
  all_goals exact absurd h Bool.false_ne_true

/-- An address that passes checks 3 to 5 of R29 in memory or a cistern is the part of the access. -/
theorem M.part_ok {s s1 : State} {mask : Option Word} {va : Word} {n pa : Nat} {acc : Access}
    (h : Claims.reaches s va acc pa s1) (hn : s.str.native = none) :
    ∃ via, M.part mask va n acc s = .ok ⟨va, pa, n, mask, none, via⟩ s1 := by
  obtain ⟨so, ht, hh, hr⟩ := h
  have hn1 : s1.str.native = none := (translate_sameButMmu ht).str ▸ hn
  refine ⟨s1.serving s.cur.tile (.control s.cur.side) s.root va acc s.isUser, ?_⟩
  unfold M.part
  rw [M.bind_ok (M.get_apply s), State.root, M.bind_ok (M.translated_ok ht hh), M.bind_ok (M.get_apply s1)]
  rcases hr with hr | hr
  · simp only [hr]
    rw [M.bind_ok (M.single_ok _ hn1)]
    rfl
  · obtain ⟨u, off, hr⟩ := regionOf_of_inCistern hr
    simp only [hr]
    rw [M.bind_ok (M.single_ok _ hn1)]
    rfl

/-- Outside native code no store is held back, and a part reads as memory holds it. -/
theorem M.readPart_ok {s : State} {p : Part} (hd : p.dev = none) (hn : s.str.native = none) :
    M.readPart p s = .ok (s.readPart p.mask p.va.toNat p.pa p.n) s := by
  unfold M.readPart
  rw [M.bind_ok (M.get_apply s)]
  simp only [hd, State.buffer_of_native_none hn]
  rfl

end Sys2Proof.Machine

/-! ## The step: the order of deadline, agenda and issue, what a context issues, and the fetch of a Juden
instruction. -/

namespace Sys2Proof.Machine

/-! ### Whose turn it is -/

theorem step_of_due {s : State} {d : Due} (h : s.due = some d) : step s = s.perfDue d := by
  simp only [step, h]

theorem step_of_agenda_nil {s : State} (hd : s.due = none) (ha : s.agenda = []) : step s = issue s := by
  simp only [step, hd, ha]

theorem step_of_agenda_cons {s : State} {x : Turn} {rest : List Turn} (hd : s.due = none) (ha : s.agenda = x :: rest) :
    step s = ({ s with agenda := rest }).turn x := by
  simp only [step, hd, ha]

theorem State.turn_event {s : State} {i : Instr} (h : isEvent i = true) : s.turn (.event i) = exec i s := if_pos h

/-! ### What a context issues -/

/-- A stream that nothing keeps from running performs the unit of the native routine that it is in, or a Juden
instruction (R253, R331). -/
theorem State.issueKind_of_running {s : State} (hb : s.here.rbusy = false) (hf : s.here.frozen = false)
    (hg : s.here.gated = false) (hfault : s.here.fault = none) (hr : s.str.state = .running) (hn : s.str.native = none) :
    s.issueKind = (s.str.calls.head?.bind (·.native)).elim .juden .routine := by
  have hw : s.str.atWait = false := by simp [Stream.atWait, hr]
  have hh : s.here.held = false := by simp [Tile.held, hf, hfault]
  simp only [State.issueKind, hb, hf, hg, hfault, hr, hn, hw, hh, Bool.or_self, Bool.and_false, Bool.false_eq_true,
    if_false, ne_eq, not_true_eq_false]
  cases s.str.calls.head?.bind (·.native) <;> rfl

theorem issue_routine {s : State} {f : CallFrame} {r : Routine} (hb : s.here.rbusy = false) (hf : s.here.frozen = false)
    (hg : s.here.gated = false) (hfault : s.here.fault = none) (hr : s.str.state = .running) (hn : s.str.native = none)
    (hc : s.str.calls.head? = some f) (hfr : f.native = some r) : issue s = exec r.instr s := by
  have hk : s.issueKind = .routine r := by
    rw [State.issueKind_of_running hb hf hg hfault hr hn, hc, Option.bind_some, hfr]
    rfl
  simp only [issue, hk]

/-- A user stream joins no native code during a replay, nor where the directory names no bundle, nor before the end of a
replayed region (R296, R300). -/
theorem State.joinNative_eq_self {s : State} {t : TileId}
    (h : (s.tile t).user.single = true ∨
      ((s.tile t).user.rejoin = none ∧ s.nativeFor t (s.tile t).user.pc = none) ∨
      ∃ rp pmi e, (s.tile t).user.rejoin = some (rp, pmi) ∧ s.position t pmi = some e ∧ s.poisonAt t rp 48 = none ∧
        positionPc e ≠ (s.tile t).user.pc) : s.joinNative t = s := by
  unfold State.joinNative
  dsimp only
  rcases h with hs | ⟨hr, hb⟩ | ⟨rp, pmi, e, hr, hp, hq, hpc⟩
  · rw [hs, Bool.or_true, if_pos rfl]
  · have hc : s.comesTo t = .misses s := by simp only [State.comesTo, hr, hb]
    rw [hc, ite_self]
  · have hc : s.comesTo t = .replays s := by simp only [State.comesTo, hr, hp, hq, hpc, if_false]
    rw [hc, ite_self]

theorem State.str_of_user {s : State} (h : s.cur.side = .user) : s.str = (s.tile s.cur.tile).user := by
  rw [State.str, h]
  rfl

/-- A context that is ready issues the Juden instruction at its program counter. -/
theorem issue_of_ready {s : State} (h : Claims.readyToIssue s) : issue s = issueJuden s := by
  obtain ⟨hb, hf, hg, hfault, hr, hn, hc, hj⟩ := h
  have hcalls : s.str.calls.head?.bind (·.native) = none := Option.bind_eq_none_iff.mpr hc
  have hk : s.issueKind = .juden := by
    rw [State.issueKind_of_running hb hf hg hfault hr hn, hcalls]
    rfl
  have hself : (if s.isUser = true then s.joinNative s.cur.tile else s) = s := by
    cases hside : s.cur.side with
    | firmware => simp [State.isUser, hside]
    | user =>
      rw [State.str_of_user hside, hside] at hj
      rw [State.joinNative_eq_self (hj.resolve_left nofun), ite_self]
  simp only [issue, hk, issueHere, hself, hn, Option.isSome_none, Bool.false_eq_true, if_false]

/-! ### A fetched word -/

/-- The poison check of a fetch passes. -/
theorem M.unpoisoned_ok {s : State} {p : Part} (h : s.poisonedLine p.pa p.n = none) : M.unpoisoned p s = .ok ⟨⟩ s := by
  unfold M.unpoisoned
  rw [M.bind_ok (M.get_apply s)]
  simp only [h]
  rfl

/-- Outside native code the fetch that the claims describe is the machine's. -/
theorem M.fetch_ok {s t : State} {w : Word} (h : Claims.fetches s w t) (hn : s.str.native = none) :
    M.fetch s = .ok w t := by
  obtain ⟨halign, hmay, pa, s1, hreach, hclean, rfl, rfl⟩ := h
  have hn1 : s1.str.native = none := by
    obtain ⟨so, ht, -⟩ := hreach
    exact (translate_sameButMmu ht).str ▸ hn
  obtain ⟨via, hpart⟩ := M.part_ok (mask := none) (n := 8) hreach hn
  unfold M.fetch
  rw [M.bind_ok (M.get_apply s)]
  simp only [halign, hmay, ne_eq, not_true_eq_false, Bool.not_true, Bool.false_eq_true, if_false]
  rw [M.bind_ok hpart, M.bind_ok (M.unpoisoned_ok hclean), M.bind_ok (M.readPart_ok rfl hn1), M.bind_ok (M.mod_apply ..)]
  rfl

theorem perfWord_ok {w : Word} {i : Instr} (h : decode w = .ok i) (s : State) : perfWord w s = exec i s := by
  simp only [perfWord, h]

theorem perfWord_unassigned {w : Word} {e : Unassigned} (h : decode w = .error e) (s : State) :
    perfWord w s = exec .illegalInstruction s := by
  simp only [perfWord, h]

/-- With nothing due and an empty agenda, a context that is ready performs the word that it fetches. -/
theorem step_of_fetches {s s1 : State} {w : Word} (hd : s.due = none) (ha : s.agenda = [])
    (hready : Claims.readyToIssue s) (hfetch : Claims.fetches s w s1) :
    step s = andThen (perfWord w s1) State.stepped := by
  have hn : s.str.native = none := by
    obtain ⟨-, -, -, -, -, hn, -⟩ := hready
    exact hn
  rw [step_of_agenda_nil hd ha, issue_of_ready hready]
  simp only [issueJuden, M.fetch_ok hfetch hn]

theorem State.stepped_eq (t : State) :
    t.stepped = if t.str.single = true ∧ t.str.state ≠ .stalled then t.setStr { t.str with single := false } else t := by
  simp only [State.stepped, Bool.and_eq_true, bne_iff_ne]

end Sys2Proof.Machine

namespace Sys2Proof.Proofs

open Sys2Proof.Machine

/-- Settles O55, from the equations of `step` for each turn and the fetch of a ready context. -/
theorem step_runs_the_decoded_instruction : Obligations.Step_runs_the_decoded_instruction := by
  unfold Obligations.Step_runs_the_decoded_instruction
  intro s
  refine ⟨fun d => step_of_due, fun hd => ⟨step_of_agenda_nil hd, ?insn, ?event, ?time⟩, ?word, State.stepped_eq,
    fun f r => issue_routine⟩
  case insn => exact fun t side rest => step_of_agenda_cons hd
  case event => exact fun i rest ha hi => (step_of_agenda_cons hd ha).trans (State.turn_event hi)
  case time => exact fun d rest => step_of_agenda_cons hd
  case word =>
    intro hd ha hready w s1 hfetch
    have hstep := step_of_fetches hd ha hready hfetch
    exact ⟨fun i hi => by rw [hstep, perfWord_ok hi], fun e he => by rw [hstep, perfWord_unassigned he]⟩

end Sys2Proof.Proofs

/-! ## Decoding: the form and the fields behind a decoded word, and the predicate that guards its instruction. -/

namespace Sys2Proof

/-- A key names one form (R145 to R148). -/
theorem Op.key_of_ofKey {k : Nat} {o : Op} (h : Op.ofKey k = some o) : o.key = k := by
  revert h
  fun_cases Op.ofKey k <;> intro h <;> cases h <;> rfl

/-- A decoded word is a Juden form with its fields, under the predicate of the word. -/
theorem decode_eq_ok {w : Word} {i : Instr} (h : decode w = .ok i) :
    ∃ o : Op, o.key = 256 * (Fields.of w).cls.toNat + (Fields.of w).opc.toNat ∧ o.native = false ∧
      i = o.build (Fields.of w).guard (Fields.of w) := by
  unfold decode decodeIn at h
  dsimp only at h
  split at h
  · cases h
  · next o ho =>
    split at h
    · cases h
    · next hn =>
      split at h
      · cases h
      · split at h
        · cases h
        · cases h
          exact ⟨o, Op.key_of_ofKey ho, by simpa using hn, rfl⟩

/-- CLASS and OPC, as one number. -/
theorem toNat_opOf (w : Word) :
    (Machine.opOf w).toNat = 256 * (Fields.of w).cls.toNat + (Fields.of w).opc.toNat := by
  simp only [Machine.opOf, Fields.of, BitVec.extractLsb'_toNat, Nat.shiftRight_eq_div_pow]
  omega

/-- PRED and NEG of a word, as the stream meets them (R118). -/
theorem Machine.Stream.holds_guard (x : Machine.Stream) (w : Word) :
    x.holds (Fields.of w).guard = (x.getP (w.extractLsb' 50 4) ^^ w.getLsbD 49) := by
  have h : (w.extractLsb' 49 1 == 1) = w.getLsbD 49 := by
    rw [Bool.eq_iff_iff, beq_iff_eq]
    simp [BitVec.eq_of_getLsbD_eq_iff]
  simp only [Machine.Stream.holds, Fields.guard, Fields.of, h]

end Sys2Proof

/-! ## The forms that name registers only: at most the register of field D is written, and flags are raised. -/

namespace Sys2Proof.Machine

/-- `y` is `x` after at most one register write, of the register that the field D of a word names (R136, R140). -/
def Stream.WritesField (x : Stream) (d : BitVec 6) (y : Stream) : Prop :=
  y = x ∨ (∃ r, y = x.setS d r) ∨ (∃ r, y = x.setV (d.setWidth 5) r) ∨ ∃ b, y = x.setP (d.setWidth 4) b

/-- A form that names registers only: skipped, it moves past its word; executed, it writes at most the register of field
D, raises flags and moves past its word, or it traps with the state as it was. -/
def RegisterForm (g : Pred) (d : BitVec 6) (e : State → Host.Outcome State Fault Refusal) : Prop :=
  ∀ s, (s.str.holds g = false → e s = .next s.advance) ∧
    (s.str.holds g = true →
      (∃ y fl, s.str.WritesField d y ∧ e s = .next (s.setStr (y.raise fl).advance)) ∨
        ∃ c a, e s = finish (.error (.trap c a 0) s))

@[simp] theorem Stream.raise_zero (x : Stream) : x.raise 0 = x := by
  simp [Stream.raise, Machine.raise]

theorem RegisterForm.of_register {g : Pred} {d : BitVec 6} {f : Stream → Stream}
    (h : ∀ x, ∃ y fl, x.WritesField d y ∧ f x = y.raise fl) : RegisterForm g d (register g f) := by
  refine fun s => ⟨register_skips, fun hg => .inl ?_⟩
  obtain ⟨y, fl, hy, hf⟩ := h s.str
  exact ⟨y, fl, hy, by rw [register_holds hg, hf]⟩

theorem RegisterForm.nothing {g : Pred} {d : BitVec 6} : RegisterForm g d (register g id) :=
  .of_register fun x => ⟨x, 0, .inl rfl, x.raise_zero.symm⟩

theorem RegisterForm.setS {g : Pred} {d : BitVec 6} {r : Stream → Word} :
    RegisterForm g d (register g fun x => x.setS d (r x)) :=
  .of_register fun x => ⟨_, 0, .inr (.inl ⟨r x, rfl⟩), (Stream.raise_zero _).symm⟩

theorem RegisterForm.setS_raise {g : Pred} {d : BitVec 6} {r : Stream → Word} {fl : Stream → FpFlags} :
    RegisterForm g d (register g fun x => (x.setS d (r x)).raise (fl x)) :=
  .of_register fun x => ⟨_, fl x, .inr (.inl ⟨r x, rfl⟩), rfl⟩

theorem RegisterForm.setV {g : Pred} {d : BitVec 6} {r : Stream → Vec} :
    RegisterForm g d (register g fun x => x.setV (d.setWidth 5) (r x)) :=
  .of_register fun x => ⟨_, 0, .inr (.inr (.inl ⟨r x, rfl⟩)), (Stream.raise_zero _).symm⟩

theorem RegisterForm.setFLanes {g : Pred} {d : BitVec 6} {rs : Stream → List Fp} :
    RegisterForm g d (register g fun x => x.setFLanes (d.setWidth 5) (rs x)) :=
  .of_register fun x => ⟨_, flagsOf (rs x), .inr (.inr (.inl ⟨_, rfl⟩)), rfl⟩

theorem RegisterForm.setP {g : Pred} {d : BitVec 6} {b : Stream → Bool} :
    RegisterForm g d (register g fun x => x.setP (d.setWidth 4) (b x)) :=
  .of_register fun x => ⟨_, 0, .inr (.inr (.inr ⟨b x, rfl⟩)), (Stream.raise_zero _).symm⟩

theorem RegisterForm.setP_raise {g : Pred} {d : BitVec 6} {b : Stream → Bool} {fl : Stream → FpFlags} :
    RegisterForm g d (register g fun x => (x.setP (d.setWidth 4) (b x)).raise (fl x)) :=
  .of_register fun x => ⟨_, fl x, .inr (.inr (.inr ⟨b x, rfl⟩)), rfl⟩

/-- A conversion or dot product refuses a format first (R163, R186, R187). -/
theorem RegisterForm.checked {g : Pred} {d : BitVec 6} {refused : Bool} {cause : BitVec 8} {f : Stream → Stream}
    (h : ∀ x, ∃ y fl, x.WritesField d y ∧ f x = y.raise fl) :
    RegisterForm g d (perform g do
      if refused then M.trap cause 0
      M.mod f
      M.next) := by
  refine fun s => ⟨perform_skips, fun hg => ?_⟩
  rw [perform_holds hg]
  cases refused with
  | true => exact .inr ⟨cause, 0, rfl⟩
  | false =>
    obtain ⟨y, fl, hy, hf⟩ := h s.str
    refine .inl ⟨y, fl, hy, ?_⟩
    show finish ((M.mod f >>= fun _ => M.next) s) = _
    rw [M.bind_ok (M.mod_apply f s), M.next_apply, finish_ok, State.advance_setStr, hf]

section
variable {g : Pred} {w : Width}

theorem scalar2_registerForm {d a b : SReg} {f : BitVec w.n → BitVec w.n → BitVec w.n} :
    RegisterForm g d (scalar2 g w d a b f) := .setS

theorem scalar1_registerForm {d a : SReg} {f : BitVec w.n → BitVec w.n} : RegisterForm g d (scalar1 g w d a f) := .setS

theorem scalarImm_registerForm {d a : SReg} {imm : BitVec 37} {f : Word → Word → Word} :
    RegisterForm g d (scalarImm g d a imm f) := .setS

theorem bitField_registerForm {d a b c : SReg} {f : BitVec w.n → BitVec w.n → Nat → Nat → BitVec w.n} :
    RegisterForm g d (bitField g w d a b c f) := .setS

theorem fp2_registerForm {d a b : SReg} {f : Stream → BitVec 32 → BitVec 32 → Fp} :
    RegisterForm g d (fp2 g d a b f) := .setS_raise

theorem lanesForm_registerForm {d : BitVec 6} {n : Nat} {f : Stream → Nat → BitVec n} :
    RegisterForm g d (lanesForm g n (d.setWidth 5) f) := .setV

theorem vector2_registerForm {d : BitVec 6} {a : VReg} {b : VOrS} {f : BitVec w.n → BitVec w.n → BitVec w.n} :
    RegisterForm g d (vector2 g w (d.setWidth 5) a b f) := lanesForm_registerForm

theorem vectorF_registerForm {d : BitVec 6} {f : Stream → Nat → Fp} :
    RegisterForm g d (vectorF g (d.setWidth 5) f) :=
  RegisterForm.setFLanes (rs := fun x => (List.range 32).map (f x))

theorem vectorF2_registerForm {d : BitVec 6} {a : VReg} {b : VOrS} {f : Stream → BitVec 32 → BitVec 32 → Fp} :
    RegisterForm g d (vectorF2 g (d.setWidth 5) a b f) := vectorF_registerForm

end

/-- Class 0b00 to 0x9F and class 0b01 to 0x5F (R145, R146). -/
theorem build_registerForm {o : Op} (g : Pred) (f : Fields) (ho : o.key < 0xA0 ∨ 0x100 ≤ o.key ∧ o.key < 0x160) :
    RegisterForm g f.d (exec (o.build g f)) := by
  show RegisterForm g f.d fun s => exec (o.build g f) s
  cases o with
  | add | sub | mul | mulh | mulhu | div | divu | rem | remu | and | or | xor | sll | srl | sra | min | max | minu
  | maxu =>
    dsimp only [Op.build, exec]
    exact scalar2_registerForm
  | clz | ctz | popc | brev | bswap =>
    dsimp only [Op.build, exec]
    exact scalar1_registerForm
  | bfx | bfxu | bfi =>
    dsimp only [Op.build, exec]
    exact bitField_registerForm
  | addi | andi | ori | xori | muli =>
    dsimp only [Op.build, exec]
    exact scalarImm_registerForm
  | sel | slli | srli | srai | li | lhi | fclass | pget | vext | vred =>
    dsimp only [Op.build, exec]
    exact .setS
  | fadd | fsub | fmul | fdiv | fmin | fmax | fsgn =>
    dsimp only [Op.build, exec]
    exact fp2_registerForm
  | fsqrt | fma | fcvti | icvtf | vfred =>
    dsimp only [Op.build, exec]
    exact .setS_raise
  | cmp | pand | por | pxor | pandn | ptest =>
    dsimp only [Op.build, exec]
    exact .setP
  | fcmp =>
    dsimp only [Op.build, exec]
    exact .setP_raise
  | vadd | vsub | vmul | vmulh | vmin | vmax | vminu | vmaxu | vand | vor | vxor | vsll | vsrl | vsra | vcmp =>
    dsimp only [Op.build, exec]
    exact vector2_registerForm
  | vabs | vsel | vperm | vzip | vunzip | vslide | vbcast | vins | viota | vmov =>
    dsimp only [Op.build, exec]
    exact lanesForm_registerForm
  | vscan =>
    dsimp only [Op.build, exec]
    exact .setV
  | vfadd | vfsub | vfmul | vfdiv | vfmin | vfmax | vfcmp | vfsgn =>
    dsimp only [Op.build, exec]
    exact vectorF2_registerForm
  | vfma | vfsqrt =>
    dsimp only [Op.build, exec]
    exact vectorF_registerForm
  | vfscan | vfaffine =>
    dsimp only [Op.build, exec]
    exact .setFLanes
  | fcvt =>
    dsimp only [Op.build, exec]
    exact .checked fun x => ⟨_, _, .inr (.inl ⟨_, rfl⟩), rfl⟩
  | vcvt =>
    dsimp only [Op.build, exec]
    exact .checked fun x => ⟨_, _, .inr (.inr (.inl ⟨_, rfl⟩)), rfl⟩
  | vfdot =>
    dsimp only [Op.build, exec]
    refine .checked fun x => ?_
    dsimp only
    split
    · exact ⟨x, 0, .inl rfl, x.raise_zero.symm⟩
    · exact ⟨_, _, .inr (.inr (.inl ⟨_, rfl⟩)), rfl⟩
  | _ => exact absurd ho (by decide)

end Sys2Proof.Machine

/-! ## States that agree in every tile -/

namespace Sys2Proof.Machine

/-- Two states with the same tiles, that the same hardware context belongs to. -/
structure State.SameTiles (s t : State) : Prop where
  tiles : t.tiles = s.tiles
  cur : t.cur = s.cur

namespace State.SameTiles

theorem refl (s : State) : s.SameTiles s := ⟨rfl, rfl⟩

theorem trans {s t u : State} (h : s.SameTiles t) (h' : t.SameTiles u) : s.SameTiles u :=
  ⟨h'.tiles.trans h.tiles, h'.cur.trans h.cur⟩

theorem tile {s t : State} (h : s.SameTiles t) (k : TileId) : t.tile k = s.tile k := by
  simp only [State.tile, h.tiles]

theorem here {s t : State} (h : s.SameTiles t) : t.here = s.here := by
  rw [State.here, h.cur, h.tile, State.here]

theorem foldl {α : Type} {f : State → α → State} (h : ∀ (s : State) a, s.SameTiles (f s a)) (l : List α) (s : State) :
    s.SameTiles (l.foldl f s) :=
  List.foldlRecOn l f (motive := s.SameTiles) (refl s) fun _ ht a _ => ht.trans (h _ a)

end State.SameTiles

theorem State.store_sameTiles (s : State) (pa : Nat) (bs : List Byte) : s.SameTiles (s.store pa bs) :=
  ⟨State.store_tiles .., State.store_cur ..⟩

theorem State.clearPoison_sameTiles (s : State) (l : Nat) : s.SameTiles (s.clearPoison l) := ⟨rfl, rfl⟩

theorem State.logPoison_sameTiles (s : State) (t : TileId) (l : Nat) : s.SameTiles (s.logPoison t l) := ⟨rfl, rfl⟩

theorem State.logPoisons_sameTiles (s : State) (t : TileId) (ls : List Nat) : s.SameTiles (s.logPoisons t ls) :=
  .foldl (fun s l => s.logPoison_sameTiles t l) _ s

theorem State.setCtx_sameTiles (s : State) (c : CtxId) (x : Ctx) : s.SameTiles (s.setCtx c x) := ⟨rfl, rfl⟩

theorem State.mapNode_sameTiles (s : State) (n : Nat) (f : Node → Node) : s.SameTiles (s.mapNode n f) := ⟨rfl, rfl⟩

theorem State.pokeBytes_sameTiles (fuel : Nat) (s : State) (root va : Word) (bs : List Byte) :
    s.SameTiles (State.pokeBytes fuel s root va bs) := by
  induction fuel generalizing s va bs with
  | zero => exact .refl s
  | succ fuel ih =>
    simp only [State.pokeBytes]
    split
    · exact .refl s
    · refine .trans ?_ (ih _ _ _)
      split
      · exact .refl s
      · split
        · exact s.store_sameTiles ..
        · exact .refl s

theorem State.writePart_sameTiles (s : State) (mask : Option Word) (va pa : Nat) (bs : List Byte) :
    s.SameTiles (s.writePart mask va pa bs) := by
  unfold State.writePart
  split
  · exact s.store_sameTiles ..
  · exact .trans (t := { s.snoop _ _ with mem := _ }) ⟨rfl, rfl⟩ (.foldl State.clearPoison_sameTiles _ _)

theorem State.flushRecord_sameTiles (s : State) (e : Nat × Nat × List Byte) : s.SameTiles (s.flushRecord e) := by
  unfold State.flushRecord
  dsimp only
  split
  · exact ⟨rfl, rfl⟩
  · exact (s.store_sameTiles ..).trans ⟨rfl, rfl⟩

theorem State.flushRecords_sameTiles (s : State) : s.SameTiles s.flushRecords := by
  have h := State.SameTiles.foldl State.flushRecord_sameTiles (s.rings.cfPend.filter s.recordDue)
    { s with rings := { s.rings with cfPend := [] } }
  exact ⟨h.tiles, h.cur⟩

/-- A read of a device register changes at most the counter of free values. -/
theorem State.devRead_sameTiles (s : State) (r : DevReg) : s.SameTiles (s.devRead r).2 := by
  cases r <;> exact ⟨rfl, rfl⟩

/-! ### The report of a trap -/

theorem State.writeRest_sameTiles (s : State) (t : TileId) (area : Nat) : s.SameTiles (s.writeRest t area) := by
  unfold State.writeRest
  dsimp only
  refine .trans ?_ (State.store_sameTiles ..)
  refine .trans ?_ (State.store_sameTiles ..)
  refine .trans ?_ (.foldl (fun s _ => (s.store_sameTiles ..).trans (State.store_sameTiles ..)) _ _)
  exact .trans (.foldl (fun s l => s.logPoison_sameTiles t l) _ s) (State.store_sameTiles ..)

theorem State.reportFault_sameTiles (s : State) (t : TileId) (f : TileFault) (jpc : Word) :
    s.SameTiles (s.reportFault t f jpc) := ⟨rfl, rfl⟩

theorem State.writeReport_sameTiles (s : State) (t : TileId) (f : TileFault) (jpc : Word) :
    s.SameTiles (s.writeReport t f jpc) := (s.store_sameTiles ..).trans (State.writeRest_sameTiles ..)

/-- The stream that a trap leaves: stopped at its instruction, with every register as Juden code sees it (R372). -/
def Stream.trapped (x : Stream) (rejoin : Option (Word × Nat)) : Stream :=
  { x.settle with
    state := .trapped, wait := .none, vamoTodo := [], woken := false, single := false, rejoin := rejoin }

/-- The tile of a stream that took a trap: the registers are saved, and the firmware registers show the trap (R376,
R380). -/
def Tile.trapped (x : Tile) (rejoin : Option (Word × Nat)) (callTime : Option (BitVec 8)) (fault : Option TileFault)
    (tcause taddr : Word) : Tile :=
  { x with
    user := x.user.trapped rejoin, callTime := callTime, fault := fault
    savedS := x.user.settle.s, savedTags := x.user.settle.tags
    tcause := tcause, taddr := taddr, tpc := x.user.settle.pc }

theorem State.deliver_tile (s : State) (t : TileId) (f : TileFault) :
    (s.deliver t f).cur = s.cur ∧ ∃ rejoin callTime tcause taddr,
      (s.deliver t f).tile t = (s.tile t).trapped rejoin callTime (s.tile t).fault tcause taddr := by
  unfold State.deliver
  dsimp only
  generalize hu : State.setTile _ t _ = u
  have hcur : u.cur = s.cur := by rw [← hu, State.setTile_cur, State.store_cur]
  have htile := congrArg (State.tile · t) hu
  simp only [State.tile_setTile, (s.store_sameTiles ..).tile t] at htile
  have hrest (v : State) (h : u.SameTiles v) : v.cur = s.cur ∧ ∃ rejoin callTime tcause taddr,
      v.tile t = (s.tile t).trapped rejoin callTime (s.tile t).fault tcause taddr :=
    ⟨h.cur.trans hcur, _, _, _, _, (h.tile t).trans htile.symm⟩
  split
  · exact hrest u (.refl u)
  · exact hrest _ ((u.writeReport_sameTiles ..).trans (State.reportFault_sameTiles ..))
  · exact hrest _ ((u.writeReport_sameTiles ..).trans (State.reportFault_sameTiles ..))

/-- A trap stops the stream, saves its registers and shows itself in the firmware registers; nothing else of the tile
changes (R372, R376, R380). -/
theorem State.takeTrap_tile (s : State) (t : TileId) (cause : BitVec 8) (addr : Word) (imm : BitVec 16) :
    (s.takeTrap t cause addr imm).cur = s.cur ∧ ∃ rejoin callTime fault tcause taddr,
      (s.takeTrap t cause addr imm).tile t = (s.tile t).trapped rejoin callTime fault tcause taddr := by
  unfold State.takeTrap
  dsimp only
  split
  · obtain ⟨hcur, rj, ct, tc, ta, h⟩ := s.deliver_tile t (s.faultOf t 0 false cause addr imm)
    exact ⟨hcur, rj, ct, _, tc, ta, h⟩
  · have hdeliver (f : TileFault) : ((s.setTile t { s.tile t with fault := some f }).deliver t f).cur = s.cur ∧
        ∃ rejoin callTime fault tcause taddr, ((s.setTile t { s.tile t with fault := some f }).deliver t f).tile t =
          (s.tile t).trapped rejoin callTime fault tcause taddr := by
      obtain ⟨hcur, rj, ct, tc, ta, h⟩ := (s.setTile t { s.tile t with fault := some f }).deliver_tile t f
      rw [State.tile_setTile] at h
      exact ⟨hcur, rj, ct, _, tc, ta, h⟩
    exact hdeliver _

end Sys2Proof.Machine

namespace Sys2Proof.Machine

/-- A firmware context that met a poisoned line is trapped (R381). -/
theorem State.firmwarePoison_trapped {s : State} {addr : Word} (h : s.cur.side = .firmware) :
    (s.firmwarePoison s.cur.tile addr).str.state = .trapped := by
  unfold State.firmwarePoison
  dsimp only
  generalize hu : s.setTile s.cur.tile _ = u
  have hrep := u.reportFault_sameTiles s.cur.tile (u.faultOf s.cur.tile 0 false Cause.poisonedRead addr 0)
    (s.tile s.cur.tile).fw.pc
  have hcur : u.cur = s.cur := by rw [← hu, State.setTile_cur]
  rw [State.str, hrep.here, hrep.cur, State.here, hcur, h, ← hu, State.tile_setTile]
  rfl

/-- A computation that ends in a trap leaves its stream trapped. -/
theorem finish_trap_trapped {cause : BitVec 8} {addr : Word} {imm : BitVec 16} {s t : State}
    (h : finish (.error (.trap cause addr imm) s) = .next t) : t.str.state = .trapped := by
  cases hside : s.cur.side with
  | user =>
    rw [finish_trap_user hside] at h
    injection h with h
    obtain ⟨hcur, rj, ct, f, tc, ta, htile⟩ := s.takeTrap_tile s.cur.tile cause addr imm
    rw [← h, State.str, State.here, hcur, htile, hside]
    rfl
  | firmware =>
    by_cases hc : cause = Cause.poisonedRead
    · rw [hc, finish_poison_firmware hside] at h
      injection h with h
      rw [← h]
      exact State.firmwarePoison_trapped hside
    · rw [finish_trap_firmware hside hc] at h
      cases h

section
variable {g : Pred} {s : State}

theorem loadForm_skips {m : MemS} {n align : Nat} {f : Stream → List Byte → Stream} (h : s.str.holds g = false) :
    loadForm g m n align f s = .next s.advance := perform_skips h

theorem storeForm_skips {m : MemS} {align : Nat} {f : Stream → List Byte} (h : s.str.holds g = false) :
    storeForm g m align f s = .next s.advance := perform_skips h

theorem atomicForm_skips {w : Width} {d : SReg} {m : MemS} {f : Stream → BitVec w.n → Option (BitVec w.n)}
    (h : s.str.holds g = false) : atomicForm g w d m f s = .next s.advance := perform_skips h

theorem capForm_skips {d a : CapReg} {f : Stream → CapFields → CapFields} {part : Stream → CapFields → Bool}
    (h : s.str.holds g = false) : capForm g d a f part s = .next s.advance := perform_skips h

theorem pumpPush_skips {store : Bool} {k : BitVec 4} {a b : CapReg} {c : SReg} (h : s.str.holds g = false) :
    pumpPush g store k a b c s = .next s.advance := perform_skips h

end

/-- The instruction of a word is skipped when its predicate does not hold (R118). -/
theorem exec_build_skips {o : Op} {g : Pred} {f : Fields} {s : State} (hn : o.native = false)
    (h : s.str.holds g = false) : exec (o.build g f) s = .next s.advance := by
  by_cases hr : o.key < 0xA0 ∨ 0x100 ≤ o.key ∧ o.key < 0x160
  · exact (build_registerForm g f hr s).1 h
  · cases o with
    | nxStub | nxRbeg | nxRend | nxRyld | nxMpush | nxDtab | nxSpill | nxFill | nxVfn => exact absurd hn (by decide)
    | cget | fence | yield | nop =>
      dsimp only [Op.build, exec]
      exact register_skips h
    | ld | ldu | ldq | ldacq | vld =>
      dsimp only [Op.build, exec]
      exact loadForm_skips h
    | st | stq | strel | vst =>
      dsimp only [Op.build, exec]
      exact storeForm_skips h
    | amo | amoCas =>
      dsimp only [Op.build, exec]
      exact atomicForm_skips h
    | cmov | cnrow | cnbyte | cnstride | cnperm =>
      dsimp only [Op.build, exec]
      exact capForm_skips h
    | pumpLd | pumpSt =>
      dsimp only [Op.build, exec]
      exact pumpPush_skips h
    | cfmt | ctab | vgather | vscatter | vamo | feClear | feSet | feWait | tlWait | tlRead | barInit | barArrive
    | barWait | hbar | sigPost | sigWait | fwdPut | fwdGet | br | call | loop | jr | callr | ret | rcall | rdv | sys
    | trap | eret | rdc | wrc | dlRead | vflagSet | bkpt =>
      dsimp only [Op.build, exec]
      exact perform_skips h
    | _ => exact absurd (by decide) hr

end Sys2Proof.Machine

namespace Sys2Proof.Proofs
open Sys2Proof.Machine

/-- Settles O56, from the guard of every decoded form and the fetch of an unassigned word. -/
theorem unexecuted_instructions_only_advance : Obligations.Unexecuted_instructions_only_advance := by
  unfold Obligations.Unexecuted_instructions_only_advance
  constructor
  · intro s w i hi hp
    obtain ⟨o, -, hn, rfl⟩ := decode_eq_ok hi
    exact exec_build_skips hn ((s.str.holds_guard w).trans hp)
  · intro s w e s1 he hd ha hready hfetch
    rw [step_of_fetches hd ha hready hfetch, perfWord_unassigned he]

/-- Settles O59, from the shape of every form that names registers only. -/
theorem register_forms_change_one_register : Obligations.Register_forms_change_one_register := by
  unfold Obligations.Register_forms_change_one_register
  intro s w i t hi hop hexec hrun
  obtain ⟨o, hkey, -, rfl⟩ := decode_eq_ok hi
  rw [toNat_opOf, ← hkey] at hop
  obtain ⟨hskip, hdo⟩ := build_registerForm (Fields.of w).guard (Fields.of w) hop s
  cases hg : s.str.holds (Fields.of w).guard with
  | false =>
    rw [hskip hg] at hexec
    cases hexec
    exact ⟨s.str, 0, .inl rfl, by simp [State.advance, Stream.advance]⟩
  | true =>
    obtain ⟨y, fl, hy, h⟩ | ⟨c, a, h⟩ := hdo hg
    · rw [h] at hexec
      cases hexec
      exact ⟨y, fl, hy, rfl⟩
    · exact absurd (finish_trap_trapped (h ▸ hexec)) (by rw [hrun]; decide)

end Sys2Proof.Proofs

/-! ## Authority: what a register write leaves of the capabilities of a stream -/

namespace Sys2Proof.Machine

/-! ### Registers of a pair -/

theorem toNat_loReg (n : BitVec 5) : (loReg n).toNat = 2 * n.toNat := by
  revert n
  decide

theorem toNat_hiReg (n : BitVec 5) : (hiReg n).toNat = 2 * n.toNat + 1 := by
  revert n
  decide

theorem Stream.getC_pair (x : Stream) {n : BitVec 5} (hn : n ≠ 0) :
    x.getC (.c n) = ⟨x.getS (hiReg n) ++ x.getS (loReg n), x.tags.getLsbD n.toNat⟩ := if_neg hn

/-- A scalar write clears the tag of its pair and no other (R119). -/
theorem Stream.tags_setS {x : Stream} {d : SReg} {v : Word} {n : BitVec 5} (hd : d ≠ 0) (hn : n ≠ 0) :
    (x.setS d v).tags.getLsbD n.toNat = (x.tags.getLsbD n.toNat && decide (d.toNat / 2 ≠ n.toNat)) := by
  have hn' : n.toNat ≠ 0 := fun he => hn (BitVec.eq_of_toNat_eq he)
  simp only [Stream.setS, if_neg hd, BitVec.getLsbD_and, BitVec.getLsbD_not, n.isLt, decide_true, Bool.true_and]
  unfold tagBit
  split
  · next h0 => simp [h0, hn'.symm]
  · rw [BitVec.getLsbD_twoPow, decide_eq_true (show d.toNat / 2 < 32 by omega), Bool.true_and, ← decide_not]

theorem Stream.getC_setS_ne {x : Stream} {d : SReg} {v : Word} {n : BitVec 5} (h : d.toNat / 2 ≠ n.toNat) :
    (x.setS d v).getC (.c n) = x.getC (.c n) := by
  by_cases hd : d = 0
  · rw [hd, Stream.setS_zero]
  by_cases hn : n = 0
  · rw [hn, Stream.getC_null, Stream.getC_null]
  have hhi : hiReg n ≠ d := fun he => h (by rw [← he, toNat_hiReg]; omega)
  have hlo : loReg n ≠ d := fun he => h (by rw [← he, toNat_loReg]; omega)
  rw [Stream.getC_pair _ hn, Stream.getC_pair _ hn, Stream.getS_setS_ne _ _ _ _ hhi, Stream.getS_setS_ne _ _ _ _ hlo,
    Stream.tags_setS hd hn, decide_eq_true h, Bool.and_true]

/-- A pair that is tagged after a scalar write was not written. -/
theorem Stream.getC_setS_of_tag {x : Stream} {d : SReg} {v : Word} {c : CapReg}
    (h : ((x.setS d v).getC c).tag = true) : (x.setS d v).getC c = x.getC c := by
  by_cases hd : d = 0
  · rw [hd, Stream.setS_zero]
  cases c with
  | cpv => simp only [Stream.getC, Stream.setS_cpv, Stream.setS_cpvTag]
  | c n =>
    by_cases hn : n = 0
    · rw [hn, Stream.getC_null, Stream.getC_null]
    · rw [Stream.getC_pair _ hn, Stream.tags_setS hd hn, Bool.and_eq_true, decide_eq_true_eq] at h
      exact Stream.getC_setS_ne h.2

/-- A capability write puts both registers of the pair and the tag (R119). -/
theorem Stream.getC_setC {x : Stream} {n : BitVec 5} {v : Cap} (hn : n ≠ 0) : (x.setC (.c n) v).getC (.c n) = v := by
  have hn' : n.toNat ≠ 0 := fun he => hn (BitVec.eq_of_toNat_eq he)
  have hhi : hiReg n ≠ 0 := fun he => absurd (toNat_hiReg n) (by rw [he]; exact Nat.succ_ne_zero _ ∘ Eq.symm)
  have hlo : loReg n ≠ 0 := fun he => by
    have h := toNat_loReg n
    rw [he, show (0 : SReg).toNat = 0 from rfl] at h
    omega
  have hne : loReg n ≠ hiReg n := fun he => by
    have h1 := toNat_loReg n
    rw [he, toNat_hiReg] at h1
    omega
  have hbits : v.bits.extractLsb' 64 64 ++ v.bits.extractLsb' 0 64 = v.bits :=
    BitVec.extractLsb'_append_extractLsb'_eq_extractLsb' (by rfl) |>.trans (by simp)
  generalize hy : (x.setS (loReg n) (v.bits.extractLsb' 0 64)).setS (hiReg n) (v.bits.extractLsb' 64 64) = y
  have hyhi : y.getS (hiReg n) = v.bits.extractLsb' 64 64 := by rw [← hy, Stream.getS_setS _ _ _ hhi]
  have hylo : y.getS (loReg n) = v.bits.extractLsb' 0 64 := by
    rw [← hy, Stream.getS_setS_ne _ _ _ _ hne, Stream.getS_setS _ _ _ hlo]
  have hytag : y.tags.getLsbD n.toNat = false := by
    rw [← hy, Stream.tags_setS hhi hn, toNat_hiReg, decide_eq_false (by omega), Bool.and_false]
  have hset : x.setC (.c n) v = if v.tag then { y with tags := y.tags ||| tagBit n.toNat } else y := by
    rw [← hy]
    exact if_neg hn
  rw [hset]
  cases ht : v.tag with
  | false =>
    rw [if_neg Bool.false_ne_true, Stream.getC_pair _ hn, hyhi, hylo, hytag, hbits, ← ht]
  | true =>
    rw [if_pos rfl, Stream.getC_pair _ hn]
    have htag : (y.tags ||| tagBit n.toNat).getLsbD n.toNat = true := by
      rw [tagBit, if_neg hn', BitVec.getLsbD_or, BitVec.getLsbD_twoPow]
      simp [n.isLt]
    rw [htag]
    show Cap.mk (y.getS (hiReg n) ++ y.getS (loReg n)) true = v
    rw [hyhi, hylo, hbits, ← ht]

theorem Stream.getC_setC_ne {x : Stream} {n m : BitVec 5} {v : Cap} (h : m ≠ n) :
    (x.setC (.c n) v).getC (.c m) = x.getC (.c m) := by
  have hnm : n.toNat ≠ m.toNat := fun he => h (BitVec.eq_of_toNat_eq he.symm)
  by_cases hn : n = 0
  · rw [hn, Stream.setC_null]
  by_cases hm : m = 0
  · rw [hm, Stream.getC_null, Stream.getC_null]
  have hn' : n.toNat ≠ 0 := fun he => hn (BitVec.eq_of_toNat_eq he)
  generalize hy : (x.setS (loReg n) (v.bits.extractLsb' 0 64)).setS (hiReg n) (v.bits.extractLsb' 64 64) = y
  have hym : y.getC (.c m) = x.getC (.c m) := by
    rw [← hy, Stream.getC_setS_ne (by rw [toNat_hiReg]; omega), Stream.getC_setS_ne (by rw [toNat_loReg]; omega)]
  have hset : x.setC (.c n) v = if v.tag then { y with tags := y.tags ||| tagBit n.toNat } else y := by
    rw [← hy]
    exact if_neg hn
  rw [hset, ← hym]
  split
  · rw [Stream.getC_pair _ hm, Stream.getC_pair _ hm, tagBit, if_neg hn', BitVec.getLsbD_or, BitVec.getLsbD_twoPow,
      decide_eq_false (p := n.toNat = m.toNat) hnm, Bool.and_false, Bool.or_false]
    rfl
  · rfl

end Sys2Proof.Machine

/-! ## Authority: what a computation of the user stream leaves as it was -/

namespace Sys2Proof.Machine

/-! ### Two streams -/

/-- The registers of a stream that only the firmware context writes: the capability cpv, the root, `VPOS` and
`CTXCFG`. -/
def Stream.roots (x : Stream) : Quad × Bool × Word × Word × Word := (x.cpv, x.cpvTag, x.ctxroot, x.vpos, x.ctxcfg)

/-- Every tagged capability of `y` is that of the same register of `x` (R119). -/
structure Stream.SameCaps (x y : Stream) : Prop where
  roots : y.roots = x.roots
  caps : ∀ c, (y.getC c).tag = true → y.getC c = x.getC c

/-- The same, and `y` has entered no native code. -/
structure Stream.Keeps (x y : Stream) : Prop extends Stream.SameCaps x y where
  native : x.native = none → y.native = none

/-- Every tagged capability of `y` is one of `x`, a narrower one, or an entry of a capability table of the code objects
(R122, R170, R172). -/
structure Stream.Derives (objs : List CodeObject) (x y : Stream) : Prop where
  roots : y.roots = x.roots
  caps : ∀ c, (y.getC c).tag = true →
    (∃ c', (x.getC c').tag = true ∧ (y.getC c = x.getC c' ∨ narrower (y.getC c).fields (x.getC c').fields = true)) ∨
      ∃ o ∈ objs, (y.getC c).bits ∈ o.caps

section
variable {x y z : Stream} {objs : List CodeObject}

theorem Stream.getC_cpv_of_roots (h : y.roots = x.roots) : y.getC .cpv = x.getC .cpv := by
  simp only [Stream.roots, Prod.mk.injEq] at h
  obtain ⟨hcpv, htag, -⟩ := h
  simp only [Stream.getC, hcpv, htag]

theorem Stream.SameCaps.of_registers (hs : y.s = x.s) (ht : y.tags = x.tags)
    (hr : (y.cpv, y.cpvTag, y.ctxroot, y.vpos, y.ctxcfg) = (x.cpv, x.cpvTag, x.ctxroot, x.vpos, x.ctxcfg)) :
    x.SameCaps y := by
  refine ⟨hr, fun c _ => ?_⟩
  cases c with
  | cpv => exact Stream.getC_cpv_of_roots hr
  | c n =>
    unfold Stream.getC Stream.getS
    rw [hs, ht]

theorem Stream.SameCaps.trans (h : x.SameCaps y) (h' : y.SameCaps z) : x.SameCaps z :=
  ⟨h'.roots.trans h.roots, fun c hc => (h'.caps c hc).trans (h.caps c (h'.caps c hc ▸ hc))⟩

theorem Stream.SameCaps.derives (h : x.SameCaps y) : Stream.Derives objs x y :=
  ⟨h.roots, fun c hc => .inl ⟨c, h.caps c hc ▸ hc, .inl (h.caps c hc)⟩⟩

theorem Stream.Keeps.of_registers (hs : y.s = x.s) (ht : y.tags = x.tags)
    (hr : (y.cpv, y.cpvTag, y.ctxroot, y.vpos, y.ctxcfg) = (x.cpv, x.cpvTag, x.ctxroot, x.vpos, x.ctxcfg))
    (hn : y.native = x.native) : x.Keeps y := ⟨.of_registers hs ht hr, fun h => hn.trans h⟩

theorem Stream.Keeps.refl (x : Stream) : x.Keeps x := .of_registers rfl rfl rfl rfl

theorem Stream.Keeps.trans (h : x.Keeps y) (h' : y.Keeps z) : x.Keeps z :=
  ⟨h.toSameCaps.trans h'.toSameCaps, fun hn => h'.native (h.native hn)⟩

/-- A derivation from a stream with no more authority is one from the stream itself. -/
theorem Stream.Keeps.derives_trans (h : x.Keeps y) (h' : Stream.Derives objs y z) : Stream.Derives objs x z := by
  refine ⟨h'.roots.trans h.roots, fun c hc => ?_⟩
  obtain ⟨c', hc', hd⟩ | ho := h'.caps c hc
  · have hsame := h.caps c' hc'
    rw [hsame] at hc' hd
    exact .inl ⟨c', hc', hd⟩
  · exact .inr ho

theorem Stream.Derives.keeps_trans (h : Stream.Derives objs x y) (h' : y.Keeps z) : Stream.Derives objs x z := by
  refine ⟨h'.roots.trans h.roots, fun c hc => ?_⟩
  have hsame := h'.caps c hc
  rw [hsame] at hc ⊢
  exact h.caps c hc

theorem Stream.Keeps.derives (h : x.Keeps y) : Stream.Derives objs x y := h.toSameCaps.derives

/-! ### Register writes -/

theorem Stream.keeps_setS {d : SReg} {v : Word} : x.Keeps (x.setS d v) where
  roots := by simp only [Stream.roots, Stream.setS_cpv, Stream.setS_cpvTag, Stream.setS_ctxroot, Stream.setS_vpos,
    Stream.setS_ctxcfg]
  caps _ h := Stream.getC_setS_of_tag h
  native h := by rw [Stream.setS_native, h]

theorem Stream.keeps_setV {d : VReg} {v : Vec} : x.Keeps (x.setV d v) := .of_registers rfl rfl rfl rfl

theorem Stream.keeps_setP {d : PReg} {b : Bool} : x.Keeps (x.setP d b) := by
  unfold Stream.setP
  split
  · exact .refl x
  · exact .of_registers rfl rfl rfl rfl

theorem Stream.keeps_raise {fl : FpFlags} : x.Keeps (x.raise fl) := .of_registers rfl rfl rfl rfl

theorem Stream.keeps_advance : x.Keeps x.advance := .of_registers rfl rfl rfl rfl

theorem Stream.keeps_setPair {d : BitVec 5} {q : Quad} : x.Keeps (x.setPair d q) := by
  unfold Stream.setPair
  split
  · exact .refl x
  · exact Stream.keeps_setS.trans Stream.keeps_setS

theorem Stream.WritesField.keeps {d : BitVec 6} (h : x.WritesField d y) : x.Keeps y := by
  obtain rfl | ⟨_, rfl⟩ | ⟨_, rfl⟩ | ⟨_, rfl⟩ := h
  · exact .refl y
  · exact Stream.keeps_setS
  · exact Stream.keeps_setV
  · exact Stream.keeps_setP

/-- A capability register other than cpv receives a capability that is untagged, narrower than a tagged one
of the stream, or an entry of a capability table. -/
theorem Stream.derives_setC {n : BitVec 5} {v : Cap}
    (h : v.tag = true → (∃ c', (x.getC c').tag = true ∧ narrower v.fields (x.getC c').fields = true) ∨
      ∃ o ∈ objs, v.bits ∈ o.caps) : Stream.Derives objs x (x.setC (.c n) v) := by
  by_cases hn : n = 0
  · rw [hn, Stream.setC_null]
    exact (Stream.Keeps.refl x).derives
  have hroots : (x.setC (.c n) v).roots = x.roots := by
    unfold Stream.setC
    simp only [if_neg hn]
    split <;> exact (Stream.keeps_setS.trans Stream.keeps_setS).roots
  refine ⟨hroots, fun c hc => ?_⟩
  have hother (hsame : (x.setC (.c n) v).getC c = x.getC c) :
      ∃ c', (x.getC c').tag = true ∧ ((x.setC (.c n) v).getC c = x.getC c' ∨
        narrower ((x.setC (.c n) v).getC c).fields (x.getC c').fields = true) := ⟨c, hsame ▸ hc, .inl hsame⟩
  cases c with
  | cpv => exact .inl (hother (Stream.getC_cpv_of_roots hroots))
  | c m =>
    by_cases hm : m = n
    · subst hm
      rw [Stream.getC_setC hn] at hc ⊢
      exact (h hc).imp_left fun ⟨c', hc', hd⟩ => ⟨c', hc', .inr hd⟩
    · exact .inl (hother (Stream.getC_setC_ne hm))

end

/-! ### Two tiles, and two states -/

/-- What of a tile no instruction of its user stream changes: the firmware context, the areas, the deadlines and the
node. -/
def Tile.fixed (x : Tile) : Stream × Word × Word × Word × Word × Word × Option Nat :=
  (x.fw, x.tsave, x.pmbase, x.spbase, x.dlcall, x.dlhard, x.node)

/-- The user streams of two tiles are related, and what a user stream leaves alone is the same. -/
structure Tile.Frame (R : Stream → Stream → Prop) (x y : Tile) : Prop where
  fixed : y.fixed = x.fixed
  user : R x.user y.user

/-- Two states of one step, related at a tile. -/
structure State.Frame (R : Stream → Stream → Prop) (t : TileId) (s s' : State) : Prop where
  cur : s'.cur = s.cur
  tile : Tile.Frame R (s.tile t) (s'.tile t)

section
variable {R R' R'' : Stream → Stream → Prop} {t : TileId} {s s' s'' : State}

theorem Tile.Frame.refl (x : Tile) : Tile.Frame Stream.Keeps x x := ⟨rfl, .refl _⟩

theorem State.Frame.refl (s : State) : State.Frame Stream.Keeps t s s := ⟨rfl, .refl _⟩

theorem State.Frame.comp (hR : ∀ x y z, R x y → R' y z → R'' x z) (h : State.Frame R t s s')
    (h' : State.Frame R' t s' s'') : State.Frame R'' t s s'' :=
  ⟨h'.cur.trans h.cur, h'.tile.fixed.trans h.tile.fixed, hR _ _ _ h.tile.user h'.tile.user⟩

theorem State.Frame.mono (hR : ∀ x y, R x y → R' x y) (h : State.Frame R t s s') : State.Frame R' t s s' :=
  ⟨h.cur, h.tile.fixed, hR _ _ h.tile.user⟩

theorem State.Frame.trans (h : State.Frame Stream.Keeps t s s') (h' : State.Frame Stream.Keeps t s' s'') :
    State.Frame Stream.Keeps t s s'' := h.comp (R' := Stream.Keeps) (fun _ _ _ => Stream.Keeps.trans) h'

theorem State.Frame.sameCaps (h : State.Frame Stream.Keeps t s s') : State.Frame Stream.SameCaps t s s' :=
  h.mono fun _ _ h => h.toSameCaps

theorem State.SameTiles.frame (h : s.SameTiles s') : State.Frame Stream.Keeps t s s' := by
  refine ⟨h.cur, ?_⟩
  rw [h.tile]
  exact .refl _

theorem State.SameButMmu.frame (h : s.SameButMmu s') : State.Frame Stream.Keeps t s s' := by
  obtain ⟨m, hm⟩ := h.tile t
  refine ⟨h.cur, ?_⟩
  rw [hm]
  exact ⟨rfl, .refl _⟩

theorem State.Frame.setTile {x : Tile} (h : Tile.Frame R (s.tile t) x) : State.Frame R t s (s.setTile t x) :=
  ⟨rfl, by rw [State.tile_setTile]; exact h⟩

/-- Another tile may change at will. -/
theorem State.Frame.setTile_of {u : TileId} {x : Tile} (h : t = u → Tile.Frame Stream.Keeps (s.tile u) x) :
    State.Frame Stream.Keeps t s (s.setTile u x) := by
  by_cases hu : t = u
  · subst hu
    exact .setTile (h rfl)
  · exact ⟨rfl, by rw [State.tile_setTile_ne _ _ _ _ hu]; exact .refl _⟩

/-- A function of the state that is folded over a list keeps what each of its steps keeps. -/
theorem State.Frame.foldl {α : Type} {f : State → α → State} (h : ∀ s a, State.Frame Stream.Keeps t s (f s a))
    (l : List α) (s : State) : State.Frame Stream.Keeps t s (l.foldl f s) :=
  List.foldlRecOn l f (motive := State.Frame Stream.Keeps t s) (.refl s) fun _ hb a _ => hb.trans (h _ a)

end

/-! ### Computations of a user stream -/

/-- The step is that of a user stream of a node, outside native code. -/
structure State.UserCode (s : State) : Prop where
  side : s.cur.side = .user
  native : (s.tile s.cur.tile).user.native = none
  node : (s.tile s.cur.tile).node ≠ none

theorem State.UserCode.str {s : State} (h : s.UserCode) : s.str = (s.tile s.cur.tile).user := State.str_of_user h.side

theorem State.UserCode.isUser {s : State} (h : s.UserCode) : s.isUser = true := by
  rw [State.isUser, h.side]
  rfl

theorem State.UserCode.of_frame {s s' : State} (h : s.UserCode) (hf : State.Frame Stream.Keeps s.cur.tile s s') :
    s'.UserCode where
  side := by rw [hf.cur, h.side]
  native := by
    rw [hf.cur]
    exact hf.tile.user.native h.native
  node := by
    have hn : (s'.tile s.cur.tile).node = (s.tile s.cur.tile).node := by
      have h := hf.tile.fixed
      simp only [Tile.fixed, Prod.mk.injEq] at h
      exact h.2.2.2.2.2.2
    rw [hf.cur, hn]
    exact h.node

/-- A change of the current stream. -/
theorem State.UserCode.frame_setStr {R : Stream → Stream → Prop} {s : State} {y : Stream} (h : s.UserCode)
    (hy : R s.str y) : State.Frame R s.cur.tile s (s.setStr y) := by
  rw [h.str] at hy
  rw [State.setStr, State.here, h.side]
  exact .setTile ⟨rfl, hy⟩

/-- From a state, a computation of a user stream that answers relates the stream as `R` says, and one that stops leaves
the stream its authority. -/
def M.FramesAt {α : Type} (R : Stream → Stream → Prop) (m : M α) (s : State) : Prop :=
  s.UserCode → (∀ a t, m s = .ok a t → State.Frame R s.cur.tile s t) ∧
    ∀ e t, m s = .error e t → State.Frame Stream.Keeps s.cur.tile s t

/-- A computation that leaves a user stream the authority it has, outside native code. -/
def M.Keeps {α : Type} (m : M α) : Prop := ∀ s, M.FramesAt Stream.Keeps m s

/-- A computation with which an instruction of a user stream ends: it may derive capabilities and enter native code. -/
def M.Ends {α : Type} (objs : List CodeObject) (m : M α) : Prop := ∀ s, M.FramesAt (Stream.Derives objs) m s

section
variable {α β : Type} {R : Stream → Stream → Prop} {m : M α} {f : α → M β} {s t : State} {objs : List CodeObject}

theorem M.FramesAt.of_ok {a : α} (hm : m s = .ok a t) (h : s.UserCode → State.Frame R s.cur.tile s t) :
    M.FramesAt R m s := fun hs => by
  refine ⟨fun b u hb => ?_, fun e u he => ?_⟩
  · rw [hm] at hb
    cases hb
    exact h hs
  · rw [hm] at he
    cases he

theorem M.FramesAt.of_error {e : Stop} (hm : m s = .error e t)
    (h : s.UserCode → State.Frame Stream.Keeps s.cur.tile s t) : M.FramesAt R m s := fun hs => by
  refine ⟨fun b u hb => ?_, fun e u he => ?_⟩
  · rw [hm] at hb
    cases hb
  · rw [hm] at he
    cases he
    exact h hs

/-- A sequence: what goes on from the answer of the first part. -/
theorem M.FramesAt.bind (hR : ∀ x y z, Stream.Keeps x y → R y z → R x z) (hm : M.FramesAt Stream.Keeps m s)
    (hf : ∀ a t, m s = .ok a t → M.FramesAt R (f a) t) : M.FramesAt R (m >>= f) s := fun hs => by
  obtain ⟨hok, herr⟩ := hm hs
  cases hms : m s with
  | error e u =>
    rw [M.bind_error hms]
    refine ⟨nofun, fun _ _ h => ?_⟩
    cases h
    exact herr _ _ hms
  | ok a u =>
    have hu := hok a u hms
    have hcur := hu.cur
    obtain ⟨hok', herr'⟩ := hf a u hms (hs.of_frame hu)
    rw [M.bind_ok hms]
    rw [hcur] at hok' herr'
    exact ⟨fun b v h => hu.comp hR (hok' b v h), fun e v h => hu.trans (herr' e v h)⟩

/-- A sequence that first looks at the state. -/
theorem M.FramesAt.read {a : α} (hm : m s = .ok a s) (h : M.FramesAt R (f a) s) : M.FramesAt R (m >>= f) s :=
  fun hs => by
    rw [M.bind_ok hm]
    exact h hs

theorem M.FramesAt.get {f : State → M β} (h : M.FramesAt R (f s) s) : M.FramesAt R (get >>= f) s := .read rfl h

theorem M.FramesAt.str {f : Stream → M β} (h : M.FramesAt R (f s.str) s) : M.FramesAt R (M.str >>= f) s := .read rfl h

theorem M.FramesAt.throw {e : Stop} : M.FramesAt R (MonadExcept.throw e : M α) s := .of_error rfl fun _ => .refl s

theorem M.FramesAt.trap {c : BitVec 8} {a : Word} : M.FramesAt R (M.trap c a : M α) s := .of_error rfl fun _ => .refl s

theorem M.FramesAt.throw_bind {e : Stop} : M.FramesAt R ((MonadExcept.throw e : M α) >>= f) s :=
  .of_error rfl fun _ => .refl s

theorem M.FramesAt.trap_bind {c : BitVec 8} {a : Word} : M.FramesAt R ((M.trap c a : M α) >>= f) s :=
  .of_error rfl fun _ => .refl s

theorem M.FramesAt.set (h : s.UserCode → State.Frame R s.cur.tile s t) : M.FramesAt R (set t : M PUnit) s :=
  .of_ok rfl h

theorem M.FramesAt.modify {g : State → State} (h : s.UserCode → State.Frame R s.cur.tile s (g s)) :
    M.FramesAt R (modify g : M PUnit) s := .of_ok rfl h

theorem M.FramesAt.mod {g : Stream → Stream} (h : R s.str (g s.str)) : M.FramesAt R (M.mod g) s :=
  .of_ok rfl fun hs => hs.frame_setStr h

theorem M.Keeps.pure {a : α} : M.Keeps (pure a : M α) := fun s => .of_ok rfl fun _ => .refl s

theorem M.Keeps.throw {e : Stop} : M.Keeps (throw e : M α) := fun _ => .throw

theorem M.Keeps.trap {c : BitVec 8} {a : Word} : M.Keeps (M.trap c a : M α) := fun _ => .trap

theorem M.Keeps.bind (hm : M.Keeps m) (hf : ∀ a, M.Keeps (f a)) : M.Keeps (m >>= f) := fun s =>
  (hm s).bind (fun _ _ _ => Stream.Keeps.trans) fun a t _ => hf a t

theorem M.Keeps.then (hm : M.Keeps m) (hf : ∀ a, M.Ends objs (f a)) : M.Ends objs (m >>= f) := fun s =>
  (hm s).bind (fun _ _ _ => Stream.Keeps.derives_trans) fun a t _ => hf a t

theorem M.Keeps.ends (hm : M.Keeps m) : M.Ends objs m := fun s hs =>
  ⟨fun a t h => ((hm s hs).1 a t h).mono fun _ _ => Stream.Keeps.derives, (hm s hs).2⟩

theorem M.Keeps.get {f : State → M β} (h : ∀ s, M.FramesAt Stream.Keeps (f s) s) : M.Keeps (get >>= f) :=
  fun s => .get (h s)

theorem M.FramesAt.set_bind {f : PUnit → M β} (h : s.UserCode → State.Frame Stream.Keeps s.cur.tile s t)
    (hf : ∀ u, M.Keeps (f u)) : M.FramesAt Stream.Keeps (MonadStateOf.set t >>= f) s :=
  .bind (fun _ _ _ => Stream.Keeps.trans) (.set h) fun u v _ => hf u v

theorem M.Keeps.str {f : Stream → M β} (h : ∀ x, M.Keeps (f x)) : M.Keeps (M.str >>= f) := fun s => .str (h _ s)

theorem M.Keeps.mod {g : Stream → Stream} (h : ∀ x, Stream.Keeps x (g x)) : M.Keeps (M.mod g) := fun _ => .mod (h _)

theorem M.Keeps.next : M.Keeps M.next := .mod fun _ => Stream.keeps_advance

theorem M.Keeps.modify {g : State → State} (h : ∀ s : State, State.Frame Stream.Keeps s.cur.tile s (g s)) :
    M.Keeps (modify g : M PUnit) := fun s => .modify fun _ => h s

theorem M.Keeps.modTile {g : Tile → Tile} (h : ∀ x, Tile.Frame Stream.Keeps x (g x)) : M.Keeps (M.modTile g) := fun s =>
  .of_ok (M.modTile_apply g s) fun _ => .setTile (h _)

theorem M.Keeps.mapM {g : α → M β} (h : ∀ a, M.Keeps (g a)) (l : List α) : M.Keeps (l.mapM g) := by
  induction l with
  | nil => exact .pure
  | cons a l ih =>
    rw [List.mapM_cons]
    exact (h a).bind fun _ => ih.bind fun _ => .pure

theorem M.Keeps.forM {g : α → M PUnit} (h : ∀ a, M.Keeps (g a)) (l : List α) : M.Keeps (l.forM g) := by
  induction l with
  | nil => exact .pure
  | cons a l ih => exact (h a).bind fun _ => ih

end

end Sys2Proof.Machine

/-! ## Authority: device registers, translations and the accesses of a stream -/

namespace Sys2Proof.Machine

/-! ### A write of a device register -/

section
variable {t : TileId} {s : State}

theorem State.frame_setCtx {c : CtxId} {x : Ctx} : State.Frame Stream.Keeps t s (s.setCtx c x) :=
  (s.setCtx_sameTiles c x).frame

/-- A tile whose staging is taken off keeps its stream. -/
theorem State.frame_unstage {n : Nat} : State.Frame Stream.Keeps t s (s.unstage n) := by
  refine ⟨rfl, ?_⟩
  simp only [State.unstage, State.tile, Vector.getElem_map]
  generalize s.tiles[t.toNat] = x
  split
  · exact .refl x
  · split
    · refine ⟨rfl, ?_⟩
      dsimp only
      split
      · exact .of_registers rfl rfl rfl rfl
      · exact .refl _
    · exact .refl x

theorem State.frame_returnStaged {c : CtxId} : State.Frame Stream.Keeps t s (s.returnStaged c) := by
  unfold State.returnStaged
  split
  · exact .foldl (fun s x =>
      (State.frame_unstage.trans (State.mapNode_sameTiles ..).frame).trans State.frame_setCtx) _ s
  · exact State.frame_setCtx

theorem State.frame_gangSlot : State.Frame Stream.Keeps t s s.gangSlot :=
  .trans (s' := { s with gslot := s.slotNow }) (State.SameTiles.frame ⟨rfl, rfl⟩)
    (.foldl (fun _ _ => State.frame_returnStaged) _ _)

theorem State.frame_enterReset {u : TileId} (h : t ≠ u) : State.Frame Stream.Keeps t s (s.enterReset u) := by
  unfold State.enterReset
  exact .trans (s' := { s with peerOut := s.peerOut.filter (·.tile != u) }.clearCistern u)
    (State.SameTiles.frame ⟨rfl, rfl⟩) (.setTile_of fun he => absurd he h)

/-- The tile of a node that runs is not reset (R349). -/
theorem State.frame_writeTcfg {u : TileId} {v : Word} (h : (s.tile t).node ≠ none) :
    State.Frame Stream.Keeps t s (s.writeTcfg u v) := by
  have hfwsh : State.Frame Stream.Keeps t s (s.setTile u { s.tile u with fwsh := v.extractLsb' 0 4 }) :=
    .setTile_of fun _ => ⟨rfl, .refl _⟩
  unfold State.writeTcfg State.releaseTile
  dsimp only
  split
  · split
    · exact hfwsh.trans (.setTile_of fun _ => ⟨rfl, .refl _⟩)
    · exact hfwsh
  · split
    · next hr =>
      have hne : t ≠ u := by
        rintro rfl
        simp only [Tile.resettable, Bool.and_eq_true, Option.isNone_iff_eq_none] at hr
        exact h hr.1.2
      exact hfwsh.trans (State.frame_enterReset hne)
    · exact .refl s

theorem State.frame_writeRing {r : RingReg} {v : Word} : State.Frame Stream.Keeps t s (s.writeRing r v) := by
  cases r with
  | cftail =>
    exact .trans (s' := { s with rings := { s.rings with cftail := v } }) (State.SameTiles.frame ⟨rfl, rfl⟩)
      (State.flushRecords_sameTiles _).frame
  | cfbase | cfsize | cfhead | elbase | elsize | elhead | eltail | ellost => exact State.SameTiles.frame ⟨rfl, rfl⟩

theorem State.frame_writeGrant {a : Agent} {e : BitVec 6} {v : Quad} :
    State.Frame Stream.Keeps t s (s.writeGrant a e v) := by
  cases a <;> exact State.SameTiles.frame ⟨rfl, rfl⟩

theorem State.frame_writeGroup {e : BitVec 8} {d : BitVec 6} {v : Word} :
    State.Frame Stream.Keeps t s (s.writeGroup e d v) := by
  unfold State.writeGroup
  dsimp only
  split
  · split <;> exact State.SameTiles.frame ⟨rfl, rfl⟩
  · split <;> exact State.SameTiles.frame ⟨rfl, rfl⟩

theorem State.frame_writeCtx {c : CtxId} {r : CtxReg} {v : Word} : State.Frame Stream.Keeps t s (s.writeCtx c r v) := by
  cases r with
  | submit =>
    simp only [State.writeCtx, State.submit]
    split <;> exact State.frame_setCtx
  | substat =>
    simp only [State.writeCtx]
    split
    · exact State.frame_setCtx
    · exact .refl s
  | evvec => exact .refl s
  | evset | evclr | jobtag => exact State.frame_setCtx
  | hold | gsmask => exact State.frame_setCtx.trans State.frame_returnStaged

theorem State.frame_devWrite {a : Agent} {r : DevReg} {q : Quad} (h : (s.tile t).node ≠ none) :
    State.Frame Stream.Keeps t s (s.devWrite a r q) := by
  cases r with
  | xinval | attnonce | pciwin => exact State.SameTiles.frame ⟨rfl, rfl⟩
  | xinvgen | dtstat | bootstat | domain => exact .refl s
  | gsbase =>
    exact .trans (s' := { s with gsbase := q.setWidth 64 }) (State.SameTiles.frame ⟨rfl, rfl⟩) State.frame_gangSlot
  | gsperiod =>
    exact .trans (s' := { s with gsperiod := q.setWidth 64 }) (State.SameTiles.frame ⟨rfl, rfl⟩) State.frame_gangSlot
  | ring => exact State.frame_writeRing
  | grant => exact State.frame_writeGrant
  | tcfg => exact State.frame_writeTcfg h
  | group => exact State.frame_writeGroup
  | attreq =>
    simp only [State.devWrite, State.writeAttreq]
    split
    · exact State.SameTiles.frame ⟨rfl, rfl⟩
    · exact .refl s
  | eth =>
    simp only [State.devWrite, State.writeEth]
    split
    · exact .refl s
    · exact State.SameTiles.frame ⟨rfl, rfl⟩
  | ctx => exact State.frame_writeCtx

end

/-! ### Translations -/

/-- What a translation that fails leaves behind (R34, R38). -/
theorem State.tried_sameButMmu (s : State) (t : TileId) (who : Walker) (root va : Word) (acc : Access) (user : Bool) :
    s.SameButMmu (s.tried t who root va acc user) := by
  unfold State.tried
  split
  · exact .refl s
  · split
    · exact s.beforeWalk_sameButMmu ..
    · next h => exact State.entryFor_sameButMmu h

theorem M.keeps_poisoned {α : Type} {t : TileId} {va : Word} {l : Nat} : M.Keeps (M.poisoned t va l : M α) :=
  .bind (.modify fun s => (s.logPoison_sameTiles t l).frame) fun _ => .trap

theorem M.keeps_translated {t : TileId} {who : Walker} {root va : Word} {acc : Access} {user : Bool} :
    M.Keeps (M.translated t who root va acc user) := by
  refine .get fun s => ?_
  split
  · refine .set_bind (fun _ => (s.tried_sameButMmu ..).frame) fun _ => ?_
    split
    · exact M.keeps_poisoned
    · exact .trap
  · next htr =>
    split
    · exact .throw
    · exact .set_bind (fun _ => (translate_sameButMmu htr).frame) fun _ => .pure

/-! ### The accesses of a stream -/

theorem M.keeps_single {p : Phys} : M.Keeps (M.single p) := by
  refine .get fun s => ?_
  split
  · exact .throw
  · exact M.Keeps.pure s

theorem M.keeps_capCheck {c : Cap} {k : Need} {off : Word} {n : Nat} : M.Keeps (M.capCheck c k off n) := by
  unfold M.capCheck
  split
  · exact .trap
  · exact .pure

theorem M.keeps_aligned {va : Word} {n : Nat} : M.Keeps (M.aligned va n) := by
  unfold M.aligned
  split
  · exact .trap
  · exact .pure

theorem M.keeps_locate {c : Cap} {k : Need} {off : Word} {n align : Nat} : M.Keeps (M.locate c k off n align) :=
  M.keeps_capCheck.bind fun _ => M.keeps_aligned.bind fun _ => .pure

theorem M.keeps_part {mask : Option Word} {va : Word} {n : Nat} {acc : Access} : M.Keeps (M.part mask va n acc) := by
  refine .get fun s => M.Keeps.bind M.keeps_translated (fun p => .get fun s' => ?_) s
  -- the two lookups of the address are opaque here: the kernel would unfold their bounds
  generalize regionOf p.pa = region
  generalize devRegOf (swizzled mask va.toNat p.pa 0) n = reg
  cases region with
  | device =>
    cases reg with
    | none => exact .trap
    | some r => exact M.keeps_single.bind (fun _ => .pure) s'
  | hbm => exact M.keeps_single.bind (fun _ => .pure) s'
  | cistern => exact M.keeps_single.bind (fun _ => .pure) s'
  | hole => exact .trap

theorem M.keeps_lines {t : TileId} {p : Part} : M.Keeps (M.lines t p) := by
  unfold M.lines
  split
  · exact .pure
  · refine .forM (fun l => .get fun s => ?_) _
    split
    · exact .throw
    · split
      · exact M.keeps_poisoned s
      · exact M.Keeps.pure s

theorem M.keeps_ownLines {p : Part} : M.Keeps (M.ownLines p) := .get fun s => M.keeps_lines s

theorem M.keeps_parts {mask : Option Word} {va : Word} {n : Nat} {acc : Access} : M.Keeps (M.parts mask va n acc) :=
  .mapM (fun _ => M.keeps_part) _

theorem M.keeps_loadParts {mask : Option Word} {va : Word} {n : Nat} : M.Keeps (M.loadParts mask va n) :=
  .mapM (fun _ => M.keeps_part.bind fun _ => M.keeps_ownLines.bind fun _ => .pure) _

theorem M.keeps_readPart {p : Part} : M.Keeps (M.readPart p) := by
  refine .get fun s => ?_
  split
  · exact .set_bind (fun _ => (s.devRead_sameTiles _).frame) fun _ => .pure
  · dsimp only
    split <;> exact M.Keeps.pure s

/-- Outside native code a store is performed; the tile's own reset is out of its reach. -/
theorem M.keeps_writePart {p : Part} {bs : List Byte} : M.Keeps (M.writePart p bs) := by
  refine .get fun s => ?_
  split
  · exact .set fun hs => State.frame_devWrite hs.node
  · split
    · exact .set fun _ => (s.writePart_sameTiles ..).frame
    · next x hx =>
      intro hs
      rw [Stream.region, hs.str, hs.native] at hx
      cases hx

theorem M.keeps_readParts {ps : List Part} : M.Keeps (M.readParts ps) :=
  (M.Keeps.mapM (fun _ => M.keeps_readPart) _).bind fun _ => .pure

theorem M.keeps_writeParts {ps : List Part} {bs : List Byte} : M.Keeps (M.writeParts ps bs) := by
  induction ps generalizing bs with
  | nil => exact .pure
  | cons p ps ih => exact M.keeps_writePart.bind fun _ => ih

theorem M.keeps_mask {c : Cap} : M.Keeps (M.mask c) := .str fun _ => .pure

theorem M.keeps_load {c : Cap} {off : Word} {n align : Nat} : M.Keeps (M.load c off n align) :=
  M.keeps_locate.bind fun _ => M.keeps_mask.bind fun _ => M.keeps_loadParts.bind fun _ => M.keeps_readParts

theorem M.keeps_store {c : Cap} {off : Word} {bs : List Byte} {align : Nat} : M.Keeps (M.store c off bs align) :=
  M.keeps_locate.bind fun _ => M.keeps_mask.bind fun _ => M.keeps_parts.bind fun _ => M.keeps_writeParts

theorem M.keeps_loadS {m : MemS} {n align : Nat} : M.Keeps (M.loadS m n align) := .str fun _ => M.keeps_load

theorem M.keeps_storeS {m : MemS} {bs : List Byte} {align : Nat} : M.Keeps (M.storeS m bs align) :=
  .str fun _ => M.keeps_store

theorem M.keeps_atomicPart {c : Cap} {k : Need} {off : Word} {n align : Nat} {acc : Access} :
    M.Keeps (M.atomicPart c k off n align acc) :=
  M.keeps_locate.bind fun _ => M.keeps_mask.bind fun _ => M.keeps_part

theorem M.keeps_rmw {p : Part} {f : List Byte → Option (List Byte)} : M.Keeps (M.rmw p f) := by
  refine M.keeps_ownLines.bind fun _ => M.keeps_readPart.bind fun old => ?_
  split
  · exact .bind .pure fun _ => .pure
  · exact M.keeps_writePart.bind fun _ => .pure

end Sys2Proof.Machine

/-! ## Authority: traps, the return from a trap, and transfers of control -/

namespace Sys2Proof.Machine

section
variable {x y z : Stream} {s : State} {t : TileId}

theorem Stream.settle_of_native_none (h : x.native = none) : x.settle = x := by
  unfold Stream.settle
  rw [h]

/-! ### Traps and the return from one -/

theorem State.frame_takeTrap {cause : BitVec 8} {addr : Word} {imm : BitVec 16} (h : (s.tile t).user.native = none) :
    State.Frame Stream.Keeps t s (s.takeTrap t cause addr imm) := by
  obtain ⟨hcur, rejoin, callTime, fault, tcause, taddr, htile⟩ := s.takeTrap_tile t cause addr imm
  refine ⟨hcur, ?_⟩
  rw [htile]
  refine ⟨rfl, ?_⟩
  show Stream.Keeps _ ((s.tile t).user.trapped rejoin)
  rw [Stream.trapped, Stream.settle_of_native_none h]
  exact .of_registers rfl rfl rfl rfl

/-- A tag that is gathered from a list comes from one of its members. -/
theorem getLsbD_gathered {p : Fin 32 → Bool} {l : List (Fin 32)} {a : BitVec 32} {k : Nat}
    (h : (l.foldl (fun a n => if p n then a ||| BitVec.twoPow 32 n.val else a) a).getLsbD k = true) :
    a.getLsbD k = true ∨ ∃ n : Fin 32, n.val = k ∧ p n = true := by
  induction l generalizing a with
  | nil => exact .inl h
  | cons n l ih =>
    obtain ha | hn := ih h
    · dsimp only at ha
      split at ha
      · next hp =>
        rw [BitVec.getLsbD_or, BitVec.getLsbD_twoPow, Bool.or_eq_true, Bool.and_eq_true, decide_eq_true_eq,
          decide_eq_true_eq] at ha
        exact ha.imp_right fun ⟨_, hk⟩ => ⟨n, hk, hp⟩
      · exact .inl ha
    · exact .inr hn

/-- A restore sets a tag only on registers that hold what the save wrote (R380). -/
theorem State.keeps_restoreFrame {area : Nat} (hs : (s.tile t).savedS = (s.tile t).user.s)
    (ht : (s.tile t).savedTags = (s.tile t).user.tags) : Stream.Keeps (s.tile t).user (s.restoreFrame t area) := by
  refine ⟨⟨rfl, fun c hc => ?_⟩, fun h => h⟩
  cases c with
  | cpv => rfl
  | c n =>
    by_cases hn : n = 0
    · rw [hn, Stream.getC_null, Stream.getC_null]
    have hbit : (s.restoreFrame t area).tags.getLsbD n.toNat = true := by
      rw [Stream.getC_pair _ hn] at hc
      exact hc
    obtain h0 | ⟨k, hk, hrestored⟩ := getLsbD_gathered hbit
    · simp at h0
    rw [restoredTag, hs, ht] at hrestored
    simp only [Bool.and_eq_true, beq_iff_eq, hk] at hrestored
    obtain ⟨⟨⟨-, htag⟩, hlo⟩, hhi⟩ := hrestored
    rw [Stream.getC_pair _ hn, Stream.getC_pair _ hn, hbit, htag]
    have hreg (r : SReg) (h : (s.restoreFrame t area).s[r.toNat]'r.isLt = (s.tile t).user.s[r.toNat]'r.isLt) :
        (s.restoreFrame t area).getS r = (s.tile t).user.getS r := by
      unfold Stream.getS
      rw [h]
    rw [hreg (hiReg n) (by simp only [toNat_hiReg]; exact hhi), hreg (loReg n) (by simp only [toNat_loReg]; exact hlo)]

theorem State.frame_restoreStops {l : Nat} : State.Frame Stream.Keeps t s (s.restoreStops t l) := by
  unfold State.restoreStops
  dsimp only
  refine State.Frame.trans ?_ (State.reportFault_sameTiles ..).frame
  refine State.Frame.trans ?_ (.setTile ⟨rfl, .refl _⟩)
  split
  · exact (s.logPoison_sameTiles t l).frame.trans (State.writeReport_sameTiles ..).frame
  · exact (s.logPoison_sameTiles t l).frame

theorem State.frame_returnFromTrap (hs : (s.tile t).savedS = (s.tile t).user.s)
    (ht : (s.tile t).savedTags = (s.tile t).user.tags) : State.Frame Stream.Keeps t s (s.returnFromTrap t) := by
  unfold State.returnFromTrap
  dsimp only
  split
  · exact .refl s
  · split
    · exact State.frame_restoreStops
    · exact .setTile ⟨rfl, State.keeps_restoreFrame hs ht⟩

/-- A call that the layer does not have returns at once: the trap saved what the return restores (R224). -/
theorem State.frame_serveCall_takeTrap {cause : BitVec 8} {addr : Word} {imm : BitVec 16} {s4 : Word}
    (h : (s.tile t).user.native = none) :
    State.Frame Stream.Keeps t s ((s.takeTrap t cause addr imm).serveCall t (some s4) none) := by
  refine (State.frame_takeTrap (cause := cause) (addr := addr) (imm := imm) h).trans ?_
  obtain ⟨-, rejoin, callTime, fault, tcause, taddr, htile⟩ := s.takeTrap_tile t cause addr imm
  generalize s.takeTrap t cause addr imm = u at htile
  unfold State.serveCall
  dsimp only [Option.map, Option.getD]
  generalize hv : State.store (State.store u _ _) _ _ = v
  have huv : u.SameTiles v := hv ▸ (State.store_sameTiles ..).trans (State.store_sameTiles ..)
  refine huv.frame.trans (State.frame_returnFromTrap ?_ ?_) <;>
  · rw [huv.tile, htile]
    rfl

/-! ### Rendezvous and the end of a stream -/

theorem Tile.keeps_passRdv {x : Tile} {k : Nat} : Tile.Frame Stream.Keeps x (x.passRdv k) := by
  unfold Tile.passRdv
  split
  · split
    · exact ⟨rfl, .of_registers rfl rfl rfl rfl⟩
    · exact .refl x
  · exact .refl x

theorem State.frame_rendezvous {k : Nat} : State.Frame Stream.Keeps t s (s.rendezvous k) := by
  unfold State.rendezvous
  split
  · exact .refl s
  · exact (s.mapNode_sameTiles ..).frame.trans (.foldl (fun s u => .setTile_of fun _ => Tile.keeps_passRdv) _ _)

theorem State.frame_leave {st : StreamState} (h : (s.tile t).user.native = none) :
    State.Frame Stream.Keeps t s (s.leave t st) := by
  unfold State.leave
  dsimp only
  rw [Stream.settle_of_native_none h]
  have hset (callTime : Option (BitVec 8)) : State.Frame Stream.Keeps t s (s.setTile t { s.tile t with
      callTime := callTime
      user := { (s.tile t).user with
        state := st, wait := .none, calls := [], vamoTodo := [], woken := false, single := false, rejoin := none
        went := false, late := 0 } }) := .setTile ⟨rfl, .of_registers rfl rfl rfl rfl⟩
  split
  · exact hset none
  · exact (hset none).trans ((State.mapNode_sameTiles ..).frame.trans State.frame_rendezvous)

/-! ### Entering native code -/

theorem Stream.sameCaps_enter {npc : Word} {e : BitVec 256} : x.SameCaps (x.enter npc e) := .of_registers rfl rfl rfl

theorem State.frame_enterAt {npc : Word} {e : BitVec 256} : State.Frame Stream.SameCaps t s (s.enterAt t npc e) := by
  unfold State.enterAt
  dsimp only
  generalize hu : List.foldl _ s _ = u
  have hsu : s.SameTiles u := by
    rw [← hu]
    refine .foldl (fun s n => ?_) _ s
    split
    · exact s.pokeBytes_sameTiles ..
    · exact .refl s
  have htile : State.Frame Stream.SameCaps t u (u.setTile t { u.tile t with user := (s.tile t).user.enter npc e }) := by
    rw [← hsu.tile t]
    exact .setTile ⟨rfl, Stream.sameCaps_enter⟩
  exact hsu.frame.comp (R' := Stream.SameCaps) (fun _ _ _ h => h.toSameCaps.trans) htile

theorem State.frame_rejoined {rp : Word} {pmi : Nat} {e : BitVec 256} :
    State.Frame Stream.SameCaps t s (s.rejoined t rp pmi e) := by
  unfold State.rejoined
  dsimp only
  split
  · exact State.frame_enterAt
  · exact State.frame_enterAt.comp (R' := Stream.SameCaps) (fun _ _ _ => Stream.SameCaps.trans)
      (.setTile ⟨rfl, .of_registers rfl rfl rfl⟩)

theorem State.frame_dropRejoin {rp : Word} {pmi : Nat} : State.Frame Stream.Keeps t s (s.dropRejoin t rp pmi) :=
  (State.logPoisons_sameTiles ..).frame.trans (.setTile ⟨rfl, .of_registers rfl rfl rfl rfl⟩)

theorem State.translateRun_sameTiles {f : Func} {a n : Nat} {extra : Word} {u : State}
    (h : s.translateRun t f a n extra = some u) : s.SameTiles u := by
  unfold State.translateRun at h
  dsimp only at h
  split at h
  · cases h
  · split at h
    · cases h
    · cases h
      refine .trans ?_ (State.setCtx_sameTiles ..)
      refine .trans ?_ (State.store_sameTiles ..)
      exact .trans (s.logPoisons_sameTiles t _) (State.pokeBytes_sameTiles ..)

theorem State.translateAt_sameTiles {pc : Word} {u : State} (h : s.translateAt t pc = some u) : s.SameTiles u := by
  obtain ⟨f, -, h⟩ := Option.bind_eq_some_iff.mp h
  dsimp only at h
  split at h
  · cases h
    exact .refl s
  · split at h
    · exact State.translateRun_sameTiles h
    · exact State.translateRun_sameTiles h

/-- The state that a stream comes to. -/
def Next.state : Next → State
  | .native s => s
  | .replays s => s
  | .misses s => s

theorem State.frame_comesTo : State.Frame Stream.SameCaps t s (s.comesTo t).state := by
  have hlook (u : State) (hu : State.Frame Stream.Keeps t s u) (pc : Word) :
      State.Frame Stream.SameCaps t s (Next.state (match u.nativeFor t pc with
        | some npc => .native (u.enterAt t npc (placement pc))
        | none => .misses u)) := by
    split
    · exact hu.comp (R' := Stream.SameCaps) (fun _ _ _ h => h.toSameCaps.trans) State.frame_enterAt
    · exact hu.sameCaps
  unfold State.comesTo
  dsimp only
  split
  · exact hlook s (.refl s) _
  · split
    · split
      · exact State.frame_rejoined
      · exact (State.Frame.refl s).sameCaps
    · exact hlook _ State.frame_dropRejoin _

theorem State.frame_noteTranslation {addr : Word} : State.Frame Stream.Keeps t s (s.noteTranslation t addr) :=
  .setTile ⟨rfl, .refl _⟩

/-- Where a stream lands, in Juden code or in native code, its capabilities are those that it had (R300). -/
theorem State.frame_land : State.Frame Stream.SameCaps t s (s.land t) := by
  unfold State.land
  dsimp only
  split
  · exact (State.Frame.refl s).sameCaps
  · have hcome := s.frame_comesTo (t := t)
    generalize s.comesTo t = n at hcome
    cases n with
    | native u => exact hcome
    | replays u => exact hcome
    | misses u =>
      dsimp only
      split
      · exact hcome
      · next v hv =>
        have huv : u.SameTiles v := by
          split at hv
          · exact State.translateAt_sameTiles hv
          · cases hv
        have hnote := hcome.comp (R' := Stream.Keeps) (R'' := Stream.SameCaps)
          (fun _ _ _ h h' => h.trans h'.toSameCaps)
          (huv.frame.trans (State.frame_noteTranslation (addr := (s.tile t).user.pc)))
        split
        · exact hnote
        · exact hnote.comp (R' := Stream.SameCaps) (fun _ _ _ => Stream.SameCaps.trans) State.frame_enterAt

end

/-! ### Transfers of control -/

theorem M.ends_arrive {objs : List CodeObject} : M.Ends objs M.arrive := fun s => .modify fun hs => by
  rw [if_pos hs.isUser]
  exact State.frame_land.mono fun _ _ => Stream.SameCaps.derives

theorem M.ends_jumpTo {objs : List CodeObject} {target : Word} {rejoin : Option (Word × Nat)} :
    M.Ends objs (M.jumpTo target rejoin) := fun s => .get <| by
  dsimp only
  split
  · exact .set fun hs => (State.frame_leave hs.native).mono fun _ _ => Stream.Keeps.derives
  · refine M.Keeps.then ?_ (fun _ => M.ends_arrive) s
    exact .mod fun _ => .of_registers rfl rfl rfl rfl

theorem M.ends_jump {objs : List CodeObject} {target : Word} : M.Ends objs (M.jump target) := M.ends_jumpTo

theorem M.keeps_alignedTarget {target : Word} : M.Keeps (M.alignedTarget target) := by
  unfold M.alignedTarget
  dsimp only
  split
  · exact .trap
  · exact .pure

end Sys2Proof.Machine

/-! ## Authority: the instructions of a user stream -/

namespace Sys2Proof.Machine

/-- An instruction of a user stream makes no authority (R119, R122): its stream's capabilities are derived from those
that it held and from the capability tables of its context, and what only the firmware context writes is as it was. -/
def ExecFrames (e : State → Host.Outcome State Fault Refusal) : Prop :=
  ∀ s t, s.UserCode → e s = .next t → State.Frame (Stream.Derives (s.ctx s.ctxId).objects) s.cur.tile s t

section
variable {g : Pred} {body : M Unit}

theorem State.UserCode.frame_advance {s : State} (h : s.UserCode) : State.Frame Stream.Keeps s.cur.tile s s.advance :=
  h.frame_setStr (R := Stream.Keeps) Stream.keeps_advance

theorem ExecFrames.perform
    (h : ∀ s : State, M.FramesAt (Stream.Derives (s.ctx s.ctxId).objects) body s) : ExecFrames (perform g body) := by
  intro s t hs ht
  obtain ⟨-, rfl⟩ | ⟨-, hok | ⟨c, a, i, u, hb, -, rfl⟩ | ⟨a, i, u, hb, hside, -⟩ | ⟨st, w, u, hb, rfl⟩⟩ :=
    perform_next ht
  · exact hs.frame_advance.mono fun _ _ => Stream.Keeps.derives
  · exact (h s hs).1 _ t hok
  · have hu := (h s hs).2 _ u hb
    have hcode := hs.of_frame hu
    have htrap := State.frame_takeTrap (cause := c) (addr := a) (imm := i) hcode.native
    rw [hu.cur] at htrap ⊢
    exact (hu.trans htrap).mono fun _ _ => Stream.Keeps.derives
  · have hu := (h s hs).2 _ u hb
    rw [hu.cur, hs.side] at hside
    cases hside
  · have hu := (h s hs).2 _ u hb
    have hwait := (hs.of_frame hu).frame_setStr (R := Stream.Keeps) (y := { u.str with state := st, wait := w })
      (.of_registers rfl rfl rfl rfl)
    rw [hu.cur] at hwait
    exact (hu.trans hwait).mono fun _ _ => Stream.Keeps.derives

theorem ExecFrames.of_ends (h : ∀ objs, M.Ends objs body) : ExecFrames (Machine.perform g body) :=
  .perform fun s => h _ s

theorem ExecFrames.of_keeps (h : M.Keeps body) : ExecFrames (Machine.perform g body) := .of_ends fun _ => h.ends

theorem RegisterForm.execFrames {d : BitVec 6} {e : State → Host.Outcome State Fault Refusal} (h : RegisterForm g d e) :
    ExecFrames e := by
  intro s t hs ht
  obtain ⟨hskip, hdo⟩ := h s
  have hkeeps : State.Frame Stream.Keeps s.cur.tile s t := by
    cases hg : s.str.holds g with
    | false =>
      rw [hskip hg] at ht
      cases ht
      exact hs.frame_advance
    | true =>
      obtain ⟨y, fl, hy, he⟩ | ⟨c, a, he⟩ := hdo hg
      · rw [he] at ht
        cases ht
        exact hs.frame_setStr ((hy.keeps.trans Stream.keeps_raise).trans Stream.keeps_advance)
      · rw [he, finish_trap_user hs.side] at ht
        cases ht
        exact State.frame_takeTrap hs.native
  exact hkeeps.mono fun _ _ => Stream.Keeps.derives

/-- A check, or a first part that is made on a condition, before the rest. -/
theorem M.Keeps.guard {α : Type} {c : Prop} [Decidable c] {m : M PUnit} {rest : M α} (hm : M.Keeps m)
    (h : M.Keeps rest) : M.Keeps (if c then m >>= fun _ => rest else rest) := by
  split
  · exact hm.bind fun _ => h
  · exact h

/-! ### Loads, stores and atomics -/

theorem M.Keeps.mod_next {f : Stream → Stream} (h : ∀ x, Stream.Keeps x (f x)) :
    M.Keeps (M.mod f >>= fun _ => M.next) := (M.Keeps.mod h).bind fun _ => .next

theorem loadForm_frames {m : MemS} {n align : Nat} {f : Stream → List Byte → Stream}
    (h : ∀ x bs, Stream.Keeps x (f x bs)) : ExecFrames (loadForm g m n align f) :=
  .of_keeps (M.keeps_loadS.bind fun bs => .mod_next fun x => h x bs)

theorem storeForm_frames {m : MemS} {align : Nat} {f : Stream → List Byte} : ExecFrames (storeForm g m align f) :=
  .of_keeps (.str fun _ => M.keeps_storeS.bind fun _ => .next)

theorem atomicForm_frames {w : Width} {d : SReg} {m : MemS} {f : Stream → BitVec w.n → Option (BitVec w.n)} :
    ExecFrames (atomicForm g w d m f) :=
  .of_keeps (.str fun _ => M.keeps_atomicPart.bind fun _ => M.keeps_rmw.bind fun _ =>
    .mod_next fun _ => Stream.keeps_setS)

theorem M.keeps_laneParts {w : Width} {m : MemV} {k : Need} {acc : Access} : M.Keeps (M.laneParts w m k acc) :=
  .str fun _ => .mapM (fun _ => M.keeps_locate.bind fun _ => M.keeps_parts) _

theorem execVgather_frames {w : Width} {d : VReg} {m : MemV} : ExecFrames (execVgather g w d m) :=
  .of_keeps (M.keeps_laneParts.bind fun _ =>
    (M.Keeps.mapM (fun _ => (M.Keeps.forM (fun _ => M.keeps_ownLines) _).bind fun _ =>
      M.keeps_readParts.bind fun _ => .pure) _).bind fun _ => .mod_next fun _ => Stream.keeps_setV)

theorem execVscatter_frames {w : Width} {d : VReg} {m : MemV} : ExecFrames (execVscatter g w m d) :=
  .of_keeps (M.keeps_laneParts.bind fun _ => .str fun _ =>
    (M.Keeps.forM (fun _ => M.keeps_writeParts) _).bind fun _ => .next)

theorem M.keeps_vamoChecks {w : Width} {m : MemV} : M.Keeps (M.vamoChecks w m) :=
  .str fun _ => (M.Keeps.mapM (fun _ => M.keeps_atomicPart.bind fun _ => .pure) _).bind fun _ =>
    .mod fun _ => .of_registers rfl rfl rfl rfl

theorem M.keeps_vamoLane {w : Width} {op : VAmoOp} {v : Vec} {l : LanePart} : M.Keeps (M.vamoLane w op v l) :=
  M.keeps_rmw.bind fun _ => .mod fun _ => .of_registers rfl rfl rfl rfl

theorem execVamo_frames {w : Width} {op : VAmoOp} {scope : Scope} {m : MemV} {d : VReg} :
    ExecFrames (execVamo g w op scope m d) := by
  refine .of_keeps (.str fun x => .guard M.keeps_vamoChecks (.str fun y => ?_))
  exact (M.Keeps.forM (fun _ => M.keeps_vamoLane) _).bind fun _ => .next

/-! ### Full and empty lines, timelines and barrier objects -/

theorem M.keeps_feLine {m : MemS} {k : Need} {acc : Access} : M.Keeps (M.feLine m k acc) :=
  .str fun _ => M.keeps_atomicPart.bind fun _ => .guard .trap .pure

theorem State.setEmpty_sameTiles (s : State) (l : Nat) : s.SameTiles (s.setEmpty l) := ⟨rfl, rfl⟩

theorem State.setFull_sameTiles (s : State) (l : Nat) : s.SameTiles (s.setFull l) := ⟨rfl, rfl⟩

theorem execFeClear_frames {m : MemS} : ExecFrames (execFeClear g m) :=
  .of_keeps (M.keeps_feLine.bind fun l =>
    (M.Keeps.modify fun s => (s.setEmpty_sameTiles l).frame).bind fun _ => .next)

theorem execFeSet_frames {m : MemS} : ExecFrames (execFeSet g m) :=
  .of_keeps (M.keeps_feLine.bind fun l =>
    (M.Keeps.modify fun s => (s.setFull_sameTiles l).frame).bind fun _ => .next)

theorem execFeWait_frames {m : MemS} : ExecFrames (execFeWait g m) := by
  refine .of_keeps (M.keeps_feLine.bind fun l => .get fun s => ?_)
  split
  · exact .throw_bind
  · exact M.Keeps.next s

theorem execTlWait_frames {hint : Hint} {a : Timeline} {b : SReg} : ExecFrames (execTlWait g hint a b) := by
  refine .of_keeps (.get fun s => ?_)
  dsimp only
  split
  · exact .trap_bind
  · split
    · exact .throw_bind
    · exact M.Keeps.next s

theorem execTlRead_frames {d : SReg} {a : Timeline} : ExecFrames (execTlRead g d a) :=
  .of_keeps (.get fun s => M.Keeps.mod_next (fun _ => Stream.keeps_setS) s)

theorem M.keeps_barrierPart {m : MemS} : M.Keeps (M.barrierPart m) :=
  .str fun _ => M.keeps_atomicPart.bind fun _ => .guard .trap .pure

theorem M.keeps_readBarrier {p : Part} : M.Keeps (M.readBarrier p) :=
  M.keeps_ownLines.bind fun _ => M.keeps_readPart.bind fun _ => .pure

theorem execBarInit_frames {m : MemS} {d : SReg} : ExecFrames (execBarInit g m d) := by
  refine .of_keeps (M.keeps_barrierPart.bind fun p => M.Keeps.bind (M.Keeps.str fun _ => .pure) fun v => ?_)
  exact .guard .trap (M.keeps_readBarrier.bind fun _ => M.keeps_writePart.bind fun _ => .next)

theorem execBarArrive_frames {m : MemS} : ExecFrames (execBarArrive g m) := by
  refine .of_keeps (M.keeps_barrierPart.bind fun p => M.keeps_readBarrier.bind fun b => ?_)
  exact .guard .trap (M.keeps_writePart.bind fun _ => .mod_next fun _ => .of_registers rfl rfl rfl rfl)

theorem execBarWait_frames {m : MemS} : ExecFrames (execBarWait g m) := by
  refine .of_keeps (M.keeps_barrierPart.bind fun p => .str fun x => ?_)
  split
  · exact .trap
  · refine .guard .trap (.get fun s => ?_)
    dsimp only
    split
    · exact .throw_bind
    · exact (M.keeps_readBarrier.bind fun b => .guard .throw .next) s

/-- Route tags belong to the firmware context (R214). -/
theorem execHbar_frames {tag : BitVec 3} {hint : Hint} : ExecFrames (execHbar g tag hint) := by
  refine .perform fun s => .get ?_
  intro hs
  rw [if_pos hs.isUser]
  exact M.FramesAt.trap_bind hs

/-! ### Signals, forwarding ports and pumps -/

theorem M.keeps_enqueue {s : State} {q : List SigPost} :
    M.FramesAt Stream.Keeps (set (s.setTile s.cur.tile { s.here with sigQ := q }) >>= fun _ => M.next) s :=
  .set_bind (fun _ => .setTile ⟨rfl, .refl _⟩) fun _ => .next

theorem execSigPost_frames {m : MemS} {d c : SReg} : ExecFrames (execSigPost g m d c) := by
  refine .of_keeps (.str fun x => .get fun s0 => M.keeps_capCheck.bind (fun _ =>
    .guard .trap (M.keeps_aligned.bind fun _ => ?_)) s0)
  split
  · refine M.Keeps.pure.bind fun r => .get fun s => ?_
    dsimp only
    split
    · exact .throw_bind
    · exact M.keeps_enqueue
  · refine M.keeps_part.bind fun p => .guard .trap (M.Keeps.pure.bind fun r => .get fun s => ?_)
    dsimp only
    split
    · exact .throw_bind
    · exact M.keeps_enqueue

theorem M.keeps_signalReached {pa : Nat} {va v : Word} : M.Keeps (M.signalReached pa va v) := by
  refine .get fun s => ?_
  dsimp only
  split
  · exact .throw_bind
  · exact M.Keeps.guard M.keeps_poisoned (.guard .throw .next) s

theorem execSigWait_frames {m : MemS} {d : SReg} : ExecFrames (execSigWait g m d) :=
  .of_keeps (.str fun _ => M.keeps_atomicPart.bind fun _ => .guard .trap M.keeps_signalReached)

theorem Tile.frame_addPort {x : Tile} {early : Bool} {k : Fin 4} {v : Vec} :
    Tile.Frame Stream.Keeps x (x.addPort early k v) := by
  unfold Tile.addPort
  split
  · exact ⟨rfl, .refl _⟩
  · exact ⟨rfl, .of_registers rfl rfl rfl rfl⟩

theorem execFwdPut_frames {a : Port} {b : VReg} : ExecFrames (execFwdPut g a b) := by
  refine .of_keeps (M.Keeps.bind (M.Keeps.str fun _ => .pure) fun v => .get fun s => ?_)
  split
  · exact .trap
  · dsimp only
    split
    · exact .throw_bind
    · split
      · exact .throw_bind
      · exact .set_bind (fun _ => .setTile_of fun _ => Tile.frame_addPort) fun _ => .next

theorem execFwdGet_frames {d : VReg} {a : Port} : ExecFrames (execFwdGet g d a) := by
  refine .of_keeps (.str fun x => .guard .trap ?_)
  split
  · exact .throw
  · exact .mod_next fun y => .trans (y := { y with ports := y.ports.set (portIndex a) _ })
      (.of_registers rfl rfl rfl rfl) Stream.keeps_setV

theorem M.keeps_pushCap {c : Cap} {k : Need} : M.Keeps (M.pushCap c k) := by
  unfold M.pushCap
  split
  · exact .trap
  · exact .pure

theorem Tile.frame_push {x : Tile} {store : Bool} {q : List PumpCmd} {k : BitVec 2} {p : PumpCtx} :
    Tile.Frame Stream.Keeps x ((x.setQueue store q).setPump k p) := by
  cases store <;> exact ⟨rfl, .refl _⟩

theorem pumpPush_frames {store : Bool} {d : PReg} {a b : CapReg} {c : SReg} :
    ExecFrames (pumpPush g store d a b c) := by
  refine .of_keeps (.get fun s => M.keeps_pushCap.bind (fun _ => M.keeps_pushCap.bind fun _ => .guard .trap
    (.guard .trap (.guard .trap ?_))) s)
  dsimp only
  split
  · exact .mod_next fun _ => Stream.keeps_setP
  · exact (M.Keeps.modTile fun _ => Tile.frame_push).bind fun _ => .mod_next fun _ => Stream.keeps_setP

/-! ### Capabilities -/

/-- Fields that fit their widths are those of the capability that they make (R120, R169). -/
theorem capFields_bits {f : CapFields} (h : f.fits = true) : capFields f.bits = f := by
  simp only [CapFields.fits, decide_eq_true_eq] at h
  obtain ⟨hbase, hstride, hrows, hrowbytes⟩ := h
  have hnat {n k : Nat} {v : BitVec n} (hk : k < 2 ^ n) (hv : v = BitVec.ofNat n k) : v.toNat = k := by
    rw [hv, BitVec.toNat_ofNat, Nat.mod_eq_of_lt hk]
  obtain ⟨base, stride, rows, rowbytes, fmt, perm, swz, reserved⟩ := f
  simp only [capFields, CapFields.bits, CapFields.mk.injEq]
  refine ⟨hnat hbase ?_, hnat hstride ?_, hnat hrows ?_, hnat hrowbytes ?_, ?_, ?_, ?_, ?_⟩ <;>
  · refine BitVec.eq_of_getLsbD_eq fun j hj => ?_
    simp only [BitVec.getLsbD_extractLsb', BitVec.getLsbD_append, hj, decide_true, Bool.true_and]
    grind
/-- The check that keeps cpv from the user context passes, or the instruction traps (R170). -/
theorem M.FramesAt.cpv_check {R : Stream → Stream → Prop} {α : Type} {d : CapReg} {c : BitVec 8} {a : Word} {m : M α}
    {s : State} (h : d ≠ .cpv → M.FramesAt R m s) :
    M.FramesAt R (if (s.isUser && d == .cpv) = true then (M.trap c a : M PUnit) >>= fun _ => m else m) s := by
  intro hs
  rw [hs.isUser, Bool.true_and]
  split
  · exact M.FramesAt.trap_bind hs
  · next hd => exact h (by simpa using hd) hs

/-- An instruction that gives a capability register a capability that the stream may have. -/
theorem M.framesAt_setC {objs : List CodeObject} {d : CapReg} {v : Cap} {s : State} (hd : d ≠ .cpv)
    (hv : v.tag = true → (∃ c', (s.str.getC c').tag = true ∧ narrower v.fields (s.str.getC c').fields = true) ∨
      ∃ o ∈ objs, v.bits ∈ o.caps) :
    M.FramesAt (Stream.Derives objs) (M.mod (fun x => x.setC d v) >>= fun _ => M.next) s := by
  cases d with
  | cpv => exact absurd rfl hd
  | c n =>
    refine .of_ok (by rw [M.bind_ok (M.mod_apply _ s), M.next_apply]) fun hs => ?_
    rw [State.advance_setStr]
    exact hs.frame_setStr ((Stream.derives_setC hv).keeps_trans Stream.keeps_advance)

/-- A derivation gives an untagged capability or one that is narrower than its source (R169, R170). -/
theorem M.framesAt_derive {objs : List CodeObject} {d a : CapReg} {f : CapFields} {part : Bool} {s : State} :
    M.FramesAt (Stream.Derives objs) (M.derive d (s.str.getC a) f part) s := by
  refine .get (.cpv_check fun hd => ?_)
  split
  · exact M.framesAt_setC hd nofun
  · next htag =>
    split
    · exact .trap_bind
    · next hfits =>
      split
      · exact .trap_bind
      · next hnarrow =>
        simp only [Bool.not_eq_true', Bool.not_eq_false, Bool.and_eq_true] at htag hfits hnarrow
        have hfields : (f.cap true).fields = f := capFields_bits hfits
        exact M.framesAt_setC hd fun _ => .inl ⟨a, htag, hfields.symm ▸ hnarrow.2⟩

theorem capForm_frames {d a : CapReg} {f : Stream → CapFields → CapFields} {part : Stream → CapFields → Bool} :
    ExecFrames (capForm g d a f part) := .perform fun _ => .str M.framesAt_derive

theorem execCfmt_frames {d a : CapReg} {fa : Fmt} : ExecFrames (execCfmt g d a fa) := by
  refine .perform fun s => ?_
  split
  · exact .trap_bind
  · exact .str M.framesAt_derive

/-- A capability table gives its entries, and it is one of the stream's context (R172). -/
theorem execCtab_frames {d : CapReg} {imm : BitVec 37} : ExecFrames (execCtab g d imm) := by
  refine .perform fun s => .get (.cpv_check fun hd => ?_)
  dsimp only
  split
  · exact .trap
  · next q hq =>
    refine M.framesAt_setC hd fun _ => .inr ?_
    cases ho : s.objectAt s.str.pc with
    | none =>
      rw [ho] at hq
      cases hq
    | some ko =>
      rw [ho] at hq
      refine ⟨ko.2, ?_, List.mem_of_getElem? hq⟩
      obtain ⟨⟨o, k⟩, hfind, rfl⟩ := Option.map_eq_some_iff.mp ho
      exact List.fst_mem_of_mem_zipIdx (List.mem_of_find?_eq_some hfind)

/-! ### Control flow -/

theorem execBr_frames {imm : BitVec 37} : ExecFrames (execBr g imm) := .of_ends fun _ s => .str (M.ends_jump s)

theorem execCall_frames {imm : BitVec 37} : ExecFrames (execCall g imm) :=
  .of_ends fun _ s => .str ((M.Keeps.mod fun _ => Stream.keeps_setS).then (fun _ => M.ends_jump) s)

theorem execLoop_frames {a : SReg} {imm : BitVec 37} : ExecFrames (execLoop g a imm) := by
  refine .of_ends fun _ s => .str ((M.Keeps.mod fun _ => Stream.keeps_setS).then (fun _ => ?_) s)
  split
  · exact M.ends_jump
  · exact M.Keeps.next.ends

theorem execJr_frames {a : SReg} : ExecFrames (execJr g a) :=
  .of_ends fun _ s => .str (M.keeps_alignedTarget.then (fun _ => M.ends_jump) s)

theorem execCallr_frames {a : SReg} : ExecFrames (execCallr g a) :=
  .of_ends fun _ s => .str (M.keeps_alignedTarget.then (fun _ =>
    (M.Keeps.mod fun _ => Stream.keeps_setS).then fun _ => M.ends_jump) s)

theorem Tile.frame_finish {x : Tile} {a : Timeline} {n : Word} : Tile.Frame Stream.Keeps x (x.finish a n) := by
  cases a <;> exact ⟨rfl, .refl _⟩

theorem M.keeps_leaveRoutine : M.Keeps M.leaveRoutine := by
  refine .str fun x => ?_
  split
  · exact .pure
  · refine M.Keeps.bind (.mod fun _ => ?_) fun _ => ?_
    · exact .of_registers rfl rfl rfl rfl
    · split
      · exact .pure
      · exact .modTile fun _ => Tile.frame_finish

theorem execRet_frames : ExecFrames (execRet g) :=
  .of_ends fun _ s => .str (M.keeps_alignedTarget.then (fun _ => M.keeps_leaveRoutine.then fun _ => M.ends_jumpTo) s)

theorem M.keeps_matrixReady {r : Routine} : M.Keeps (M.matrixReady r) := by
  refine .get fun s => ?_
  split
  · split
    · exact .throw
    · exact M.Keeps.pure s
  · exact .trap
  · split
    · exact .throw
    · exact M.Keeps.pure s

theorem M.ends_call {objs : List CodeObject} {x : Tile → Tile} {f : Stream → Stream}
    (hx : ∀ t, Tile.Frame Stream.Keeps t (x t)) (hf : ∀ y, Stream.Keeps y (f y)) :
    M.Ends objs (M.modTile x >>= fun _ => M.mod f >>= fun _ => M.arrive) :=
  (M.Keeps.modTile hx).then fun _ => (M.Keeps.mod hf).then fun _ => M.ends_arrive

theorem execRcall_frames {imm : BitVec 37} : ExecFrames (execRcall g imm) := by
  refine .of_ends fun objs s => .get ?_
  dsimp only
  split
  · exact .trap
  · split
    · refine M.keeps_matrixReady.then (fun _ => M.ends_call (fun t => ?_) fun y => ?_) s
      · exact ⟨rfl, .refl _⟩
      · exact Stream.Keeps.trans Stream.keeps_setS (.of_registers rfl rfl rfl rfl)
    · refine M.ends_call (fun t => ?_) (fun y => ?_) s
      · exact ⟨rfl, .refl _⟩
      · exact Stream.Keeps.trans Stream.keeps_setS (.of_registers rfl rfl rfl rfl)

theorem Stream.keeps_arrival {x : Stream} {n : Nat} {st : StreamState} {w : Wait} :
    x.Keeps { x with arrivals := n, state := st, wait := w } := .of_registers rfl rfl rfl rfl

theorem execRdv_frames : ExecFrames (execRdv g) := by
  refine .of_keeps (.get fun s => ?_)
  dsimp only
  split
  · exact M.Keeps.next s
  · split
    · exact .trap
    · split
      · exact M.Keeps.next s
      · exact .set fun hs => (hs.frame_setStr Stream.keeps_arrival).trans State.frame_rendezvous

/-! ### System instructions -/

/-- A firmware call leaves the stream trapped, or returns at once what the trap saved (R224). -/
theorem execSys_frames {imm : BitVec 16} : ExecFrames (execSys g imm) := by
  refine .of_keeps (.get fun s hs => ?_)
  rw [if_pos hs.isUser]
  refine M.FramesAt.set (fun hs => ?_) hs
  split
  · exact State.frame_takeTrap hs.native
  · rw [(s.takeTrap_tile s.cur.tile Cause.firmwareCall 0 imm).1]
    exact State.frame_serveCall_takeTrap hs.native

theorem execTrap_frames {imm : BitVec 16} : ExecFrames (execTrap g imm) := .of_keeps .throw

theorem execBkpt_frames : ExecFrames (execBkpt g) := .of_keeps (.str fun _ => .trap)

theorem execEret_frames : ExecFrames (execEret g) := by
  refine .of_keeps (.get fun s hs => ?_)
  rw [if_pos hs.isUser]
  exact M.FramesAt.trap hs

/-! ### Control registers, deadline and validity words -/

/-- The checks of `rdc` and `wrc` on a register number (R125). -/
theorem M.ctlCheck_apply (a : Ctl) (s : State) : M.ctlCheck a s =
    if ctlUnassigned a = true then .error (.trap Cause.illegalInstruction s.str.pc 0) s
    else if (s.isUser && ctlPrivileged a) = true then .error (.trap Cause.privilegedRegisterAccess 0 0) s
    else .ok ⟨⟩ s := by
  unfold M.ctlCheck
  rw [M.bind_ok (M.get_apply s)]
  split
  · rfl
  · split <;> rfl

/-- A number that the user context may not name traps. -/
theorem M.framesAt_ctlCheck {a : Ctl} {s : State} {m : M PUnit}
    (h : ctlPrivileged a = false → M.FramesAt Stream.Keeps m s) :
    M.FramesAt Stream.Keeps (M.ctlCheck a >>= fun _ => m) s := by
  refine fun hs => ?_
  have hcheck := M.ctlCheck_apply a s
  rw [hs.isUser, Bool.true_and] at hcheck
  split at hcheck
  · exact M.FramesAt.of_error (M.bind_error hcheck) (fun _ => .refl s) hs
  · split at hcheck
    · exact M.FramesAt.of_error (M.bind_error hcheck) (fun _ => .refl s) hs
    · next hp => exact M.FramesAt.read hcheck (h (by simpa using hp)) hs

theorem execRdc_frames {d : SReg} {a : Ctl} : ExecFrames (execRdc g d a) := by
  refine .of_keeps fun s => M.framesAt_ctlCheck fun _ => .get (M.Keeps.mod_next (fun x => ?_) s)
  split
  · exact .trans (y := { x with dtimef := s.dfrac }) (.of_registers rfl rfl rfl rfl) Stream.keeps_setS
  · exact Stream.keeps_setS

/-- Of what the user context may write only `FPCTL` and the masks take a value (R124). -/
theorem State.UserCode.frame_writeCtl {s : State} {a : Ctl} {v : Word} (hs : s.UserCode)
    (ha : ctlPrivileged a = false) : State.Frame Stream.Keeps s.cur.tile s (s.writeCtl a v) := by
  have hlt : a.toNat < 0x20 := by simpa [ctlPrivileged] using ha
  have hfw : (!s.isUser) = false := by rw [hs.isUser, Bool.not_true]
  unfold State.writeCtl
  dsimp only
  rw [hfw]
  split
  · exact hs.frame_setStr (R := Stream.Keeps) (.of_registers rfl rfl rfl rfl)
  case h_2 | h_3 => exact .refl s
  case h_4 | h_5 | h_6 | h_7 | h_8 | h_9 => omega
  · split
    · exact hs.frame_setStr (R := Stream.Keeps) (.of_registers rfl rfl rfl rfl)
    · exact .refl s

theorem execWrc_frames {d : Ctl} {a : SReg} : ExecFrames (execWrc g d a) :=
  .of_keeps fun _ => M.framesAt_ctlCheck fun hd => .get (.set_bind (fun hs => hs.frame_writeCtl hd) fun _ => .next)

theorem execDlRead_frames {d : SReg} : ExecFrames (execDlRead g d) :=
  .of_keeps (.get fun s => M.Keeps.mod_next (fun _ => Stream.keeps_setS) s)

theorem execVflagSet_frames {a : CapReg} {b : SReg} : ExecFrames (execVflagSet g a b) :=
  .of_keeps (.str fun _ => .guard .trap (M.keeps_store.bind fun _ => .next))

end

end Sys2Proof.Machine

namespace Sys2Proof.Machine

/-- No instruction that a Juden word encodes makes authority in a user stream. -/
theorem exec_build_frames {o : Op} (g : Pred) (f : Fields) (hn : o.native = false) :
    ExecFrames (exec (o.build g f)) := by
  by_cases hr : o.key < 0xA0 ∨ 0x100 ≤ o.key ∧ o.key < 0x160
  · exact (build_registerForm g f hr).execFrames
  · show ExecFrames fun s => exec (o.build g f) s
    cases o with
    | nxStub | nxRbeg | nxRend | nxRyld | nxMpush | nxDtab | nxSpill | nxFill | nxVfn => exact absurd hn (by decide)
    | cget =>
      dsimp only [Op.build, exec]
      exact (RegisterForm.setS (d := f.d)).execFrames
    | fence | yield | nop =>
      dsimp only [Op.build, exec]
      exact (RegisterForm.nothing (d := f.d)).execFrames
    | ld | ldu | ldacq =>
      dsimp only [Op.build, exec]
      exact loadForm_frames fun _ _ => Stream.keeps_setS
    | ldq =>
      dsimp only [Op.build, exec]
      exact loadForm_frames fun _ _ => Stream.keeps_setPair
    | vld =>
      dsimp only [Op.build, exec]
      exact loadForm_frames fun _ _ => Stream.keeps_setV
    | st | stq | strel | vst =>
      dsimp only [Op.build, exec]
      exact storeForm_frames
    | amo | amoCas =>
      dsimp only [Op.build, exec]
      exact atomicForm_frames
    | cmov | cnrow | cnbyte | cnstride | cnperm =>
      dsimp only [Op.build, exec]
      exact capForm_frames
    | pumpLd | pumpSt =>
      dsimp only [Op.build, exec]
      exact pumpPush_frames
    | cfmt => exact execCfmt_frames
    | ctab => exact execCtab_frames
    | vgather => exact execVgather_frames
    | vscatter => exact execVscatter_frames
    | vamo =>
      dsimp only [Op.build, exec]
      exact execVamo_frames
    | feClear => exact execFeClear_frames
    | feSet => exact execFeSet_frames
    | feWait => exact execFeWait_frames
    | tlWait =>
      dsimp only [Op.build, exec]
      exact execTlWait_frames
    | tlRead => exact execTlRead_frames
    | barInit => exact execBarInit_frames
    | barArrive => exact execBarArrive_frames
    | barWait => exact execBarWait_frames
    | hbar =>
      dsimp only [Op.build, exec]
      exact execHbar_frames
    | sigPost => exact execSigPost_frames
    | sigWait => exact execSigWait_frames
    | fwdPut => exact execFwdPut_frames
    | fwdGet => exact execFwdGet_frames
    | br => exact execBr_frames
    | call => exact execCall_frames
    | loop => exact execLoop_frames
    | jr => exact execJr_frames
    | callr => exact execCallr_frames
    | ret => exact execRet_frames
    | rcall => exact execRcall_frames
    | rdv => exact execRdv_frames
    | sys => exact execSys_frames
    | trap => exact execTrap_frames
    | eret => exact execEret_frames
    | rdc => exact execRdc_frames
    | wrc => exact execWrc_frames
    | dlRead => exact execDlRead_frames
    | vflagSet => exact execVflagSet_frames
    | bkpt => exact execBkpt_frames
    | _ => exact absurd (by decide) hr

end Sys2Proof.Machine

namespace Sys2Proof.Proofs
open Sys2Proof.Machine

/-- Settles O60, from the frame of every instruction that a Juden word encodes. -/
theorem user_instructions_make_no_authority : Obligations.User_instructions_make_no_authority := by
  unfold Obligations.User_instructions_make_no_authority
  intro s w i t hi hside hnative hnode hexec
  obtain ⟨o, -, hn, rfl⟩ := decode_eq_ok hi
  have hs : s.UserCode := ⟨hside, State.str_of_user hside ▸ hnative, hnode⟩
  obtain ⟨hcur, hfixed, hroots, hcaps⟩ := exec_build_frames _ _ hn s t hs hexec
  have hstr : t.str = (t.tile s.cur.tile).user := by rw [State.str_of_user (by rw [hcur, hside]), hcur]
  have hhere : t.here = t.tile s.cur.tile := by rw [State.here, hcur]
  have hcpv := Stream.getC_cpv_of_roots hroots
  simp only [Tile.fixed, Stream.roots, Prod.mk.injEq] at hfixed hroots
  obtain ⟨hfw, htsave, hpmbase, hspbase, hdlcall, hdlhard, -⟩ := hfixed
  obtain ⟨-, -, hroot, hvpos, hctxcfg⟩ := hroots
  rw [hstr, hhere, hs.str]
  exact ⟨hcaps, hcpv, hroot, hvpos, hctxcfg, hfw, htsave, hpmbase, hspbase, hdlcall, hdlhard⟩

end Sys2Proof.Proofs

/-! ## Control registers, the deadline status word and validity words -/

namespace Sys2Proof.Machine

section
variable {g : Pred} {s : State}

/-! ### Access to a control register -/

theorem M.ctlCheck_ok {a : Ctl} (h : ¬(9 ≤ a.toNat ∧ a.toNat ≤ 15)) (hp : s.cur.side = .user → a.toNat < 0x20) :
    M.ctlCheck a s = .ok ⟨⟩ s := by
  have hpriv : (s.isUser && ctlPrivileged a) = false := by
    rw [Bool.and_eq_false_imp]
    intro hu
    have := hp (by simpa [State.isUser] using hu)
    simpa [ctlPrivileged] using this
  rw [M.ctlCheck_apply, ctlUnassigned, decide_eq_false h, hpriv]
  rfl

theorem M.ctlCheck_of_unassigned {a : Ctl} (h : 9 ≤ a.toNat ∧ a.toNat ≤ 15) :
    M.ctlCheck a s = .error (.trap Cause.illegalInstruction s.str.pc 0) s := by
  rw [M.ctlCheck_apply, ctlUnassigned, decide_eq_true h]
  rfl

theorem M.ctlCheck_of_privileged {a : Ctl} (hu : s.cur.side = .user) (h : 0x20 ≤ a.toNat) :
    M.ctlCheck a s = .error (.trap Cause.privilegedRegisterAccess 0 0) s := by
  have hun : ctlUnassigned a = false := decide_eq_false (by omega)
  have hpriv : ctlPrivileged a = true := decide_eq_true h
  rw [M.ctlCheck_apply, hun, State.isUser, hu, hpriv]
  rfl

theorem execRdc_ok {d : SReg} {a : Ctl} (hg : s.str.holds g = true) (hc : M.ctlCheck a s = .ok ⟨⟩ s) :
    execRdc g d a s = Claims.wrote s
      ((if a = 2 then { s.str with dtimef := s.dfrac } else s.str).setS d (s.readCtl a)) := by
  refine perform_ok hg ?_
  rw [M.bind_ok hc, M.bind_ok (M.get_apply s), M.bind_ok (M.mod_apply _ s), M.next_apply, State.advance_setStr]
  rfl

theorem execWrc_ok {d : Ctl} {a : SReg} (hg : s.str.holds g = true) (hc : M.ctlCheck d s = .ok ⟨⟩ s) :
    execWrc g d a s = .next (s.writeCtl d (s.str.getS a)).advance := by
  refine perform_ok hg ?_
  rw [M.bind_ok hc, M.bind_ok (M.get_apply s), M.bind_ok (M.set_apply ..), M.next_apply]

theorem execWrc_wrote {d : Ctl} {a : SReg} {x : Stream} (hg : s.str.holds g = true) (hc : M.ctlCheck d s = .ok ⟨⟩ s)
    (hx : s.writeCtl d (s.str.getS a) = s.setStr x) : execWrc g d a s = Claims.wrote s x := by
  rw [execWrc_ok hg hc, hx, State.advance_setStr]
  rfl

theorem execRdc_trap {d : SReg} {a : Ctl} {c : BitVec 8} {addr : Word} (hg : s.str.holds g = true)
    (hu : s.cur.side = .user) (hc : M.ctlCheck a s = .error (.trap c addr 0) s) :
    execRdc g d a s = Claims.trapped s c addr := perform_trap hg (M.bind_error hc) hu

theorem execWrc_trap {d : Ctl} {a : SReg} {c : BitVec 8} {addr : Word} (hg : s.str.holds g = true)
    (hu : s.cur.side = .user) (hc : M.ctlCheck d s = .error (.trap c addr 0) s) :
    execWrc g d a s = Claims.trapped s c addr := perform_trap hg (M.bind_error hc) hu

/-! ### The registers -/

theorem State.readCtl_mask {a : Ctl} (h : 0x10 ≤ a.toNat ∧ a.toNat < 0x20) :
    s.readCtl a = s.str.xm[a.toNat % 16]'(Nat.mod_lt _ (by decide)) := by
  unfold State.readCtl
  dsimp only
  split
  case h_19 => exact if_pos h
  all_goals omega

theorem State.writeCtl_mask {a : Ctl} {v : Word} (h : 0x10 ≤ a.toNat ∧ a.toNat < 0x20) :
    s.writeCtl a v = s.setStr (if maskValid v then
      { s.str with xm := s.str.xm.set (a.toNat % 16) (maskValue v) (Nat.mod_lt _ (by decide)) } else s.str) := by
  unfold State.writeCtl
  dsimp only
  split
  case h_10 =>
    cases hv : maskValid v with
    | true => simp [h]
    | false => simp
  all_goals omega

/-- A write of a register that is read-only for its writer changes nothing (R8). -/
theorem State.writeCtl_readOnly {a : Ctl} {v : Word} (h : 2 ≤ a.toNat ∧ a.toNat ≤ 7) : s.writeCtl a v = s := by
  unfold State.writeCtl
  dsimp only
  split
  case h_10 => exact if_neg (by simp; omega)
  all_goals omega

/-- FRM takes a mode that stands for one, flags are cleared by ones (R63). -/
theorem writeFpctl_eq (old : BitVec 32) (v : Word) : writeFpctl old v =
    (if 1 ≤ (v.extractLsb' 8 3 : BitVec 3).toNat ∧ (v.extractLsb' 8 3 : BitVec 3).toNat ≤ 5 then
      (v.extractLsb' 8 3).setWidth 32 else (old.extractLsb' 8 3).setWidth 32) <<< 8 |||
      ((old.extractLsb' 0 5) &&& ~~~(v.extractLsb' 0 5)).setWidth 32 := by
  have hkeep : ∀ f : BitVec 3, (f = 0 || f = 6 || f = 7) = !decide (1 ≤ f.toNat ∧ f.toNat ≤ 5) := by decide
  unfold writeFpctl
  dsimp only
  rw [hkeep]
  by_cases h : 1 ≤ (v.extractLsb' 8 3 : BitVec 3).toNat ∧ (v.extractLsb' 8 3 : BitVec 3).toNat ≤ 5
  · rw [decide_eq_true h, if_pos h]
    rfl
  · rw [decide_eq_false h, if_neg h]
    rfl

theorem writeRoot_eq (old v : Word) : writeRoot old v =
    (if v.extractLsb' 60 4 = 0 ∨ v.extractLsb' 60 4 = 9 then v.extractLsb' 60 4 else old.extractLsb' 60 4) ++
      (v.extractLsb' 0 60 : BitVec 60) := by
  simp only [writeRoot, Bool.or_eq_true, decide_eq_true_eq]

/-- The firmware context writes `CTXROOT`, whose MODE takes bare and Sv48 (R26). -/
theorem State.writeCtl_root {v : Word} :
    s.writeCtl 0x20 v = s.setStr { s.str with ctxroot := writeRoot s.str.ctxroot v } := rfl

/-- The firmware context writes `TSAVE`. -/
theorem State.writeCtl_tsave {v : Word} : s.writeCtl 0x28 v = s.setTile s.cur.tile { s.here with tsave := v } := rfl

theorem State.here_writeCtl_tsave {v : Word} : (s.writeCtl 0x28 v).here = { s.here with tsave := v } := by
  rw [State.writeCtl_tsave, State.here, State.setTile_cur, State.tile_setTile]

theorem State.str_writeCtl_tsave {v : Word} : (s.writeCtl 0x28 v).str = s.str := by
  rw [State.str, State.here_writeCtl_tsave, State.writeCtl_tsave, State.setTile_cur, State.str]
  cases s.cur.side <;> rfl

theorem State.here_advance : s.advance.here = s.here.setStream s.cur.side s.str.advance := State.tile_setTile ..

/-! ### The deadline status word and validity words -/

theorem State.toNat_dtime : s.dtime.toNat = s.timing.now / 65536 % 2 ^ 64 := BitVec.toNat_ofNat ..

theorem execDlRead_ok {d : SReg} (hg : s.str.holds g = true) :
    execDlRead g d s = Claims.wrote s (s.str.setS d s.deadlineStatus) := by
  refine perform_ok hg ?_
  rw [M.bind_ok (M.get_apply s), M.bind_ok (M.mod_apply _ s), M.next_apply, State.advance_setStr]
  rfl

/-- Outside native code a part that is no device register is written. -/
theorem M.writePart_ok {p : Part} {bs : List Byte} (hd : p.dev = none) (hn : s.str.native = none) :
    M.writePart p bs s = .ok ⟨⟩ (s.writePart p.mask p.va.toNat p.pa bs) := by
  have hr : s.str.region = none := by rw [Stream.region, hn]; rfl
  unfold M.writePart
  rw [M.bind_ok (M.get_apply s)]
  simp only [hd, hr]
  rfl

/-- A store within one page. -/
theorem M.store_onePage {c : Cap} {off va : Word} {bs : List Byte} {align pa : Nat} {s1 : State}
    (ha : Claims.admitted s c .write off bs.length align va) (hroom : bs.length ≤ Claims.room va)
    (hr : Claims.reaches s va .store pa s1) :
    M.store c off bs align s = .ok ⟨⟩ (s1.writePart (c.mask s.str.xm) va.toNat pa bs) := by
  obtain ⟨hn, hcheck, rfl, halign⟩ := ha
  obtain ⟨via, hpart⟩ := M.part_ok (mask := c.mask s.str.xm) (n := bs.length) hr hn
  have hn1 : s1.str.native = none := by
    obtain ⟨so, ht, -⟩ := hr
    exact (translate_sameButMmu ht).str ▸ hn
  refine M.store_ok (M.locate_ok hcheck halign) (s1 := s1)
    (ps := [⟨canonical (c.addr off), pa, bs.length, c.mask s.str.xm, none, via⟩]) ?_ ?_
  · have hsplit : splitPages (canonical (c.addr off)) bs.length = [(canonical (c.addr off), bs.length)] := if_pos hroom
    rw [M.storeParts, M.parts, hsplit, List.mapM_cons, M.bind_ok hpart]
    rfl
  · rw [M.writeParts, M.bind_ok (M.writePart_ok rfl hn1), List.take_length]
    rfl

/-- An aligned store of eight bytes lies in one page. -/
theorem le_room_of_aligned {va : Word} (h : va.toNat % 8 = 0) : 8 ≤ Claims.room va := by
  unfold Claims.room
  omega

/-- A store that one access performs leaves the current stream as it was. -/
theorem State.str_writePart_of_reaches {va : Word} {acc : Access} {pa : Nat} {s1 : State}
    (hr : Claims.reaches s va acc pa s1) (mask : Option Word) (a : Nat) (bs : List Byte) :
    (s1.writePart mask a pa bs).str = s.str := by
  obtain ⟨so, ht, -⟩ := hr
  have hw := s1.writePart_sameTiles mask a pa bs
  rw [State.str, hw.here, hw.cur, ← (translate_sameButMmu ht).str]
  rfl

/-- `vflag.set` stores its word as one access (R223). -/
theorem execVflagSet_ok {a : CapReg} {b : SReg} {t : State} (hg : s.str.holds g = true)
    (hv : (s.str.getS b).extractLsb' 0 2 ≠ (3 : BitVec 2))
    (hstore : Claims.stores s (s.str.getC a) 0 (toBytes 8 (s.str.getS b)) 8 t) :
    execVflagSet g a b s = Claims.wrote t s.str := by
  obtain ⟨va, ha, hpage⟩ := hstore
  have hlen : (toBytes 8 (s.str.getS b)).length = 8 := by simp [toBytes]
  have hroom : 8 ≤ Claims.room va := by
    obtain ⟨-, -, -, halign⟩ := ha
    exact le_room_of_aligned halign
  obtain ⟨hle, pa, s1, hr, rfl⟩ | ⟨hlt, -⟩ := hpage
  · refine perform_ok hg ?_
    rw [M.bind_ok (M.str_apply s)]
    dsimp only
    rw [if_neg hv, M.bind_ok (M.store_onePage ha hle hr), M.next_apply, State.advance,
      State.str_writePart_of_reaches hr]
    rfl
  · omega

/-- A reserved validity state traps (R223). -/
theorem execVflagSet_reserved {a : CapReg} {b : SReg} (hg : s.str.holds g = true) (hu : s.cur.side = .user)
    (hv : (s.str.getS b).extractLsb' 0 2 = (3 : BitVec 2)) :
    execVflagSet g a b s = Claims.trapped s Cause.validityStateReserved 0 := by
  refine perform_trap hg (t := s) ?_ hu
  rw [M.bind_ok (M.str_apply s)]
  dsimp only
  rw [if_pos hv]
  rfl

end

end Sys2Proof.Machine

namespace Sys2Proof.Proofs
open Sys2Proof.Machine

/-- Settles O32, from the checks of a register number, one equation per register, and the store of a validity word. -/
theorem control_registers_and_deadline_words : Obligations.Control_registers_and_deadline_words := by
  unfold Obligations.Control_registers_and_deadline_words
  refine ⟨fun g d n s hg => ?_, fun g d a s t hg => ⟨?_, fun hv hstore => ?_, fun hv hu => ?_⟩⟩
  · have hok (a : Ctl) (h : a.toNat < 9 ∨ 0x10 ≤ a.toNat ∧ a.toNat < 0x20) : M.ctlCheck a s = .ok ⟨⟩ s :=
      M.ctlCheck_ok (by omega) fun _ => by omega
    have hokFw (a : Ctl) (hf : s.cur.side = .firmware) (h : 0x20 ≤ a.toNat) : M.ctlCheck a s = .ok ⟨⟩ s :=
      M.ctlCheck_ok (by omega) fun hu => by rw [hf] at hu; cases hu
    have htoNat (k : Fin 16) : (BitVec.ofNat 6 (16 + k.val)).toNat = 16 + k.val := by
      rw [BitVec.toNat_ofNat]
      omega
    have hmod (k : Fin 16) : (16 + k.val) % 16 = k.val := by omega
    refine ⟨fun hn hu h2 => ?_, ?_, rfl, rfl, rfl, fun k => ?_, ?_, fun k => ?_, fun hf => ⟨?_, ?_⟩,
      fun hu h9 h15 => ?_, fun hu h => ?_, fun hn => ?_⟩
    · exact (execRdc_ok hg (M.ctlCheck_ok hn hu)).trans (by rw [if_neg h2])
    · exact execRdc_ok hg (hok 2 (by decide))
    · rw [State.readCtl_mask (by rw [htoNat]; omega)]
      simp only [htoNat, hmod]
    · rw [← writeFpctl_eq]
      exact execWrc_wrote hg (hok 0 (by decide)) rfl
    · refine execWrc_wrote hg (hok _ (by rw [htoNat]; omega)) ?_
      rw [State.writeCtl_mask (by rw [htoNat]; omega)]
      simp only [htoNat, hmod]
      rfl
    · rw [← writeRoot_eq]
      exact execWrc_wrote hg (hokFw 0x20 hf (by decide)) State.writeCtl_root
    · refine ⟨_, execWrc_ok hg (hokFw 0x28 hf (by decide)), ?_, ?_, ?_⟩
      · rw [State.here_advance, Tile.setStream_tsave, State.here_writeCtl_tsave]
      · rw [State.advance, State.str_setStr, State.str_writeCtl_tsave]
        rfl
      · rfl
    · exact ⟨execRdc_trap hg hu (M.ctlCheck_of_unassigned ⟨h9, h15⟩),
        execWrc_trap hg hu (M.ctlCheck_of_unassigned ⟨h9, h15⟩)⟩
    · exact ⟨execRdc_trap hg hu (M.ctlCheck_of_privileged hu h), execWrc_trap hg hu (M.ctlCheck_of_privileged hu h)⟩
    · have hrange : 2 ≤ n.toNat ∧ n.toNat ≤ 7 := by
        obtain rfl | rfl | rfl | rfl | rfl | rfl := hn <;> decide
      refine execWrc_wrote hg (hok n (by omega)) ?_
      rw [State.writeCtl_readOnly hrange, State.setStr_str]
  · refine (execDlRead_ok hg).trans ?_
    simp only [State.deadlineStatus, remain, State.toNat_dtime, BitVec.ult, decide_eq_true_eq]
    rfl
  · exact execVflagSet_ok hg hv hstore
  · exact execVflagSet_reserved hg hu hv

end Sys2Proof.Proofs
